-- ==== Sys2Proof/Word.lean ====
section
/-!
DEFINITION. The word and byte types of the engine and the plainest arithmetic on them.
-/

namespace Sys2Proof

/-- A 32-bit register value or command word (00_scope.md R7: REG_W, CMD_W). -/
abbrev Word := BitVec 32

/-- One byte of a stream, and one symbol 0..255 of the alphabet (R14). -/
abbrev Byte := BitVec 8

/-- `v[lo + n - 1 : lo]`, the unsigned field of `n` bits from bit `lo` up (R9). -/
abbrev bits {w : Nat} (v : BitVec w) (lo n : Nat) : BitVec n := v.extractLsb' lo n

/-- `zext_n(v)` (R9). -/
abbrev zext {w : Nat} (n : Nat) (v : BitVec w) : BitVec n := v.setWidth n

end Sys2Proof
end

