-- ==== Sys2Proof/Config.lean ====
section
/-!
DEFINITION. The fixed parameters of 00_scope.md R7. The two open parameters of R8, HUFF_BASE and HUFF_INSTANCES,
are arguments of the platform layer (Machine/Platform.lean): no rule of one engine depends on either.
The spec leaves no value of an engine free, so there is no opaque constant here; the failure draws of 20_memory.md
R74 are an input list in State.
-/

namespace Sys2Proof.Config

/-- ALPHABET: 256 symbols. -/
abbrev alphabet : Nat := 256

/-- NODE_CAP: 511 node slots, `2 * ALPHABET - 1`. -/
abbrev nodeCap : Nat := 511

/-- HEAP_CAP: 511 heap slots. -/
abbrev heapCap : Nat := 511

/-- MAX_DEPTH: the deepest leaf of a tree is 255 edges from its root. -/
abbrev maxDepth : Nat := 255

/-- NIL, the child field of a leaf (R15). -/
abbrev nil : BitVec 9 := 0x1FF#9

/-- The sentinel, the symbol field of an internal node (R15). -/
abbrev sentinel : BitVec 9 := 0x100#9

/-- The constant of the ID register (20_memory.md R62). -/
abbrev idValue : Word := 0x48554646#32

/-- The size of the register block in bytes (R61); HUFF_BASE is a multiple of it (R8, R77). -/
abbrev blockBytes : Nat := 256

end Sys2Proof.Config
end

