-- ==== Sys2Proof/Syntax.lean ====
section
/-!
DEFINITION. The 27 commands of 30_encoding.md R94, one constructor per row of spec/opcode_table.json, with the
operands of R93.
-/

namespace Sys2Proof

/-- A command of the engine. `sym` is SYM, `idx` is IDX, `w` is W and `b` is B of R93. -/
inductive Instr where
  | nop
  | reset
  | freqClear
  | freqScan
  | freqSet (sym : Byte)
  | freqGet (sym : Byte)
  | srcRewind
  | heapClear
  | heapInsert (sym : Byte)
  | heapExtract
  | heapMerge
  | heapGet (idx : BitVec 9)
  | nodeGet (idx : BitVec 9)
  | buildTree
  | genCodes
  | codeGet (sym : Byte) (w : BitVec 3)
  | hdrWrite
  | hdrRead
  | bwBit (b : Bool)
  | bwFlush
  | bwSym (sym : Byte)
  | bwClear
  | brClear
  | brBit
  | brSym
  | compress
  | decompress
  deriving DecidableEq, Repr

/-- The five operand formats of 30_encoding.md R92. -/
inductive Format where
  /-- no operand: OPND is 0 -/
  | none
  /-- symbol: [7:0] SYM -/
  | symbol
  /-- index: [8:0] IDX -/
  | index
  /-- code word: [7:0] SYM, [10:8] W -/
  | codeWord
  /-- bit: [0] B -/
  | bit
  deriving DecidableEq, Repr

end Sys2Proof
end

