-- ==== Sys2Proof/WellFormed.lean ====
section
/-!
DEFINITION. Which instruction terms are commands of the hardware: the check of 30_encoding.md R95 that is not
already a width of the term, `IDX != 511` for format I.
-/

namespace Sys2Proof

/-- `IDX != 511` (R95): an index names one of the 511 slots. -/
def indexOk (idx : BitVec 9) : Bool := idx != 0x1FF#9

/-- The instruction is one that some well-formed command word stands for. -/
def Instr.wellFormed (i : Instr) : Bool :=
  match i with
  | .heapGet idx => indexOk idx
  | .nodeGet idx => indexOk idx
  | .nop | .reset | .freqClear | .freqScan | .freqSet _ | .freqGet _ | .srcRewind | .heapClear | .heapInsert _
  | .heapExtract | .heapMerge | .buildTree | .genCodes | .codeGet _ _ | .hdrWrite | .hdrRead | .bwBit _ | .bwFlush
  | .bwSym _ | .bwClear | .brClear | .brBit | .brSym | .compress | .decompress => true

end Sys2Proof
end

