-- ==== Sys2Proof/Decode.lean ====
section
/-!
DEFINITION. From a 32-bit command word to a command (30_encoding.md R90 to R96) and back.
-/

namespace Sys2Proof

/-- Why a word is no command (the three cases of R96, the second one split by field). -/
inductive DecodeError where
  /-- OPC is none of the 27 opcodes of R94 -/
  | unassignedOpcode (opc : BitVec 8)
  /-- a bit of RSV, w[23:16], is set -/
  | reservedBits
  /-- a bit of OPND that the command's format does not name is set -/
  | operandBits
  /-- IDX = 511 in format I -/
  | indexOutOfRange
  deriving DecidableEq, Repr

/-- OPC, w[31:24] (R91). -/
def opcField (w : Word) : BitVec 8 := bits w 24 8

/-- RSV, w[23:16], which must be 0 (R91). -/
def rsvField (w : Word) : BitVec 8 := bits w 16 8

/-- OPND, w[15:0] (R91). -/
def opndField (w : Word) : BitVec 16 := bits w 0 16

/-- `SYM = w[7:0]` (R93). -/
def symField (w : Word) : Byte := bits w 0 8

/-- `IDX = w[8:0]` (R93). -/
def idxField (w : Word) : BitVec 9 := bits w 0 9

/-- `W = w[10:8]` (R93). -/
def codeWordField (w : Word) : BitVec 3 := bits w 8 3

/-- `B = w[0]` (R93). -/
def bitField (w : Word) : Bool := w.getLsbD 0

/-- The format of each opcode (R92, R94); none for the 229 unassigned ones. -/
def formatOf (opc : BitVec 8) : Option Format :=
  match opc.toNat with
  | 0x00 => some .none
  | 0x01 => some .none
  | 0x10 => some .none
  | 0x11 => some .none
  | 0x12 => some .symbol
  | 0x13 => some .symbol
  | 0x14 => some .none
  | 0x20 => some .none
  | 0x21 => some .symbol
  | 0x22 => some .none
  | 0x23 => some .none
  | 0x24 => some .index
  | 0x25 => some .index
  | 0x30 => some .none
  | 0x31 => some .none
  | 0x32 => some .codeWord
  | 0x40 => some .none
  | 0x41 => some .none
  | 0x50 => some .bit
  | 0x51 => some .none
  | 0x52 => some .symbol
  | 0x53 => some .none
  | 0x60 => some .none
  | 0x61 => some .none
  | 0x62 => some .none
  | 0x70 => some .none
  | 0x71 => some .none
  | _ => none

/-- The OPND bits that a format does not name are 0 (R92, R95). -/
def operandBitsOk (f : Format) (w : Word) : Bool :=
  match f with
  | .none => bits w 0 16 == 0#16
  | .symbol => bits w 8 8 == 0#8
  | .index => bits w 9 7 == 0#7
  | .codeWord => bits w 11 5 == 0#5
  | .bit => bits w 1 15 == 0#15

/-- `IDX != 511` where the format is I (R95). -/
def indexFieldOk (f : Format) (w : Word) : Bool :=
  match f with
  | .index => idxField w != 0x1FF#9
  | .none | .symbol | .codeWord | .bit => true

/-- `WellFormed(w)` of R95, field by field. -/
def wellFormedWord (w : Word) : Bool :=
  match formatOf (opcField w) with
  | none => false
  | some f => rsvField w == 0#8 && operandBitsOk f w && indexFieldOk f w

/-- The command of an opcode with the operands of the word (R93, R94); none for an unassigned opcode. -/
def commandOf (w : Word) : Option Instr :=
  match (opcField w).toNat with
  | 0x00 => some .nop
  | 0x01 => some .reset
  | 0x10 => some .freqClear
  | 0x11 => some .freqScan
  | 0x12 => some (.freqSet (symField w))
  | 0x13 => some (.freqGet (symField w))
  | 0x14 => some .srcRewind
  | 0x20 => some .heapClear
  | 0x21 => some (.heapInsert (symField w))
  | 0x22 => some .heapExtract
  | 0x23 => some .heapMerge
  | 0x24 => some (.heapGet (idxField w))
  | 0x25 => some (.nodeGet (idxField w))
  | 0x30 => some .buildTree
  | 0x31 => some .genCodes
  | 0x32 => some (.codeGet (symField w) (codeWordField w))
  | 0x40 => some .hdrWrite
  | 0x41 => some .hdrRead
  | 0x50 => some (.bwBit (bitField w))
  | 0x51 => some .bwFlush
  | 0x52 => some (.bwSym (symField w))
  | 0x53 => some .bwClear
  | 0x60 => some .brClear
  | 0x61 => some .brBit
  | 0x62 => some .brSym
  | 0x70 => some .compress
  | 0x71 => some .decompress
  | _ => none

/-- The decoder: total on every 32-bit word, and a word that is not well formed is rejected by name (R95, R96). -/
def decode (w : Word) : Except DecodeError Instr :=
  match formatOf (opcField w), commandOf w with
  | some f, some i =>
    if rsvField w ≠ 0#8 then .error .reservedBits
    else if operandBitsOk f w = false then .error .operandBits
    else if indexFieldOk f w = false then .error .indexOutOfRange
    else .ok i
  | _, _ => .error (.unassignedOpcode (opcField w))

/-- The assembled word `{OPC, 0x00, OPND}` (R97). -/
def assemble (opc : BitVec 8) (opnd : BitVec 16) : Word := opc ++ 0#8 ++ opnd

/-- The command word of an instruction (R92 to R94). -/
def encode (i : Instr) : Word :=
  match i with
  | .nop => assemble 0x00#8 0#16
  | .reset => assemble 0x01#8 0#16
  | .freqClear => assemble 0x10#8 0#16
  | .freqScan => assemble 0x11#8 0#16
  | .freqSet sym => assemble 0x12#8 (zext 16 sym)
  | .freqGet sym => assemble 0x13#8 (zext 16 sym)
  | .srcRewind => assemble 0x14#8 0#16
  | .heapClear => assemble 0x20#8 0#16
  | .heapInsert sym => assemble 0x21#8 (zext 16 sym)
  | .heapExtract => assemble 0x22#8 0#16
  | .heapMerge => assemble 0x23#8 0#16
  | .heapGet idx => assemble 0x24#8 (zext 16 idx)
  | .nodeGet idx => assemble 0x25#8 (zext 16 idx)
  | .buildTree => assemble 0x30#8 0#16
  | .genCodes => assemble 0x31#8 0#16
  | .codeGet sym w => assemble 0x32#8 (zext 16 (w ++ sym))
  | .hdrWrite => assemble 0x40#8 0#16
  | .hdrRead => assemble 0x41#8 0#16
  | .bwBit b => assemble 0x50#8 (zext 16 (BitVec.ofBool b))
  | .bwFlush => assemble 0x51#8 0#16
  | .bwSym sym => assemble 0x52#8 (zext 16 sym)
  | .bwClear => assemble 0x53#8 0#16
  | .brClear => assemble 0x60#8 0#16
  | .brBit => assemble 0x61#8 0#16
  | .brSym => assemble 0x62#8 0#16
  | .compress => assemble 0x70#8 0#16
  | .decompress => assemble 0x71#8 0#16

/-- The instruction the decoder reads from an opcode-table row's bits: a command is one 32-bit word (R90), so the
bits above `nbits` are 0 and a longer row is none. -/
def decodeTableWord (nbits w : Nat) : Option Instr :=
  if nbits ≤ 32 then
    match decode (BitVec.ofNat 32 (w % 2 ^ nbits)) with
    | .ok i => some i
    | .error _ => none
  else none

end Sys2Proof
end

