-- ==== Sys2Proof/Machine/State.lean ====
section
/-!
DEFINITION. The state of one engine, of its two collaborators and of its host's input and output (10_state.md R20 to
R41), the reset state (R40), and the reasons a step can stop.
-/

namespace Sys2Proof.Machine

/-- A node index 0..510 (00_scope.md R15), 9 bits wide where a register shows it. -/
abbrev NodeIdx := Fin 511

/-- The error kinds of 60_exceptions.md R280, in the order of their codes 1 to 11. -/
inductive ErrKind where
  | emptyInput
  | headerCorrupt
  | queueOverflow
  | sourceRead
  | sinkWrite
  | alphabetOverflow
  | payloadTruncated
  | payloadCorrupt
  | inputTooLong
  | noCode
  | illegalCommand
  deriving DecidableEq, Repr

/-- The symbol field of a node record (R28): a leaf's symbol 0..255 or the sentinel of an internal node. -/
inductive Sym where
  | leaf (s : Byte)
  | sentinel
  deriving DecidableEq, Repr

/-- One node record (R28). A child is a node index, or `none` for NIL = 0x1FF. -/
structure Node where
  sym   : Sym
  freq  : BitVec 40
  left  : Option NodeIdx
  right : Option NodeIdx
  deriving DecidableEq, Repr

/-- The width of one host access (20_memory.md R66). -/
inductive AccessWidth where
  | w8
  | w16
  | w32
  | w64
  deriving DecidableEq, Repr

/-- What the host does to one engine, between commands (10_state.md R20, 20_memory.md R80).
`off` is the byte offset in the 256-byte register block (R61). -/
inductive HostAct where
  /-- MemRead at HUFF_BASE + off (R64) -/
  | read (width : AccessWidth) (off : BitVec 8)
  /-- MemWrite at HUFF_BASE + off (R65); only a 32-bit access has a meaning (R66), so the value is 32 bits -/
  | write (width : AccessWidth) (off : BitVec 8) (value : Word)
  /-- the hardware reset input, which takes effect between two host accesses (70_reset_and_hazards.md R311a) -/
  | hardReset
  /-- the host places SRCSEQ and SPOS (R39, R313, R321) -/
  | placeSource (seq : List Byte) (pos : Nat)
  /-- the host connects a sink that has accepted nothing yet (R313) -/
  | connectSink
  deriving DecidableEq, Repr

/-- The whole state. The first twenty-four fields are the engine's (R22 to R36), then the collaborators' (R39), then the
model's own record of the world outside: the coming failure draws (20_memory.md R74), the host's coming acts (R80) and
the values its reads returned (R64). -/
structure State where
  /-- ARG (R22) -/
  arg        : Word
  /-- RESULT0 (R23) -/
  result0    : Word
  /-- RESULT1 (R23) -/
  result1    : Word
  /-- RESULT2 (R23) -/
  result2    : Word
  /-- ERRCODE (R24): `none` is code 0, no error since reset -/
  errcode    : Option ErrKind
  /-- ERRCMD (R24) -/
  errcmd     : Word
  /-- EMPTY (R25) -/
  empty      : Bool
  /-- EOS (R25) -/
  eos        : Bool
  /-- FREQ[0..255] (R26) -/
  freq       : Vector (BitVec 32) 256
  /-- NODE[0..510] (R28) -/
  node       : Vector Node 511
  /-- NNODES, 0 to 511 (R29) -/
  nnodes     : Fin 512
  /-- HEAP[0..510] (R30) -/
  heap       : Vector NodeIdx 511
  /-- HEAPN, 0 to 511 (R30) -/
  heapn      : Fin 512
  /-- ROOT (R31) -/
  root       : NodeIdx
  /-- ROOT_VALID (R31) -/
  rootValid  : Bool
  /-- CLEN[0..255] (R32) -/
  clen       : Vector (BitVec 8) 256
  /-- CVAL[0..255] (R32) -/
  cval       : Vector (BitVec 255) 256
  /-- CODES_VALID (R32) -/
  codesValid : Bool
  /-- OUTBITS (R33) -/
  outbits    : BitVec 48
  /-- XCNT (R34) -/
  xcnt       : BitVec 40
  /-- WACC (R35) -/
  wacc       : BitVec 8
  /-- WCNT, 0 to 7 (R35) -/
  wcnt       : Fin 8
  /-- RWIN (R36) -/
  rwin       : BitVec 8
  /-- RCNT, 0 to 8 (R36) -/
  rcnt       : Fin 9
  /-- SRCSEQ (R39) -/
  srcseq     : List Byte
  /-- SPOS (R39) -/
  spos       : Nat
  /-- SNKSEQ, in the order accepted (R39) -/
  snkseq     : List Byte
  /-- the outcomes of the coming `fail_draw()` calls (R74); a call beyond the list answers false -/
  draws      : List Bool
  /-- the host's coming acts, in its program order (R80) -/
  pending    : List HostAct
  /-- the values the host's reads returned, oldest first (R64) -/
  answers    : List Word
  deriving DecidableEq, Repr

/-- A record with every field 0 (R28, R40): sym 0 reads as a leaf of symbol 0, and its children are index 0, not NIL. -/
abbrev Node.zero : Node := ⟨.leaf 0#8, 0#40, some 0, some 0⟩

/-- The state right after reset: every engine element at its value in R40. The collaborators' contents and the
world's three lists are not reset by the hardware (R312); here they are empty, as notes/assumptions/4.md says. -/
def State.reset : State where
  arg        := 0#32
  result0    := 0#32
  result1    := 0#32
  result2    := 0#32
  errcode    := none
  errcmd     := 0#32
  empty      := false
  eos        := false
  freq       := Vector.replicate 256 0#32
  node       := Vector.replicate 511 Node.zero
  nnodes     := 0
  heap       := Vector.replicate 511 0
  heapn      := 0
  root       := 0
  rootValid  := false
  clen       := Vector.replicate 256 0#8
  cval       := Vector.replicate 256 0#255
  codesValid := false
  outbits    := 0#48
  xcnt       := 0#40
  wacc       := 0#8
  wcnt       := 0
  rwin       := 0#8
  rcnt       := 0
  srcseq     := []
  spos       := 0
  snkseq     := []
  draws      := []
  pending    := []
  answers    := []

/-- Why the machine stops. None of these is an error of the spec (those are ERRCODE values, and the machine goes on):
each names a point where the spec's pseudocode has no effect to give, because its rules prove that the point is not
reached. All are safe: the model stops where hardware in such a state would do something unstated. -/
inductive Fault where
  /-- Raised by `heapExtract` on HEAPN = 0, which 42_heap.md R153 leaves to its callers ("Callers guarantee
  HEAPN >= 1"). Safe; every caller of the model checks first, so no command raises it. -/
  | heapUnderflow
  /-- Raised by `mergeTwo` where the sum of the two frequencies does not fit the 40 bits of a node frequency. R154
  proves that it fits in every state the commands reach, and 00_scope.md R10 allows no silent wrap. Safe. -/
  | freqOverflow
  /-- Raised by `genCodes` where the walk goes below depth 255 (43_tree_codes.md R186c excludes it: a longer path
  has no 8-bit length, and a cyclic one does not end). Safe. -/
  | walkTooDeep
  /-- Raised by `genCodes` and `decodeSym` where an internal node has a NIL child, which 10_state.md R37(d)
  excludes. Safe. -/
  | nilChild
  /-- Raised by `putBit` and `flushBits` where the byte does not fit 8 bits, which 10_state.md R35's
  `WACC < 2^WCNT` excludes. Safe. -/
  | writerOverflow
  deriving DecidableEq, Repr

/-- Why the model gives no step. -/
inductive Refusal where
  /-- Raised by an arm of `exec` whose instruction has no meaning yet. Safe. -/
  | notModelled (mnemonic : String)
  /-- Raised by a host access that is not 32 bits wide or not at a multiple of 4: 20_memory.md R66 "A model refuses
  such an access and gives it no step". Safe. -/
  | undefinedAccess
  /-- Raised by a host that places the source with SPOS > |SRCSEQ|, which 10_state.md R39 excludes. Safe. -/
  | sourceOutOfRange
  /-- Raised by the platform layer for an address in no engine's register block: not an access of any engine. Safe. -/
  | noEngine
  deriving DecidableEq, Repr

end Sys2Proof.Machine
end

