-- ==== Sys2Proof/Machine/Flags.lean ====
section
/-!
DEFINITION. The status bits (10_state.md R24, R25, R31, R32, R41): the error codes, what clears and sets each flag,
and the STATUS and TREEINFO words' bits.
-/

namespace Sys2Proof.Machine

/-- The code of an error kind (60_exceptions.md R280). -/
def errKindCode (e : ErrKind) : BitVec 4 :=
  match e with
  | .emptyInput => 1#4
  | .headerCorrupt => 2#4
  | .queueOverflow => 3#4
  | .sourceRead => 4#4
  | .sinkWrite => 5#4
  | .alphabetOverflow => 6#4
  | .payloadTruncated => 7#4
  | .payloadCorrupt => 8#4
  | .inputTooLong => 9#4
  | .noCode => 10#4
  | .illegalCommand => 11#4

/-- The 4 bits of ERRCODE: 0 while no error is recorded (R24, R280). -/
def errcodeBits (e : Option ErrKind) : BitVec 4 :=
  match e with
  | none => 0#4
  | some k => errKindCode k

/-- `EMPTY <- 0; EOS <- 0`, the start of every executed command (40_control.md R121). -/
def clearFlags (s : State) : State := { s with empty := false, eos := false }

/-- `EMPTY <- 1`: the heap holds too few nodes (R25, 42_heap.md R158, R159). -/
def setEmpty (s : State) : State := { s with empty := true }

/-- `EOS <- 1`: the source ended at a symbol boundary (R25, 46_bitreader.md R242, R243). -/
def setEos (s : State) : State := { s with eos := true }

/-- `InvalidateTree()` (43_tree_codes.md R183). -/
def invalidateTree (s : State) : State := { s with rootValid := false, codesValid := false }

/-- STATUS (20_memory.md R62): [3:0] ERRCODE, [8] EMPTY, [9] EOS. -/
def statusWord (s : State) : Word :=
  0#22 ++ BitVec.ofBool s.eos ++ BitVec.ofBool s.empty ++ 0#4 ++ errcodeBits s.errcode

end Sys2Proof.Machine
end

