-- ==== Sys2Proof/Machine/Ops.lean ====
section
/-!
DEFINITION. The operations every command is written from: the outcome of a primitive, the entry into the error state
and the return from it (60_exceptions.md R282, R287), the command template (40_control.md R120), the tables indexed by
a symbol, the derived values (10_state.md R27), and the collaborators' ports (20_memory.md R71 to R74).
-/

namespace Sys2Proof.Machine

/-- How a primitive of the pseudocode ends: it returns a value, it raises an error (00_scope.md R12: writes made
before the raise stand, so the state is kept), or it stands at a point the spec gives no effect (`Fault`). -/
inductive Run (α : Type) where
  | done (a : α) (s : State)
  | raised (e : ErrKind) (s : State)
  | stopped (f : Fault)
  deriving DecidableEq, Repr

/-- The next statement runs only if the one before it returned (00_scope.md R11, 60_exceptions.md R282). -/
def Run.bind {α β : Type} (r : Run α) (k : α → State → Run β) : Run β :=
  match r with
  | .done a s => k a s
  | .raised e s => .raised e s
  | .stopped f => .stopped f

/-! ### Error entry and return -/

/-- `raise E` inside the command whose word is `cur` (60_exceptions.md R282): ERRCODE and ERRCMD are written and
nothing else. Ending the command is `Run.raised` not running its continuation. -/
def enterError (cur : Word) (e : ErrKind) (s : State) : State :=
  { s with errcode := some e, errcmd := cur }

/-- `DoReset()` (40_control.md R124, 70_reset_and_hazards.md R310): every engine element to its reset value; the
collaborators are untouched (R312). The only return from the error state (60_exceptions.md R287). -/
def doReset (s : State) : State :=
  { State.reset with
    srcseq := s.srcseq, spos := s.spos, snkseq := s.snkseq
    draws := s.draws, pending := s.pending, answers := s.answers }

/-- `ExecuteCommand` around the rule `body` of the command word `cur` (40_control.md R120): ignored in the error
state (60_exceptions.md R283), else EMPTY and EOS are cleared (R121) and the body runs to its end or its first
raise. -/
def runCommand (cur : Word) (body : State → Run Unit) (s : State) : Host.Outcome State Fault Refusal :=
  if s.errcode = none then
    match body (clearFlags s) with
    | .done _ t => .next t
    | .raised e t => .next (enterError cur e t)
    | .stopped f => .fault f
  else .next s

/-! ### Tables indexed by a symbol -/

/-- `A[s]` for a 256-entry table. -/
def atSym {α : Type} (t : Vector α 256) (s : Byte) : α := t[s.toNat]'s.isLt

/-- `A[s] <- v` for a 256-entry table. -/
def setSym {α : Type} (t : Vector α 256) (s : Byte) (v : α) : Vector α 256 := t.set s.toNat v s.isLt

/-- `0..255 ascending` (00_scope.md R11). -/
def allSymbols : List Byte := (List.range 256).map (BitVec.ofNat 8)

/-- `for s in 0..255 ascending: FREQ[s] <- 0`. -/
def clearFreq (s : State) : State := { s with freq := Vector.replicate 256 0#32 }

/-- `FREQ[b] <- f`. -/
def setFreq (b : Byte) (f : BitVec 32) (s : State) : State := { s with freq := setSym s.freq b f }

/-! ### Derived values (10_state.md R27) -/

/-- TOTAL, the sum of FREQ. -/
def total (s : State) : Nat := (s.freq.toList.map BitVec.toNat).sum

/-- NDIST, the number of symbols with a nonzero count. -/
def ndist (s : State) : Nat := s.freq.toList.countP (fun f => f != 0#32)

/-- INBITS, 8 * TOTAL. -/
def inbits (s : State) : Nat := 8 * total s

/-- The symbols with FREQ[s] != 0 in ascending order, each with its count: what a loop
`for s in 0..255 ascending: if FREQ[s] != 0: ...` runs its body for (43_tree_codes.md R180, 44_header.md R200). No body
of such a loop writes FREQ. -/
def present (s : State) : List (Byte × BitVec 32) :=
  (allSymbols.zip s.freq.toList).filter (fun p => p.2 != 0#32)

/-! ### The collaborators' ports -/

/-- `fail_draw()` (20_memory.md R74): the next of the coming draws. -/
def failDraw (s : State) : Bool × State :=
  match s.draws with
  | [] => (false, s)
  | d :: ds => (d, { s with draws := ds })

/-- The answer of `SourceRead()` (00_scope.md R12). -/
inductive ReadAnswer where
  | byte (b : Byte)
  | eos
  | fail
  deriving DecidableEq, Repr

/-- `SourceRead()` (20_memory.md R71). A position at or past the end of SRCSEQ is the end of the stream. -/
def sourceRead (s : State) : ReadAnswer × State :=
  match failDraw s with
  | (true, s) => (.fail, s)
  | (false, s) =>
    match s.srcseq[s.spos]? with
    | none => (.eos, s)
    | some b => (.byte b, { s with spos := s.spos + 1 })

/-- `if SourceRewind() == FAIL: raise SourceReadError` (20_memory.md R72). -/
def sourceRewind (s : State) : Run Unit :=
  match failDraw s with
  | (true, s) => .raised .sourceRead s
  | (false, s) => .done () { s with spos := 0 }

/-- `if SinkWrite(b) == FAIL: raise SinkWriteError` (20_memory.md R73), which is also `Put` of 44_header.md R200. -/
def sinkWrite (b : Byte) (s : State) : Run Unit :=
  match failDraw s with
  | (true, s) => .raised .sinkWrite s
  | (false, s) => .done () { s with snkseq := s.snkseq ++ [b] }

/-- The bytes of the source not yet read. -/
def sourceLeft (s : State) : Nat := s.srcseq.length - s.spos

/-! ### Small writes named by the rules -/

/-- `ClearReader()` (46_bitreader.md R240). -/
def clearReader (s : State) : State := { s with rwin := 0#8, rcnt := 0 }

/-- `WACC <- 0; WCNT <- 0` (45_bitwriter.md R226). -/
def clearWriter (s : State) : State := { s with wacc := 0#8, wcnt := 0 }

/-- `XCNT <- (XCNT + 1) mod 2^40` (10_state.md R34). -/
def countSymbol (s : State) : State := { s with xcnt := s.xcnt + 1#40 }

/-- `XCNT <- 0`. -/
def clearCount (s : State) : State := { s with xcnt := 0#40 }

end Sys2Proof.Machine
end

