-- ==== Sys2Proof/Machine/Operands.lean ====
section
/-!
DEFINITION. The operands a command takes beyond its word's fields (30_encoding.md R93) and the result words it returns
(R99, 43_tree_codes.md R185).
-/

namespace Sys2Proof.Machine

/-- `zext_40(ARG)`, the frequency operand of HEAP_INSERT (R93). -/
def argFreq (s : State) : BitVec 40 := zext 40 s.arg

/-- The slot an IDX operand names, none for 511 (R93, R95). -/
def slotOf (idx : BitVec 9) : Option NodeIdx :=
  if h : idx.toNat < 511 then some ⟨idx.toNat, h⟩ else none

/-- The 9 bits of a symbol field: 0..255, or the sentinel 0x100 (10_state.md R28). -/
def symBits (y : Sym) : BitVec 9 :=
  match y with
  | .leaf b => zext 9 b
  | .sentinel => Config.sentinel

/-- The 9 bits of a node index. -/
def idxBits (n : NodeIdx) : BitVec 9 := BitVec.ofNat 9 n.val

/-- The 9 bits of a child field: an index, or NIL = 0x1FF (10_state.md R28). -/
def childBits (c : Option NodeIdx) : BitVec 9 :=
  match c with
  | none => Config.nil
  | some n => idxBits n

/-- `RESULT0 <- v`. -/
def setResult0 (v : Word) (s : State) : State := { s with result0 := v }

/-- `RESULT0 <- v0; RESULT1 <- v1; RESULT2 <- v2`. -/
def setResults (v0 v1 v2 : Word) (s : State) : State := { s with result0 := v0, result1 := v1, result2 := v2 }

/-- RESULT0 of the node record: [24:16] sym, [8:0] index (R99). -/
def recordWord0 (n : NodeIdx) (d : Node) : Word := 0#7 ++ symBits d.sym ++ 0#7 ++ idxBits n

/-- RESULT1 of the node record: freq[31:0] (R99). -/
def recordWord1 (d : Node) : Word := bits d.freq 0 32

/-- RESULT2 of the node record: [25:17] right, [16:8] left, [7:0] freq[39:32] (R99). -/
def recordWord2 (d : Node) : Word := 0#6 ++ childBits d.right ++ childBits d.left ++ bits d.freq 32 8

/-- `NodeRecord(n)` (R99). -/
def nodeRecord (n : NodeIdx) (s : State) : State :=
  let d := s.node[n]
  setResults (recordWord0 n d) (recordWord1 d) (recordWord2 d) s

/-- Bits [32*W + 31 : 32*W] of `zext_256(CVAL[SYM])` (43_tree_codes.md R185). -/
def codeValueWord (v : BitVec 255) (w : BitVec 3) : Word := bits (zext 256 v) (32 * w.toNat) 32

end Sys2Proof.Machine
end

