-- ==== Sys2Proof/Machine/BitReader.lean ====
section
/-!
DEFINITION. The bit-stream reader and the tree-walk decoder (46_bitreader.md): GetBit, DecodeSym and the commands
BR_CLEAR, BR_BIT, BR_SYM.
-/

namespace Sys2Proof.Machine

/-- `RCNT <- RCNT - 1; return RWIN[RCNT]` of a window with `r + 1` unread bits (46_bitreader.md R241). -/
def takeBit (r : Nat) (h : r + 1 < 9) (s : State) : Run (Option Bool) :=
  .done (some (s.rwin.getLsbD r)) { s with rcnt := ⟨r, by omega⟩ }

/-- `GetBit()` (46_bitreader.md R241); `none` is EOS. -/
def getBit (s : State) : Run (Option Bool) :=
  match s.rcnt with
  | ⟨r + 1, h⟩ => takeBit r h s
  | ⟨0, _⟩ =>
    match sourceRead s with
    | (.fail, s) => .raised .sourceRead s
    | (.eos, s) => .done none s
    | (.byte b, s) => takeBit 7 (by omega) { s with rwin := b }

/-- The bits the reader can still return: those of the window and of the bytes left. -/
def bitsLeft (s : State) : Nat := s.rcnt.val + 8 * sourceLeft s

/-- `while IsInternal(n)` of `DecodeSym` (46_bitreader.md R244), with `first` true before the first bit of the code.
The first argument bounds the bits read; `decodeSym` gives one more than the bits left, and with these the walk has met
a leaf, EOS or a FAIL. -/
def decodeLoop : Nat → NodeIdx → Bool → State → Run (Option Byte)
  | 0, _, _, s => .done none s
  | k + 1, n, first, s =>
    match s.node[n].sym with
    | .leaf b => .done (some b) s
    | .sentinel =>
      (getBit s).bind fun b s =>
      match b with
      | none => if first then .done none s else .raised .payloadTruncated s
      | some false =>
        match s.node[n].left with
        | some l => decodeLoop k l false s
        | none => .stopped .nilChild
      | some true =>
        match s.node[n].right with
        | some r => decodeLoop k r false s
        | none => .stopped .nilChild

/-- `DecodeSym()` (46_bitreader.md R244), for ROOT_VALID = 1; `none` is EOS at a symbol boundary. -/
def decodeSym (s : State) : Run (Option Byte) :=
  match s.node[s.root].sym with
  | .leaf y =>
    (getBit s).bind fun b s =>
    match b with
    | none => .done none s
    | some true => .raised .payloadCorrupt s
    | some false => .done (some y) s
  | .sentinel => decodeLoop (bitsLeft s + 1) s.root true s

/-- BR_CLEAR (46_bitreader.md R245). -/
def execBrClear (s : State) : Host.Outcome State Fault Refusal :=
  runCommand (encode .brClear) (fun s => .done () (clearReader s)) s

/-- BR_BIT (46_bitreader.md R242). -/
def execBrBit (s : State) : Host.Outcome State Fault Refusal :=
  runCommand (encode .brBit) (fun s =>
    (getBit s).bind fun b s =>
    match b with
    | none => .done () (setEos s)
    | some b => .done () (setResult0 (zext 32 (BitVec.ofBool b)) s)) s

/-- BR_SYM (46_bitreader.md R243). -/
def execBrSym (s : State) : Host.Outcome State Fault Refusal :=
  runCommand (encode .brSym) (fun s =>
    if s.rootValid = false then .raised .illegalCommand s
    else
      (decodeSym s).bind fun r s =>
      match r with
      | none => .done () (setEos s)
      | some y => .done () (countSymbol (setResult0 (zext 32 y) s))) s

end Sys2Proof.Machine
end

