-- ==== Sys2Proof/Machine/BitWriter.lean ====
section
/-!
DEFINITION. The bit-stream writer (45_bitwriter.md): PutBit, FlushBits, PutCode and the commands BW_BIT, BW_FLUSH,
BW_SYM, BW_CLEAR.
-/

namespace Sys2Proof.Machine

/-- `PutBit(b)` (45_bitwriter.md R220): the buffer is cleared before the sink write of a full byte. -/
def putBit (b : Bool) (s : State) : Run Unit :=
  let acc := s.wacc.toNat * 2 + b.toNat
  if acc < 256 then
    if h : s.wcnt.val + 1 < 8 then
      .done () { s with wacc := BitVec.ofNat 8 acc, wcnt := ⟨s.wcnt.val + 1, h⟩ }
    else sinkWrite (BitVec.ofNat 8 acc) (clearWriter s)
  else .stopped .writerOverflow

/-- `FlushBits()` (45_bitwriter.md R221): nothing is emitted with no bit pending. -/
def flushBits (s : State) : Run Unit :=
  if s.wcnt.val = 0 then .done () s
  else
    let byte := s.wacc.toNat * 2 ^ (8 - s.wcnt.val)
    if byte < 256 then sinkWrite (BitVec.ofNat 8 byte) (clearWriter s)
    else .stopped .writerOverflow

/-- `while j > 0: j <- j - 1; PutBit(v[j])`, the low `j` bits of a code, most significant first (45_bitwriter.md
R222, 30_encoding.md R104). -/
def putBits (v : BitVec 255) : Nat → State → Run Unit
  | 0, s => .done () s
  | j + 1, s => (putBit (v.getLsbD j) s).bind fun _ s => putBits v j s

/-- `PutCode(s)` (45_bitwriter.md R222). -/
def putCode (sym : Byte) (s : State) : Run Unit :=
  putBits (atSym s.cval sym) (atSym s.clen sym).toNat s

/-- BW_BIT b (45_bitwriter.md R223). -/
def execBwBit (b : Bool) (s : State) : Host.Outcome State Fault Refusal :=
  runCommand (encode (.bwBit b)) (putBit b) s

/-- BW_FLUSH (45_bitwriter.md R224). -/
def execBwFlush (s : State) : Host.Outcome State Fault Refusal :=
  runCommand (encode .bwFlush) flushBits s

/-- BW_SYM sym (45_bitwriter.md R225): a missing code table comes before a missing code (60_exceptions.md R285). -/
def execBwSym (sym : Byte) (s : State) : Host.Outcome State Fault Refusal :=
  runCommand (encode (.bwSym sym)) (fun s =>
    if s.codesValid = false then .raised .illegalCommand s
    else if atSym s.clen sym = 0#8 then .raised .noCode s
    else (putCode sym s).bind fun _ s => .done () (countSymbol s)) s

/-- BW_CLEAR (45_bitwriter.md R226). -/
def execBwClear (s : State) : Host.Outcome State Fault Refusal :=
  runCommand (encode .bwClear) (fun s => .done () (clearWriter s)) s

end Sys2Proof.Machine
end

