-- ==== Sys2Proof/Machine/Control.lean ====
section
/-!
DEFINITION. The control commands NOP and RESET (40_control.md).
-/

namespace Sys2Proof.Machine

/-- NOP (40_control.md R123): nothing beyond the flag clearing of R121; ignored in the error state. -/
def execNop (s : State) : Host.Outcome State Fault Refusal :=
  runCommand (encode .nop) (fun s => .done () s) s

/-- RESET (40_control.md R124): `DoReset()`, in the error state too (R120); clearing EMPTY and EOS first (R121)
leaves no trace, since both are reset. -/
def execReset (s : State) : Host.Outcome State Fault Refusal :=
  .next (doReset s)

end Sys2Proof.Machine
end

