-- ==== Sys2Proof/Machine/Freq.lean ====
section
/-!
DEFINITION. The frequency table commands (41_frequency.md): FREQ_CLEAR, FREQ_SCAN, FREQ_SET, FREQ_GET, SRC_REWIND.
-/

namespace Sys2Proof.Machine

/-- The loop of `ScanFreq` (41_frequency.md R131). The first argument bounds the source reads; `scanFreq` gives one
more than the bytes left, and with these the loop has met EOS, a FAIL or a full count. -/
def scanLoop : Nat → State → Run Unit
  | 0, s => .done () s
  | k + 1, s =>
    match sourceRead s with
    | (.fail, s) => .raised .sourceRead s
    | (.eos, s) => .done () s
    | (.byte b, s) =>
      if atSym s.freq b = 0xFFFFFFFF#32 then .raised .inputTooLong s
      else scanLoop k (setFreq b (atSym s.freq b + 1#32) s)

/-- `ScanFreq()` (41_frequency.md R131). -/
def scanFreq (s : State) : Run Unit :=
  scanLoop (sourceLeft s + 1) (invalidateTree (clearFreq s))

/-- FREQ_CLEAR (41_frequency.md R130). -/
def execFreqClear (s : State) : Host.Outcome State Fault Refusal :=
  runCommand (encode .freqClear) (fun s => .done () (invalidateTree (clearFreq s))) s

/-- FREQ_SCAN (41_frequency.md R132). -/
def execFreqScan (s : State) : Host.Outcome State Fault Refusal :=
  runCommand (encode .freqScan) (fun s => scanFreq (clearReader s)) s

/-- FREQ_SET sym (41_frequency.md R134). -/
def execFreqSet (sym : Byte) (s : State) : Host.Outcome State Fault Refusal :=
  runCommand (encode (.freqSet sym)) (fun s => .done () (invalidateTree (setFreq sym s.arg s))) s

/-- FREQ_GET sym (41_frequency.md R133). -/
def execFreqGet (sym : Byte) (s : State) : Host.Outcome State Fault Refusal :=
  runCommand (encode (.freqGet sym)) (fun s => .done () (setResult0 (atSym s.freq sym) s)) s

/-- SRC_REWIND (41_frequency.md R135): the window is cleared even where the rewind fails. -/
def execSrcRewind (s : State) : Host.Outcome State Fault Refusal :=
  runCommand (encode .srcRewind) (fun s => sourceRewind (clearReader s)) s

end Sys2Proof.Machine
end

