-- ==== Sys2Proof/Machine/Header.lean ====
section
/-!
DEFINITION. The header serializer and deserializer (44_header.md): WriteHeader, ReadHeader, HDR_WRITE, HDR_READ, and
the little-endian byte order of the 4-byte frequency (30_encoding.md R101).
-/

namespace Sys2Proof.Machine

/-- `Put` of each byte in turn (44_header.md R200). -/
def putBytes : List Byte → State → Run Unit
  | [], s => .done () s
  | b :: bs, s => (sinkWrite b s).bind fun _ s => putBytes bs s

/-- The four bytes of a frequency, least significant first (30_encoding.md R101). -/
def freqBytes (f : BitVec 32) : List Byte := [bits f 0 8, bits f 8 8, bits f 16 8, bits f 24 8]

/-- `{f3, f2, f1, f0}` (44_header.md R202). -/
def freqOfBytes (f0 f1 f2 f3 : Byte) : BitVec 32 := f3 ++ f2 ++ f1 ++ f0

/-- The five bytes of one pair: the symbol and its frequency (30_encoding.md R101). -/
def pairBytes (p : Byte × BitVec 32) : List Byte := p.1 :: freqBytes p.2

/-- The pairs of the list, one after the other (44_header.md R200). -/
def putPairs : List (Byte × BitVec 32) → State → Run Unit
  | [], s => .done () s
  | p :: ps, s => (putBytes (pairBytes p) s).bind fun _ s => putPairs ps s

/-- `WriteHeader()` (44_header.md R200): ascending symbol order. -/
def writeHeader (s : State) : Run Unit :=
  if ndist s = 0 then .raised .emptyInput s
  else if ndist s = 256 then .raised .alphabetOverflow s
  else (sinkWrite (BitVec.ofNat 8 (ndist s)) s).bind fun _ s => putPairs (present s) s

/-- `Get()` of 44_header.md R202. -/
def getByte (s : State) : Run Byte :=
  match sourceRead s with
  | (.fail, s) => .raised .sourceRead s
  | (.eos, s) => .raised .headerCorrupt s
  | (.byte b, s) => .done b s

/-- `repeat c times` of `ReadHeader` (44_header.md R202): the five bytes of a pair are read before it is checked, and
a zero frequency is checked before a repeated symbol. -/
def readPairs : Nat → State → Run Unit
  | 0, s => .done () s
  | c + 1, s =>
    (getByte s).bind fun b s =>
    (getByte s).bind fun f0 s =>
    (getByte s).bind fun f1 s =>
    (getByte s).bind fun f2 s =>
    (getByte s).bind fun f3 s =>
    let f := freqOfBytes f0 f1 f2 f3
    if f = 0#32 then .raised .headerCorrupt s
    else if atSym s.freq b ≠ 0#32 then .raised .headerCorrupt s
    else readPairs c (setFreq b f s)

/-- `ReadHeader()` (44_header.md R202). -/
def readHeader (s : State) : Run Unit :=
  (getByte (invalidateTree (clearFreq s))).bind fun c s =>
  if c = 0#8 then .raised .emptyInput s else readPairs c.toNat s

/-- HDR_WRITE (44_header.md R201): the bit writer is left alone. -/
def execHdrWrite (s : State) : Host.Outcome State Fault Refusal :=
  runCommand (encode .hdrWrite) writeHeader s

/-- HDR_READ (44_header.md R203). -/
def execHdrRead (s : State) : Host.Outcome State Fault Refusal :=
  runCommand (encode .hdrRead) (fun s => readHeader (clearReader s)) s

end Sys2Proof.Machine
end

