-- ==== Sys2Proof/Machine/Heap.lean ====
section
/-!
DEFINITION. Node memory and the priority-queue heap (42_heap.md): the primitives Less, NewNode, HeapInsert,
HeapExtract, MergeTwo and the commands HEAP_CLEAR, HEAP_INSERT, HEAP_EXTRACT, HEAP_MERGE, HEAP_GET, NODE_GET.
-/

namespace Sys2Proof.Machine

/-- `Less(a, b)` (42_heap.md R150): by frequency, then by creation order. -/
def less (s : State) (a b : NodeIdx) : Bool :=
  decide (s.node[a].freq < s.node[b].freq) || (s.node[a].freq == s.node[b].freq && decide (a < b))

/-- A leaf record: both children NIL (42_heap.md R151). -/
def leafNode (sym : Byte) (freq : BitVec 40) : Node := ⟨.leaf sym, freq, none, none⟩

/-- An internal record: the sentinel and two children (42_heap.md R151). -/
def innerNode (freq : BitVec 40) (left right : NodeIdx) : Node := ⟨.sentinel, freq, some left, some right⟩

/-- `NewNode` (42_heap.md R151): slot NNODES is written and NNODES goes up by one. -/
def newNode (d : Node) (s : State) : Run NodeIdx :=
  if h : s.nnodes.val < 511 then
    .done ⟨s.nnodes.val, h⟩
      { s with node := s.node.set s.nnodes.val d h, nnodes := ⟨s.nnodes.val + 1, by omega⟩ }
  else .raised .queueOverflow s

/-- `swap HEAP[i], HEAP[j]`. -/
def heapSwap (i j : NodeIdx) (s : State) : State :=
  { s with heap := (s.heap.set i s.heap[j]).set j s.heap[i] }

/-- `(i - 1) div 2`, the parent position (42_heap.md R152). -/
def parentPos (i : NodeIdx) : NodeIdx := ⟨(i.val - 1) / 2, by omega⟩

/-- The loop `while i > 0` of `HeapInsert` (42_heap.md R152). The first argument bounds the swaps; `i` is enough,
since each swap moves to a smaller position. -/
def siftUp : Nat → NodeIdx → State → State
  | 0, _, s => s
  | k + 1, i, s =>
    if i.val = 0 then s
    else if less s s.heap[i] s.heap[parentPos i] then siftUp k (parentPos i) (heapSwap i (parentPos i) s)
    else s

/-- `HeapInsert(n)` (42_heap.md R152). -/
def heapInsert (n : NodeIdx) (s : State) : Run Unit :=
  if h : s.heapn.val < 511 then
    .done () (siftUp s.heapn.val ⟨s.heapn.val, h⟩
      { s with heap := s.heap.set s.heapn.val n h, heapn := ⟨s.heapn.val + 1, by omega⟩ })
  else .raised .queueOverflow s

/-- `if c < HEAPN and Less(HEAP[c], HEAP[m]): m <- c` (42_heap.md R153). -/
def smallerPos (s : State) (c : Nat) (m : NodeIdx) : NodeIdx :=
  if h : c < s.heapn.val then
    if less s (s.heap[c]'(by omega)) s.heap[m] then ⟨c, by omega⟩ else m
  else m

/-- The least of position `i` and its two children (42_heap.md R153). -/
def leastPos (s : State) (i : NodeIdx) : NodeIdx :=
  smallerPos s (2 * i.val + 2) (smallerPos s (2 * i.val + 1) i)

/-- The loop of `HeapExtract` (42_heap.md R153). The first argument bounds the swaps; HEAPN is enough, since each
swap moves to a larger position and a position at or past HEAPN has no child. -/
def siftDown : Nat → NodeIdx → State → State
  | 0, _, s => s
  | k + 1, i, s =>
    if leastPos s i = i then s
    else siftDown k (leastPos s i) (heapSwap i (leastPos s i) s)

/-- `HeapExtract()` (42_heap.md R153), for HEAPN >= 1. With `last` the shrunk HEAPN, the value returned is
HEAP[HEAPN], the old root left in the slot just past the heap. -/
def heapExtract (s : State) : Run NodeIdx :=
  if h : s.heapn.val = 0 then .stopped .heapUnderflow
  else
    let last : NodeIdx := ⟨s.heapn.val - 1, by omega⟩
    let t := siftDown last.val 0 { heapSwap 0 last s with heapn := ⟨last.val, by omega⟩ }
    .done t.heap[last] t

/-- The node `MergeTwo` creates over `a` and `b` (42_heap.md R154). The sum is exact (00_scope.md R10). -/
def mergeNode (a b : NodeIdx) (s : State) : Run NodeIdx :=
  let sum := s.node[a].freq.toNat + s.node[b].freq.toNat
  if sum < 2 ^ 40 then newNode (innerNode (BitVec.ofNat 40 sum) a b) s
  else .stopped .freqOverflow

/-- `MergeTwo()` (42_heap.md R154), for HEAPN >= 2: left is the first extracted, right the second. -/
def mergeTwo (s : State) : Run NodeIdx :=
  (heapExtract s).bind fun a s =>
  (heapExtract s).bind fun b s =>
  (mergeNode a b s).bind fun n s =>
  (heapInsert n s).bind fun _ s =>
  .done n s

/-- `HEAPN <- 0; NNODES <- 0` (42_heap.md R156, 43_tree_codes.md R180); the arrays keep their contents. -/
def clearHeap (s : State) : State := { s with heapn := 0, nnodes := 0 }

/-- HEAP_CLEAR (42_heap.md R156). -/
def execHeapClear (s : State) : Host.Outcome State Fault Refusal :=
  runCommand (encode .heapClear) (fun s => .done () (clearHeap (invalidateTree s))) s

/-- HEAP_INSERT sym (42_heap.md R157). -/
def execHeapInsert (sym : Byte) (s : State) : Host.Outcome State Fault Refusal :=
  runCommand (encode (.heapInsert sym)) (fun s =>
    (newNode (leafNode sym (argFreq s)) (invalidateTree s)).bind fun n s =>
    (heapInsert n s).bind fun _ s =>
    .done () (nodeRecord n s)) s

/-- HEAP_EXTRACT (42_heap.md R158): an empty heap sets EMPTY and changes nothing else. -/
def execHeapExtract (s : State) : Host.Outcome State Fault Refusal :=
  runCommand (encode .heapExtract) (fun s =>
    let s := invalidateTree s
    if s.heapn.val = 0 then .done () (setEmpty s)
    else (heapExtract s).bind fun n s => .done () (nodeRecord n s)) s

/-- HEAP_MERGE (42_heap.md R159): the capacity is checked before anything is extracted. -/
def execHeapMerge (s : State) : Host.Outcome State Fault Refusal :=
  runCommand (encode .heapMerge) (fun s =>
    let s := invalidateTree s
    if s.heapn.val < 2 then .done () (setEmpty s)
    else if s.nnodes.val = 511 then .raised .queueOverflow s
    else (mergeTwo s).bind fun n s => .done () (nodeRecord n s)) s

/-- HEAP_GET idx (42_heap.md R160); IDX 511 is an illegal command (30_encoding.md R96). -/
def execHeapGet (idx : BitVec 9) (s : State) : Host.Outcome State Fault Refusal :=
  runCommand (encode (.heapGet idx)) (fun s =>
    match slotOf idx with
    | some i => .done () (setResult0 (zext 32 (idxBits s.heap[i])) s)
    | none => .raised .illegalCommand s) s

/-- NODE_GET idx (42_heap.md R161); IDX 511 is an illegal command (30_encoding.md R96). -/
def execNodeGet (idx : BitVec 9) (s : State) : Host.Outcome State Fault Refusal :=
  runCommand (encode (.nodeGet idx)) (fun s =>
    match slotOf idx with
    | some i => .done () (nodeRecord i s)
    | none => .raised .illegalCommand s) s

end Sys2Proof.Machine
end

