-- ==== Sys2Proof/Machine/Tree.lean ====
section
/-!
DEFINITION. The tree builder and the code table generator (43_tree_codes.md): BuildTree, GenCodes and the commands
BUILD_TREE, GEN_CODES, CODE_GET.
-/

namespace Sys2Proof.Machine

/-- `n <- NewNode(s, zext_40(FREQ[s]), NIL, NIL); HeapInsert(n)` for each symbol and count of the list
(43_tree_codes.md R180). -/
def insertLeaves : List (Byte × BitVec 32) → State → Run Unit
  | [], s => .done () s
  | (b, f) :: ps, s =>
    (newNode (leafNode b (zext 40 f)) s).bind fun n s =>
    (heapInsert n s).bind fun _ s =>
    insertLeaves ps s

/-- `while HEAPN > 1: MergeTwo()` (43_tree_codes.md R180). The first argument bounds the merges; HEAPN is enough,
since each merge takes two nodes and queues one. -/
def mergeLoop : Nat → State → Run Unit
  | 0, s => .done () s
  | k + 1, s =>
    if 1 < s.heapn.val then (mergeTwo s).bind fun _ s => mergeLoop k s
    else .done () s

/-- `ROOT <- n; ROOT_VALID <- 1`. -/
def setRoot (n : NodeIdx) (s : State) : State := { s with root := n, rootValid := true }

/-- `BuildTree()` (43_tree_codes.md R180). -/
def buildTree (s : State) : Run Unit :=
  let s := clearHeap (invalidateTree s)
  if ndist s = 0 then .raised .emptyInput s
  else
    (insertLeaves (present s) s).bind fun _ s =>
    (mergeLoop s.heapn.val s).bind fun _ s =>
    (heapExtract s).bind fun n s =>
    .done () (setRoot n s)

/-- `CLEN[b] <- len; CVAL[b] <- v`. -/
def setCode (b : Byte) (len : Nat) (v : Nat) (s : State) : State :=
  { s with clen := setSym s.clen b (BitVec.ofNat 8 len), cval := setSym s.cval b (BitVec.ofNat 255 v) }

/-- `for s in 0..255 ascending: CLEN[s] <- 0; CVAL[s] <- 0`. -/
def clearCodes (s : State) : State :=
  { s with clen := Vector.replicate 256 0#8, cval := Vector.replicate 256 0#255 }

/-- `Walk(n, v, d)` (43_tree_codes.md R181). The first argument is 256 - d, so a leaf is met at a depth of at most
255, where its length fits 8 bits and its value 255 bits; below that the walk stands (`Fault.walkTooDeep`). -/
def walk : Nat → NodeIdx → Nat → Nat → State → Run Unit
  | 0, _, _, _, _ => .stopped .walkTooDeep
  | k + 1, n, v, d, s =>
    match s.node[n].sym with
    | .leaf b => .done () (setCode b d v s)
    | .sentinel =>
      match s.node[n].left, s.node[n].right with
      | some l, some r =>
        (walk k l (2 * v) (d + 1) s).bind fun _ s => walk k r (2 * v + 1) (d + 1) s
      | _, _ => .stopped .nilChild

/-- `sum over s in 0..255 of CLEN[s] * FREQ[s]` (43_tree_codes.md R181). -/
def codeBits (s : State) : Nat :=
  (List.zipWith (fun (l : BitVec 8) (f : BitVec 32) => l.toNat * f.toNat) s.clen.toList s.freq.toList).sum

/-- `OUTBITS <- sum; CODES_VALID <- 1` (43_tree_codes.md R181). The sum is below 2^48 in every state. -/
def finishCodes (s : State) : State :=
  { s with outbits := BitVec.ofNat 48 (codeBits s), codesValid := true }

/-- `GenCodes()` (43_tree_codes.md R181), for ROOT_VALID = 1. A root that is a leaf gets length 1, value 0. -/
def genCodes (s : State) : Run Unit :=
  let s := clearCodes s
  match s.node[s.root].sym with
  | .leaf b => .done () (finishCodes (setCode b 1 0 s))
  | .sentinel => (walk 256 s.root 0 0 s).bind fun _ s => .done () (finishCodes s)

/-- BUILD_TREE (43_tree_codes.md R182). -/
def execBuildTree (s : State) : Host.Outcome State Fault Refusal :=
  runCommand (encode .buildTree) buildTree s

/-- GEN_CODES (43_tree_codes.md R184). -/
def execGenCodes (s : State) : Host.Outcome State Fault Refusal :=
  runCommand (encode .genCodes) (fun s =>
    if s.rootValid = false then .raised .illegalCommand s else genCodes s) s

/-- CODE_GET sym, w (43_tree_codes.md R185): readable while CODES_VALID = 0 too. -/
def execCodeGet (sym : Byte) (w : BitVec 3) (s : State) : Host.Outcome State Fault Refusal :=
  runCommand (encode (.codeGet sym w)) (fun s =>
    .done () (setResults (zext 32 (atSym s.clen sym)) (codeValueWord (atSym s.cval sym) w)
      (zext 32 (BitVec.ofBool s.codesValid)) s)) s

end Sys2Proof.Machine
end

