-- ==== Sys2Proof/Machine/Sequencer.lean ====
section
/-!
DEFINITION. The sequencers COMPRESS and DECOMPRESS (47_orchestrators.md).
-/

namespace Sys2Proof.Machine

/-- Pass 2 of COMPRESS, `repeat N times` (47_orchestrators.md R260). -/
def encodeLoop : Nat → State → Run Unit
  | 0, s => .done () s
  | n + 1, s =>
    match sourceRead s with
    | (.fail, s) => .raised .sourceRead s
    | (.eos, s) => .raised .sourceRead s
    | (.byte b, s) =>
      if atSym s.clen b = 0#8 then .raised .noCode s
      else (putCode b s).bind fun _ s => encodeLoop n (countSymbol s)

/-- The two checks after `ScanFreq`, before any sink write (47_orchestrators.md R260). -/
def checkAlphabet (s : State) : Run Unit :=
  if ndist s = 0 then .raised .emptyInput s
  else if ndist s = 256 then .raised .alphabetOverflow s
  else .done () s

/-- The whole of COMPRESS after the dispatch (47_orchestrators.md R260). -/
def compressBody (s : State) : Run Unit :=
  (sourceRewind (clearReader (clearWriter (clearCount s)))).bind fun _ s =>
  (scanFreq s).bind fun _ s =>
  (checkAlphabet s).bind fun _ s =>
  (buildTree s).bind fun _ s =>
  (genCodes s).bind fun _ s =>
  (writeHeader s).bind fun _ s =>
  (sourceRewind s).bind fun _ s =>
  (encodeLoop (total s) s).bind fun _ s =>
  flushBits s

/-- `repeat T times` of DECOMPRESS (47_orchestrators.md R261). -/
def decodeAll : Nat → State → Run Unit
  | 0, s => .done () s
  | t + 1, s =>
    (decodeSym s).bind fun r s =>
    match r with
    | none => .raised .payloadTruncated s
    | some y => (sinkWrite y s).bind fun _ s => decodeAll t (countSymbol s)

/-- The whole of DECOMPRESS after the dispatch (47_orchestrators.md R261). -/
def decompressBody (s : State) : Run Unit :=
  (readHeader (clearReader (clearCount s))).bind fun _ s =>
  (buildTree s).bind fun _ s =>
  decodeAll (total s) s

/-- COMPRESS (47_orchestrators.md R260). -/
def execCompress (s : State) : Host.Outcome State Fault Refusal :=
  runCommand (encode .compress) compressBody s

/-- DECOMPRESS (47_orchestrators.md R261). -/
def execDecompress (s : State) : Host.Outcome State Fault Refusal :=
  runCommand (encode .decompress) decompressBody s

end Sys2Proof.Machine
end

