-- ==== Sys2Proof/Machine/Dispatch.lean ====
section
/-!
DEFINITION. One arm per command (30_encoding.md R94): each is one call of its meaning.
-/

namespace Sys2Proof.Machine

def exec (i : Instr) (s : State) : Host.Outcome State Fault Refusal :=
  match i with
  | .nop => Sys2Proof.Machine.execNop s
  | .reset => Sys2Proof.Machine.execReset s
  | .freqClear => Sys2Proof.Machine.execFreqClear s
  | .freqScan => Sys2Proof.Machine.execFreqScan s
  | .freqSet sym => Sys2Proof.Machine.execFreqSet sym s
  | .freqGet sym => Sys2Proof.Machine.execFreqGet sym s
  | .srcRewind => Sys2Proof.Machine.execSrcRewind s
  | .heapClear => Sys2Proof.Machine.execHeapClear s
  | .heapInsert sym => Sys2Proof.Machine.execHeapInsert sym s
  | .heapExtract => Sys2Proof.Machine.execHeapExtract s
  | .heapMerge => Sys2Proof.Machine.execHeapMerge s
  | .heapGet idx => Sys2Proof.Machine.execHeapGet idx s
  | .nodeGet idx => Sys2Proof.Machine.execNodeGet idx s
  | .buildTree => Sys2Proof.Machine.execBuildTree s
  | .genCodes => Sys2Proof.Machine.execGenCodes s
  | .codeGet sym w => Sys2Proof.Machine.execCodeGet sym w s
  | .hdrWrite => Sys2Proof.Machine.execHdrWrite s
  | .hdrRead => Sys2Proof.Machine.execHdrRead s
  | .bwBit b => Sys2Proof.Machine.execBwBit b s
  | .bwFlush => Sys2Proof.Machine.execBwFlush s
  | .bwSym sym => Sys2Proof.Machine.execBwSym sym s
  | .bwClear => Sys2Proof.Machine.execBwClear s
  | .brClear => Sys2Proof.Machine.execBrClear s
  | .brBit => Sys2Proof.Machine.execBrBit s
  | .brSym => Sys2Proof.Machine.execBrSym s
  | .compress => Sys2Proof.Machine.execCompress s
  | .decompress => Sys2Proof.Machine.execDecompress s

end Sys2Proof.Machine
end

