-- ==== Sys2Proof/Machine/Registers.lean ====
section
/-!
DEFINITION. The register block the host reads (20_memory.md R61 to R64, R67).
-/

namespace Sys2Proof.Machine

/-- HEAPINFO (R62): [9:0] HEAPN, [25:16] NNODES. -/
def heapInfo (s : State) : Word :=
  0#6 ++ BitVec.ofNat 10 s.nnodes.val ++ 0#6 ++ BitVec.ofNat 10 s.heapn.val

/-- TREEINFO (R62): [8:0] ROOT, [9] ROOT_VALID, [10] CODES_VALID, [24:16] NDIST. -/
def treeInfo (s : State) : Word :=
  0#7 ++ BitVec.ofNat 9 (ndist s) ++ 0#5 ++ BitVec.ofBool s.codesValid ++ BitVec.ofBool s.rootValid ++ idxBits s.root

/-- BITINFO (R62): [7:0] WACC, [10:8] WCNT, [23:16] RWIN, [27:24] RCNT. -/
def bitInfo (s : State) : Word :=
  0#4 ++ BitVec.ofNat 4 s.rcnt.val ++ s.rwin ++ 0#5 ++ BitVec.ofNat 3 s.wcnt.val ++ s.wacc

/-- The value of the register at a byte offset that is a multiple of 4 (R62, R64); CMD and the reserved offsets read
0 (R63). -/
def readReg (off : BitVec 8) (s : State) : Word :=
  match off.toNat with
  | 0x00 => Config.idValue
  | 0x08 => s.arg
  | 0x0C => statusWord s
  | 0x10 => s.result0
  | 0x14 => s.result1
  | 0x18 => s.result2
  | 0x1C => s.errcmd
  | 0x20 => BitVec.ofNat 32 (total s)
  | 0x24 => BitVec.ofNat 32 (total s / 2 ^ 32)
  | 0x28 => bits s.outbits 0 32
  | 0x2C => zext 32 (bits s.outbits 32 16)
  | 0x30 => BitVec.ofNat 32 (inbits s)
  | 0x34 => BitVec.ofNat 32 (inbits s / 2 ^ 32)
  | 0x38 => bits s.xcnt 0 32
  | 0x3C => zext 32 (bits s.xcnt 32 8)
  | 0x40 => heapInfo s
  | 0x44 => treeInfo s
  | 0x48 => bitInfo s
  | _ => 0#32

/-- Byte `k` of the register word, bits [8k+7:8k]: little-endian on a bus that carries bytes (R67). -/
def regByte (off : BitVec 8) (k : Fin 4) (s : State) : Byte := bits (readReg off s) (8 * k.val) 8

/-- The one access the block defines: 32 bits at a multiple of 4 (R66). -/
def accessOk (width : AccessWidth) (off : BitVec 8) : Bool :=
  match width with
  | .w32 => bits off 0 2 == 0#2
  | .w8 | .w16 | .w64 => false

end Sys2Proof.Machine
end

