-- ==== Sys2Proof/Machine/HostPort.lean ====
section
/-!
DEFINITION. What each act of the host does to one engine: register reads and writes (20_memory.md R64 to R66), the
dispatch of a command word (40_control.md R120, R122), the hardware reset input (70_reset_and_hazards.md R311) and the
placing of the collaborators (R313, R321).
-/

namespace Sys2Proof.Machine

/-- A word that is not well formed raises IllegalCommandError with ERRCMD = w, outside the error state
(40_control.md R122). -/
def execIllegal (w : Word) (s : State) : Host.Outcome State Fault Refusal :=
  runCommand w (fun s => .raised .illegalCommand s) s

/-- `ExecuteCommand(w)` (40_control.md R120). The gate of the error state and the flag clearing are in `runCommand`,
which every meaning and `execIllegal` go through (RESET passes the gate). -/
def executeCommand (w : Word) (s : State) : Host.Outcome State Fault Refusal :=
  match decode w with
  | .ok i => exec i s
  | .error _ => execIllegal w s

/-- A host read: the value goes to the host, and no state of the engine changes (R64). -/
def hostRead (width : AccessWidth) (off : BitVec 8) (s : State) : Host.Outcome State Fault Refusal :=
  if accessOk width off = false then .refused .undefinedAccess
  else .next { s with answers := s.answers ++ [readReg off s] }

/-- A host write (R65): ARG is stored, CMD runs its command, every other offset ignores it. -/
def hostWrite (width : AccessWidth) (off : BitVec 8) (v : Word) (s : State) : Host.Outcome State Fault Refusal :=
  if accessOk width off = false then .refused .undefinedAccess
  else if off = 0x08#8 then .next { s with arg := v }
  else if off = 0x04#8 then executeCommand v s
  else .next s

/-- The host places SRCSEQ and SPOS, 0 <= SPOS <= |SRCSEQ| (10_state.md R39, 70_reset_and_hazards.md R321). -/
def placeSource (seq : List Byte) (pos : Nat) (s : State) : Host.Outcome State Fault Refusal :=
  if pos ≤ seq.length then .next { s with srcseq := seq, spos := pos } else .refused .sourceOutOfRange

/-- The host connects a sink that has accepted nothing (70_reset_and_hazards.md R313). -/
def connectSink (s : State) : State := { s with snkseq := [] }

/-- One act of the host, whole (20_memory.md R80). -/
def hostAct (a : HostAct) (s : State) : Host.Outcome State Fault Refusal :=
  match a with
  | .read width off => hostRead width off s
  | .write width off v => hostWrite width off v s
  | .hardReset => .next (doReset s)
  | .placeSource seq pos => placeSource seq pos s
  | .connectSink => .next (connectSink s)

/-- The host's next act leaves the queue and is done; with no act pending the engine is idle (R80: "The engine never
runs a command of its own accord"). -/
def hostStep (s : State) : Host.Outcome State Fault Refusal :=
  match s.pending with
  | [] => .next s
  | a :: rest => hostAct a { s with pending := rest }

/-- The host's next act becomes the write of the command word to CMD. -/
def withCommand (w : Word) (s : State) : State :=
  { s with pending := .write .w32 0x04#8 w :: s.pending }

end Sys2Proof.Machine
end

