-- ==== Sys2Proof/Machine/Step.lean ====
section
/-!
DEFINITION. One step: the host's next act on the engine, whole (20_memory.md R80). The engine fetches nothing
(10_state.md R21), so its next instruction is the word of the host's next write to CMD.
-/

namespace Sys2Proof.Machine

/-- One step of the machine. -/
def step (s : State) : Host.Outcome State Fault Refusal := hostStep s

/-- `s` with the opcode-table row's command (its bits above `nbits` zero) as the word the host writes to CMD next. -/
def State.withFetchWord (s : State) (nbits w : Nat) : State :=
  withCommand (BitVec.ofNat 32 (w % 2 ^ nbits)) s

end Sys2Proof.Machine
end

