-- ==== Sys2Proof/Machine/Platform.lean ====
section
/-!
DEFINITION. A platform of several engines (00_scope.md R8, 60_exceptions.md R297): each engine has its own state,
its own collaborators and its own register block at its own HUFF_BASE (20_memory.md R60, R77). HUFF_BASE and
HUFF_INSTANCES are arguments: the bases and the length of the list.
-/

namespace Sys2Proof.Machine

/-- One engine and its HUFF_BASE. -/
structure Placed where
  base   : Nat
  engine : State
  deriving DecidableEq, Repr

/-- The engines of a platform. -/
abbrev Platform := List Placed

/-- An address lies in an engine's 256-byte block (R61). -/
def Placed.covers (p : Placed) (addr : Nat) : Bool := decide (p.base ≤ addr) && decide (addr < p.base + 256)

/-- R8 and R77: at least one engine, and every HUFF_BASE is a multiple of 256. The blocks of two engines are their
own (R297), so no two bases are equal. -/
def platformWf (p : Platform) : Bool :=
  !p.isEmpty && p.all (fun e => e.base % 256 == 0) && decide (p.map Placed.base).Nodup

/-- A host access at an absolute address: MemRead, or MemWrite of a value (20_memory.md R64, R65). -/
inductive BusAct where
  | read (width : AccessWidth)
  | write (width : AccessWidth) (value : Word)
  deriving DecidableEq, Repr

/-- The access as the engine's block sees it, at its byte offset. -/
def busAct (b : BusAct) (off : BitVec 8) : HostAct :=
  match b with
  | .read width => .read width off
  | .write width v => .write width off v

/-- The access reaches the engine whose block holds the address, and no other engine (R297). -/
def platformAccess (b : BusAct) (addr : Nat) (p : Platform) : Host.Outcome Platform Fault Refusal :=
  match p with
  | [] => .refused .noEngine
  | e :: es =>
    if e.covers addr then
      match hostAct (busAct b (BitVec.ofNat 8 (addr - e.base))) e.engine with
      | .next t => .next ({ e with engine := t } :: es)
      | .fault f => .fault f
      | .refused r => .refused r
    else
      match platformAccess b addr es with
      | .next es' => .next (e :: es')
      | .fault f => .fault f
      | .refused r => .refused r

/-- One step of the `k`-th engine of the platform: its host's next act. -/
def platformStep (k : Nat) (p : Platform) : Host.Outcome Platform Fault Refusal :=
  match p, k with
  | [], _ => .refused .noEngine
  | e :: es, 0 =>
    match step e.engine with
    | .next t => .next ({ e with engine := t } :: es)
    | .fault f => .fault f
    | .refused r => .refused r
  | e :: es, k + 1 =>
    match platformStep k es with
    | .next es' => .next (e :: es')
    | .fault f => .fault f
    | .refused r => .refused r

end Sys2Proof.Machine
end

