-- ==== Sys2Proof/Safety.lean ====
section
/-!
DEFINITION. The terms the claims are written in: the premise NoCollaboratorFailure (20_memory.md R74), the invariants
of 10_state.md R35, R37 and R39, which errors a command may raise (60_exceptions.md R281), and the bit and byte
sequences of the wire formats (30_encoding.md R100 to R104).
-/

namespace Sys2Proof.Machine

/-! ### Premises -/

/-- `NoCollaboratorFailure` (20_memory.md R74): every draw answers false. -/
def NoCollaboratorFailure (s : State) : Prop := ∀ d ∈ s.draws, d = false

/-- The engine is not in the error state (60_exceptions.md R283). -/
def NoError (s : State) : Prop := s.errcode = none

/-! ### The streams -/

/-- The source bytes not yet read, in order. -/
def remaining (s : State) : List Byte := s.srcseq.drop s.spos

/-- The bits of a byte, bit 7 first (20_memory.md R75). -/
def byteBits (b : Byte) : List Bool := (List.range 8).map (fun j => b.getLsbD (7 - j))

/-- The bits of a byte sequence in stream order (30_encoding.md R103). -/
def streamBits (bs : List Byte) : List Bool := bs.flatMap byteBits

/-- The low `n` bits of a value, most significant of them first. -/
def lowBits {w : Nat} (n : Nat) (v : BitVec w) : List Bool := (List.range n).map (fun j => v.getLsbD (n - 1 - j))

/-- The bits pending in the writer, oldest first (10_state.md R35). -/
def pendingBits (s : State) : List Bool := lowBits s.wcnt.val s.wacc

/-- Every bit written so far: those in the sink, then those pending. -/
def writtenBits (s : State) : List Bool := streamBits s.snkseq ++ pendingBits s

/-- Every bit the reader will return: those of the window, then those of the bytes left (10_state.md R36). -/
def unreadBits (s : State) : List Bool := lowBits s.rcnt.val s.rwin ++ streamBits (remaining s)

/-- A symbol's code, first bit first (30_encoding.md R104). -/
def codeOf (s : State) (b : Byte) : List Bool := lowBits (atSym s.clen b).toNat (atSym s.cval b)

/-- The header of the frequency table: the count, then the pairs in ascending symbol order (30_encoding.md R101,
R102). -/
def headerBytes (s : State) : List Byte := BitVec.ofNat 8 (ndist s) :: (present s).flatMap pairBytes

/-- The number of distinct symbols of a byte sequence. -/
def distinctSymbols (bs : List Byte) : Nat := bs.dedup.length

/-- Every symbol's count fits the 32 bits of its entry (41_frequency.md R131). -/
def CountsFit (bs : List Byte) : Prop := ∀ b : Byte, bs.count b < 2 ^ 32

/-! ### Invariants -/

/-- 10_state.md R35: `WACC < 2^WCNT`. -/
def WriterOk (s : State) : Prop := s.wacc.toNat < 2 ^ s.wcnt.val

/-- 10_state.md R39: `SPOS ≤ |SRCSEQ|`. -/
def SourceOk (s : State) : Prop := s.spos ≤ s.srcseq.length

/-- The queued nodes, HEAP[0..HEAPN-1] (10_state.md R30). -/
def queue (s : State) : List NodeIdx := s.heap.toList.take s.heapn.val

/-- 10_state.md R37(a) and (b): `HEAPN ≤ NNODES ≤ 511`, and the queued nodes are distinct indices below NNODES. -/
def QueueOk (s : State) : Prop :=
  s.heapn.val ≤ s.nnodes.val ∧ (queue s).Nodup ∧ ∀ n ∈ queue s, n.val < s.nnodes.val

/-- 10_state.md R37(c): no queued node is less than the one at its parent position. -/
def HeapOrdered (s : State) : Prop :=
  ∀ i : NodeIdx, 0 < i.val → i.val < s.heapn.val → less s s.heap[i] s.heap[parentPos i] = false

/-- The nodes reachable from `n` are `ns`, and below `n` they form a tree (10_state.md R28, R37d): a leaf has no
children, an internal node has two, each of a lower index, and their frequencies add up to its own. -/
inductive Spans (s : State) : NodeIdx → List NodeIdx → Prop
  | leaf (n : NodeIdx) (b : Byte) : s.node[n].sym = .leaf b → s.node[n].left = none → s.node[n].right = none →
      Spans s n [n]
  | inner (n l r : NodeIdx) (xs ys : List NodeIdx) : s.node[n].sym = .sentinel → s.node[n].left = some l →
      s.node[n].right = some r → l < n → r < n →
      s.node[n].freq.toNat = s.node[l].freq.toNat + s.node[r].freq.toNat →
      Spans s l xs → Spans s r ys → Spans s n (n :: (xs ++ ys))

/-- The symbols of the leaves among `ns`. -/
def leafSyms (s : State) (ns : List NodeIdx) : List Byte :=
  ns.filterMap fun n =>
    match s.node[n].sym with
    | .leaf b => some b
    | .sentinel => none

/-- 10_state.md R37(d): the nodes reachable from ROOT form a tree, none reachable twice; its leaves carry distinct
symbols, exactly the symbols with FREQ[s] != 0, and each leaf's frequency is FREQ[s]. -/
def TreeOk (s : State) : Prop :=
  ∃ ns : List NodeIdx, Spans s s.root ns ∧ ns.Nodup ∧ (leafSyms s ns).Nodup ∧
    (∀ n ∈ ns, ∀ b : Byte, s.node[n].sym = .leaf b → s.node[n].freq = zext 40 (atSym s.freq b)) ∧
    ∀ b : Byte, b ∈ leafSyms s ns ↔ atSym s.freq b ≠ 0#32

/-- 10_state.md R37(e): there is a tree, and the code table is the one `GenCodes` computes from it. -/
def CodesOk (s : State) : Prop :=
  s.rootValid = true ∧
    ∃ t, genCodes s = .done () t ∧ t.clen = s.clen ∧ t.cval = s.cval ∧ t.outbits = s.outbits

/-- The invariants of 10_state.md R37 (a) to (e). -/
def TablesOk (s : State) : Prop :=
  QueueOk s ∧ HeapOrdered s ∧ (s.rootValid = true → TreeOk s) ∧ (s.codesValid = true → CodesOk s)

/-- Why the sum of `MergeTwo` fits 40 bits (42_heap.md R154): the queued nodes head separate subtrees, one of `k`
leaves takes `2k - 1` of the slots in use, and its frequency is at most `k * (2^32 - 1)`. -/
def QueueWeighed (s : State) : Prop :=
  ∃ k : NodeIdx → Nat,
    (∀ n ∈ queue s, 1 ≤ k n ∧ s.node[n].freq.toNat ≤ k n * (2 ^ 32 - 1)) ∧
    ((queue s).map fun n => 2 * k n - 1).sum ≤ s.nnodes.val

/-! ### How a tree is made -/

/-- Node `m` still waits when node `n` is made: it was made before `n`, and no node before `n` has taken it as a child
(43_tree_codes.md R180). -/
def Waiting (s : State) (n m : NodeIdx) : Prop :=
  m < n ∧ ∀ p : NodeIdx, p < n → s.node[p].left ≠ some m ∧ s.node[p].right ≠ some m

/-- Node `n` is what `MergeTwo` makes of the nodes waiting then (42_heap.md R154): it joins the least of them under
Less, on the left, and the next least, on the right, and carries the sum of their frequencies. -/
def JoinsTheTwoLeast (s : State) (n : NodeIdx) : Prop :=
  ∃ a b : NodeIdx, Waiting s n a ∧ Waiting s n b ∧ less s a b = true ∧
    (∀ m : NodeIdx, Waiting s n m → m ≠ a → m ≠ b → less s b m = true) ∧
    s.node[n] = ⟨.sentinel, s.node[n].freq, some a, some b⟩ ∧
    s.node[n].freq.toNat = s.node[a].freq.toNat + s.node[b].freq.toNat

/-! ### Codes as paths -/

/-- The bits `p` lead from node `n` to a leaf of symbol `b`: 0 left, 1 right (43_tree_codes.md R181,
46_bitreader.md R244). -/
inductive PathTo (s : State) : NodeIdx → List Bool → Byte → Prop
  | leaf (n : NodeIdx) (b : Byte) : s.node[n].sym = .leaf b → PathTo s n [] b
  | left (n l : NodeIdx) (p : List Bool) (b : Byte) : s.node[n].sym = .sentinel → s.node[n].left = some l →
      PathTo s l p b → PathTo s n (false :: p) b
  | right (n r : NodeIdx) (p : List Bool) (b : Byte) : s.node[n].sym = .sentinel → s.node[n].right = some r →
      PathTo s r p b → PathTo s n (true :: p) b

/-- The code the tree at ROOT gives `b`: the path to its leaf, or the one bit 0 where the root is the leaf
(43_tree_codes.md R181). -/
def CodePath (s : State) (p : List Bool) (b : Byte) : Prop :=
  (s.node[s.root].sym = .leaf b ∧ p = [false]) ∨ (s.node[s.root].sym = .sentinel ∧ PathTo s s.root p b)

/-! ### Errors -/

/-- What HDR_READ leaves of a state `s` where it raises `e` after `n` source bytes with the pairs `ps` accepted
(44_header.md R202, R203, 60_exceptions.md R284). -/
def HeaderRefused (s t : State) (e : ErrKind) (ps : List (Byte × BitVec 32)) (n : Nat) : Prop :=
  (∀ p ∈ ps, atSym t.freq p.1 = p.2) ∧ (∀ b : Byte, b ∉ ps.map Prod.fst → atSym t.freq b = 0#32) ∧
    t = { s with
      empty := false, eos := false, errcode := some e, errcmd := 0x41000000#32, freq := t.freq
      rootValid := false, codesValid := false, rwin := 0#8, rcnt := 0, spos := s.spos + n, draws := t.draws }

/-- What DECOMPRESS leaves of a state `s` where it raises `e` in the payload: the table and its tree, and the symbols
`xs` decoded before, sent and counted (47_orchestrators.md R261, R264). -/
def PayloadRefused (s t : State) (e : ErrKind) (xs : List Byte) : Prop :=
  t.xcnt.toNat = xs.length ∧
    t = { s with
      empty := false, eos := false, errcode := some e, errcmd := 0x71000000#32
      rootValid := true, codesValid := false, freq := t.freq
      node := t.node, nnodes := t.nnodes, heap := t.heap, heapn := 0, root := t.root, xcnt := t.xcnt
      rwin := t.rwin, rcnt := t.rcnt, spos := t.spos, snkseq := s.snkseq ++ xs, draws := t.draws }

/-- The errors a well-formed command can raise (60_exceptions.md R281). -/
def mayRaise (i : Instr) : List ErrKind :=
  match i with
  | .nop | .reset | .freqClear | .freqSet _ | .freqGet _ | .heapClear | .heapExtract | .heapGet _ | .nodeGet _
  | .codeGet _ _ | .bwClear | .brClear => []
  | .freqScan => [.sourceRead, .inputTooLong]
  | .srcRewind => [.sourceRead]
  | .heapInsert _ | .heapMerge => [.queueOverflow]
  | .buildTree => [.emptyInput]
  | .genCodes => [.illegalCommand]
  | .hdrWrite => [.emptyInput, .sinkWrite, .alphabetOverflow]
  | .hdrRead => [.emptyInput, .headerCorrupt, .sourceRead]
  | .bwBit _ | .bwFlush => [.sinkWrite]
  | .bwSym _ => [.sinkWrite, .noCode, .illegalCommand]
  | .brBit => [.sourceRead]
  | .brSym => [.sourceRead, .payloadTruncated, .payloadCorrupt, .illegalCommand]
  | .compress => [.emptyInput, .sourceRead, .sinkWrite, .alphabetOverflow, .inputTooLong, .noCode]
  | .decompress => [.emptyInput, .headerCorrupt, .sourceRead, .sinkWrite, .payloadTruncated, .payloadCorrupt]

end Sys2Proof.Machine
end

