-- ==== Sys2Proof/Certificates/Slice0/Obligations.lean ====
section
/-!
DEFINITION. The statements for the provers: what the numbered rules of spec/ say the engine does.
-/

open Sys2Proof Sys2Proof.Machine

/-! ### Encoding -/

/-- R92 to R94: no operand bit is dropped or moved on the way through the command word. -/
def Obligations.DecodeOfEncodeIsTheInstruction : Prop :=
  ∀ i : Instr, i.wellFormed = true → decode (encode i) = .ok i

/-- R90 to R94: a command has one word. -/
def Obligations.DecodedWordIsTheEncodingOfItsInstruction : Prop :=
  ∀ (w : Word) (i : Instr), decode w = .ok i → i.wellFormed = true ∧ encode i = w

/-- R95, its field checks written out. -/
def Obligations.DecoderAcceptsExactlyTheWellFormedWords : Prop :=
  ∀ w : Word, (∃ i, decode w = .ok i) ↔
    bits w 24 8 ∈ [0x00#8, 0x01#8, 0x10#8, 0x11#8, 0x12#8, 0x13#8, 0x14#8, 0x20#8, 0x21#8, 0x22#8, 0x23#8, 0x24#8,
        0x25#8, 0x30#8, 0x31#8, 0x32#8, 0x40#8, 0x41#8, 0x50#8, 0x51#8, 0x52#8, 0x53#8, 0x60#8, 0x61#8, 0x62#8, 0x70#8,
        0x71#8] ∧
      bits w 16 8 = 0#8 ∧
      (bits w 24 8 ∈ [0x00#8, 0x01#8, 0x10#8, 0x11#8, 0x14#8, 0x20#8, 0x22#8, 0x23#8, 0x30#8, 0x31#8, 0x40#8, 0x41#8,
        0x51#8, 0x53#8, 0x60#8, 0x61#8, 0x62#8, 0x70#8, 0x71#8] → bits w 0 16 = 0#16) ∧
      (bits w 24 8 ∈ [0x12#8, 0x13#8, 0x21#8, 0x52#8] → bits w 8 8 = 0#8) ∧
      (bits w 24 8 ∈ [0x24#8, 0x25#8] → bits w 9 7 = 0#7 ∧ bits w 0 9 ≠ 0x1FF#9) ∧
      (bits w 24 8 = 0x32#8 → bits w 11 5 = 0#5) ∧
      (bits w 24 8 = 0x50#8 → bits w 1 15 = 0#15)

/-- Words written out in the spec's examples and vectors, one or more of each family and format. -/
def Obligations.ExampleWordsDecode : Prop :=
  decode 0x00000000#32 = .ok .nop ∧ decode 0x01000000#32 = .ok .reset ∧
  decode 0x12000041#32 = .ok (.freqSet 0x41#8) ∧ decode 0x13000042#32 = .ok (.freqGet 0x42#8) ∧
  decode 0x21000010#32 = .ok (.heapInsert 0x10#8) ∧ decode 0x24000001#32 = .ok (.heapGet 1#9) ∧
  decode 0x25000005#32 = .ok (.nodeGet 5#9) ∧ decode 0x30000000#32 = .ok .buildTree ∧
  decode 0x32000141#32 = .ok (.codeGet 0x41#8 1#3) ∧ decode 0x40000000#32 = .ok .hdrWrite ∧
  decode 0x50000001#32 = .ok (.bwBit true) ∧ decode 0x52000044#32 = .ok (.bwSym 0x44#8) ∧
  decode 0x61000000#32 = .ok .brBit ∧ decode 0x71000000#32 = .ok .decompress ∧
  decode 0x240001FF#32 = .error .indexOutOfRange ∧ decode 0x50000002#32 = .error .operandBits ∧
  decode 0x00010000#32 = .error .reservedBits ∧ decode 0x15000000#32 = .error (.unassignedOpcode 0x15#8)

/-! ### The step and the dispatch -/

/-- R65, R80, R120: the host's write of a command's word to CMD runs that command. -/
def Obligations.StepRunsTheDecodedCommand : Prop :=
  ∀ (s : State) (w : Word) (rest : List HostAct) (i : Instr),
    s.pending = .write .w32 0x04#8 w :: rest → decode w = .ok i → step s = exec i { s with pending := rest }

/-- R64, R65, R66, R80, R311, R312, R313, R321: what each act of the host does, and that with none pending nothing
happens. The queue of acts and the list of answers are the model's (notes/assumptions/1.md, 2.md), and so are the acts
that place the source and connect the sink (15.md). -/
def Obligations.HostAccessesReachTheRegisters : Prop :=
  ∀ (s : State),
    (s.pending = [] → step s = .next s) ∧
    ∀ (rest : List HostAct) (width : AccessWidth) (off : BitVec 8) (v : Word) (seq : List Byte) (pos : Nat),
      (s.pending = .read width off :: rest →
        step s = if width = .w32 ∧ off.toNat % 4 = 0 then
            .next { s with pending := rest, answers := s.answers ++ [readReg off s] }
          else .refused .undefinedAccess) ∧
      (s.pending = .write width off v :: rest → ¬(width = .w32 ∧ off.toNat % 4 = 0) →
        step s = .refused .undefinedAccess) ∧
      (s.pending = .write .w32 off v :: rest → off.toNat % 4 = 0 → off ≠ 0x04#8 →
        step s = if off = 0x08#8 then .next { s with pending := rest, arg := v } else .next { s with pending := rest }) ∧
      (s.pending = .write .w32 0x04#8 v :: rest → step s = executeCommand v { s with pending := rest }) ∧
      (s.pending = .hardReset :: rest → step s = .next (doReset { s with pending := rest })) ∧
      (s.pending = .placeSource seq pos :: rest →
        step s = if pos ≤ seq.length then .next { s with pending := rest, srcseq := seq, spos := pos }
          else .refused .sourceOutOfRange) ∧
      (s.pending = .connectSink :: rest → step s = .next { s with pending := rest, snkseq := [] })

/-- R122: a word that is no command raises IllegalCommandError, records itself, and changes nothing else but the
flags of R121; in the error state it does nothing. -/
def Obligations.IllegalWordRaisesIllegalCommand : Prop :=
  ∀ (w : Word) (why : DecodeError) (s : State), decode w = .error why →
    executeCommand w s =
      if s.errcode = none then
        .next { s with empty := false, eos := false, errcode := some .illegalCommand, errcmd := w }
      else .next s

/-- R283: in the error state every word but RESET's is ignored, while reads and writes of ARG go on. -/
def Obligations.ErrorStateIgnoresEveryWordButReset : Prop :=
  ∀ s : State, s.errcode ≠ none →
    (∀ w : Word, executeCommand w s = if w = 0x01000000#32 then .next (doReset s) else .next s) ∧
    (∀ off : BitVec 8, off.toNat % 4 = 0 →
      hostRead .w32 off s = .next { s with answers := s.answers ++ [readReg off s] }) ∧
    ∀ v : Word, hostWrite .w32 0x08#8 v s = .next { s with arg := v }

/-- R124, R310, R311, R312: RESET and the reset input give every engine element its reset value, in the error state
too, and leave SRCSEQ, SPOS and SNKSEQ alone. That the coming acts, the answers and the coming draws stay as well is
the model's choice (notes/assumptions/1.md, 2.md, 3.md). -/
def Obligations.ResetLeavesOnlyTheCollaborators : Prop :=
  ∀ s : State,
    exec .reset s = .next { State.reset with
      srcseq := s.srcseq, spos := s.spos, snkseq := s.snkseq
      draws := s.draws, pending := s.pending, answers := s.answers } ∧
    hostAct .hardReset s = exec .reset s

/-- R40, row by row. -/
def Obligations.ResetValuesAreThoseOfTheTable : Prop :=
  State.reset.arg = 0#32 ∧ State.reset.result0 = 0#32 ∧ State.reset.result1 = 0#32 ∧ State.reset.result2 = 0#32 ∧
  errcodeBits State.reset.errcode = 0#4 ∧ State.reset.errcmd = 0#32 ∧
  State.reset.empty = false ∧ State.reset.eos = false ∧
  (∀ b : Byte, atSym State.reset.freq b = 0#32) ∧
  total State.reset = 0 ∧ ndist State.reset = 0 ∧ inbits State.reset = 0 ∧
  (∀ n : NodeIdx, symBits State.reset.node[n].sym = 0#9 ∧ State.reset.node[n].freq = 0#40 ∧
    childBits State.reset.node[n].left = 0#9 ∧ childBits State.reset.node[n].right = 0#9) ∧
  State.reset.nnodes.val = 0 ∧ State.reset.heapn.val = 0 ∧ (∀ n : NodeIdx, State.reset.heap[n].val = 0) ∧
  State.reset.root.val = 0 ∧ State.reset.rootValid = false ∧
  (∀ b : Byte, atSym State.reset.clen b = 0#8 ∧ atSym State.reset.cval b = 0#255) ∧
  State.reset.codesValid = false ∧ State.reset.outbits = 0#48 ∧ State.reset.xcnt = 0#40 ∧
  State.reset.wacc = 0#8 ∧ State.reset.wcnt.val = 0 ∧ State.reset.rwin = 0#8 ∧ State.reset.rcnt.val = 0 ∧
  readReg 0x00#8 State.reset = 0x48554646#32

/-! ### Rules about every command -/

/-- R25, R41, R121: outside the error state EMPTY is left set only by HEAP_EXTRACT and HEAP_MERGE, and EOS only by
BR_BIT and BR_SYM. -/
def Obligations.FlagsAreSetOnlyByTheirCommands : Prop :=
  ∀ (i : Instr) (s t : State), s.errcode = none → exec i s = .next t →
    (t.empty = true → i = .heapExtract ∨ i = .heapMerge) ∧ (t.eos = true → i = .brBit ∨ i = .brSym)

/-- R281, R282: a well-formed command raises only the errors of its row of the table, and ERRCMD is then its word. -/
def Obligations.CommandsRaiseOnlyTheirErrors : Prop :=
  ∀ (i : Instr) (s t : State) (e : ErrKind), i.wellFormed = true → s.errcode = none → exec i s = .next t →
    t.errcode = some e → e ∈ mayRaise i ∧ t.errcmd = encode i

/-- R280, R282, R284: the codes of the kinds, and error entry, which writes ERRCODE and ERRCMD over the state the raise
was reached in. -/
def Obligations.ErrorEntryRecordsCodeAndCommand : Prop :=
  (∀ (cur : Word) (body : State → Run Unit) (s u : State) (e : ErrKind), s.errcode = none →
    body (clearFlags s) = .raised e u → runCommand cur body s = .next { u with errcode := some e, errcmd := cur }) ∧
  [ErrKind.emptyInput, .headerCorrupt, .queueOverflow, .sourceRead, .sinkWrite, .alphabetOverflow, .payloadTruncated,
    .payloadCorrupt, .inputTooLong, .noCode, .illegalCommand].map (fun e => (errKindCode e).toNat)
    = [1, 2, 3, 4, 5, 6, 7, 8, 9, 10, 11]

/-- R22, R39, R73, R76: no command changes SRCSEQ or what belongs to the host, the sink only grows, and ARG changes
only in RESET. -/
def Obligations.CommandsOnlyAppendToTheSink : Prop :=
  ∀ (i : Instr) (s t : State), exec i s = .next t →
    t.srcseq = s.srcseq ∧ t.pending = s.pending ∧ t.answers = s.answers ∧
    (∃ bs, t.snkseq = s.snkseq ++ bs) ∧ (i ≠ .reset → t.arg = s.arg)

/-- The frame of every command, whether it ends normally or at a raise: what its rule and the rules of the primitives
it runs do not name keeps its value (R23 to R36, R282, R284). -/
def Obligations.EachCommandKeepsWhatItDoesNotName : Prop :=
  ∀ (i : Instr) (s t : State), exec i s = .next t →
    match i with
    | .nop => t = { s with empty := t.empty, eos := t.eos }
    | .reset => t = doReset s
    | .freqClear | .freqSet _ =>
      t = { s with empty := t.empty, eos := t.eos, freq := t.freq, rootValid := t.rootValid, codesValid := t.codesValid }
    | .freqScan | .hdrRead =>
      t = { s with
        empty := t.empty, eos := t.eos, errcode := t.errcode, errcmd := t.errcmd, freq := t.freq
        rootValid := t.rootValid, codesValid := t.codesValid, rwin := t.rwin, rcnt := t.rcnt
        spos := t.spos, draws := t.draws }
    | .freqGet _ => t = { s with empty := t.empty, eos := t.eos, result0 := t.result0 }
    | .brClear => t = { s with empty := t.empty, eos := t.eos, rwin := t.rwin, rcnt := t.rcnt }
    | .srcRewind =>
      t = { s with
        empty := t.empty, eos := t.eos, errcode := t.errcode, errcmd := t.errcmd, rwin := t.rwin, rcnt := t.rcnt
        spos := t.spos, draws := t.draws }
    | .heapClear =>
      t = { s with
        empty := t.empty, eos := t.eos, heapn := t.heapn, nnodes := t.nnodes
        rootValid := t.rootValid, codesValid := t.codesValid }
    | .heapInsert _ | .heapMerge =>
      t = { s with
        empty := t.empty, eos := t.eos, errcode := t.errcode, errcmd := t.errcmd
        result0 := t.result0, result1 := t.result1, result2 := t.result2
        node := t.node, nnodes := t.nnodes, heap := t.heap, heapn := t.heapn
        rootValid := t.rootValid, codesValid := t.codesValid }
    | .heapExtract =>
      t = { s with
        empty := t.empty, eos := t.eos, result0 := t.result0, result1 := t.result1, result2 := t.result2
        heap := t.heap, heapn := t.heapn, rootValid := t.rootValid, codesValid := t.codesValid }
    | .heapGet _ =>
      t = { s with
        empty := t.empty, eos := t.eos, errcode := t.errcode, errcmd := t.errcmd, result0 := t.result0 }
    | .nodeGet _ =>
      t = { s with
        empty := t.empty, eos := t.eos, errcode := t.errcode, errcmd := t.errcmd
        result0 := t.result0, result1 := t.result1, result2 := t.result2 }
    | .codeGet _ _ =>
      t = { s with empty := t.empty, eos := t.eos, result0 := t.result0, result1 := t.result1, result2 := t.result2 }
    | .buildTree =>
      t = { s with
        empty := t.empty, eos := t.eos, errcode := t.errcode, errcmd := t.errcmd
        node := t.node, nnodes := t.nnodes, heap := t.heap, heapn := t.heapn
        root := t.root, rootValid := t.rootValid, codesValid := t.codesValid }
    | .genCodes =>
      t = { s with
        empty := t.empty, eos := t.eos, errcode := t.errcode, errcmd := t.errcmd
        clen := t.clen, cval := t.cval, codesValid := t.codesValid, outbits := t.outbits }
    | .hdrWrite =>
      t = { s with
        empty := t.empty, eos := t.eos, errcode := t.errcode, errcmd := t.errcmd, snkseq := t.snkseq, draws := t.draws }
    | .bwBit _ | .bwFlush =>
      t = { s with
        empty := t.empty, eos := t.eos, errcode := t.errcode, errcmd := t.errcmd
        wacc := t.wacc, wcnt := t.wcnt, snkseq := t.snkseq, draws := t.draws }
    | .bwSym _ =>
      t = { s with
        empty := t.empty, eos := t.eos, errcode := t.errcode, errcmd := t.errcmd
        wacc := t.wacc, wcnt := t.wcnt, xcnt := t.xcnt, snkseq := t.snkseq, draws := t.draws }
    | .bwClear => t = { s with empty := t.empty, eos := t.eos, wacc := t.wacc, wcnt := t.wcnt }
    | .brBit =>
      t = { s with
        empty := t.empty, eos := t.eos, errcode := t.errcode, errcmd := t.errcmd, result0 := t.result0
        rwin := t.rwin, rcnt := t.rcnt, spos := t.spos, draws := t.draws }
    | .brSym =>
      t = { s with
        empty := t.empty, eos := t.eos, errcode := t.errcode, errcmd := t.errcmd, result0 := t.result0
        rwin := t.rwin, rcnt := t.rcnt, xcnt := t.xcnt, spos := t.spos, draws := t.draws }
    | .compress =>
      t = { s with
        empty := t.empty, eos := t.eos, errcode := t.errcode, errcmd := t.errcmd, freq := t.freq
        node := t.node, nnodes := t.nnodes, heap := t.heap, heapn := t.heapn
        root := t.root, rootValid := t.rootValid, codesValid := t.codesValid
        clen := t.clen, cval := t.cval, outbits := t.outbits, xcnt := t.xcnt
        wacc := t.wacc, wcnt := t.wcnt, rwin := t.rwin, rcnt := t.rcnt
        spos := t.spos, snkseq := t.snkseq, draws := t.draws }
    | .decompress =>
      t = { s with
        empty := t.empty, eos := t.eos, errcode := t.errcode, errcmd := t.errcmd, freq := t.freq
        node := t.node, nnodes := t.nnodes, heap := t.heap, heapn := t.heapn
        root := t.root, rootValid := t.rootValid, codesValid := t.codesValid, xcnt := t.xcnt
        rwin := t.rwin, rcnt := t.rcnt, spos := t.spos, snkseq := t.snkseq, draws := t.draws }

/-! ### The register block and the ports -/

/-- R62: every field of the register map. -/
def Obligations.RegisterMapShowsTheState : Prop :=
  ∀ s : State,
    readReg 0x00#8 s = 0x48554646#32 ∧ readReg 0x04#8 s = 0#32 ∧ readReg 0x08#8 s = s.arg ∧
    (bits (readReg 0x0C#8 s) 0 4 = errcodeBits s.errcode ∧ bits (readReg 0x0C#8 s) 4 4 = 0#4 ∧
      (readReg 0x0C#8 s).getLsbD 8 = s.empty ∧ (readReg 0x0C#8 s).getLsbD 9 = s.eos ∧
      bits (readReg 0x0C#8 s) 10 22 = 0#22) ∧
    readReg 0x10#8 s = s.result0 ∧ readReg 0x14#8 s = s.result1 ∧ readReg 0x18#8 s = s.result2 ∧
    readReg 0x1C#8 s = s.errcmd ∧
    (bits (readReg 0x40#8 s) 0 10).toNat = s.heapn.val ∧ bits (readReg 0x40#8 s) 10 6 = 0#6 ∧
    (bits (readReg 0x40#8 s) 16 10).toNat = s.nnodes.val ∧ bits (readReg 0x40#8 s) 26 6 = 0#6 ∧
    (bits (readReg 0x44#8 s) 0 9).toNat = s.root.val ∧ (readReg 0x44#8 s).getLsbD 9 = s.rootValid ∧
    (readReg 0x44#8 s).getLsbD 10 = s.codesValid ∧ bits (readReg 0x44#8 s) 11 5 = 0#5 ∧
    (bits (readReg 0x44#8 s) 16 9).toNat = ndist s ∧ bits (readReg 0x44#8 s) 25 7 = 0#7 ∧
    bits (readReg 0x48#8 s) 0 8 = s.wacc ∧ (bits (readReg 0x48#8 s) 8 3).toNat = s.wcnt.val ∧
    bits (readReg 0x48#8 s) 11 5 = 0#5 ∧ bits (readReg 0x48#8 s) 16 8 = s.rwin ∧
    (bits (readReg 0x48#8 s) 24 4).toNat = s.rcnt.val ∧ bits (readReg 0x48#8 s) 28 4 = 0#4 ∧
    ∀ off : BitVec 8, 0x4C ≤ off.toNat → readReg off s = 0#32

/-- R27, R62, R68: the two halves of each wide register give the whole value, and TOTAL fits 40 bits. -/
def Obligations.RegisterHalvesGiveTheWholeCount : Prop :=
  ∀ s : State,
    total s < 2 ^ 40 ∧
    (readReg 0x20#8 s).toNat + 2 ^ 32 * (readReg 0x24#8 s).toNat = total s ∧
    (readReg 0x28#8 s).toNat + 2 ^ 32 * (readReg 0x2C#8 s).toNat = s.outbits.toNat ∧
    (readReg 0x30#8 s).toNat + 2 ^ 32 * (readReg 0x34#8 s).toNat = 8 * total s ∧
    (readReg 0x38#8 s).toNat + 2 ^ 32 * (readReg 0x3C#8 s).toNat = s.xcnt.toNat

/-- R71 to R73: each port answers FAIL and moves nothing where its draw is true, and does its transfer where the draw
is false. -/
def Obligations.PortsFollowTheirDraws : Prop :=
  ∀ (s : State) (d : Bool) (ds : List Bool) (b : Byte), s.draws = d :: ds →
    (sourceRead s =
      if d then (.fail, { s with draws := ds })
      else
        match s.srcseq[s.spos]? with
        | none => (.eos, { s with draws := ds })
        | some x => (.byte x, { s with draws := ds, spos := s.spos + 1 })) ∧
    (sourceRewind s =
      if d then .raised .sourceRead { s with draws := ds } else .done () { s with draws := ds, spos := 0 }) ∧
    (sinkWrite b s =
      if d then .raised .sinkWrite { s with draws := ds }
      else .done () { s with draws := ds, snkseq := s.snkseq ++ [b] })

/-! ### Commands that clear, set and read -/

/-- R123, R130, R156, R226, R245: NOP, FREQ_CLEAR, HEAP_CLEAR, BW_CLEAR and BR_CLEAR complete with exactly these
effects. -/
def Obligations.ClearingCommandsComplete : Prop :=
  ∀ s : State, s.errcode = none →
    exec .nop s = .next { s with empty := false, eos := false } ∧
    (∃ t, exec .freqClear s = .next t ∧ (∀ b : Byte, atSym t.freq b = 0#32) ∧ total t = 0 ∧ ndist t = 0 ∧
      t = { s with empty := false, eos := false, freq := t.freq, rootValid := false, codesValid := false }) ∧
    exec .heapClear s = .next { s with
      empty := false, eos := false, heapn := 0, nnodes := 0, rootValid := false, codesValid := false } ∧
    exec .bwClear s = .next { s with empty := false, eos := false, wacc := 0#8, wcnt := 0 } ∧
    exec .brClear s = .next { s with empty := false, eos := false, rwin := 0#8, rcnt := 0 }

/-- R134: FREQ_SET writes ARG to one entry and invalidates the tree and the codes. -/
def Obligations.FreqSetWritesOneEntry : Prop :=
  ∀ (sym : Byte) (s : State), s.errcode = none →
    ∃ t, exec (.freqSet sym) s = .next t ∧
      (∀ b : Byte, atSym t.freq b = if b = sym then s.arg else atSym s.freq b) ∧
      total t + (atSym s.freq sym).toNat = total s + s.arg.toNat ∧
      t = { s with empty := false, eos := false, freq := t.freq, rootValid := false, codesValid := false }

/-- R133, R160, R161, R185: FREQ_GET, HEAP_GET, NODE_GET and CODE_GET complete, return what they read and change
nothing else; IDX 511 is an illegal command. -/
def Obligations.ReadingCommandsComplete : Prop :=
  ∀ s : State, s.errcode = none →
    (∀ sym : Byte,
      exec (.freqGet sym) s = .next { s with empty := false, eos := false, result0 := atSym s.freq sym }) ∧
    (∀ (idx : BitVec 9) (n : NodeIdx), idx.toNat = n.val →
      exec (.heapGet idx) s =
        .next { s with empty := false, eos := false, result0 := BitVec.ofNat 32 s.heap[n].val } ∧
      exec (.nodeGet idx) s = .next { s with
        empty := false, eos := false, result0 := recordWord0 n s.node[n], result1 := recordWord1 s.node[n]
        result2 := recordWord2 s.node[n] }) ∧
    (∀ (sym : Byte) (w : BitVec 3), ∃ t, exec (.codeGet sym w) s = .next t ∧
      t.result0.toNat = (atSym s.clen sym).toNat ∧
      (∀ j : Nat, j < 32 → t.result1.getLsbD j = (atSym s.cval sym).getLsbD (32 * w.toNat + j)) ∧
      t.result2 = (if s.codesValid then 1#32 else 0#32) ∧
      t = { s with
        empty := false, eos := false, result0 := t.result0, result1 := t.result1, result2 := t.result2 }) ∧
    exec (.heapGet 0x1FF#9) s = .next { s with
      empty := false, eos := false, errcode := some .illegalCommand, errcmd := 0x240001FF#32 } ∧
    exec (.nodeGet 0x1FF#9) s = .next { s with
      empty := false, eos := false, errcode := some .illegalCommand, errcmd := 0x250001FF#32 }

/-- R28, R99: every field of the node record, a leaf's symbol and the sentinel 0x100, a child's index and NIL = 0x1FF,
and the 40-bit frequency out of its two parts. -/
def Obligations.NodeRecordHoldsEveryField : Prop :=
  ∀ (n : NodeIdx) (d : Node),
    (bits (recordWord0 n d) 0 9).toNat = n.val ∧ bits (recordWord0 n d) 9 7 = 0#7 ∧
    (∀ b : Byte, d.sym = .leaf b → (bits (recordWord0 n d) 16 9).toNat = b.toNat) ∧
    (d.sym = .sentinel → bits (recordWord0 n d) 16 9 = 0x100#9) ∧ bits (recordWord0 n d) 25 7 = 0#7 ∧
    (recordWord1 d).toNat + 2 ^ 32 * (bits (recordWord2 d) 0 8).toNat = d.freq.toNat ∧
    (d.left = none → bits (recordWord2 d) 8 9 = 0x1FF#9) ∧
    (∀ l : NodeIdx, d.left = some l → (bits (recordWord2 d) 8 9).toNat = l.val) ∧
    (d.right = none → bits (recordWord2 d) 17 9 = 0x1FF#9) ∧
    (∀ r : NodeIdx, d.right = some r → (bits (recordWord2 d) 17 9).toNat = r.val) ∧
    bits (recordWord2 d) 26 6 = 0#6

/-! ### Frequency accounting -/

/-- R131, R132: FREQ_SCAN counts every byte from the current position to the end of the source. -/
def Obligations.FreqScanCountsEveryByte : Prop :=
  ∀ s : State, s.errcode = none → NoCollaboratorFailure s → SourceOk s → CountsFit (remaining s) →
    ∃ t, exec .freqScan s = .next t ∧
      (∀ b : Byte, (atSym t.freq b).toNat = (remaining s).count b) ∧
      total t = (remaining s).length ∧ ndist t = distinctSymbols (remaining s) ∧ t.spos = s.srcseq.length ∧
      t = { s with
        empty := false, eos := false, freq := t.freq, rootValid := false, codesValid := false
        rwin := 0#8, rcnt := 0, spos := t.spos, draws := t.draws }

/-- R131, R132, R284: a FAIL of the source leaves the counts of the bytes read before it; a byte whose count is full
leaves the counts of the bytes before it, its own entry full. -/
def Obligations.FreqScanErrorsKeepTheCounts : Prop :=
  ∀ s : State, s.errcode = none →
    (∀ (k : Nat) (ds : List Bool), s.draws = List.replicate k false ++ true :: ds → k ≤ (remaining s).length →
      CountsFit ((remaining s).take k) →
      ∃ t, exec .freqScan s = .next t ∧ t.errcode = some .sourceRead ∧ t.errcmd = 0x11000000#32 ∧
        (∀ b : Byte, (atSym t.freq b).toNat = ((remaining s).take k).count b) ∧ t.spos = s.spos + k ∧
        t.rootValid = false ∧ t.codesValid = false) ∧
    (∀ (xs ys : List Byte) (b : Byte), NoCollaboratorFailure s → remaining s = xs ++ b :: ys → CountsFit xs →
      xs.count b = 2 ^ 32 - 1 →
      ∃ t, exec .freqScan s = .next t ∧ t.errcode = some .inputTooLong ∧ t.errcmd = 0x11000000#32 ∧
        (∀ c : Byte, (atSym t.freq c).toNat = xs.count c) ∧ t.spos = s.spos + xs.length + 1 ∧
        t.rootValid = false ∧ t.codesValid = false)

/-- R72, R135: SRC_REWIND clears the window, and moves the source to its start unless the rewind fails. -/
def Obligations.SrcRewindReturnsTheSource : Prop :=
  ∀ s : State, s.errcode = none →
    (s.draws = [] → exec .srcRewind s = .next { s with
      empty := false, eos := false, rwin := 0#8, rcnt := 0, spos := 0 }) ∧
    ∀ ds : List Bool,
      (s.draws = false :: ds → exec .srcRewind s = .next { s with
        empty := false, eos := false, rwin := 0#8, rcnt := 0, spos := 0, draws := ds }) ∧
      (s.draws = true :: ds → exec .srcRewind s = .next { s with
        empty := false, eos := false, rwin := 0#8, rcnt := 0, draws := ds
        errcode := some .sourceRead, errcmd := 0x14000000#32 })

/-! ### Node memory and heap -/

/-- R150: Less compares frequencies, breaks ties by creation order, and is a strict total order on indices. -/
def Obligations.LessIsAStrictTotalOrder : Prop :=
  ∀ s : State,
    (∀ a b : NodeIdx, less s a b = true ↔
      s.node[a].freq.toNat < s.node[b].freq.toNat ∨
        (s.node[a].freq.toNat = s.node[b].freq.toNat ∧ a.val < b.val)) ∧
    (∀ a : NodeIdx, less s a a = false) ∧
    (∀ a b c : NodeIdx, less s a b = true → less s b c = true → less s a c = true) ∧
    ∀ a b : NodeIdx, a ≠ b → (less s a b = true ↔ less s b a = false)

/-- R151, R152, R157: HEAP_INSERT creates the leaf in slot NNODES, queues it, and returns its record. -/
def Obligations.HeapInsertQueuesANewLeaf : Prop :=
  ∀ (sym : Byte) (s : State) (n : NodeIdx), s.errcode = none → s.nnodes.val = n.val → s.heapn.val < 511 →
    ∃ t, exec (.heapInsert sym) s = .next t ∧
      t.node = s.node.set n.val ⟨.leaf sym, zext 40 s.arg, none, none⟩ ∧ t.nnodes.val = s.nnodes.val + 1 ∧
      t.heapn.val = s.heapn.val + 1 ∧ (queue t).Perm (n :: queue s) ∧
      t.result0 = recordWord0 n t.node[n] ∧ t.result1 = s.arg ∧ t.result2 = 0x03FFFF00#32 ∧
      t = { s with
        empty := false, eos := false, rootValid := false, codesValid := false
        node := t.node, nnodes := t.nnodes, heap := t.heap, heapn := t.heapn
        result0 := t.result0, result1 := t.result1, result2 := t.result2 }

/-- R157, R158, R159: a full node memory is QueueOverflowError, and too few queued nodes set EMPTY; the heap and the
results stay as they are. -/
def Obligations.HeapCommandsAtTheirLimits : Prop :=
  ∀ s : State, s.errcode = none →
    (∀ sym : Byte, s.nnodes.val = 511 → exec (.heapInsert sym) s = .next { s with
      empty := false, eos := false, rootValid := false, codesValid := false
      errcode := some .queueOverflow, errcmd := encode (.heapInsert sym) }) ∧
    (2 ≤ s.heapn.val → s.nnodes.val = 511 → exec .heapMerge s = .next { s with
      empty := false, eos := false, rootValid := false, codesValid := false
      errcode := some .queueOverflow, errcmd := 0x23000000#32 }) ∧
    (s.heapn.val < 2 → exec .heapMerge s = .next { s with
      empty := true, eos := false, rootValid := false, codesValid := false }) ∧
    (s.heapn.val = 0 → exec .heapExtract s = .next { s with
      empty := true, eos := false, rootValid := false, codesValid := false })

/-- R153, R155, R158: HEAP_EXTRACT takes the least queued node out, leaves it in the slot just past the heap, and
returns its record; what stays queued is a heap again. -/
def Obligations.HeapExtractTakesTheLeastNode : Prop :=
  ∀ s : State, s.errcode = none → QueueOk s → HeapOrdered s → 0 < s.heapn.val →
    ∃ (n : NodeIdx) (t : State), exec .heapExtract s = .next t ∧
      n ∈ queue s ∧ (∀ m ∈ queue s, m ≠ n → less s n m = true) ∧
      (queue s).Perm (n :: queue t) ∧ HeapOrdered t ∧
      t.heapn.val + 1 = s.heapn.val ∧ (∀ i : NodeIdx, i.val = t.heapn.val → t.heap[i] = n) ∧
      t = { s with
        empty := false, eos := false, rootValid := false, codesValid := false, heap := t.heap, heapn := t.heapn
        result0 := recordWord0 n s.node[n], result1 := recordWord1 s.node[n], result2 := recordWord2 s.node[n] }

/-- R154, R159: HEAP_MERGE joins the two least queued nodes under a new internal node, the least on the left, and
queues it. The premise QueueWeighed is the model's form of R154's argument that the sum fits 40 bits. -/
def Obligations.HeapMergeJoinsTheTwoLeast : Prop :=
  ∀ (s : State) (n : NodeIdx), s.errcode = none → QueueOk s → HeapOrdered s → QueueWeighed s → 2 ≤ s.heapn.val →
    s.nnodes.val = n.val →
    ∃ (a b : NodeIdx) (others : List NodeIdx) (t : State), exec .heapMerge s = .next t ∧
      (queue s).Perm (a :: b :: others) ∧ (queue t).Perm (n :: others) ∧
      less s a b = true ∧ (∀ m ∈ others, less s b m = true) ∧
      t.node[n].freq.toNat = s.node[a].freq.toNat + s.node[b].freq.toNat ∧
      t.node = s.node.set n.val ⟨.sentinel, t.node[n].freq, some a, some b⟩ ∧
      t.nnodes.val = s.nnodes.val + 1 ∧ t.heapn.val + 1 = s.heapn.val ∧
      t = { s with
        empty := false, eos := false, rootValid := false, codesValid := false
        node := t.node, nnodes := t.nnodes, heap := t.heap, heapn := t.heapn
        result0 := recordWord0 n t.node[n], result1 := recordWord1 t.node[n], result2 := recordWord2 t.node[n] }

/-! ### Tree and codes -/

/-- R180, R182: BUILD_TREE completes for every table with a count, with the Huffman tree of R180: the leaves in
ascending symbol order in the first slots, then one internal node after the other, each joining the two nodes that are
least under Less among those still waiting, and the root last. It is a tree of exactly the table's symbols, and the
slots it does not use keep their contents. -/
def Obligations.BuildTreeBuildsATreeOfTheTable : Prop :=
  ∀ s : State, s.errcode = none → ndist s ≠ 0 →
    ∃ (t : State) (ps : List (Byte × BitVec 32)), exec .buildTree s = .next t ∧
      TreeOk t ∧ t.node[t.root].freq.toNat = total s ∧
      t.nnodes.val = 2 * ndist s - 1 ∧ t.root.val = 2 * ndist s - 2 ∧
      ps.length = ndist s ∧ (ps.map fun p => p.1.toNat).Pairwise (· < ·) ∧
      (∀ (b : Byte) (f : BitVec 32), (b, f) ∈ ps ↔ f = atSym s.freq b ∧ f ≠ 0#32) ∧
      (∀ (j : NodeIdx) (p : Byte × BitVec 32), ps[j.val]? = some p →
        t.node[j] = ⟨.leaf p.1, zext 40 p.2, none, none⟩) ∧
      (∀ n : NodeIdx, ndist s ≤ n.val → n.val < t.nnodes.val → JoinsTheTwoLeast t n) ∧
      (∀ n : NodeIdx, t.nnodes.val ≤ n.val → t.node[n] = s.node[n]) ∧
      t = { s with
        empty := false, eos := false, rootValid := true, codesValid := false
        node := t.node, nnodes := t.nnodes, heap := t.heap, heapn := 0, root := t.root }

/-- R187: the tree is a function of FREQ alone, and so is the code table made from it. -/
def Obligations.TreeDependsOnTheFrequenciesAlone : Prop :=
  ∀ s u t v : State, s.errcode = none → u.errcode = none → s.freq = u.freq → ndist s ≠ 0 →
    exec .buildTree s = .next t → exec .buildTree u = .next v →
    t.root = v.root ∧ t.nnodes = v.nnodes ∧
    (∀ n : NodeIdx, n.val < t.nnodes.val → t.node[n] = v.node[n]) ∧
    ∀ t' v' : State, exec .genCodes t = .next t' → exec .genCodes v = .next v' →
      t'.clen = v'.clen ∧ t'.cval = v'.cval ∧ t'.outbits = v'.outbits

/-- R181, R184: GEN_CODES completes on a valid tree; the code of every symbol of the table is the path to its leaf,
every other symbol has none, and OUTBITS is the sum of length times count. -/
def Obligations.GenCodesAssignsTheTreePaths : Prop :=
  ∀ s : State, s.errcode = none → s.rootValid = true → TreeOk s →
    ∃ t, exec .genCodes s = .next t ∧
      (∀ b : Byte, atSym s.freq b ≠ 0#32 → atSym t.clen b ≠ 0#8 ∧ CodePath s (codeOf t b) b) ∧
      (∀ b : Byte, atSym s.freq b = 0#32 → atSym t.clen b = 0#8) ∧
      (∀ b : Byte, (atSym t.cval b).toNat < 2 ^ (atSym t.clen b).toNat) ∧
      t.outbits.toNat = (allSymbols.map fun b => (atSym t.clen b).toNat * (atSym s.freq b).toNat).sum ∧
      t = { s with
        empty := false, eos := false, clen := t.clen, cval := t.cval, codesValid := true, outbits := t.outbits }

/-- R186(a), (c), (d): the codes of a valid table are prefix-free, their lengths are bounded by the number of symbols,
and with two or more symbols they are complete. -/
def Obligations.CodesArePrefixFreeAndComplete : Prop :=
  ∀ s : State, TreeOk s → CodesOk s →
    (∀ a b : Byte, a ≠ b → atSym s.clen a ≠ 0#8 → atSym s.clen b ≠ 0#8 → ¬ codeOf s a <+: codeOf s b) ∧
    (2 ≤ ndist s →
      (∀ b : Byte, atSym s.freq b ≠ 0#32 →
        1 ≤ (atSym s.clen b).toNat ∧ (atSym s.clen b).toNat ≤ ndist s - 1) ∧
      ((allSymbols.filter fun b => atSym s.clen b != 0#8).map fun b =>
        2 ^ (255 - (atSym s.clen b).toNat)).sum = 2 ^ 255) ∧
    (ndist s = 1 → ∀ b : Byte, atSym s.freq b ≠ 0#32 → atSym s.clen b = 1#8)

/-- R180, R182, R184, R200, R201, R225, R243, R285: the commands whose precondition fails raise its error before they
write anything. -/
def Obligations.CommandsCheckTheirPreconditions : Prop :=
  ∀ s : State, s.errcode = none →
    (ndist s = 0 → exec .buildTree s = .next { s with
      empty := false, eos := false, rootValid := false, codesValid := false, heapn := 0, nnodes := 0
      errcode := some .emptyInput, errcmd := 0x30000000#32 }) ∧
    (s.rootValid = false → exec .genCodes s = .next { s with
      empty := false, eos := false, errcode := some .illegalCommand, errcmd := 0x31000000#32 }) ∧
    (s.rootValid = false → exec .brSym s = .next { s with
      empty := false, eos := false, errcode := some .illegalCommand, errcmd := 0x62000000#32 }) ∧
    (∀ sym : Byte, s.codesValid = false → exec (.bwSym sym) s = .next { s with
      empty := false, eos := false, errcode := some .illegalCommand, errcmd := encode (.bwSym sym) }) ∧
    (∀ sym : Byte, s.codesValid = true → atSym s.clen sym = 0#8 → exec (.bwSym sym) s = .next { s with
      empty := false, eos := false, errcode := some .noCode, errcmd := encode (.bwSym sym) }) ∧
    (ndist s = 0 → exec .hdrWrite s = .next { s with
      empty := false, eos := false, errcode := some .emptyInput, errcmd := 0x40000000#32 }) ∧
    (ndist s = 256 → exec .hdrWrite s = .next { s with
      empty := false, eos := false, errcode := some .alphabetOverflow, errcmd := 0x40000000#32 })

/-! ### Header -/

/-- R101, R102, R200, R201: HDR_WRITE sends the count and then, in ascending symbol order, one pair for each symbol
with a count, least significant byte first. -/
def Obligations.HdrWriteSendsTheHeader : Prop :=
  ∀ s : State, s.errcode = none → NoCollaboratorFailure s → ndist s ≠ 0 → ndist s ≠ 256 →
    ∃ (t : State) (ps : List (Byte × BitVec 32)), exec .hdrWrite s = .next t ∧
      t.snkseq = s.snkseq ++ BitVec.ofNat 8 (ndist s) ::
        ps.flatMap (fun p => [p.1, bits p.2 0 8, bits p.2 8 8, bits p.2 16 8, bits p.2 24 8]) ∧
      ps.length = ndist s ∧ (ps.map fun p => p.1.toNat).Pairwise (· < ·) ∧
      (∀ (b : Byte) (f : BitVec 32), (b, f) ∈ ps ↔ f = atSym s.freq b ∧ f ≠ 0#32) ∧
      t = { s with empty := false, eos := false, snkseq := t.snkseq, draws := t.draws }

/-- R200, R264, R284: a sink that fails at the k-th byte keeps the bytes before it. -/
def Obligations.HdrWriteFailureKeepsThePrefix : Prop :=
  ∀ (s : State) (k : Nat) (ds : List Bool), s.errcode = none → ndist s ≠ 0 → ndist s ≠ 256 →
    s.draws = List.replicate k false ++ true :: ds → k < 1 + 5 * ndist s →
    exec .hdrWrite s = .next { s with
      empty := false, eos := false, snkseq := s.snkseq ++ (headerBytes s).take k, draws := ds
      errcode := some .sinkWrite, errcmd := 0x40000000#32 }

/-- R202, R203: HDR_READ takes the declared number of pairs, in any order of distinct symbols with nonzero counts, and
nothing after the last one. -/
def Obligations.HdrReadTakesPairsInAnyOrder : Prop :=
  ∀ (s : State) (ps : List (Byte × BitVec 32)) (rest : List Byte), s.errcode = none → NoCollaboratorFailure s →
    ps ≠ [] → ps.length ≤ 255 → (ps.map Prod.fst).Nodup → (∀ p ∈ ps, p.2 ≠ 0#32) →
    remaining s = BitVec.ofNat 8 ps.length ::
      ps.flatMap (fun p => [p.1, bits p.2 0 8, bits p.2 8 8, bits p.2 16 8, bits p.2 24 8]) ++ rest →
    ∃ t, exec .hdrRead s = .next t ∧
      (∀ p ∈ ps, atSym t.freq p.1 = p.2) ∧ (∀ b : Byte, b ∉ ps.map Prod.fst → atSym t.freq b = 0#32) ∧
      ndist t = ps.length ∧ remaining t = rest ∧ t.spos = s.spos + 1 + 5 * ps.length ∧
      t = { s with
        empty := false, eos := false, freq := t.freq, rootValid := false, codesValid := false
        rwin := 0#8, rcnt := 0, spos := t.spos, draws := t.draws }

/-- R204: reading the header that was written restores the table. -/
def Obligations.HeaderRoundTripRestoresTheTable : Prop :=
  ∀ (s t u : State), s.errcode = none → NoCollaboratorFailure s → ndist s ≠ 0 → ndist s ≠ 256 →
    exec .hdrWrite s = .next t →
    u.errcode = none → NoCollaboratorFailure u → remaining u = t.snkseq.drop s.snkseq.length →
    ∃ v, exec .hdrRead u = .next v ∧ v.errcode = none ∧ v.freq = s.freq

/-- R202, R203: the malformed headers. After any number of good pairs, a source that ends inside a pair, a zero
frequency and a repeated symbol are HeaderCorruptError; so is a source with no count, and a count of 0 is
EmptyInputError. FREQ holds the pairs accepted, and the source stands past the bytes read. -/
def Obligations.HdrReadRejectsMalformedHeaders : Prop :=
  ∀ s : State, s.errcode = none → NoCollaboratorFailure s →
    (remaining s = [] → ∃ t, exec .hdrRead s = .next t ∧ HeaderRefused s t .headerCorrupt [] 0) ∧
    (∀ rest : List Byte, remaining s = 0#8 :: rest →
      ∃ t, exec .hdrRead s = .next t ∧ HeaderRefused s t .emptyInput [] 1) ∧
    ∀ (c : Byte) (ps : List (Byte × BitVec 32)) (bad : List Byte),
      ps.length < c.toNat → (ps.map Prod.fst).Nodup → (∀ p ∈ ps, p.2 ≠ 0#32) →
      remaining s = c ::
        ps.flatMap (fun p => [p.1, bits p.2 0 8, bits p.2 8 8, bits p.2 16 8, bits p.2 24 8]) ++ bad →
      (bad.length < 5 →
        ∃ t, exec .hdrRead s = .next t ∧
          HeaderRefused s t .headerCorrupt ps (1 + 5 * ps.length + bad.length)) ∧
      (∀ (b : Byte) (rest : List Byte), bad = b :: 0#8 :: 0#8 :: 0#8 :: 0#8 :: rest →
        ∃ t, exec .hdrRead s = .next t ∧ HeaderRefused s t .headerCorrupt ps (1 + 5 * (ps.length + 1))) ∧
      (∀ (b f0 f1 f2 f3 : Byte) (rest : List Byte), bad = b :: f0 :: f1 :: f2 :: f3 :: rest →
        b ∈ ps.map Prod.fst →
        ∃ t, exec .hdrRead s = .next t ∧ HeaderRefused s t .headerCorrupt ps (1 + 5 * (ps.length + 1)))

/-! ### Bit writer and bit reader -/

/-- R220, R223: BW_BIT appends its bit to the bits written, and a full byte goes to the sink; where the sink then
fails, the byte is lost and the buffer is empty. -/
def Obligations.BwBitAppendsOneBit : Prop :=
  ∀ (b : Bool) (s : State), s.errcode = none → WriterOk s →
    (NoCollaboratorFailure s → ∃ t, exec (.bwBit b) s = .next t ∧
      writtenBits t = writtenBits s ++ [b] ∧ t.wcnt.val = (s.wcnt.val + 1) % 8 ∧ WriterOk t ∧
      t = { s with
        empty := false, eos := false, wacc := t.wacc, wcnt := t.wcnt, snkseq := t.snkseq, draws := t.draws }) ∧
    ∀ ds : List Bool, s.draws = true :: ds → s.wcnt.val = 7 →
      exec (.bwBit b) s = .next { s with
        empty := false, eos := false, wacc := 0#8, wcnt := 0, draws := ds
        errcode := some .sinkWrite, errcmd := encode (.bwBit b) }

/-- R221, R224: BW_FLUSH pads the partial byte with zero bits and sends it; with none pending it writes nothing. -/
def Obligations.BwFlushPadsThePartialByte : Prop :=
  ∀ s : State, s.errcode = none → WriterOk s → NoCollaboratorFailure s →
    ∃ t, exec .bwFlush s = .next t ∧
      streamBits t.snkseq = writtenBits s ++ List.replicate ((8 - s.wcnt.val) % 8) false ∧
      t.wcnt.val = 0 ∧ (s.wcnt.val ≠ 0 → t.wacc = 0#8) ∧ (s.wcnt.val = 0 → t.snkseq = s.snkseq) ∧
      t = { s with
        empty := false, eos := false, wacc := t.wacc, wcnt := t.wcnt, snkseq := t.snkseq, draws := t.draws }

/-- R104, R222, R225: BW_SYM appends the symbol's code, first bit first, and counts the symbol. -/
def Obligations.BwSymWritesTheCode : Prop :=
  ∀ (sym : Byte) (s : State), s.errcode = none → s.codesValid = true → atSym s.clen sym ≠ 0#8 → WriterOk s →
    NoCollaboratorFailure s →
    ∃ t, exec (.bwSym sym) s = .next t ∧ writtenBits t = writtenBits s ++ codeOf s sym ∧ WriterOk t ∧
      t = { s with
        empty := false, eos := false, wacc := t.wacc, wcnt := t.wcnt, snkseq := t.snkseq, draws := t.draws
        xcnt := s.xcnt + 1#40 }

/-- R241, R242: BR_BIT returns the next bit, most significant first, and sets EOS where none is left. -/
def Obligations.BrBitReturnsTheNextBit : Prop :=
  ∀ s : State, s.errcode = none → NoCollaboratorFailure s →
    (∀ (b : Bool) (rest : List Bool), unreadBits s = b :: rest →
      ∃ t, exec .brBit s = .next t ∧ t.result0 = (if b then 1#32 else 0#32) ∧ unreadBits t = rest ∧
        t = { s with
          empty := false, eos := false, result0 := t.result0, rwin := t.rwin, rcnt := t.rcnt
          spos := t.spos, draws := t.draws }) ∧
    (unreadBits s = [] →
      ∃ t, exec .brBit s = .next t ∧ t = { s with empty := false, eos := true, draws := t.draws })

/-- R243, R244: with a tree, BR_SYM reads exactly the bits of one code and returns its symbol. -/
def Obligations.BrSymDecodesOneCode : Prop :=
  ∀ (s : State) (p rest : List Bool) (b : Byte), s.errcode = none → NoCollaboratorFailure s → s.rootValid = true →
    CodePath s p b → unreadBits s = p ++ rest →
    ∃ t, exec .brSym s = .next t ∧ t.result0.toNat = b.toNat ∧ unreadBits t = rest ∧
      t = { s with
        empty := false, eos := false, result0 := t.result0, rwin := t.rwin, rcnt := t.rcnt
        spos := t.spos, draws := t.draws, xcnt := s.xcnt + 1#40 }

/-- R243, R244: the source's end at a symbol boundary is EOS, inside a code PayloadTruncatedError; a 1 under a
single-leaf tree is PayloadCorruptError. -/
def Obligations.BrSymTellsTheEndsApart : Prop :=
  ∀ s : State, s.errcode = none → NoCollaboratorFailure s → s.rootValid = true →
    (unreadBits s = [] →
      ∃ t, exec .brSym s = .next t ∧ t = { s with empty := false, eos := true, draws := t.draws }) ∧
    (∀ (p q : List Bool) (b : Byte), p ≠ [] → q ≠ [] → unreadBits s = p → s.node[s.root].sym = .sentinel →
      PathTo s s.root (p ++ q) b →
      ∃ t, exec .brSym s = .next t ∧ t.errcode = some .payloadTruncated ∧ t.errcmd = 0x62000000#32 ∧
        t.xcnt = s.xcnt ∧ t.result0 = s.result0 ∧ unreadBits t = []) ∧
    ∀ (b : Byte) (rest : List Bool), s.node[s.root].sym = .leaf b → unreadBits s = true :: rest →
      ∃ t, exec .brSym s = .next t ∧ t.errcode = some .payloadCorrupt ∧ t.errcmd = 0x62000000#32 ∧
        t.xcnt = s.xcnt ∧ t.result0 = s.result0 ∧ unreadBits t = rest

/-! ### Sequencers -/

/-- R100 to R103, R260, R262: COMPRESS of a source of 1 to 255 distinct symbols completes; the sink has gained the
header and the codes of the source's bytes padded to a byte, and the registers hold the statistics. -/
def Obligations.CompressWritesHeaderAndPayload : Prop :=
  ∀ s : State, s.errcode = none → NoCollaboratorFailure s → s.srcseq ≠ [] → distinctSymbols s.srcseq ≤ 255 →
    CountsFit s.srcseq →
    ∃ (t : State) (payload : List Byte) (pad : Nat), exec .compress s = .next t ∧
      (∀ b : Byte, (atSym t.freq b).toNat = s.srcseq.count b) ∧ TreeOk t ∧ CodesOk t ∧
      t.snkseq = s.snkseq ++ headerBytes t ++ payload ∧ pad < 8 ∧
      streamBits payload = s.srcseq.flatMap (codeOf t) ++ List.replicate pad false ∧
      total t = s.srcseq.length ∧ t.xcnt.toNat = s.srcseq.length ∧
      t.outbits.toNat = (s.srcseq.flatMap (codeOf t)).length ∧ t.spos = s.srcseq.length ∧
      t = { s with
        empty := false, eos := false, rootValid := true, codesValid := true
        wacc := 0#8, wcnt := 0, rwin := 0#8, rcnt := 0
        freq := t.freq, node := t.node, nnodes := t.nnodes, heap := t.heap, heapn := t.heapn, root := t.root
        clen := t.clen, cval := t.cval, outbits := t.outbits, xcnt := t.xcnt
        spos := t.spos, snkseq := t.snkseq, draws := t.draws }

/-- R260: an empty source and a source of all 256 symbols are refused before anything is written. -/
def Obligations.CompressRefusesItsBoundaries : Prop :=
  ∀ s : State, s.errcode = none → NoCollaboratorFailure s → CountsFit s.srcseq →
    (s.srcseq = [] → ∃ t, exec .compress s = .next t ∧ t.errcode = some .emptyInput ∧
      t.errcmd = 0x70000000#32 ∧ t.snkseq = s.snkseq) ∧
    (distinctSymbols s.srcseq = 256 → ∃ t, exec .compress s = .next t ∧ t.errcode = some .alphabetOverflow ∧
      t.errcmd = 0x70000000#32 ∧ t.snkseq = s.snkseq ∧ t.spos = s.srcseq.length)

/-- R261, R262: DECOMPRESS of a header and the codes of the bytes `xs` it counts completes and writes exactly `xs`;
what stands after the payload is not read. The codes are those BUILD_TREE and GEN_CODES give for the header's table. -/
def Obligations.DecompressRecoversTheSymbols : Prop :=
  ∀ (s table tree codes : State) (xs payload rest : List Byte) (pad : Nat),
    table.errcode = none → xs ≠ [] → distinctSymbols xs ≤ 255 →
    (∀ b : Byte, (atSym table.freq b).toNat = xs.count b) →
    exec .buildTree table = .next tree → exec .genCodes tree = .next codes →
    s.errcode = none → NoCollaboratorFailure s → pad < 8 →
    streamBits payload = xs.flatMap (codeOf codes) ++ List.replicate pad false →
    remaining s = headerBytes table ++ payload ++ rest →
    ∃ t, exec .decompress s = .next t ∧ t.snkseq = s.snkseq ++ xs ∧ t.freq = table.freq ∧
      t.xcnt.toNat = xs.length ∧ remaining t = rest ∧ t.rcnt.val = pad ∧
      t = { s with
        empty := false, eos := false, rootValid := true, codesValid := false, freq := t.freq
        node := t.node, nnodes := t.nnodes, heap := t.heap, heapn := t.heapn, root := t.root
        xcnt := t.xcnt, rwin := t.rwin, rcnt := t.rcnt, spos := t.spos, snkseq := t.snkseq, draws := t.draws }

/-- R261, R244: DECOMPRESS completes on every stream of one symbol, whatever its count: a header of one pair and the
zero bits of the payload, one for each symbol, padded to a byte. -/
def Obligations.DecompressOfOneSymbolWritesItsRun : Prop :=
  ∀ (s : State) (b : Byte) (f : BitVec 32) (rest : List Byte), s.errcode = none → NoCollaboratorFailure s →
    f ≠ 0#32 →
    remaining s = 1#8 :: b :: bits f 0 8 :: bits f 8 8 :: bits f 16 8 :: bits f 24 8 ::
      (List.replicate ((f.toNat + 7) / 8) 0#8 ++ rest) →
    ∃ t, exec .decompress s = .next t ∧ t.snkseq = s.snkseq ++ List.replicate f.toNat b ∧
      (∀ a : Byte, atSym t.freq a = if a = b then f else 0#32) ∧ t.xcnt.toNat = f.toNat ∧ t.nnodes.val = 1 ∧
      remaining t = rest ∧ t.rcnt.val = (8 - f.toNat % 8) % 8 ∧
      t = { s with
        empty := false, eos := false, rootValid := true, codesValid := false, freq := t.freq
        node := t.node, nnodes := t.nnodes, heap := t.heap, heapn := 0, root := 0
        xcnt := t.xcnt, rwin := 0#8, rcnt := t.rcnt, spos := t.spos, snkseq := t.snkseq, draws := t.draws }

/-- R261, R264: where DECOMPRESS stops in the payload, and that the symbols decoded before stand. A source that ends
before the table's TOTAL symbols, at a symbol boundary (`p` empty) or inside a code, is PayloadTruncatedError; a 1 under
a single-leaf tree is PayloadCorruptError. -/
def Obligations.DecompressTellsTheEndsApart : Prop :=
  ∀ (s table : State) (payload : List Byte), table.errcode = none → ndist table ≠ 0 → ndist table ≠ 256 →
    s.errcode = none → NoCollaboratorFailure s → remaining s = headerBytes table ++ payload →
    (∀ (tree codes : State) (xs : List Byte) (p q : List Bool) (b : Byte),
      exec .buildTree table = .next tree → exec .genCodes tree = .next codes →
      (∀ x ∈ xs, atSym table.freq x ≠ 0#32) → atSym table.freq b ≠ 0#32 → xs.length < total table →
      codeOf codes b = p ++ q → q ≠ [] → streamBits payload = xs.flatMap (codeOf codes) ++ p →
      ∃ t, exec .decompress s = .next t ∧ PayloadRefused s t .payloadTruncated xs ∧ t.freq = table.freq ∧
        unreadBits t = []) ∧
    (∀ (b : Byte) (k : Nat) (more : List Bool), ndist table = 1 → atSym table.freq b ≠ 0#32 → k < total table →
      streamBits payload = List.replicate k false ++ true :: more →
      ∃ t, exec .decompress s = .next t ∧ PayloadRefused s t .payloadCorrupt (List.replicate k b) ∧
        t.freq = table.freq ∧ unreadBits t = more)

/-- R263: DECOMPRESS of what COMPRESS wrote gives the source back. -/
def Obligations.DecompressOfCompressIsTheSource : Prop :=
  ∀ s t u : State, s.errcode = none → NoCollaboratorFailure s → s.srcseq ≠ [] → distinctSymbols s.srcseq ≤ 255 →
    CountsFit s.srcseq → exec .compress s = .next t →
    u.errcode = none → NoCollaboratorFailure u → u.srcseq = t.snkseq.drop s.snkseq.length → u.spos = 0 →
    ∃ v, exec .decompress u = .next v ∧ v.errcode = none ∧ v.snkseq = u.snkseq ++ s.srcseq

/-! ### Invariants -/

/-- R35, R37, R39, R40: the reset state meets every invariant. -/
def Obligations.ResetMeetsTheInvariants : Prop :=
  WriterOk State.reset ∧ SourceOk State.reset ∧ TablesOk State.reset ∧ QueueWeighed State.reset

/-- R35, R39: every step keeps `WACC < 2^WCNT` and `SPOS ≤ |SRCSEQ|`. -/
def Obligations.EveryStepKeepsTheBuffersSound : Prop :=
  ∀ s t : State, WriterOk s → SourceOk s → step s = .next t → WriterOk t ∧ SourceOk t

/-- R37(a), (b): every step keeps the queue's counts and its distinct indices. -/
def Obligations.EveryStepKeepsTheQueueSound : Prop :=
  ∀ s t : State, QueueOk s → step s = .next t → QueueOk t

/-- R37(c), R155(a): every step keeps the heap property. -/
def Obligations.EveryStepKeepsTheHeapOrdered : Prop :=
  ∀ s t : State, QueueOk s → HeapOrdered s → step s = .next t → HeapOrdered t

/-- R37 (a) to (e): every step keeps them all; a valid tree is a tree of the current table, and a valid code table is
that of the current tree. -/
def Obligations.EveryStepKeepsTheTablesSound : Prop :=
  ∀ s t : State, TablesOk s → step s = .next t → TablesOk t

/-- R154: every step keeps the queued nodes' frequencies within what their slots allow. -/
def Obligations.EveryStepKeepsTheQueueWeighed : Prop :=
  ∀ s t : State, QueueOk s → QueueWeighed s → step s = .next t → QueueWeighed t

/-- R10, R154, R181, R186(c), R220: in a state that meets the invariants no step stops; no sum overflows its width, no
walk leaves its tree. -/
def Obligations.NoStepStopsUnderTheInvariants : Prop :=
  ∀ s : State, WriterOk s → TablesOk s → QueueWeighed s → ∀ f : Fault, step s ≠ .fault f

/-- R297: an access to one engine of a platform, and a step of one engine, leaves every other engine as it was. -/
def Obligations.EnginesShareNoState : Prop :=
  (∀ (b : BusAct) (addr : Nat) (p q : Platform), platformAccess b addr p = .next q →
    q.map Placed.base = p.map Placed.base ∧
    ∀ (k : Nat) (e : Placed), p[k]? = some e → e.covers addr = false → q[k]? = some e) ∧
  (∀ (k : Nat) (p q : Platform), platformStep k p = .next q →
    q.map Placed.base = p.map Placed.base ∧ (∀ j : Nat, j ≠ k → q[j]? = p[j]?) ∧
    ∃ (e : Placed) (t : State), p[k]? = some e ∧ step e.engine = .next t ∧ q[k]? = some { e with engine := t })
end

