-- ==== Sys2Proof/Laws/State.lean ====
section
/-!
SUPPORT. What each named update of the state leaves in each field: one lemma per field and update, so that no proof
unfolds a record update.
-/

namespace Sys2Proof.Machine

/-! ### clearFlags -/

@[simp] theorem clearFlags_arg (s : State) : (clearFlags s).arg = s.arg := rfl
@[simp] theorem clearFlags_result0 (s : State) : (clearFlags s).result0 = s.result0 := rfl
@[simp] theorem clearFlags_result1 (s : State) : (clearFlags s).result1 = s.result1 := rfl
@[simp] theorem clearFlags_result2 (s : State) : (clearFlags s).result2 = s.result2 := rfl
@[simp] theorem clearFlags_errcode (s : State) : (clearFlags s).errcode = s.errcode := rfl
@[simp] theorem clearFlags_errcmd (s : State) : (clearFlags s).errcmd = s.errcmd := rfl
@[simp] theorem clearFlags_empty (s : State) : (clearFlags s).empty = false := rfl
@[simp] theorem clearFlags_eos (s : State) : (clearFlags s).eos = false := rfl
@[simp] theorem clearFlags_freq (s : State) : (clearFlags s).freq = s.freq := rfl
@[simp] theorem clearFlags_node (s : State) : (clearFlags s).node = s.node := rfl
@[simp] theorem clearFlags_nnodes (s : State) : (clearFlags s).nnodes = s.nnodes := rfl
@[simp] theorem clearFlags_heap (s : State) : (clearFlags s).heap = s.heap := rfl
@[simp] theorem clearFlags_heapn (s : State) : (clearFlags s).heapn = s.heapn := rfl
@[simp] theorem clearFlags_root (s : State) : (clearFlags s).root = s.root := rfl
@[simp] theorem clearFlags_rootValid (s : State) : (clearFlags s).rootValid = s.rootValid := rfl
@[simp] theorem clearFlags_clen (s : State) : (clearFlags s).clen = s.clen := rfl
@[simp] theorem clearFlags_cval (s : State) : (clearFlags s).cval = s.cval := rfl
@[simp] theorem clearFlags_codesValid (s : State) : (clearFlags s).codesValid = s.codesValid := rfl
@[simp] theorem clearFlags_outbits (s : State) : (clearFlags s).outbits = s.outbits := rfl
@[simp] theorem clearFlags_xcnt (s : State) : (clearFlags s).xcnt = s.xcnt := rfl
@[simp] theorem clearFlags_wacc (s : State) : (clearFlags s).wacc = s.wacc := rfl
@[simp] theorem clearFlags_wcnt (s : State) : (clearFlags s).wcnt = s.wcnt := rfl
@[simp] theorem clearFlags_rwin (s : State) : (clearFlags s).rwin = s.rwin := rfl
@[simp] theorem clearFlags_rcnt (s : State) : (clearFlags s).rcnt = s.rcnt := rfl
@[simp] theorem clearFlags_srcseq (s : State) : (clearFlags s).srcseq = s.srcseq := rfl
@[simp] theorem clearFlags_spos (s : State) : (clearFlags s).spos = s.spos := rfl
@[simp] theorem clearFlags_snkseq (s : State) : (clearFlags s).snkseq = s.snkseq := rfl
@[simp] theorem clearFlags_draws (s : State) : (clearFlags s).draws = s.draws := rfl
@[simp] theorem clearFlags_pending (s : State) : (clearFlags s).pending = s.pending := rfl
@[simp] theorem clearFlags_answers (s : State) : (clearFlags s).answers = s.answers := rfl

/-! ### setEmpty -/

@[simp] theorem setEmpty_arg (s : State) : (setEmpty s).arg = s.arg := rfl
@[simp] theorem setEmpty_result0 (s : State) : (setEmpty s).result0 = s.result0 := rfl
@[simp] theorem setEmpty_result1 (s : State) : (setEmpty s).result1 = s.result1 := rfl
@[simp] theorem setEmpty_result2 (s : State) : (setEmpty s).result2 = s.result2 := rfl
@[simp] theorem setEmpty_errcode (s : State) : (setEmpty s).errcode = s.errcode := rfl
@[simp] theorem setEmpty_errcmd (s : State) : (setEmpty s).errcmd = s.errcmd := rfl
@[simp] theorem setEmpty_empty (s : State) : (setEmpty s).empty = true := rfl
@[simp] theorem setEmpty_eos (s : State) : (setEmpty s).eos = s.eos := rfl
@[simp] theorem setEmpty_freq (s : State) : (setEmpty s).freq = s.freq := rfl
@[simp] theorem setEmpty_node (s : State) : (setEmpty s).node = s.node := rfl
@[simp] theorem setEmpty_nnodes (s : State) : (setEmpty s).nnodes = s.nnodes := rfl
@[simp] theorem setEmpty_heap (s : State) : (setEmpty s).heap = s.heap := rfl
@[simp] theorem setEmpty_heapn (s : State) : (setEmpty s).heapn = s.heapn := rfl
@[simp] theorem setEmpty_root (s : State) : (setEmpty s).root = s.root := rfl
@[simp] theorem setEmpty_rootValid (s : State) : (setEmpty s).rootValid = s.rootValid := rfl
@[simp] theorem setEmpty_clen (s : State) : (setEmpty s).clen = s.clen := rfl
@[simp] theorem setEmpty_cval (s : State) : (setEmpty s).cval = s.cval := rfl
@[simp] theorem setEmpty_codesValid (s : State) : (setEmpty s).codesValid = s.codesValid := rfl
@[simp] theorem setEmpty_outbits (s : State) : (setEmpty s).outbits = s.outbits := rfl
@[simp] theorem setEmpty_xcnt (s : State) : (setEmpty s).xcnt = s.xcnt := rfl
@[simp] theorem setEmpty_wacc (s : State) : (setEmpty s).wacc = s.wacc := rfl
@[simp] theorem setEmpty_wcnt (s : State) : (setEmpty s).wcnt = s.wcnt := rfl
@[simp] theorem setEmpty_rwin (s : State) : (setEmpty s).rwin = s.rwin := rfl
@[simp] theorem setEmpty_rcnt (s : State) : (setEmpty s).rcnt = s.rcnt := rfl
@[simp] theorem setEmpty_srcseq (s : State) : (setEmpty s).srcseq = s.srcseq := rfl
@[simp] theorem setEmpty_spos (s : State) : (setEmpty s).spos = s.spos := rfl
@[simp] theorem setEmpty_snkseq (s : State) : (setEmpty s).snkseq = s.snkseq := rfl
@[simp] theorem setEmpty_draws (s : State) : (setEmpty s).draws = s.draws := rfl
@[simp] theorem setEmpty_pending (s : State) : (setEmpty s).pending = s.pending := rfl
@[simp] theorem setEmpty_answers (s : State) : (setEmpty s).answers = s.answers := rfl

/-! ### setEos -/

@[simp] theorem setEos_arg (s : State) : (setEos s).arg = s.arg := rfl
@[simp] theorem setEos_result0 (s : State) : (setEos s).result0 = s.result0 := rfl
@[simp] theorem setEos_result1 (s : State) : (setEos s).result1 = s.result1 := rfl
@[simp] theorem setEos_result2 (s : State) : (setEos s).result2 = s.result2 := rfl
@[simp] theorem setEos_errcode (s : State) : (setEos s).errcode = s.errcode := rfl
@[simp] theorem setEos_errcmd (s : State) : (setEos s).errcmd = s.errcmd := rfl
@[simp] theorem setEos_empty (s : State) : (setEos s).empty = s.empty := rfl
@[simp] theorem setEos_eos (s : State) : (setEos s).eos = true := rfl
@[simp] theorem setEos_freq (s : State) : (setEos s).freq = s.freq := rfl
@[simp] theorem setEos_node (s : State) : (setEos s).node = s.node := rfl
@[simp] theorem setEos_nnodes (s : State) : (setEos s).nnodes = s.nnodes := rfl
@[simp] theorem setEos_heap (s : State) : (setEos s).heap = s.heap := rfl
@[simp] theorem setEos_heapn (s : State) : (setEos s).heapn = s.heapn := rfl
@[simp] theorem setEos_root (s : State) : (setEos s).root = s.root := rfl
@[simp] theorem setEos_rootValid (s : State) : (setEos s).rootValid = s.rootValid := rfl
@[simp] theorem setEos_clen (s : State) : (setEos s).clen = s.clen := rfl
@[simp] theorem setEos_cval (s : State) : (setEos s).cval = s.cval := rfl
@[simp] theorem setEos_codesValid (s : State) : (setEos s).codesValid = s.codesValid := rfl
@[simp] theorem setEos_outbits (s : State) : (setEos s).outbits = s.outbits := rfl
@[simp] theorem setEos_xcnt (s : State) : (setEos s).xcnt = s.xcnt := rfl
@[simp] theorem setEos_wacc (s : State) : (setEos s).wacc = s.wacc := rfl
@[simp] theorem setEos_wcnt (s : State) : (setEos s).wcnt = s.wcnt := rfl
@[simp] theorem setEos_rwin (s : State) : (setEos s).rwin = s.rwin := rfl
@[simp] theorem setEos_rcnt (s : State) : (setEos s).rcnt = s.rcnt := rfl
@[simp] theorem setEos_srcseq (s : State) : (setEos s).srcseq = s.srcseq := rfl
@[simp] theorem setEos_spos (s : State) : (setEos s).spos = s.spos := rfl
@[simp] theorem setEos_snkseq (s : State) : (setEos s).snkseq = s.snkseq := rfl
@[simp] theorem setEos_draws (s : State) : (setEos s).draws = s.draws := rfl
@[simp] theorem setEos_pending (s : State) : (setEos s).pending = s.pending := rfl
@[simp] theorem setEos_answers (s : State) : (setEos s).answers = s.answers := rfl

/-! ### invalidateTree -/

@[simp] theorem invalidateTree_arg (s : State) : (invalidateTree s).arg = s.arg := rfl
@[simp] theorem invalidateTree_result0 (s : State) : (invalidateTree s).result0 = s.result0 := rfl
@[simp] theorem invalidateTree_result1 (s : State) : (invalidateTree s).result1 = s.result1 := rfl
@[simp] theorem invalidateTree_result2 (s : State) : (invalidateTree s).result2 = s.result2 := rfl
@[simp] theorem invalidateTree_errcode (s : State) : (invalidateTree s).errcode = s.errcode := rfl
@[simp] theorem invalidateTree_errcmd (s : State) : (invalidateTree s).errcmd = s.errcmd := rfl
@[simp] theorem invalidateTree_empty (s : State) : (invalidateTree s).empty = s.empty := rfl
@[simp] theorem invalidateTree_eos (s : State) : (invalidateTree s).eos = s.eos := rfl
@[simp] theorem invalidateTree_freq (s : State) : (invalidateTree s).freq = s.freq := rfl
@[simp] theorem invalidateTree_node (s : State) : (invalidateTree s).node = s.node := rfl
@[simp] theorem invalidateTree_nnodes (s : State) : (invalidateTree s).nnodes = s.nnodes := rfl
@[simp] theorem invalidateTree_heap (s : State) : (invalidateTree s).heap = s.heap := rfl
@[simp] theorem invalidateTree_heapn (s : State) : (invalidateTree s).heapn = s.heapn := rfl
@[simp] theorem invalidateTree_root (s : State) : (invalidateTree s).root = s.root := rfl
@[simp] theorem invalidateTree_rootValid (s : State) : (invalidateTree s).rootValid = false := rfl
@[simp] theorem invalidateTree_clen (s : State) : (invalidateTree s).clen = s.clen := rfl
@[simp] theorem invalidateTree_cval (s : State) : (invalidateTree s).cval = s.cval := rfl
@[simp] theorem invalidateTree_codesValid (s : State) : (invalidateTree s).codesValid = false := rfl
@[simp] theorem invalidateTree_outbits (s : State) : (invalidateTree s).outbits = s.outbits := rfl
@[simp] theorem invalidateTree_xcnt (s : State) : (invalidateTree s).xcnt = s.xcnt := rfl
@[simp] theorem invalidateTree_wacc (s : State) : (invalidateTree s).wacc = s.wacc := rfl
@[simp] theorem invalidateTree_wcnt (s : State) : (invalidateTree s).wcnt = s.wcnt := rfl
@[simp] theorem invalidateTree_rwin (s : State) : (invalidateTree s).rwin = s.rwin := rfl
@[simp] theorem invalidateTree_rcnt (s : State) : (invalidateTree s).rcnt = s.rcnt := rfl
@[simp] theorem invalidateTree_srcseq (s : State) : (invalidateTree s).srcseq = s.srcseq := rfl
@[simp] theorem invalidateTree_spos (s : State) : (invalidateTree s).spos = s.spos := rfl
@[simp] theorem invalidateTree_snkseq (s : State) : (invalidateTree s).snkseq = s.snkseq := rfl
@[simp] theorem invalidateTree_draws (s : State) : (invalidateTree s).draws = s.draws := rfl
@[simp] theorem invalidateTree_pending (s : State) : (invalidateTree s).pending = s.pending := rfl
@[simp] theorem invalidateTree_answers (s : State) : (invalidateTree s).answers = s.answers := rfl

/-! ### enterError -/

@[simp] theorem enterError_arg (cur : Word) (e : ErrKind) (s : State) : (enterError cur e s).arg = s.arg := rfl
@[simp] theorem enterError_result0 (cur : Word) (e : ErrKind) (s : State) : (enterError cur e s).result0 = s.result0 := rfl
@[simp] theorem enterError_result1 (cur : Word) (e : ErrKind) (s : State) : (enterError cur e s).result1 = s.result1 := rfl
@[simp] theorem enterError_result2 (cur : Word) (e : ErrKind) (s : State) : (enterError cur e s).result2 = s.result2 := rfl
@[simp] theorem enterError_errcode (cur : Word) (e : ErrKind) (s : State) : (enterError cur e s).errcode = some e := rfl
@[simp] theorem enterError_errcmd (cur : Word) (e : ErrKind) (s : State) : (enterError cur e s).errcmd = cur := rfl
@[simp] theorem enterError_empty (cur : Word) (e : ErrKind) (s : State) : (enterError cur e s).empty = s.empty := rfl
@[simp] theorem enterError_eos (cur : Word) (e : ErrKind) (s : State) : (enterError cur e s).eos = s.eos := rfl
@[simp] theorem enterError_freq (cur : Word) (e : ErrKind) (s : State) : (enterError cur e s).freq = s.freq := rfl
@[simp] theorem enterError_node (cur : Word) (e : ErrKind) (s : State) : (enterError cur e s).node = s.node := rfl
@[simp] theorem enterError_nnodes (cur : Word) (e : ErrKind) (s : State) : (enterError cur e s).nnodes = s.nnodes := rfl
@[simp] theorem enterError_heap (cur : Word) (e : ErrKind) (s : State) : (enterError cur e s).heap = s.heap := rfl
@[simp] theorem enterError_heapn (cur : Word) (e : ErrKind) (s : State) : (enterError cur e s).heapn = s.heapn := rfl
@[simp] theorem enterError_root (cur : Word) (e : ErrKind) (s : State) : (enterError cur e s).root = s.root := rfl
@[simp] theorem enterError_rootValid (cur : Word) (e : ErrKind) (s : State) : (enterError cur e s).rootValid = s.rootValid := rfl
@[simp] theorem enterError_clen (cur : Word) (e : ErrKind) (s : State) : (enterError cur e s).clen = s.clen := rfl
@[simp] theorem enterError_cval (cur : Word) (e : ErrKind) (s : State) : (enterError cur e s).cval = s.cval := rfl
@[simp] theorem enterError_codesValid (cur : Word) (e : ErrKind) (s : State) : (enterError cur e s).codesValid = s.codesValid := rfl
@[simp] theorem enterError_outbits (cur : Word) (e : ErrKind) (s : State) : (enterError cur e s).outbits = s.outbits := rfl
@[simp] theorem enterError_xcnt (cur : Word) (e : ErrKind) (s : State) : (enterError cur e s).xcnt = s.xcnt := rfl
@[simp] theorem enterError_wacc (cur : Word) (e : ErrKind) (s : State) : (enterError cur e s).wacc = s.wacc := rfl
@[simp] theorem enterError_wcnt (cur : Word) (e : ErrKind) (s : State) : (enterError cur e s).wcnt = s.wcnt := rfl
@[simp] theorem enterError_rwin (cur : Word) (e : ErrKind) (s : State) : (enterError cur e s).rwin = s.rwin := rfl
@[simp] theorem enterError_rcnt (cur : Word) (e : ErrKind) (s : State) : (enterError cur e s).rcnt = s.rcnt := rfl
@[simp] theorem enterError_srcseq (cur : Word) (e : ErrKind) (s : State) : (enterError cur e s).srcseq = s.srcseq := rfl
@[simp] theorem enterError_spos (cur : Word) (e : ErrKind) (s : State) : (enterError cur e s).spos = s.spos := rfl
@[simp] theorem enterError_snkseq (cur : Word) (e : ErrKind) (s : State) : (enterError cur e s).snkseq = s.snkseq := rfl
@[simp] theorem enterError_draws (cur : Word) (e : ErrKind) (s : State) : (enterError cur e s).draws = s.draws := rfl
@[simp] theorem enterError_pending (cur : Word) (e : ErrKind) (s : State) : (enterError cur e s).pending = s.pending := rfl
@[simp] theorem enterError_answers (cur : Word) (e : ErrKind) (s : State) : (enterError cur e s).answers = s.answers := rfl

/-! ### clearFreq -/

@[simp] theorem clearFreq_arg (s : State) : (clearFreq s).arg = s.arg := rfl
@[simp] theorem clearFreq_result0 (s : State) : (clearFreq s).result0 = s.result0 := rfl
@[simp] theorem clearFreq_result1 (s : State) : (clearFreq s).result1 = s.result1 := rfl
@[simp] theorem clearFreq_result2 (s : State) : (clearFreq s).result2 = s.result2 := rfl
@[simp] theorem clearFreq_errcode (s : State) : (clearFreq s).errcode = s.errcode := rfl
@[simp] theorem clearFreq_errcmd (s : State) : (clearFreq s).errcmd = s.errcmd := rfl
@[simp] theorem clearFreq_empty (s : State) : (clearFreq s).empty = s.empty := rfl
@[simp] theorem clearFreq_eos (s : State) : (clearFreq s).eos = s.eos := rfl
@[simp] theorem clearFreq_freq (s : State) : (clearFreq s).freq = Vector.replicate 256 0#32 := rfl
@[simp] theorem clearFreq_node (s : State) : (clearFreq s).node = s.node := rfl
@[simp] theorem clearFreq_nnodes (s : State) : (clearFreq s).nnodes = s.nnodes := rfl
@[simp] theorem clearFreq_heap (s : State) : (clearFreq s).heap = s.heap := rfl
@[simp] theorem clearFreq_heapn (s : State) : (clearFreq s).heapn = s.heapn := rfl
@[simp] theorem clearFreq_root (s : State) : (clearFreq s).root = s.root := rfl
@[simp] theorem clearFreq_rootValid (s : State) : (clearFreq s).rootValid = s.rootValid := rfl
@[simp] theorem clearFreq_clen (s : State) : (clearFreq s).clen = s.clen := rfl
@[simp] theorem clearFreq_cval (s : State) : (clearFreq s).cval = s.cval := rfl
@[simp] theorem clearFreq_codesValid (s : State) : (clearFreq s).codesValid = s.codesValid := rfl
@[simp] theorem clearFreq_outbits (s : State) : (clearFreq s).outbits = s.outbits := rfl
@[simp] theorem clearFreq_xcnt (s : State) : (clearFreq s).xcnt = s.xcnt := rfl
@[simp] theorem clearFreq_wacc (s : State) : (clearFreq s).wacc = s.wacc := rfl
@[simp] theorem clearFreq_wcnt (s : State) : (clearFreq s).wcnt = s.wcnt := rfl
@[simp] theorem clearFreq_rwin (s : State) : (clearFreq s).rwin = s.rwin := rfl
@[simp] theorem clearFreq_rcnt (s : State) : (clearFreq s).rcnt = s.rcnt := rfl
@[simp] theorem clearFreq_srcseq (s : State) : (clearFreq s).srcseq = s.srcseq := rfl
@[simp] theorem clearFreq_spos (s : State) : (clearFreq s).spos = s.spos := rfl
@[simp] theorem clearFreq_snkseq (s : State) : (clearFreq s).snkseq = s.snkseq := rfl
@[simp] theorem clearFreq_draws (s : State) : (clearFreq s).draws = s.draws := rfl
@[simp] theorem clearFreq_pending (s : State) : (clearFreq s).pending = s.pending := rfl
@[simp] theorem clearFreq_answers (s : State) : (clearFreq s).answers = s.answers := rfl

/-! ### setFreq -/

@[simp] theorem setFreq_arg (b : Byte) (f : BitVec 32) (s : State) : (setFreq b f s).arg = s.arg := rfl
@[simp] theorem setFreq_result0 (b : Byte) (f : BitVec 32) (s : State) : (setFreq b f s).result0 = s.result0 := rfl
@[simp] theorem setFreq_result1 (b : Byte) (f : BitVec 32) (s : State) : (setFreq b f s).result1 = s.result1 := rfl
@[simp] theorem setFreq_result2 (b : Byte) (f : BitVec 32) (s : State) : (setFreq b f s).result2 = s.result2 := rfl
@[simp] theorem setFreq_errcode (b : Byte) (f : BitVec 32) (s : State) : (setFreq b f s).errcode = s.errcode := rfl
@[simp] theorem setFreq_errcmd (b : Byte) (f : BitVec 32) (s : State) : (setFreq b f s).errcmd = s.errcmd := rfl
@[simp] theorem setFreq_empty (b : Byte) (f : BitVec 32) (s : State) : (setFreq b f s).empty = s.empty := rfl
@[simp] theorem setFreq_eos (b : Byte) (f : BitVec 32) (s : State) : (setFreq b f s).eos = s.eos := rfl
@[simp] theorem setFreq_freq (b : Byte) (f : BitVec 32) (s : State) : (setFreq b f s).freq = setSym s.freq b f := rfl
@[simp] theorem setFreq_node (b : Byte) (f : BitVec 32) (s : State) : (setFreq b f s).node = s.node := rfl
@[simp] theorem setFreq_nnodes (b : Byte) (f : BitVec 32) (s : State) : (setFreq b f s).nnodes = s.nnodes := rfl
@[simp] theorem setFreq_heap (b : Byte) (f : BitVec 32) (s : State) : (setFreq b f s).heap = s.heap := rfl
@[simp] theorem setFreq_heapn (b : Byte) (f : BitVec 32) (s : State) : (setFreq b f s).heapn = s.heapn := rfl
@[simp] theorem setFreq_root (b : Byte) (f : BitVec 32) (s : State) : (setFreq b f s).root = s.root := rfl
@[simp] theorem setFreq_rootValid (b : Byte) (f : BitVec 32) (s : State) : (setFreq b f s).rootValid = s.rootValid := rfl
@[simp] theorem setFreq_clen (b : Byte) (f : BitVec 32) (s : State) : (setFreq b f s).clen = s.clen := rfl
@[simp] theorem setFreq_cval (b : Byte) (f : BitVec 32) (s : State) : (setFreq b f s).cval = s.cval := rfl
@[simp] theorem setFreq_codesValid (b : Byte) (f : BitVec 32) (s : State) : (setFreq b f s).codesValid = s.codesValid := rfl
@[simp] theorem setFreq_outbits (b : Byte) (f : BitVec 32) (s : State) : (setFreq b f s).outbits = s.outbits := rfl
@[simp] theorem setFreq_xcnt (b : Byte) (f : BitVec 32) (s : State) : (setFreq b f s).xcnt = s.xcnt := rfl
@[simp] theorem setFreq_wacc (b : Byte) (f : BitVec 32) (s : State) : (setFreq b f s).wacc = s.wacc := rfl
@[simp] theorem setFreq_wcnt (b : Byte) (f : BitVec 32) (s : State) : (setFreq b f s).wcnt = s.wcnt := rfl
@[simp] theorem setFreq_rwin (b : Byte) (f : BitVec 32) (s : State) : (setFreq b f s).rwin = s.rwin := rfl
@[simp] theorem setFreq_rcnt (b : Byte) (f : BitVec 32) (s : State) : (setFreq b f s).rcnt = s.rcnt := rfl
@[simp] theorem setFreq_srcseq (b : Byte) (f : BitVec 32) (s : State) : (setFreq b f s).srcseq = s.srcseq := rfl
@[simp] theorem setFreq_spos (b : Byte) (f : BitVec 32) (s : State) : (setFreq b f s).spos = s.spos := rfl
@[simp] theorem setFreq_snkseq (b : Byte) (f : BitVec 32) (s : State) : (setFreq b f s).snkseq = s.snkseq := rfl
@[simp] theorem setFreq_draws (b : Byte) (f : BitVec 32) (s : State) : (setFreq b f s).draws = s.draws := rfl
@[simp] theorem setFreq_pending (b : Byte) (f : BitVec 32) (s : State) : (setFreq b f s).pending = s.pending := rfl
@[simp] theorem setFreq_answers (b : Byte) (f : BitVec 32) (s : State) : (setFreq b f s).answers = s.answers := rfl

/-! ### clearReader -/

@[simp] theorem clearReader_arg (s : State) : (clearReader s).arg = s.arg := rfl
@[simp] theorem clearReader_result0 (s : State) : (clearReader s).result0 = s.result0 := rfl
@[simp] theorem clearReader_result1 (s : State) : (clearReader s).result1 = s.result1 := rfl
@[simp] theorem clearReader_result2 (s : State) : (clearReader s).result2 = s.result2 := rfl
@[simp] theorem clearReader_errcode (s : State) : (clearReader s).errcode = s.errcode := rfl
@[simp] theorem clearReader_errcmd (s : State) : (clearReader s).errcmd = s.errcmd := rfl
@[simp] theorem clearReader_empty (s : State) : (clearReader s).empty = s.empty := rfl
@[simp] theorem clearReader_eos (s : State) : (clearReader s).eos = s.eos := rfl
@[simp] theorem clearReader_freq (s : State) : (clearReader s).freq = s.freq := rfl
@[simp] theorem clearReader_node (s : State) : (clearReader s).node = s.node := rfl
@[simp] theorem clearReader_nnodes (s : State) : (clearReader s).nnodes = s.nnodes := rfl
@[simp] theorem clearReader_heap (s : State) : (clearReader s).heap = s.heap := rfl
@[simp] theorem clearReader_heapn (s : State) : (clearReader s).heapn = s.heapn := rfl
@[simp] theorem clearReader_root (s : State) : (clearReader s).root = s.root := rfl
@[simp] theorem clearReader_rootValid (s : State) : (clearReader s).rootValid = s.rootValid := rfl
@[simp] theorem clearReader_clen (s : State) : (clearReader s).clen = s.clen := rfl
@[simp] theorem clearReader_cval (s : State) : (clearReader s).cval = s.cval := rfl
@[simp] theorem clearReader_codesValid (s : State) : (clearReader s).codesValid = s.codesValid := rfl
@[simp] theorem clearReader_outbits (s : State) : (clearReader s).outbits = s.outbits := rfl
@[simp] theorem clearReader_xcnt (s : State) : (clearReader s).xcnt = s.xcnt := rfl
@[simp] theorem clearReader_wacc (s : State) : (clearReader s).wacc = s.wacc := rfl
@[simp] theorem clearReader_wcnt (s : State) : (clearReader s).wcnt = s.wcnt := rfl
@[simp] theorem clearReader_rwin (s : State) : (clearReader s).rwin = 0#8 := rfl
@[simp] theorem clearReader_rcnt (s : State) : (clearReader s).rcnt = 0 := rfl
@[simp] theorem clearReader_srcseq (s : State) : (clearReader s).srcseq = s.srcseq := rfl
@[simp] theorem clearReader_spos (s : State) : (clearReader s).spos = s.spos := rfl
@[simp] theorem clearReader_snkseq (s : State) : (clearReader s).snkseq = s.snkseq := rfl
@[simp] theorem clearReader_draws (s : State) : (clearReader s).draws = s.draws := rfl
@[simp] theorem clearReader_pending (s : State) : (clearReader s).pending = s.pending := rfl
@[simp] theorem clearReader_answers (s : State) : (clearReader s).answers = s.answers := rfl

/-! ### clearWriter -/

@[simp] theorem clearWriter_arg (s : State) : (clearWriter s).arg = s.arg := rfl
@[simp] theorem clearWriter_result0 (s : State) : (clearWriter s).result0 = s.result0 := rfl
@[simp] theorem clearWriter_result1 (s : State) : (clearWriter s).result1 = s.result1 := rfl
@[simp] theorem clearWriter_result2 (s : State) : (clearWriter s).result2 = s.result2 := rfl
@[simp] theorem clearWriter_errcode (s : State) : (clearWriter s).errcode = s.errcode := rfl
@[simp] theorem clearWriter_errcmd (s : State) : (clearWriter s).errcmd = s.errcmd := rfl
@[simp] theorem clearWriter_empty (s : State) : (clearWriter s).empty = s.empty := rfl
@[simp] theorem clearWriter_eos (s : State) : (clearWriter s).eos = s.eos := rfl
@[simp] theorem clearWriter_freq (s : State) : (clearWriter s).freq = s.freq := rfl
@[simp] theorem clearWriter_node (s : State) : (clearWriter s).node = s.node := rfl
@[simp] theorem clearWriter_nnodes (s : State) : (clearWriter s).nnodes = s.nnodes := rfl
@[simp] theorem clearWriter_heap (s : State) : (clearWriter s).heap = s.heap := rfl
@[simp] theorem clearWriter_heapn (s : State) : (clearWriter s).heapn = s.heapn := rfl
@[simp] theorem clearWriter_root (s : State) : (clearWriter s).root = s.root := rfl
@[simp] theorem clearWriter_rootValid (s : State) : (clearWriter s).rootValid = s.rootValid := rfl
@[simp] theorem clearWriter_clen (s : State) : (clearWriter s).clen = s.clen := rfl
@[simp] theorem clearWriter_cval (s : State) : (clearWriter s).cval = s.cval := rfl
@[simp] theorem clearWriter_codesValid (s : State) : (clearWriter s).codesValid = s.codesValid := rfl
@[simp] theorem clearWriter_outbits (s : State) : (clearWriter s).outbits = s.outbits := rfl
@[simp] theorem clearWriter_xcnt (s : State) : (clearWriter s).xcnt = s.xcnt := rfl
@[simp] theorem clearWriter_wacc (s : State) : (clearWriter s).wacc = 0#8 := rfl
@[simp] theorem clearWriter_wcnt (s : State) : (clearWriter s).wcnt = 0 := rfl
@[simp] theorem clearWriter_rwin (s : State) : (clearWriter s).rwin = s.rwin := rfl
@[simp] theorem clearWriter_rcnt (s : State) : (clearWriter s).rcnt = s.rcnt := rfl
@[simp] theorem clearWriter_srcseq (s : State) : (clearWriter s).srcseq = s.srcseq := rfl
@[simp] theorem clearWriter_spos (s : State) : (clearWriter s).spos = s.spos := rfl
@[simp] theorem clearWriter_snkseq (s : State) : (clearWriter s).snkseq = s.snkseq := rfl
@[simp] theorem clearWriter_draws (s : State) : (clearWriter s).draws = s.draws := rfl
@[simp] theorem clearWriter_pending (s : State) : (clearWriter s).pending = s.pending := rfl
@[simp] theorem clearWriter_answers (s : State) : (clearWriter s).answers = s.answers := rfl

/-! ### countSymbol -/

@[simp] theorem countSymbol_arg (s : State) : (countSymbol s).arg = s.arg := rfl
@[simp] theorem countSymbol_result0 (s : State) : (countSymbol s).result0 = s.result0 := rfl
@[simp] theorem countSymbol_result1 (s : State) : (countSymbol s).result1 = s.result1 := rfl
@[simp] theorem countSymbol_result2 (s : State) : (countSymbol s).result2 = s.result2 := rfl
@[simp] theorem countSymbol_errcode (s : State) : (countSymbol s).errcode = s.errcode := rfl
@[simp] theorem countSymbol_errcmd (s : State) : (countSymbol s).errcmd = s.errcmd := rfl
@[simp] theorem countSymbol_empty (s : State) : (countSymbol s).empty = s.empty := rfl
@[simp] theorem countSymbol_eos (s : State) : (countSymbol s).eos = s.eos := rfl
@[simp] theorem countSymbol_freq (s : State) : (countSymbol s).freq = s.freq := rfl
@[simp] theorem countSymbol_node (s : State) : (countSymbol s).node = s.node := rfl
@[simp] theorem countSymbol_nnodes (s : State) : (countSymbol s).nnodes = s.nnodes := rfl
@[simp] theorem countSymbol_heap (s : State) : (countSymbol s).heap = s.heap := rfl
@[simp] theorem countSymbol_heapn (s : State) : (countSymbol s).heapn = s.heapn := rfl
@[simp] theorem countSymbol_root (s : State) : (countSymbol s).root = s.root := rfl
@[simp] theorem countSymbol_rootValid (s : State) : (countSymbol s).rootValid = s.rootValid := rfl
@[simp] theorem countSymbol_clen (s : State) : (countSymbol s).clen = s.clen := rfl
@[simp] theorem countSymbol_cval (s : State) : (countSymbol s).cval = s.cval := rfl
@[simp] theorem countSymbol_codesValid (s : State) : (countSymbol s).codesValid = s.codesValid := rfl
@[simp] theorem countSymbol_outbits (s : State) : (countSymbol s).outbits = s.outbits := rfl
@[simp] theorem countSymbol_xcnt (s : State) : (countSymbol s).xcnt = s.xcnt + 1#40 := rfl
@[simp] theorem countSymbol_wacc (s : State) : (countSymbol s).wacc = s.wacc := rfl
@[simp] theorem countSymbol_wcnt (s : State) : (countSymbol s).wcnt = s.wcnt := rfl
@[simp] theorem countSymbol_rwin (s : State) : (countSymbol s).rwin = s.rwin := rfl
@[simp] theorem countSymbol_rcnt (s : State) : (countSymbol s).rcnt = s.rcnt := rfl
@[simp] theorem countSymbol_srcseq (s : State) : (countSymbol s).srcseq = s.srcseq := rfl
@[simp] theorem countSymbol_spos (s : State) : (countSymbol s).spos = s.spos := rfl
@[simp] theorem countSymbol_snkseq (s : State) : (countSymbol s).snkseq = s.snkseq := rfl
@[simp] theorem countSymbol_draws (s : State) : (countSymbol s).draws = s.draws := rfl
@[simp] theorem countSymbol_pending (s : State) : (countSymbol s).pending = s.pending := rfl
@[simp] theorem countSymbol_answers (s : State) : (countSymbol s).answers = s.answers := rfl

/-! ### clearCount -/

@[simp] theorem clearCount_arg (s : State) : (clearCount s).arg = s.arg := rfl
@[simp] theorem clearCount_result0 (s : State) : (clearCount s).result0 = s.result0 := rfl
@[simp] theorem clearCount_result1 (s : State) : (clearCount s).result1 = s.result1 := rfl
@[simp] theorem clearCount_result2 (s : State) : (clearCount s).result2 = s.result2 := rfl
@[simp] theorem clearCount_errcode (s : State) : (clearCount s).errcode = s.errcode := rfl
@[simp] theorem clearCount_errcmd (s : State) : (clearCount s).errcmd = s.errcmd := rfl
@[simp] theorem clearCount_empty (s : State) : (clearCount s).empty = s.empty := rfl
@[simp] theorem clearCount_eos (s : State) : (clearCount s).eos = s.eos := rfl
@[simp] theorem clearCount_freq (s : State) : (clearCount s).freq = s.freq := rfl
@[simp] theorem clearCount_node (s : State) : (clearCount s).node = s.node := rfl
@[simp] theorem clearCount_nnodes (s : State) : (clearCount s).nnodes = s.nnodes := rfl
@[simp] theorem clearCount_heap (s : State) : (clearCount s).heap = s.heap := rfl
@[simp] theorem clearCount_heapn (s : State) : (clearCount s).heapn = s.heapn := rfl
@[simp] theorem clearCount_root (s : State) : (clearCount s).root = s.root := rfl
@[simp] theorem clearCount_rootValid (s : State) : (clearCount s).rootValid = s.rootValid := rfl
@[simp] theorem clearCount_clen (s : State) : (clearCount s).clen = s.clen := rfl
@[simp] theorem clearCount_cval (s : State) : (clearCount s).cval = s.cval := rfl
@[simp] theorem clearCount_codesValid (s : State) : (clearCount s).codesValid = s.codesValid := rfl
@[simp] theorem clearCount_outbits (s : State) : (clearCount s).outbits = s.outbits := rfl
@[simp] theorem clearCount_xcnt (s : State) : (clearCount s).xcnt = 0#40 := rfl
@[simp] theorem clearCount_wacc (s : State) : (clearCount s).wacc = s.wacc := rfl
@[simp] theorem clearCount_wcnt (s : State) : (clearCount s).wcnt = s.wcnt := rfl
@[simp] theorem clearCount_rwin (s : State) : (clearCount s).rwin = s.rwin := rfl
@[simp] theorem clearCount_rcnt (s : State) : (clearCount s).rcnt = s.rcnt := rfl
@[simp] theorem clearCount_srcseq (s : State) : (clearCount s).srcseq = s.srcseq := rfl
@[simp] theorem clearCount_spos (s : State) : (clearCount s).spos = s.spos := rfl
@[simp] theorem clearCount_snkseq (s : State) : (clearCount s).snkseq = s.snkseq := rfl
@[simp] theorem clearCount_draws (s : State) : (clearCount s).draws = s.draws := rfl
@[simp] theorem clearCount_pending (s : State) : (clearCount s).pending = s.pending := rfl
@[simp] theorem clearCount_answers (s : State) : (clearCount s).answers = s.answers := rfl

/-! ### setResult0 -/

@[simp] theorem setResult0_arg (v : Word) (s : State) : (setResult0 v s).arg = s.arg := rfl
@[simp] theorem setResult0_result0 (v : Word) (s : State) : (setResult0 v s).result0 = v := rfl
@[simp] theorem setResult0_result1 (v : Word) (s : State) : (setResult0 v s).result1 = s.result1 := rfl
@[simp] theorem setResult0_result2 (v : Word) (s : State) : (setResult0 v s).result2 = s.result2 := rfl
@[simp] theorem setResult0_errcode (v : Word) (s : State) : (setResult0 v s).errcode = s.errcode := rfl
@[simp] theorem setResult0_errcmd (v : Word) (s : State) : (setResult0 v s).errcmd = s.errcmd := rfl
@[simp] theorem setResult0_empty (v : Word) (s : State) : (setResult0 v s).empty = s.empty := rfl
@[simp] theorem setResult0_eos (v : Word) (s : State) : (setResult0 v s).eos = s.eos := rfl
@[simp] theorem setResult0_freq (v : Word) (s : State) : (setResult0 v s).freq = s.freq := rfl
@[simp] theorem setResult0_node (v : Word) (s : State) : (setResult0 v s).node = s.node := rfl
@[simp] theorem setResult0_nnodes (v : Word) (s : State) : (setResult0 v s).nnodes = s.nnodes := rfl
@[simp] theorem setResult0_heap (v : Word) (s : State) : (setResult0 v s).heap = s.heap := rfl
@[simp] theorem setResult0_heapn (v : Word) (s : State) : (setResult0 v s).heapn = s.heapn := rfl
@[simp] theorem setResult0_root (v : Word) (s : State) : (setResult0 v s).root = s.root := rfl
@[simp] theorem setResult0_rootValid (v : Word) (s : State) : (setResult0 v s).rootValid = s.rootValid := rfl
@[simp] theorem setResult0_clen (v : Word) (s : State) : (setResult0 v s).clen = s.clen := rfl
@[simp] theorem setResult0_cval (v : Word) (s : State) : (setResult0 v s).cval = s.cval := rfl
@[simp] theorem setResult0_codesValid (v : Word) (s : State) : (setResult0 v s).codesValid = s.codesValid := rfl
@[simp] theorem setResult0_outbits (v : Word) (s : State) : (setResult0 v s).outbits = s.outbits := rfl
@[simp] theorem setResult0_xcnt (v : Word) (s : State) : (setResult0 v s).xcnt = s.xcnt := rfl
@[simp] theorem setResult0_wacc (v : Word) (s : State) : (setResult0 v s).wacc = s.wacc := rfl
@[simp] theorem setResult0_wcnt (v : Word) (s : State) : (setResult0 v s).wcnt = s.wcnt := rfl
@[simp] theorem setResult0_rwin (v : Word) (s : State) : (setResult0 v s).rwin = s.rwin := rfl
@[simp] theorem setResult0_rcnt (v : Word) (s : State) : (setResult0 v s).rcnt = s.rcnt := rfl
@[simp] theorem setResult0_srcseq (v : Word) (s : State) : (setResult0 v s).srcseq = s.srcseq := rfl
@[simp] theorem setResult0_spos (v : Word) (s : State) : (setResult0 v s).spos = s.spos := rfl
@[simp] theorem setResult0_snkseq (v : Word) (s : State) : (setResult0 v s).snkseq = s.snkseq := rfl
@[simp] theorem setResult0_draws (v : Word) (s : State) : (setResult0 v s).draws = s.draws := rfl
@[simp] theorem setResult0_pending (v : Word) (s : State) : (setResult0 v s).pending = s.pending := rfl
@[simp] theorem setResult0_answers (v : Word) (s : State) : (setResult0 v s).answers = s.answers := rfl

/-! ### setResults -/

@[simp] theorem setResults_arg (u v w : Word) (s : State) : (setResults u v w s).arg = s.arg := rfl
@[simp] theorem setResults_result0 (u v w : Word) (s : State) : (setResults u v w s).result0 = u := rfl
@[simp] theorem setResults_result1 (u v w : Word) (s : State) : (setResults u v w s).result1 = v := rfl
@[simp] theorem setResults_result2 (u v w : Word) (s : State) : (setResults u v w s).result2 = w := rfl
@[simp] theorem setResults_errcode (u v w : Word) (s : State) : (setResults u v w s).errcode = s.errcode := rfl
@[simp] theorem setResults_errcmd (u v w : Word) (s : State) : (setResults u v w s).errcmd = s.errcmd := rfl
@[simp] theorem setResults_empty (u v w : Word) (s : State) : (setResults u v w s).empty = s.empty := rfl
@[simp] theorem setResults_eos (u v w : Word) (s : State) : (setResults u v w s).eos = s.eos := rfl
@[simp] theorem setResults_freq (u v w : Word) (s : State) : (setResults u v w s).freq = s.freq := rfl
@[simp] theorem setResults_node (u v w : Word) (s : State) : (setResults u v w s).node = s.node := rfl
@[simp] theorem setResults_nnodes (u v w : Word) (s : State) : (setResults u v w s).nnodes = s.nnodes := rfl
@[simp] theorem setResults_heap (u v w : Word) (s : State) : (setResults u v w s).heap = s.heap := rfl
@[simp] theorem setResults_heapn (u v w : Word) (s : State) : (setResults u v w s).heapn = s.heapn := rfl
@[simp] theorem setResults_root (u v w : Word) (s : State) : (setResults u v w s).root = s.root := rfl
@[simp] theorem setResults_rootValid (u v w : Word) (s : State) : (setResults u v w s).rootValid = s.rootValid := rfl
@[simp] theorem setResults_clen (u v w : Word) (s : State) : (setResults u v w s).clen = s.clen := rfl
@[simp] theorem setResults_cval (u v w : Word) (s : State) : (setResults u v w s).cval = s.cval := rfl
@[simp] theorem setResults_codesValid (u v w : Word) (s : State) : (setResults u v w s).codesValid = s.codesValid := rfl
@[simp] theorem setResults_outbits (u v w : Word) (s : State) : (setResults u v w s).outbits = s.outbits := rfl
@[simp] theorem setResults_xcnt (u v w : Word) (s : State) : (setResults u v w s).xcnt = s.xcnt := rfl
@[simp] theorem setResults_wacc (u v w : Word) (s : State) : (setResults u v w s).wacc = s.wacc := rfl
@[simp] theorem setResults_wcnt (u v w : Word) (s : State) : (setResults u v w s).wcnt = s.wcnt := rfl
@[simp] theorem setResults_rwin (u v w : Word) (s : State) : (setResults u v w s).rwin = s.rwin := rfl
@[simp] theorem setResults_rcnt (u v w : Word) (s : State) : (setResults u v w s).rcnt = s.rcnt := rfl
@[simp] theorem setResults_srcseq (u v w : Word) (s : State) : (setResults u v w s).srcseq = s.srcseq := rfl
@[simp] theorem setResults_spos (u v w : Word) (s : State) : (setResults u v w s).spos = s.spos := rfl
@[simp] theorem setResults_snkseq (u v w : Word) (s : State) : (setResults u v w s).snkseq = s.snkseq := rfl
@[simp] theorem setResults_draws (u v w : Word) (s : State) : (setResults u v w s).draws = s.draws := rfl
@[simp] theorem setResults_pending (u v w : Word) (s : State) : (setResults u v w s).pending = s.pending := rfl
@[simp] theorem setResults_answers (u v w : Word) (s : State) : (setResults u v w s).answers = s.answers := rfl

/-! ### nodeRecord -/

@[simp] theorem nodeRecord_arg (n : NodeIdx) (s : State) : (nodeRecord n s).arg = s.arg := rfl
@[simp] theorem nodeRecord_result0 (n : NodeIdx) (s : State) : (nodeRecord n s).result0 = recordWord0 n s.node[n] := rfl
@[simp] theorem nodeRecord_result1 (n : NodeIdx) (s : State) : (nodeRecord n s).result1 = recordWord1 s.node[n] := rfl
@[simp] theorem nodeRecord_result2 (n : NodeIdx) (s : State) : (nodeRecord n s).result2 = recordWord2 s.node[n] := rfl
@[simp] theorem nodeRecord_errcode (n : NodeIdx) (s : State) : (nodeRecord n s).errcode = s.errcode := rfl
@[simp] theorem nodeRecord_errcmd (n : NodeIdx) (s : State) : (nodeRecord n s).errcmd = s.errcmd := rfl
@[simp] theorem nodeRecord_empty (n : NodeIdx) (s : State) : (nodeRecord n s).empty = s.empty := rfl
@[simp] theorem nodeRecord_eos (n : NodeIdx) (s : State) : (nodeRecord n s).eos = s.eos := rfl
@[simp] theorem nodeRecord_freq (n : NodeIdx) (s : State) : (nodeRecord n s).freq = s.freq := rfl
@[simp] theorem nodeRecord_node (n : NodeIdx) (s : State) : (nodeRecord n s).node = s.node := rfl
@[simp] theorem nodeRecord_nnodes (n : NodeIdx) (s : State) : (nodeRecord n s).nnodes = s.nnodes := rfl
@[simp] theorem nodeRecord_heap (n : NodeIdx) (s : State) : (nodeRecord n s).heap = s.heap := rfl
@[simp] theorem nodeRecord_heapn (n : NodeIdx) (s : State) : (nodeRecord n s).heapn = s.heapn := rfl
@[simp] theorem nodeRecord_root (n : NodeIdx) (s : State) : (nodeRecord n s).root = s.root := rfl
@[simp] theorem nodeRecord_rootValid (n : NodeIdx) (s : State) : (nodeRecord n s).rootValid = s.rootValid := rfl
@[simp] theorem nodeRecord_clen (n : NodeIdx) (s : State) : (nodeRecord n s).clen = s.clen := rfl
@[simp] theorem nodeRecord_cval (n : NodeIdx) (s : State) : (nodeRecord n s).cval = s.cval := rfl
@[simp] theorem nodeRecord_codesValid (n : NodeIdx) (s : State) : (nodeRecord n s).codesValid = s.codesValid := rfl
@[simp] theorem nodeRecord_outbits (n : NodeIdx) (s : State) : (nodeRecord n s).outbits = s.outbits := rfl
@[simp] theorem nodeRecord_xcnt (n : NodeIdx) (s : State) : (nodeRecord n s).xcnt = s.xcnt := rfl
@[simp] theorem nodeRecord_wacc (n : NodeIdx) (s : State) : (nodeRecord n s).wacc = s.wacc := rfl
@[simp] theorem nodeRecord_wcnt (n : NodeIdx) (s : State) : (nodeRecord n s).wcnt = s.wcnt := rfl
@[simp] theorem nodeRecord_rwin (n : NodeIdx) (s : State) : (nodeRecord n s).rwin = s.rwin := rfl
@[simp] theorem nodeRecord_rcnt (n : NodeIdx) (s : State) : (nodeRecord n s).rcnt = s.rcnt := rfl
@[simp] theorem nodeRecord_srcseq (n : NodeIdx) (s : State) : (nodeRecord n s).srcseq = s.srcseq := rfl
@[simp] theorem nodeRecord_spos (n : NodeIdx) (s : State) : (nodeRecord n s).spos = s.spos := rfl
@[simp] theorem nodeRecord_snkseq (n : NodeIdx) (s : State) : (nodeRecord n s).snkseq = s.snkseq := rfl
@[simp] theorem nodeRecord_draws (n : NodeIdx) (s : State) : (nodeRecord n s).draws = s.draws := rfl
@[simp] theorem nodeRecord_pending (n : NodeIdx) (s : State) : (nodeRecord n s).pending = s.pending := rfl
@[simp] theorem nodeRecord_answers (n : NodeIdx) (s : State) : (nodeRecord n s).answers = s.answers := rfl

/-! ### heapSwap -/

@[simp] theorem heapSwap_arg (i j : NodeIdx) (s : State) : (heapSwap i j s).arg = s.arg := rfl
@[simp] theorem heapSwap_result0 (i j : NodeIdx) (s : State) : (heapSwap i j s).result0 = s.result0 := rfl
@[simp] theorem heapSwap_result1 (i j : NodeIdx) (s : State) : (heapSwap i j s).result1 = s.result1 := rfl
@[simp] theorem heapSwap_result2 (i j : NodeIdx) (s : State) : (heapSwap i j s).result2 = s.result2 := rfl
@[simp] theorem heapSwap_errcode (i j : NodeIdx) (s : State) : (heapSwap i j s).errcode = s.errcode := rfl
@[simp] theorem heapSwap_errcmd (i j : NodeIdx) (s : State) : (heapSwap i j s).errcmd = s.errcmd := rfl
@[simp] theorem heapSwap_empty (i j : NodeIdx) (s : State) : (heapSwap i j s).empty = s.empty := rfl
@[simp] theorem heapSwap_eos (i j : NodeIdx) (s : State) : (heapSwap i j s).eos = s.eos := rfl
@[simp] theorem heapSwap_freq (i j : NodeIdx) (s : State) : (heapSwap i j s).freq = s.freq := rfl
@[simp] theorem heapSwap_node (i j : NodeIdx) (s : State) : (heapSwap i j s).node = s.node := rfl
@[simp] theorem heapSwap_nnodes (i j : NodeIdx) (s : State) : (heapSwap i j s).nnodes = s.nnodes := rfl
@[simp] theorem heapSwap_heap (i j : NodeIdx) (s : State) : (heapSwap i j s).heap = (s.heap.set i s.heap[j]).set j s.heap[i] := rfl
@[simp] theorem heapSwap_heapn (i j : NodeIdx) (s : State) : (heapSwap i j s).heapn = s.heapn := rfl
@[simp] theorem heapSwap_root (i j : NodeIdx) (s : State) : (heapSwap i j s).root = s.root := rfl
@[simp] theorem heapSwap_rootValid (i j : NodeIdx) (s : State) : (heapSwap i j s).rootValid = s.rootValid := rfl
@[simp] theorem heapSwap_clen (i j : NodeIdx) (s : State) : (heapSwap i j s).clen = s.clen := rfl
@[simp] theorem heapSwap_cval (i j : NodeIdx) (s : State) : (heapSwap i j s).cval = s.cval := rfl
@[simp] theorem heapSwap_codesValid (i j : NodeIdx) (s : State) : (heapSwap i j s).codesValid = s.codesValid := rfl
@[simp] theorem heapSwap_outbits (i j : NodeIdx) (s : State) : (heapSwap i j s).outbits = s.outbits := rfl
@[simp] theorem heapSwap_xcnt (i j : NodeIdx) (s : State) : (heapSwap i j s).xcnt = s.xcnt := rfl
@[simp] theorem heapSwap_wacc (i j : NodeIdx) (s : State) : (heapSwap i j s).wacc = s.wacc := rfl
@[simp] theorem heapSwap_wcnt (i j : NodeIdx) (s : State) : (heapSwap i j s).wcnt = s.wcnt := rfl
@[simp] theorem heapSwap_rwin (i j : NodeIdx) (s : State) : (heapSwap i j s).rwin = s.rwin := rfl
@[simp] theorem heapSwap_rcnt (i j : NodeIdx) (s : State) : (heapSwap i j s).rcnt = s.rcnt := rfl
@[simp] theorem heapSwap_srcseq (i j : NodeIdx) (s : State) : (heapSwap i j s).srcseq = s.srcseq := rfl
@[simp] theorem heapSwap_spos (i j : NodeIdx) (s : State) : (heapSwap i j s).spos = s.spos := rfl
@[simp] theorem heapSwap_snkseq (i j : NodeIdx) (s : State) : (heapSwap i j s).snkseq = s.snkseq := rfl
@[simp] theorem heapSwap_draws (i j : NodeIdx) (s : State) : (heapSwap i j s).draws = s.draws := rfl
@[simp] theorem heapSwap_pending (i j : NodeIdx) (s : State) : (heapSwap i j s).pending = s.pending := rfl
@[simp] theorem heapSwap_answers (i j : NodeIdx) (s : State) : (heapSwap i j s).answers = s.answers := rfl

/-! ### clearHeap -/

@[simp] theorem clearHeap_arg (s : State) : (clearHeap s).arg = s.arg := rfl
@[simp] theorem clearHeap_result0 (s : State) : (clearHeap s).result0 = s.result0 := rfl
@[simp] theorem clearHeap_result1 (s : State) : (clearHeap s).result1 = s.result1 := rfl
@[simp] theorem clearHeap_result2 (s : State) : (clearHeap s).result2 = s.result2 := rfl
@[simp] theorem clearHeap_errcode (s : State) : (clearHeap s).errcode = s.errcode := rfl
@[simp] theorem clearHeap_errcmd (s : State) : (clearHeap s).errcmd = s.errcmd := rfl
@[simp] theorem clearHeap_empty (s : State) : (clearHeap s).empty = s.empty := rfl
@[simp] theorem clearHeap_eos (s : State) : (clearHeap s).eos = s.eos := rfl
@[simp] theorem clearHeap_freq (s : State) : (clearHeap s).freq = s.freq := rfl
@[simp] theorem clearHeap_node (s : State) : (clearHeap s).node = s.node := rfl
@[simp] theorem clearHeap_nnodes (s : State) : (clearHeap s).nnodes = 0 := rfl
@[simp] theorem clearHeap_heap (s : State) : (clearHeap s).heap = s.heap := rfl
@[simp] theorem clearHeap_heapn (s : State) : (clearHeap s).heapn = 0 := rfl
@[simp] theorem clearHeap_root (s : State) : (clearHeap s).root = s.root := rfl
@[simp] theorem clearHeap_rootValid (s : State) : (clearHeap s).rootValid = s.rootValid := rfl
@[simp] theorem clearHeap_clen (s : State) : (clearHeap s).clen = s.clen := rfl
@[simp] theorem clearHeap_cval (s : State) : (clearHeap s).cval = s.cval := rfl
@[simp] theorem clearHeap_codesValid (s : State) : (clearHeap s).codesValid = s.codesValid := rfl
@[simp] theorem clearHeap_outbits (s : State) : (clearHeap s).outbits = s.outbits := rfl
@[simp] theorem clearHeap_xcnt (s : State) : (clearHeap s).xcnt = s.xcnt := rfl
@[simp] theorem clearHeap_wacc (s : State) : (clearHeap s).wacc = s.wacc := rfl
@[simp] theorem clearHeap_wcnt (s : State) : (clearHeap s).wcnt = s.wcnt := rfl
@[simp] theorem clearHeap_rwin (s : State) : (clearHeap s).rwin = s.rwin := rfl
@[simp] theorem clearHeap_rcnt (s : State) : (clearHeap s).rcnt = s.rcnt := rfl
@[simp] theorem clearHeap_srcseq (s : State) : (clearHeap s).srcseq = s.srcseq := rfl
@[simp] theorem clearHeap_spos (s : State) : (clearHeap s).spos = s.spos := rfl
@[simp] theorem clearHeap_snkseq (s : State) : (clearHeap s).snkseq = s.snkseq := rfl
@[simp] theorem clearHeap_draws (s : State) : (clearHeap s).draws = s.draws := rfl
@[simp] theorem clearHeap_pending (s : State) : (clearHeap s).pending = s.pending := rfl
@[simp] theorem clearHeap_answers (s : State) : (clearHeap s).answers = s.answers := rfl

/-! ### setRoot -/

@[simp] theorem setRoot_arg (n : NodeIdx) (s : State) : (setRoot n s).arg = s.arg := rfl
@[simp] theorem setRoot_result0 (n : NodeIdx) (s : State) : (setRoot n s).result0 = s.result0 := rfl
@[simp] theorem setRoot_result1 (n : NodeIdx) (s : State) : (setRoot n s).result1 = s.result1 := rfl
@[simp] theorem setRoot_result2 (n : NodeIdx) (s : State) : (setRoot n s).result2 = s.result2 := rfl
@[simp] theorem setRoot_errcode (n : NodeIdx) (s : State) : (setRoot n s).errcode = s.errcode := rfl
@[simp] theorem setRoot_errcmd (n : NodeIdx) (s : State) : (setRoot n s).errcmd = s.errcmd := rfl
@[simp] theorem setRoot_empty (n : NodeIdx) (s : State) : (setRoot n s).empty = s.empty := rfl
@[simp] theorem setRoot_eos (n : NodeIdx) (s : State) : (setRoot n s).eos = s.eos := rfl
@[simp] theorem setRoot_freq (n : NodeIdx) (s : State) : (setRoot n s).freq = s.freq := rfl
@[simp] theorem setRoot_node (n : NodeIdx) (s : State) : (setRoot n s).node = s.node := rfl
@[simp] theorem setRoot_nnodes (n : NodeIdx) (s : State) : (setRoot n s).nnodes = s.nnodes := rfl
@[simp] theorem setRoot_heap (n : NodeIdx) (s : State) : (setRoot n s).heap = s.heap := rfl
@[simp] theorem setRoot_heapn (n : NodeIdx) (s : State) : (setRoot n s).heapn = s.heapn := rfl
@[simp] theorem setRoot_root (n : NodeIdx) (s : State) : (setRoot n s).root = n := rfl
@[simp] theorem setRoot_rootValid (n : NodeIdx) (s : State) : (setRoot n s).rootValid = true := rfl
@[simp] theorem setRoot_clen (n : NodeIdx) (s : State) : (setRoot n s).clen = s.clen := rfl
@[simp] theorem setRoot_cval (n : NodeIdx) (s : State) : (setRoot n s).cval = s.cval := rfl
@[simp] theorem setRoot_codesValid (n : NodeIdx) (s : State) : (setRoot n s).codesValid = s.codesValid := rfl
@[simp] theorem setRoot_outbits (n : NodeIdx) (s : State) : (setRoot n s).outbits = s.outbits := rfl
@[simp] theorem setRoot_xcnt (n : NodeIdx) (s : State) : (setRoot n s).xcnt = s.xcnt := rfl
@[simp] theorem setRoot_wacc (n : NodeIdx) (s : State) : (setRoot n s).wacc = s.wacc := rfl
@[simp] theorem setRoot_wcnt (n : NodeIdx) (s : State) : (setRoot n s).wcnt = s.wcnt := rfl
@[simp] theorem setRoot_rwin (n : NodeIdx) (s : State) : (setRoot n s).rwin = s.rwin := rfl
@[simp] theorem setRoot_rcnt (n : NodeIdx) (s : State) : (setRoot n s).rcnt = s.rcnt := rfl
@[simp] theorem setRoot_srcseq (n : NodeIdx) (s : State) : (setRoot n s).srcseq = s.srcseq := rfl
@[simp] theorem setRoot_spos (n : NodeIdx) (s : State) : (setRoot n s).spos = s.spos := rfl
@[simp] theorem setRoot_snkseq (n : NodeIdx) (s : State) : (setRoot n s).snkseq = s.snkseq := rfl
@[simp] theorem setRoot_draws (n : NodeIdx) (s : State) : (setRoot n s).draws = s.draws := rfl
@[simp] theorem setRoot_pending (n : NodeIdx) (s : State) : (setRoot n s).pending = s.pending := rfl
@[simp] theorem setRoot_answers (n : NodeIdx) (s : State) : (setRoot n s).answers = s.answers := rfl

/-! ### setCode -/

@[simp] theorem setCode_arg (b : Byte) (len v : Nat) (s : State) : (setCode b len v s).arg = s.arg := rfl
@[simp] theorem setCode_result0 (b : Byte) (len v : Nat) (s : State) : (setCode b len v s).result0 = s.result0 := rfl
@[simp] theorem setCode_result1 (b : Byte) (len v : Nat) (s : State) : (setCode b len v s).result1 = s.result1 := rfl
@[simp] theorem setCode_result2 (b : Byte) (len v : Nat) (s : State) : (setCode b len v s).result2 = s.result2 := rfl
@[simp] theorem setCode_errcode (b : Byte) (len v : Nat) (s : State) : (setCode b len v s).errcode = s.errcode := rfl
@[simp] theorem setCode_errcmd (b : Byte) (len v : Nat) (s : State) : (setCode b len v s).errcmd = s.errcmd := rfl
@[simp] theorem setCode_empty (b : Byte) (len v : Nat) (s : State) : (setCode b len v s).empty = s.empty := rfl
@[simp] theorem setCode_eos (b : Byte) (len v : Nat) (s : State) : (setCode b len v s).eos = s.eos := rfl
@[simp] theorem setCode_freq (b : Byte) (len v : Nat) (s : State) : (setCode b len v s).freq = s.freq := rfl
@[simp] theorem setCode_node (b : Byte) (len v : Nat) (s : State) : (setCode b len v s).node = s.node := rfl
@[simp] theorem setCode_nnodes (b : Byte) (len v : Nat) (s : State) : (setCode b len v s).nnodes = s.nnodes := rfl
@[simp] theorem setCode_heap (b : Byte) (len v : Nat) (s : State) : (setCode b len v s).heap = s.heap := rfl
@[simp] theorem setCode_heapn (b : Byte) (len v : Nat) (s : State) : (setCode b len v s).heapn = s.heapn := rfl
@[simp] theorem setCode_root (b : Byte) (len v : Nat) (s : State) : (setCode b len v s).root = s.root := rfl
@[simp] theorem setCode_rootValid (b : Byte) (len v : Nat) (s : State) : (setCode b len v s).rootValid = s.rootValid := rfl
@[simp] theorem setCode_clen (b : Byte) (len v : Nat) (s : State) : (setCode b len v s).clen = setSym s.clen b (BitVec.ofNat 8 len) := rfl
@[simp] theorem setCode_cval (b : Byte) (len v : Nat) (s : State) : (setCode b len v s).cval = setSym s.cval b (BitVec.ofNat 255 v) := rfl
@[simp] theorem setCode_codesValid (b : Byte) (len v : Nat) (s : State) : (setCode b len v s).codesValid = s.codesValid := rfl
@[simp] theorem setCode_outbits (b : Byte) (len v : Nat) (s : State) : (setCode b len v s).outbits = s.outbits := rfl
@[simp] theorem setCode_xcnt (b : Byte) (len v : Nat) (s : State) : (setCode b len v s).xcnt = s.xcnt := rfl
@[simp] theorem setCode_wacc (b : Byte) (len v : Nat) (s : State) : (setCode b len v s).wacc = s.wacc := rfl
@[simp] theorem setCode_wcnt (b : Byte) (len v : Nat) (s : State) : (setCode b len v s).wcnt = s.wcnt := rfl
@[simp] theorem setCode_rwin (b : Byte) (len v : Nat) (s : State) : (setCode b len v s).rwin = s.rwin := rfl
@[simp] theorem setCode_rcnt (b : Byte) (len v : Nat) (s : State) : (setCode b len v s).rcnt = s.rcnt := rfl
@[simp] theorem setCode_srcseq (b : Byte) (len v : Nat) (s : State) : (setCode b len v s).srcseq = s.srcseq := rfl
@[simp] theorem setCode_spos (b : Byte) (len v : Nat) (s : State) : (setCode b len v s).spos = s.spos := rfl
@[simp] theorem setCode_snkseq (b : Byte) (len v : Nat) (s : State) : (setCode b len v s).snkseq = s.snkseq := rfl
@[simp] theorem setCode_draws (b : Byte) (len v : Nat) (s : State) : (setCode b len v s).draws = s.draws := rfl
@[simp] theorem setCode_pending (b : Byte) (len v : Nat) (s : State) : (setCode b len v s).pending = s.pending := rfl
@[simp] theorem setCode_answers (b : Byte) (len v : Nat) (s : State) : (setCode b len v s).answers = s.answers := rfl

/-! ### clearCodes -/

@[simp] theorem clearCodes_arg (s : State) : (clearCodes s).arg = s.arg := rfl
@[simp] theorem clearCodes_result0 (s : State) : (clearCodes s).result0 = s.result0 := rfl
@[simp] theorem clearCodes_result1 (s : State) : (clearCodes s).result1 = s.result1 := rfl
@[simp] theorem clearCodes_result2 (s : State) : (clearCodes s).result2 = s.result2 := rfl
@[simp] theorem clearCodes_errcode (s : State) : (clearCodes s).errcode = s.errcode := rfl
@[simp] theorem clearCodes_errcmd (s : State) : (clearCodes s).errcmd = s.errcmd := rfl
@[simp] theorem clearCodes_empty (s : State) : (clearCodes s).empty = s.empty := rfl
@[simp] theorem clearCodes_eos (s : State) : (clearCodes s).eos = s.eos := rfl
@[simp] theorem clearCodes_freq (s : State) : (clearCodes s).freq = s.freq := rfl
@[simp] theorem clearCodes_node (s : State) : (clearCodes s).node = s.node := rfl
@[simp] theorem clearCodes_nnodes (s : State) : (clearCodes s).nnodes = s.nnodes := rfl
@[simp] theorem clearCodes_heap (s : State) : (clearCodes s).heap = s.heap := rfl
@[simp] theorem clearCodes_heapn (s : State) : (clearCodes s).heapn = s.heapn := rfl
@[simp] theorem clearCodes_root (s : State) : (clearCodes s).root = s.root := rfl
@[simp] theorem clearCodes_rootValid (s : State) : (clearCodes s).rootValid = s.rootValid := rfl
@[simp] theorem clearCodes_clen (s : State) : (clearCodes s).clen = Vector.replicate 256 0#8 := rfl
@[simp] theorem clearCodes_cval (s : State) : (clearCodes s).cval = Vector.replicate 256 0#255 := rfl
@[simp] theorem clearCodes_codesValid (s : State) : (clearCodes s).codesValid = s.codesValid := rfl
@[simp] theorem clearCodes_outbits (s : State) : (clearCodes s).outbits = s.outbits := rfl
@[simp] theorem clearCodes_xcnt (s : State) : (clearCodes s).xcnt = s.xcnt := rfl
@[simp] theorem clearCodes_wacc (s : State) : (clearCodes s).wacc = s.wacc := rfl
@[simp] theorem clearCodes_wcnt (s : State) : (clearCodes s).wcnt = s.wcnt := rfl
@[simp] theorem clearCodes_rwin (s : State) : (clearCodes s).rwin = s.rwin := rfl
@[simp] theorem clearCodes_rcnt (s : State) : (clearCodes s).rcnt = s.rcnt := rfl
@[simp] theorem clearCodes_srcseq (s : State) : (clearCodes s).srcseq = s.srcseq := rfl
@[simp] theorem clearCodes_spos (s : State) : (clearCodes s).spos = s.spos := rfl
@[simp] theorem clearCodes_snkseq (s : State) : (clearCodes s).snkseq = s.snkseq := rfl
@[simp] theorem clearCodes_draws (s : State) : (clearCodes s).draws = s.draws := rfl
@[simp] theorem clearCodes_pending (s : State) : (clearCodes s).pending = s.pending := rfl
@[simp] theorem clearCodes_answers (s : State) : (clearCodes s).answers = s.answers := rfl

/-! ### finishCodes -/

@[simp] theorem finishCodes_arg (s : State) : (finishCodes s).arg = s.arg := rfl
@[simp] theorem finishCodes_result0 (s : State) : (finishCodes s).result0 = s.result0 := rfl
@[simp] theorem finishCodes_result1 (s : State) : (finishCodes s).result1 = s.result1 := rfl
@[simp] theorem finishCodes_result2 (s : State) : (finishCodes s).result2 = s.result2 := rfl
@[simp] theorem finishCodes_errcode (s : State) : (finishCodes s).errcode = s.errcode := rfl
@[simp] theorem finishCodes_errcmd (s : State) : (finishCodes s).errcmd = s.errcmd := rfl
@[simp] theorem finishCodes_empty (s : State) : (finishCodes s).empty = s.empty := rfl
@[simp] theorem finishCodes_eos (s : State) : (finishCodes s).eos = s.eos := rfl
@[simp] theorem finishCodes_freq (s : State) : (finishCodes s).freq = s.freq := rfl
@[simp] theorem finishCodes_node (s : State) : (finishCodes s).node = s.node := rfl
@[simp] theorem finishCodes_nnodes (s : State) : (finishCodes s).nnodes = s.nnodes := rfl
@[simp] theorem finishCodes_heap (s : State) : (finishCodes s).heap = s.heap := rfl
@[simp] theorem finishCodes_heapn (s : State) : (finishCodes s).heapn = s.heapn := rfl
@[simp] theorem finishCodes_root (s : State) : (finishCodes s).root = s.root := rfl
@[simp] theorem finishCodes_rootValid (s : State) : (finishCodes s).rootValid = s.rootValid := rfl
@[simp] theorem finishCodes_clen (s : State) : (finishCodes s).clen = s.clen := rfl
@[simp] theorem finishCodes_cval (s : State) : (finishCodes s).cval = s.cval := rfl
@[simp] theorem finishCodes_codesValid (s : State) : (finishCodes s).codesValid = true := rfl
@[simp] theorem finishCodes_outbits (s : State) : (finishCodes s).outbits = BitVec.ofNat 48 (codeBits s) := rfl
@[simp] theorem finishCodes_xcnt (s : State) : (finishCodes s).xcnt = s.xcnt := rfl
@[simp] theorem finishCodes_wacc (s : State) : (finishCodes s).wacc = s.wacc := rfl
@[simp] theorem finishCodes_wcnt (s : State) : (finishCodes s).wcnt = s.wcnt := rfl
@[simp] theorem finishCodes_rwin (s : State) : (finishCodes s).rwin = s.rwin := rfl
@[simp] theorem finishCodes_rcnt (s : State) : (finishCodes s).rcnt = s.rcnt := rfl
@[simp] theorem finishCodes_srcseq (s : State) : (finishCodes s).srcseq = s.srcseq := rfl
@[simp] theorem finishCodes_spos (s : State) : (finishCodes s).spos = s.spos := rfl
@[simp] theorem finishCodes_snkseq (s : State) : (finishCodes s).snkseq = s.snkseq := rfl
@[simp] theorem finishCodes_draws (s : State) : (finishCodes s).draws = s.draws := rfl
@[simp] theorem finishCodes_pending (s : State) : (finishCodes s).pending = s.pending := rfl
@[simp] theorem finishCodes_answers (s : State) : (finishCodes s).answers = s.answers := rfl

/-! ### connectSink -/

@[simp] theorem connectSink_arg (s : State) : (connectSink s).arg = s.arg := rfl
@[simp] theorem connectSink_result0 (s : State) : (connectSink s).result0 = s.result0 := rfl
@[simp] theorem connectSink_result1 (s : State) : (connectSink s).result1 = s.result1 := rfl
@[simp] theorem connectSink_result2 (s : State) : (connectSink s).result2 = s.result2 := rfl
@[simp] theorem connectSink_errcode (s : State) : (connectSink s).errcode = s.errcode := rfl
@[simp] theorem connectSink_errcmd (s : State) : (connectSink s).errcmd = s.errcmd := rfl
@[simp] theorem connectSink_empty (s : State) : (connectSink s).empty = s.empty := rfl
@[simp] theorem connectSink_eos (s : State) : (connectSink s).eos = s.eos := rfl
@[simp] theorem connectSink_freq (s : State) : (connectSink s).freq = s.freq := rfl
@[simp] theorem connectSink_node (s : State) : (connectSink s).node = s.node := rfl
@[simp] theorem connectSink_nnodes (s : State) : (connectSink s).nnodes = s.nnodes := rfl
@[simp] theorem connectSink_heap (s : State) : (connectSink s).heap = s.heap := rfl
@[simp] theorem connectSink_heapn (s : State) : (connectSink s).heapn = s.heapn := rfl
@[simp] theorem connectSink_root (s : State) : (connectSink s).root = s.root := rfl
@[simp] theorem connectSink_rootValid (s : State) : (connectSink s).rootValid = s.rootValid := rfl
@[simp] theorem connectSink_clen (s : State) : (connectSink s).clen = s.clen := rfl
@[simp] theorem connectSink_cval (s : State) : (connectSink s).cval = s.cval := rfl
@[simp] theorem connectSink_codesValid (s : State) : (connectSink s).codesValid = s.codesValid := rfl
@[simp] theorem connectSink_outbits (s : State) : (connectSink s).outbits = s.outbits := rfl
@[simp] theorem connectSink_xcnt (s : State) : (connectSink s).xcnt = s.xcnt := rfl
@[simp] theorem connectSink_wacc (s : State) : (connectSink s).wacc = s.wacc := rfl
@[simp] theorem connectSink_wcnt (s : State) : (connectSink s).wcnt = s.wcnt := rfl
@[simp] theorem connectSink_rwin (s : State) : (connectSink s).rwin = s.rwin := rfl
@[simp] theorem connectSink_rcnt (s : State) : (connectSink s).rcnt = s.rcnt := rfl
@[simp] theorem connectSink_srcseq (s : State) : (connectSink s).srcseq = s.srcseq := rfl
@[simp] theorem connectSink_spos (s : State) : (connectSink s).spos = s.spos := rfl
@[simp] theorem connectSink_snkseq (s : State) : (connectSink s).snkseq = [] := rfl
@[simp] theorem connectSink_draws (s : State) : (connectSink s).draws = s.draws := rfl
@[simp] theorem connectSink_pending (s : State) : (connectSink s).pending = s.pending := rfl
@[simp] theorem connectSink_answers (s : State) : (connectSink s).answers = s.answers := rfl

/-! ### withCommand -/

@[simp] theorem withCommand_arg (w : Word) (s : State) : (withCommand w s).arg = s.arg := rfl
@[simp] theorem withCommand_result0 (w : Word) (s : State) : (withCommand w s).result0 = s.result0 := rfl
@[simp] theorem withCommand_result1 (w : Word) (s : State) : (withCommand w s).result1 = s.result1 := rfl
@[simp] theorem withCommand_result2 (w : Word) (s : State) : (withCommand w s).result2 = s.result2 := rfl
@[simp] theorem withCommand_errcode (w : Word) (s : State) : (withCommand w s).errcode = s.errcode := rfl
@[simp] theorem withCommand_errcmd (w : Word) (s : State) : (withCommand w s).errcmd = s.errcmd := rfl
@[simp] theorem withCommand_empty (w : Word) (s : State) : (withCommand w s).empty = s.empty := rfl
@[simp] theorem withCommand_eos (w : Word) (s : State) : (withCommand w s).eos = s.eos := rfl
@[simp] theorem withCommand_freq (w : Word) (s : State) : (withCommand w s).freq = s.freq := rfl
@[simp] theorem withCommand_node (w : Word) (s : State) : (withCommand w s).node = s.node := rfl
@[simp] theorem withCommand_nnodes (w : Word) (s : State) : (withCommand w s).nnodes = s.nnodes := rfl
@[simp] theorem withCommand_heap (w : Word) (s : State) : (withCommand w s).heap = s.heap := rfl
@[simp] theorem withCommand_heapn (w : Word) (s : State) : (withCommand w s).heapn = s.heapn := rfl
@[simp] theorem withCommand_root (w : Word) (s : State) : (withCommand w s).root = s.root := rfl
@[simp] theorem withCommand_rootValid (w : Word) (s : State) : (withCommand w s).rootValid = s.rootValid := rfl
@[simp] theorem withCommand_clen (w : Word) (s : State) : (withCommand w s).clen = s.clen := rfl
@[simp] theorem withCommand_cval (w : Word) (s : State) : (withCommand w s).cval = s.cval := rfl
@[simp] theorem withCommand_codesValid (w : Word) (s : State) : (withCommand w s).codesValid = s.codesValid := rfl
@[simp] theorem withCommand_outbits (w : Word) (s : State) : (withCommand w s).outbits = s.outbits := rfl
@[simp] theorem withCommand_xcnt (w : Word) (s : State) : (withCommand w s).xcnt = s.xcnt := rfl
@[simp] theorem withCommand_wacc (w : Word) (s : State) : (withCommand w s).wacc = s.wacc := rfl
@[simp] theorem withCommand_wcnt (w : Word) (s : State) : (withCommand w s).wcnt = s.wcnt := rfl
@[simp] theorem withCommand_rwin (w : Word) (s : State) : (withCommand w s).rwin = s.rwin := rfl
@[simp] theorem withCommand_rcnt (w : Word) (s : State) : (withCommand w s).rcnt = s.rcnt := rfl
@[simp] theorem withCommand_srcseq (w : Word) (s : State) : (withCommand w s).srcseq = s.srcseq := rfl
@[simp] theorem withCommand_spos (w : Word) (s : State) : (withCommand w s).spos = s.spos := rfl
@[simp] theorem withCommand_snkseq (w : Word) (s : State) : (withCommand w s).snkseq = s.snkseq := rfl
@[simp] theorem withCommand_draws (w : Word) (s : State) : (withCommand w s).draws = s.draws := rfl
@[simp] theorem withCommand_pending (w : Word) (s : State) : (withCommand w s).pending = .write .w32 0x04#8 w :: s.pending := rfl
@[simp] theorem withCommand_answers (w : Word) (s : State) : (withCommand w s).answers = s.answers := rfl

/-! ### doReset -/

@[simp] theorem doReset_arg (s : State) : (doReset s).arg = State.reset.arg := rfl
@[simp] theorem doReset_result0 (s : State) : (doReset s).result0 = State.reset.result0 := rfl
@[simp] theorem doReset_result1 (s : State) : (doReset s).result1 = State.reset.result1 := rfl
@[simp] theorem doReset_result2 (s : State) : (doReset s).result2 = State.reset.result2 := rfl
@[simp] theorem doReset_errcode (s : State) : (doReset s).errcode = State.reset.errcode := rfl
@[simp] theorem doReset_errcmd (s : State) : (doReset s).errcmd = State.reset.errcmd := rfl
@[simp] theorem doReset_empty (s : State) : (doReset s).empty = State.reset.empty := rfl
@[simp] theorem doReset_eos (s : State) : (doReset s).eos = State.reset.eos := rfl
@[simp] theorem doReset_freq (s : State) : (doReset s).freq = State.reset.freq := rfl
@[simp] theorem doReset_node (s : State) : (doReset s).node = State.reset.node := rfl
@[simp] theorem doReset_nnodes (s : State) : (doReset s).nnodes = State.reset.nnodes := rfl
@[simp] theorem doReset_heap (s : State) : (doReset s).heap = State.reset.heap := rfl
@[simp] theorem doReset_heapn (s : State) : (doReset s).heapn = State.reset.heapn := rfl
@[simp] theorem doReset_root (s : State) : (doReset s).root = State.reset.root := rfl
@[simp] theorem doReset_rootValid (s : State) : (doReset s).rootValid = State.reset.rootValid := rfl
@[simp] theorem doReset_clen (s : State) : (doReset s).clen = State.reset.clen := rfl
@[simp] theorem doReset_cval (s : State) : (doReset s).cval = State.reset.cval := rfl
@[simp] theorem doReset_codesValid (s : State) : (doReset s).codesValid = State.reset.codesValid := rfl
@[simp] theorem doReset_outbits (s : State) : (doReset s).outbits = State.reset.outbits := rfl
@[simp] theorem doReset_xcnt (s : State) : (doReset s).xcnt = State.reset.xcnt := rfl
@[simp] theorem doReset_wacc (s : State) : (doReset s).wacc = State.reset.wacc := rfl
@[simp] theorem doReset_wcnt (s : State) : (doReset s).wcnt = State.reset.wcnt := rfl
@[simp] theorem doReset_rwin (s : State) : (doReset s).rwin = State.reset.rwin := rfl
@[simp] theorem doReset_rcnt (s : State) : (doReset s).rcnt = State.reset.rcnt := rfl
@[simp] theorem doReset_srcseq (s : State) : (doReset s).srcseq = s.srcseq := rfl
@[simp] theorem doReset_spos (s : State) : (doReset s).spos = s.spos := rfl
@[simp] theorem doReset_snkseq (s : State) : (doReset s).snkseq = s.snkseq := rfl
@[simp] theorem doReset_draws (s : State) : (doReset s).draws = s.draws := rfl
@[simp] theorem doReset_pending (s : State) : (doReset s).pending = s.pending := rfl
@[simp] theorem doReset_answers (s : State) : (doReset s).answers = s.answers := rfl

end Sys2Proof.Machine
end

