-- ==== Sys2Proof/Laws/Ops.lean ====
section
/-!
SUPPORT. The shared operations of Machine/Ops.lean: what each can do, said once.
-/

namespace Sys2Proof.Machine

/-! ### Sequencing -/

@[simp] theorem Run.bind_done {α β : Type} (a : α) (s : State) (k : α → State → Run β) :
    (Run.done a s).bind k = k a s := rfl

@[simp] theorem Run.bind_raised {α β : Type} (e : ErrKind) (s : State) (k : α → State → Run β) :
    (Run.raised e s : Run α).bind k = .raised e s := rfl

@[simp] theorem Run.bind_stopped {α β : Type} (f : Fault) (k : α → State → Run β) :
    (Run.stopped f : Run α).bind k = .stopped f := rfl

theorem Run.bind_assoc {α β γ : Type} (r : Run α) (k : α → State → Run β) (l : β → State → Run γ) :
    (r.bind k).bind l = r.bind fun a s => (k a s).bind l := by
  cases r <;> rfl

/-- A sequence returns only through both its parts. -/
theorem Run.bind_eq_done {α β : Type} {r : Run α} {k : α → State → Run β} {b : β} {u : State}
    (h : r.bind k = .done b u) : ∃ a t, r = .done a t ∧ k a t = .done b u := by
  cases r with
  | done a t => exact ⟨a, t, rfl, h⟩
  | raised e t => cases h
  | stopped f => cases h

/-- A sequence raises in its first part, or in its second after the first returned. -/
theorem Run.bind_eq_raised {α β : Type} {r : Run α} {k : α → State → Run β} {e : ErrKind} {u : State}
    (h : r.bind k = .raised e u) : r = .raised e u ∨ ∃ a t, r = .done a t ∧ k a t = .raised e u := by
  cases r with
  | done a t => exact .inr ⟨a, t, rfl, h⟩
  | raised e t => cases h; exact .inl rfl
  | stopped f => cases h

/-- A sequence stops in its first part, or in its second after the first returned. -/
theorem Run.bind_eq_stopped {α β : Type} {r : Run α} {k : α → State → Run β} {f : Fault}
    (h : r.bind k = .stopped f) : r = .stopped f ∨ ∃ a t, r = .done a t ∧ k a t = .stopped f := by
  cases r with
  | done a t => exact .inr ⟨a, t, rfl, h⟩
  | raised e t => cases h
  | stopped f => cases h; exact .inl rfl

/-- The state a primitive leaves, whether it returned or raised, has the property `P`. -/
def Run.Ends {α : Type} (r : Run α) (P : State → Prop) : Prop :=
  match r with
  | .done _ t => P t
  | .raised _ t => P t
  | .stopped _ => True

theorem Run.Ends.mono {α : Type} {r : Run α} {P Q : State → Prop} (h : r.Ends P) (hPQ : ∀ t, P t → Q t) :
    r.Ends Q := by
  cases r with
  | done a t => exact hPQ t h
  | raised e t => exact hPQ t h
  | stopped f => trivial

theorem Run.Ends.bind {α β : Type} {r : Run α} {k : α → State → Run β} {P Q : State → Prop} (h : r.Ends P)
    (hk : ∀ a t, P t → (k a t).Ends Q) (hPQ : ∀ t, P t → Q t) : (r.bind k).Ends Q := by
  cases r with
  | done a t => exact hk a t h
  | raised e t => exact hPQ t h
  | stopped f => trivial

/-! ### The command template -/

/-- In the error state a command changes nothing (60_exceptions.md R283). -/
theorem runCommand_error {cur : Word} {body : State → Run Unit} {s : State} (h : s.errcode ≠ none) :
    runCommand cur body s = .next s := by
  simp [runCommand, h]

/-- Outside it the body runs on the state with the flags cleared (40_control.md R120, R121). -/
theorem runCommand_noError {cur : Word} {body : State → Run Unit} {s : State} (h : s.errcode = none) :
    runCommand cur body s =
      match body (clearFlags s) with
      | .done _ t => .next t
      | .raised e t => .next (enterError cur e t)
      | .stopped f => .fault f :=
  if_pos h

/-- Everything a command that answers a next state can have done. -/
theorem runCommand_cases {cur : Word} {body : State → Run Unit} {s t : State}
    (h : runCommand cur body s = .next t) :
    (s.errcode ≠ none ∧ t = s) ∨
    (s.errcode = none ∧ body (clearFlags s) = .done () t) ∨
    ∃ e u, s.errcode = none ∧ body (clearFlags s) = .raised e u ∧ t = enterError cur e u := by
  by_cases he : s.errcode = none
  · rw [runCommand_noError he] at h
    cases hb : body (clearFlags s) with
    | done a u => rw [hb] at h; cases h; exact .inr (.inl ⟨he, by cases a; rfl⟩)
    | raised e u => rw [hb] at h; cases h; exact .inr (.inr ⟨e, u, he, rfl, rfl⟩)
    | stopped f => rw [hb] at h; cases h
  · rw [runCommand_error he] at h; cases h; exact .inl ⟨he, rfl⟩

/-- A command never refuses. -/
theorem runCommand_ne_refused (cur : Word) (body : State → Run Unit) (s : State) (r : Refusal) :
    runCommand cur body s ≠ .refused r := by
  by_cases he : s.errcode = none
  · rw [runCommand_noError he]; cases body (clearFlags s) <;> simp
  · rw [runCommand_error he]; simp

/-! ### Tables indexed by a symbol -/

@[simp] theorem atSym_setSym_same {α : Type} (t : Vector α 256) (b : Byte) (v : α) :
    atSym (setSym t b v) b = v := by
  simp [atSym, setSym]

theorem atSym_setSym_ne {α : Type} (t : Vector α 256) {a b : Byte} (v : α) (h : a ≠ b) :
    atSym (setSym t b v) a = atSym t a := by
  have hn : b.toNat ≠ a.toNat := fun e => h (BitVec.eq_of_toNat_eq e.symm)
  simp [atSym, setSym, hn]

theorem atSym_setSym {α : Type} (t : Vector α 256) (a b : Byte) (v : α) :
    atSym (setSym t b v) a = if a = b then v else atSym t a := by
  by_cases h : a = b
  · subst h; simp
  · simp [h, atSym_setSym_ne t v h]

@[simp] theorem atSym_replicate {α : Type} (v : α) (b : Byte) : atSym (Vector.replicate 256 v) b = v := by
  simp [atSym]

/-- Two tables with the same entry at every symbol are the same table. -/
theorem table_ext {α : Type} {t u : Vector α 256} (h : ∀ b : Byte, atSym t b = atSym u b) : t = u := by
  apply Vector.ext
  intro i hi
  have hb := h (BitVec.ofNat 8 i)
  have hn : (BitVec.ofNat 8 i).toNat = i := by simp; omega
  simpa [atSym, hn] using hb

theorem mem_allSymbols (b : Byte) : b ∈ allSymbols := by
  simp only [allSymbols, List.mem_map, List.mem_range]
  exact ⟨b.toNat, b.isLt, by simp⟩

theorem allSymbols_length : allSymbols.length = 256 := by simp [allSymbols]

theorem allSymbols_getElem (i : Nat) (h : i < 256) :
    allSymbols[i]'(by rw [allSymbols_length]; exact h) = BitVec.ofNat 8 i := by
  simp [allSymbols]

theorem allSymbols_nodup : allSymbols.Nodup := by
  unfold allSymbols
  refine List.Nodup.map_on ?_ List.nodup_range
  intro x hx y hy hxy
  simp only [List.mem_range] at hx hy
  have := congrArg BitVec.toNat hxy
  simp only [BitVec.toNat_ofNat] at this
  omega

/-- A pair stands in `present` exactly where the count is the symbol's and is not 0. -/
theorem mem_present {s : State} {b : Byte} {f : BitVec 32} :
    (b, f) ∈ present s ↔ f = atSym s.freq b ∧ f ≠ 0#32 := by
  unfold present
  rw [List.mem_filter, List.mem_iff_getElem]
  constructor
  · rintro ⟨⟨i, hi, he⟩, hf⟩
    have hi' : i < 256 := by simpa [allSymbols_length] using hi
    simp only [List.getElem_zip, Prod.mk.injEq, allSymbols_getElem i hi'] at he
    obtain ⟨hb, hv⟩ := he
    refine ⟨?_, by simpa using hf⟩
    rw [← hb, ← hv, atSym]
    have hn : (BitVec.ofNat 8 i).toNat = i := by simp; omega
    simp [hn]
  · rintro ⟨hf, hn⟩
    refine ⟨⟨b.toNat, ?_, ?_⟩, by simpa using hn⟩
    · simpa [allSymbols_length] using b.isLt
    · rw [List.getElem_zip, allSymbols_getElem _ b.isLt]
      simp [hf, atSym]

/-- `present` lists as many pairs as there are distinct symbols. -/
theorem present_length (s : State) : (present s).length = ndist s := by
  unfold present ndist
  rw [← List.countP_eq_length_filter]
  have h : (fun p : Byte × BitVec 32 => p.2 != 0#32) = (fun f => f != 0#32) ∘ Prod.snd := rfl
  rw [h, ← List.countP_map, List.map_snd_zip (by simp [allSymbols_length])]

/-- The symbols of `present` are distinct. -/
theorem present_symbols_nodup (s : State) : ((present s).map Prod.fst).Nodup := by
  unfold present
  refine List.Nodup.sublist (List.filter_sublist.map Prod.fst) ?_
  rw [List.map_fst_zip (by simp [allSymbols_length])]
  exact allSymbols_nodup

/-- NDIST is at most 256 (10_state.md R27). -/
theorem ndist_le (s : State) : ndist s ≤ 256 := by
  have h := List.countP_le_length (p := fun f : BitVec 32 => f != 0#32) (l := s.freq.toList)
  simpa [ndist] using h

/-! ### The ports -/

/-- What a draw can be, and what it consumes (20_memory.md R74). -/
theorem failDraw_cases (s : State) :
    (s.draws = [] ∧ failDraw s = (false, s)) ∨
    ∃ d ds, s.draws = d :: ds ∧ failDraw s = (d, { s with draws := ds }) := by
  cases h : s.draws with
  | nil => exact .inl ⟨rfl, by simp [failDraw, h]⟩
  | cons d ds => exact .inr ⟨d, ds, rfl, by simp [failDraw, h]⟩

/-- A draw changes the list of coming draws and nothing else. -/
theorem failDraw_frame (s : State) : (failDraw s).2 = { s with draws := (failDraw s).2.draws } := by
  rcases failDraw_cases s with ⟨_, h⟩ | ⟨d, ds, _, h⟩ <;> simp [h]

theorem failDraw_fst_of_noFailure {s : State} (h : NoCollaboratorFailure s) : (failDraw s).1 = false := by
  rcases failDraw_cases s with ⟨_, hd⟩ | ⟨d, ds, hl, hd⟩
  · simp [hd]
  · rw [hd]; exact h d (by simp [hl])

/-- The premise survives every draw. -/
theorem failDraw_noFailure {s : State} (h : NoCollaboratorFailure s) : NoCollaboratorFailure (failDraw s).2 := by
  rcases failDraw_cases s with ⟨_, hd⟩ | ⟨d, ds, hl, hd⟩
  · simpa [hd] using h
  · rw [hd]; intro x hx; exact h x (by simp only at hx; simp [hl, hx])

/-- Everything `SourceRead` can answer (20_memory.md R71). -/
theorem sourceRead_cases (s : State) :
    (∃ ds, sourceRead s = (.fail, { s with draws := ds })) ∨
    (∃ ds, sourceRead s = (.eos, { s with draws := ds }) ∧ s.srcseq[s.spos]? = none) ∨
    ∃ ds b, sourceRead s = (.byte b, { s with draws := ds, spos := s.spos + 1 }) ∧ s.srcseq[s.spos]? = some b := by
  rcases failDraw_cases s with ⟨_, hd⟩ | ⟨d, ds, _, hd⟩
  · cases hb : s.srcseq[s.spos]? with
    | none => exact .inr (.inl ⟨s.draws, by simp [sourceRead, hd, hb], rfl⟩)
    | some b => exact .inr (.inr ⟨s.draws, b, by simp [sourceRead, hd, hb], rfl⟩)
  · cases d with
    | true => exact .inl ⟨ds, by simp [sourceRead, hd]⟩
    | false =>
      cases hb : s.srcseq[s.spos]? with
      | none => exact .inr (.inl ⟨ds, by simp [sourceRead, hd, hb], rfl⟩)
      | some b => exact .inr (.inr ⟨ds, b, by simp [sourceRead, hd, hb], rfl⟩)

/-- Everything `SourceRewind` can answer (20_memory.md R72). -/
theorem sourceRewind_cases (s : State) :
    (∃ ds, sourceRewind s = .raised .sourceRead { s with draws := ds }) ∨
    ∃ ds, sourceRewind s = .done () { s with draws := ds, spos := 0 } := by
  rcases failDraw_cases s with ⟨_, hd⟩ | ⟨d, ds, _, hd⟩
  · exact .inr ⟨s.draws, by simp [sourceRewind, hd]⟩
  · cases d with
    | true => exact .inl ⟨ds, by simp [sourceRewind, hd]⟩
    | false => exact .inr ⟨ds, by simp [sourceRewind, hd]⟩

/-- Everything `SinkWrite` can answer (20_memory.md R73). -/
theorem sinkWrite_cases (b : Byte) (s : State) :
    (∃ ds, sinkWrite b s = .raised .sinkWrite { s with draws := ds }) ∨
    ∃ ds, sinkWrite b s = .done () { s with draws := ds, snkseq := s.snkseq ++ [b] } := by
  rcases failDraw_cases s with ⟨_, hd⟩ | ⟨d, ds, _, hd⟩
  · exact .inr ⟨s.draws, by simp [sinkWrite, hd]⟩
  · cases d with
    | true => exact .inl ⟨ds, by simp [sinkWrite, hd]⟩
    | false => exact .inr ⟨ds, by simp [sinkWrite, hd]⟩

/-! ### Fields of a node record (10_state.md R28) -/

@[simp] theorem idxBits_toNat (n : NodeIdx) : (idxBits n).toNat = n.val := by
  rw [idxBits, BitVec.toNat_ofNat]
  omega

@[simp] theorem childBits_none : childBits none = 0x1FF#9 := rfl

@[simp] theorem childBits_some (n : NodeIdx) : childBits (some n) = idxBits n := rfl

@[simp] theorem symBits_sentinel : symBits .sentinel = 0x100#9 := rfl

@[simp] theorem symBits_leaf_toNat (b : Byte) : (symBits (.leaf b)).toNat = b.toNat := by
  simp only [symBits, BitVec.toNat_setWidth]
  omega

/-! ### The waiting nodes of a tree in the making (Safety.lean) -/

/-- Whether a node waits depends only on the children of the nodes made before. -/
theorem waiting_congr {s t : State} {n : NodeIdx}
    (h : ∀ p : NodeIdx, p < n → s.node[p].left = t.node[p].left ∧ s.node[p].right = t.node[p].right) (m : NodeIdx) :
    Waiting s n m ↔ Waiting t n m := by
  unfold Waiting
  refine and_congr_right fun _ => forall_congr' fun p => imp_congr_right fun hp => ?_
  rw [(h p hp).1, (h p hp).2]

end Sys2Proof.Machine
end

