-- ==== Sys2Proof/Laws/Frames.lean ====
section
/-!
SUPPORT. Frames: which fields each primitive may change, as an equation of states, for the end where it returns and
the end where it raises alike. A command's frame is the composition of its primitives'.
-/

namespace Sys2Proof.Machine

/-! ### The frames, and how they compose -/

/-- The fields SourceRead and SourceRewind (20_memory.md R71, R72) may change. -/
def SourceFrame (s t : State) : Prop :=
  t = { s with draws := t.draws, spos := t.spos }

theorem SourceFrame.refl (s : State) : SourceFrame s s := rfl

theorem SourceFrame.trans {s t u : State} (h : SourceFrame s t) (h' : SourceFrame t u) : SourceFrame s u := by
  unfold SourceFrame at h h' ⊢
  rw [h] at h'
  exact h'

/-- The fields SinkWrite (20_memory.md R73) may change. -/
def SinkFrame (s t : State) : Prop :=
  t = { s with draws := t.draws, snkseq := t.snkseq }

theorem SinkFrame.refl (s : State) : SinkFrame s s := rfl

theorem SinkFrame.trans {s t u : State} (h : SinkFrame s t) (h' : SinkFrame t u) : SinkFrame s u := by
  unfold SinkFrame at h h' ⊢
  rw [h] at h'
  exact h'

/-- The fields the loop of ScanFreq (41_frequency.md R131) may change. -/
def ScanFrame (s t : State) : Prop :=
  t = { s with draws := t.draws, spos := t.spos, freq := t.freq }

theorem ScanFrame.refl (s : State) : ScanFrame s s := rfl

theorem ScanFrame.trans {s t u : State} (h : ScanFrame s t) (h' : ScanFrame t u) : ScanFrame s u := by
  unfold ScanFrame at h h' ⊢
  rw [h] at h'
  exact h'

/-- The fields ScanFreq and ReadHeader (41_frequency.md R131, 44_header.md R202) may change. -/
def HeaderFrame (s t : State) : Prop :=
  t = { s with draws := t.draws, spos := t.spos, freq := t.freq, rootValid := t.rootValid, codesValid := t.codesValid }

theorem HeaderFrame.refl (s : State) : HeaderFrame s s := rfl

theorem HeaderFrame.trans {s t u : State} (h : HeaderFrame s t) (h' : HeaderFrame t u) : HeaderFrame s u := by
  unfold HeaderFrame at h h' ⊢
  rw [h] at h'
  exact h'

/-- The fields HeapInsert and HeapExtract (10_state.md R30) may change. -/
def HeapFrame (s t : State) : Prop :=
  t = { s with heap := t.heap, heapn := t.heapn }

theorem HeapFrame.refl (s : State) : HeapFrame s s := rfl

theorem HeapFrame.trans {s t u : State} (h : HeapFrame s t) (h' : HeapFrame t u) : HeapFrame s u := by
  unfold HeapFrame at h h' ⊢
  rw [h] at h'
  exact h'

/-- The fields MergeTwo and the leaves of BuildTree (10_state.md R29, R30) may change. -/
def QueueFrame (s t : State) : Prop :=
  t = { s with node := t.node, nnodes := t.nnodes, heap := t.heap, heapn := t.heapn }

theorem QueueFrame.refl (s : State) : QueueFrame s s := rfl

theorem QueueFrame.trans {s t u : State} (h : QueueFrame s t) (h' : QueueFrame t u) : QueueFrame s u := by
  unfold QueueFrame at h h' ⊢
  rw [h] at h'
  exact h'

/-- The fields BuildTree (10_state.md R31) may change. -/
def TreeFrame (s t : State) : Prop :=
  t = { s with node := t.node, nnodes := t.nnodes, heap := t.heap, heapn := t.heapn, root := t.root, rootValid := t.rootValid, codesValid := t.codesValid }

theorem TreeFrame.refl (s : State) : TreeFrame s s := rfl

theorem TreeFrame.trans {s t u : State} (h : TreeFrame s t) (h' : TreeFrame t u) : TreeFrame s u := by
  unfold TreeFrame at h h' ⊢
  rw [h] at h'
  exact h'

/-- The fields GenCodes (10_state.md R32, R33) may change. -/
def CodesFrame (s t : State) : Prop :=
  t = { s with clen := t.clen, cval := t.cval, outbits := t.outbits, codesValid := t.codesValid }

theorem CodesFrame.refl (s : State) : CodesFrame s s := rfl

theorem CodesFrame.trans {s t u : State} (h : CodesFrame s t) (h' : CodesFrame t u) : CodesFrame s u := by
  unfold CodesFrame at h h' ⊢
  rw [h] at h'
  exact h'

/-- The fields PutBit, FlushBits and PutCode (10_state.md R35) may change. -/
def WriterFrame (s t : State) : Prop :=
  t = { s with draws := t.draws, snkseq := t.snkseq, wacc := t.wacc, wcnt := t.wcnt }

theorem WriterFrame.refl (s : State) : WriterFrame s s := rfl

theorem WriterFrame.trans {s t u : State} (h : WriterFrame s t) (h' : WriterFrame t u) : WriterFrame s u := by
  unfold WriterFrame at h h' ⊢
  rw [h] at h'
  exact h'

/-- The fields GetBit and DecodeSym (10_state.md R36) may change. -/
def ReaderFrame (s t : State) : Prop :=
  t = { s with draws := t.draws, spos := t.spos, rwin := t.rwin, rcnt := t.rcnt }

theorem ReaderFrame.refl (s : State) : ReaderFrame s s := rfl

theorem ReaderFrame.trans {s t u : State} (h : ReaderFrame s t) (h' : ReaderFrame t u) : ReaderFrame s u := by
  unfold ReaderFrame at h h' ⊢
  rw [h] at h'
  exact h'

/-- The fields pass 2 of COMPRESS (47_orchestrators.md R260) may change. -/
def EncodeFrame (s t : State) : Prop :=
  t = { s with draws := t.draws, spos := t.spos, snkseq := t.snkseq, wacc := t.wacc, wcnt := t.wcnt, xcnt := t.xcnt }

theorem EncodeFrame.refl (s : State) : EncodeFrame s s := rfl

theorem EncodeFrame.trans {s t u : State} (h : EncodeFrame s t) (h' : EncodeFrame t u) : EncodeFrame s u := by
  unfold EncodeFrame at h h' ⊢
  rw [h] at h'
  exact h'

/-- The fields the symbol loop of DECOMPRESS (47_orchestrators.md R261) may change. -/
def DecodeFrame (s t : State) : Prop :=
  t = { s with draws := t.draws, spos := t.spos, snkseq := t.snkseq, rwin := t.rwin, rcnt := t.rcnt, xcnt := t.xcnt }

theorem DecodeFrame.refl (s : State) : DecodeFrame s s := rfl

theorem DecodeFrame.trans {s t u : State} (h : DecodeFrame s t) (h' : DecodeFrame t u) : DecodeFrame s u := by
  unfold DecodeFrame at h h' ⊢
  rw [h] at h'
  exact h'

/-- The fields COMPRESS (47_orchestrators.md R260) may change. -/
def CompressFrame (s t : State) : Prop :=
  t = { s with draws := t.draws, spos := t.spos, snkseq := t.snkseq, freq := t.freq, node := t.node, nnodes := t.nnodes, heap := t.heap, heapn := t.heapn, root := t.root, rootValid := t.rootValid, clen := t.clen, cval := t.cval, codesValid := t.codesValid, outbits := t.outbits, xcnt := t.xcnt, wacc := t.wacc, wcnt := t.wcnt, rwin := t.rwin, rcnt := t.rcnt }

theorem CompressFrame.refl (s : State) : CompressFrame s s := rfl

theorem CompressFrame.trans {s t u : State} (h : CompressFrame s t) (h' : CompressFrame t u) : CompressFrame s u := by
  unfold CompressFrame at h h' ⊢
  rw [h] at h'
  exact h'

/-- The fields DECOMPRESS (47_orchestrators.md R261) may change. -/
def DecompressFrame (s t : State) : Prop :=
  t = { s with draws := t.draws, spos := t.spos, snkseq := t.snkseq, freq := t.freq, node := t.node, nnodes := t.nnodes, heap := t.heap, heapn := t.heapn, root := t.root, rootValid := t.rootValid, codesValid := t.codesValid, xcnt := t.xcnt, rwin := t.rwin, rcnt := t.rcnt }

theorem DecompressFrame.refl (s : State) : DecompressFrame s s := rfl

theorem DecompressFrame.trans {s t u : State} (h : DecompressFrame s t) (h' : DecompressFrame t u) : DecompressFrame s u := by
  unfold DecompressFrame at h h' ⊢
  rw [h] at h'
  exact h'

theorem SourceFrame.toReaderFrame {s t : State} (h : SourceFrame s t) : ReaderFrame s t := by
  unfold SourceFrame at h
  rw [h]; rfl

theorem SourceFrame.toEncodeFrame {s t : State} (h : SourceFrame s t) : EncodeFrame s t := by
  unfold SourceFrame at h
  rw [h]; rfl

theorem SourceFrame.toScanFrame {s t : State} (h : SourceFrame s t) : ScanFrame s t := by
  unfold SourceFrame at h
  rw [h]; rfl

theorem SourceFrame.toHeaderFrame {s t : State} (h : SourceFrame s t) : HeaderFrame s t := by
  unfold SourceFrame at h
  rw [h]; rfl

theorem ScanFrame.toHeaderFrame {s t : State} (h : ScanFrame s t) : HeaderFrame s t := by
  unfold ScanFrame at h
  rw [h]; rfl

theorem HeapFrame.toQueueFrame {s t : State} (h : HeapFrame s t) : QueueFrame s t := by
  unfold HeapFrame at h
  rw [h]; rfl

theorem QueueFrame.toTreeFrame {s t : State} (h : QueueFrame s t) : TreeFrame s t := by
  unfold QueueFrame at h
  rw [h]; rfl

theorem SinkFrame.toWriterFrame {s t : State} (h : SinkFrame s t) : WriterFrame s t := by
  unfold SinkFrame at h
  rw [h]; rfl

theorem WriterFrame.toEncodeFrame {s t : State} (h : WriterFrame s t) : EncodeFrame s t := by
  unfold WriterFrame at h
  rw [h]; rfl

theorem ReaderFrame.toDecodeFrame {s t : State} (h : ReaderFrame s t) : DecodeFrame s t := by
  unfold ReaderFrame at h
  rw [h]; rfl

theorem SinkFrame.toDecodeFrame {s t : State} (h : SinkFrame s t) : DecodeFrame s t := by
  unfold SinkFrame at h
  rw [h]; rfl

theorem HeaderFrame.toCompressFrame {s t : State} (h : HeaderFrame s t) : CompressFrame s t := by
  unfold HeaderFrame at h
  rw [h]; rfl

theorem SourceFrame.toCompressFrame {s t : State} (h : SourceFrame s t) : CompressFrame s t := by
  unfold SourceFrame at h
  rw [h]; rfl

theorem TreeFrame.toCompressFrame {s t : State} (h : TreeFrame s t) : CompressFrame s t := by
  unfold TreeFrame at h
  rw [h]; rfl

theorem CodesFrame.toCompressFrame {s t : State} (h : CodesFrame s t) : CompressFrame s t := by
  unfold CodesFrame at h
  rw [h]; rfl

theorem SinkFrame.toCompressFrame {s t : State} (h : SinkFrame s t) : CompressFrame s t := by
  unfold SinkFrame at h
  rw [h]; rfl

theorem WriterFrame.toCompressFrame {s t : State} (h : WriterFrame s t) : CompressFrame s t := by
  unfold WriterFrame at h
  rw [h]; rfl

theorem EncodeFrame.toCompressFrame {s t : State} (h : EncodeFrame s t) : CompressFrame s t := by
  unfold EncodeFrame at h
  rw [h]; rfl

theorem HeaderFrame.toDecompressFrame {s t : State} (h : HeaderFrame s t) : DecompressFrame s t := by
  unfold HeaderFrame at h
  rw [h]; rfl

theorem TreeFrame.toDecompressFrame {s t : State} (h : TreeFrame s t) : DecompressFrame s t := by
  unfold TreeFrame at h
  rw [h]; rfl

theorem DecodeFrame.toDecompressFrame {s t : State} (h : DecodeFrame s t) : DecompressFrame s t := by
  unfold DecodeFrame at h
  rw [h]; rfl

/-! ### Ports -/

theorem sourceRead_frame (s : State) : SourceFrame s (sourceRead s).2 := by
  rcases sourceRead_cases s with ⟨ds, h⟩ | ⟨ds, h, _⟩ | ⟨ds, b, h, _⟩ <;> rw [h] <;> rfl

theorem sourceRewind_frame (s : State) : (sourceRewind s).Ends (SourceFrame s) := by
  rcases sourceRewind_cases s with ⟨ds, h⟩ | ⟨ds, h⟩ <;> rw [h] <;> rfl

theorem sinkWrite_frame (b : Byte) (s : State) : (sinkWrite b s).Ends (SinkFrame s) := by
  rcases sinkWrite_cases b s with ⟨ds, h⟩ | ⟨ds, h⟩ <;> rw [h] <;> rfl

/-! ### Frequency table -/

theorem scanLoop_frame (k : Nat) (s : State) : (scanLoop k s).Ends (ScanFrame s) := by
  induction k generalizing s with
  | zero => exact ScanFrame.refl s
  | succ k ih =>
    rw [scanLoop]
    rcases sourceRead_cases s with ⟨ds, h⟩ | ⟨ds, h, _⟩ | ⟨ds, b, h, _⟩ <;> rw [h]
    · rfl
    · rfl
    · dsimp only
      split
      · rfl
      · exact (ih _).mono fun t ht => ScanFrame.trans (by rfl) ht

theorem scanFreq_frame (s : State) : (scanFreq s).Ends (HeaderFrame s) :=
  (scanLoop_frame _ _).mono fun _ ht => HeaderFrame.trans (by rfl) ht.toHeaderFrame

/-! ### Heap and node memory -/

theorem newNode_cases (d : Node) (s : State) :
    (∃ h : s.nnodes.val < 511, newNode d s = .done ⟨s.nnodes.val, h⟩
      { s with node := s.node.set s.nnodes.val d h, nnodes := ⟨s.nnodes.val + 1, by omega⟩ }) ∨
    (s.nnodes.val = 511 ∧ newNode d s = .raised .queueOverflow s) := by
  by_cases h : s.nnodes.val < 511
  · exact .inl ⟨h, by simp [newNode, h]⟩
  · exact .inr ⟨by omega, by simp [newNode, h]⟩

theorem newNode_frame (d : Node) (s : State) : (newNode d s).Ends (QueueFrame s) := by
  rcases newNode_cases d s with ⟨h, e⟩ | ⟨_, e⟩ <;> rw [e] <;> rfl

theorem heapSwap_frame (i j : NodeIdx) (s : State) : HeapFrame s (heapSwap i j s) := rfl

/-- The sift moves entries of HEAP and nothing else: HEAPN stays. -/
theorem siftUp_frame (k : Nat) (i : NodeIdx) (s : State) :
    siftUp k i s = { s with heap := (siftUp k i s).heap } := by
  induction k generalizing i s with
  | zero => rfl
  | succ k ih =>
    unfold siftUp
    split
    · rfl
    · split
      · rw [ih]; rfl
      · rfl

/-- The sift moves entries of HEAP and nothing else: HEAPN stays. -/
theorem siftDown_frame (k : Nat) (i : NodeIdx) (s : State) :
    siftDown k i s = { s with heap := (siftDown k i s).heap } := by
  induction k generalizing i s with
  | zero => rfl
  | succ k ih =>
    unfold siftDown
    split
    · rfl
    · rw [ih]; rfl

theorem heapInsert_cases (n : NodeIdx) (s : State) :
    (∃ h : s.heapn.val < 511, ∃ hp, heapInsert n s = .done ()
      { s with heap := hp, heapn := ⟨s.heapn.val + 1, by omega⟩ }) ∨
    (s.heapn.val = 511 ∧ heapInsert n s = .raised .queueOverflow s) := by
  by_cases h : s.heapn.val < 511
  · refine .inl ⟨h, (siftUp s.heapn.val ⟨s.heapn.val, h⟩ { s with
      heap := s.heap.set s.heapn.val n h, heapn := ⟨s.heapn.val + 1, by omega⟩ }).heap, ?_⟩
    unfold heapInsert
    rw [dif_pos h, siftUp_frame]
  · exact .inr ⟨by omega, by unfold heapInsert; rw [dif_neg h]⟩

theorem heapInsert_frame (n : NodeIdx) (s : State) : (heapInsert n s).Ends (HeapFrame s) := by
  rcases heapInsert_cases n s with ⟨h, hp, e⟩ | ⟨_, e⟩ <;> rw [e] <;> rfl

/-- `HeapExtract` on a nonempty heap returns, and HEAPN goes down by one (42_heap.md R153). -/
theorem heapExtract_cases (s : State) :
    (s.heapn.val = 0 ∧ heapExtract s = .stopped .heapUnderflow) ∨
    ∃ h : 0 < s.heapn.val, ∃ n hp, heapExtract s = .done n
      { s with heap := hp, heapn := ⟨s.heapn.val - 1, by omega⟩ } := by
  by_cases h : s.heapn.val = 0
  · exact .inl ⟨h, by unfold heapExtract; rw [dif_pos h]⟩
  · let last : NodeIdx := ⟨s.heapn.val - 1, by omega⟩
    let t := siftDown last.val 0 { heapSwap 0 last s with heapn := ⟨last.val, by omega⟩ }
    refine .inr ⟨by omega, t.heap[last], t.heap, ?_⟩
    have ht : t = { s with heap := t.heap, heapn := ⟨s.heapn.val - 1, by omega⟩ } := siftDown_frame _ _ _
    have he : heapExtract s = .done t.heap[last] t := by unfold heapExtract; rw [dif_neg h]
    rw [he]
    exact congrArg _ ht

theorem heapExtract_frame (s : State) : (heapExtract s).Ends (HeapFrame s) := by
  rcases heapExtract_cases s with ⟨_, e⟩ | ⟨_, n, hp, e⟩ <;> rw [e]
  · trivial
  · rfl

theorem mergeNode_frame (a b : NodeIdx) (s : State) : (mergeNode a b s).Ends (QueueFrame s) := by
  unfold mergeNode
  dsimp only
  split
  · exact newNode_frame _ s
  · trivial

theorem mergeTwo_frame (s : State) : (mergeTwo s).Ends (QueueFrame s) := by
  refine Run.Ends.bind ((heapExtract_frame s).mono fun _ h => h.toQueueFrame) (fun a t ht => ?_) fun _ h => h
  refine Run.Ends.bind ((heapExtract_frame t).mono fun _ h => ht.trans h.toQueueFrame) (fun b u hu => ?_) fun _ h => h
  refine Run.Ends.bind ((mergeNode_frame a b u).mono fun _ h => hu.trans h) (fun n v hv => ?_) fun _ h => h
  exact Run.Ends.bind ((heapInsert_frame n v).mono fun _ h => hv.trans h.toQueueFrame) (fun _ w hw => hw) fun _ h => h

/-! ### Tree and codes -/

theorem insertLeaves_frame (ps : List (Byte × BitVec 32)) (s : State) : (insertLeaves ps s).Ends (QueueFrame s) := by
  induction ps generalizing s with
  | nil => exact QueueFrame.refl s
  | cons p ps ih =>
    refine Run.Ends.bind (newNode_frame _ s) (fun n t ht => ?_) fun _ h => h
    refine Run.Ends.bind ((heapInsert_frame n t).mono fun _ h => ht.trans h.toQueueFrame) (fun _ u hu => ?_)
      fun _ h => h
    exact (ih u).mono fun _ h => hu.trans h

theorem mergeLoop_frame (k : Nat) (s : State) : (mergeLoop k s).Ends (QueueFrame s) := by
  induction k generalizing s with
  | zero => exact QueueFrame.refl s
  | succ k ih =>
    rw [mergeLoop]
    split
    · exact Run.Ends.bind (mergeTwo_frame s) (fun _ t ht => (ih t).mono fun _ h => ht.trans h) fun _ h => h
    · exact QueueFrame.refl s

theorem buildTree_frame (s : State) : (buildTree s).Ends (TreeFrame s) := by
  have h0 : TreeFrame s (clearHeap (invalidateTree s)) := rfl
  unfold buildTree
  dsimp only
  split
  · exact h0
  · refine Run.Ends.bind ((insertLeaves_frame _ _).mono fun _ h => h0.trans h.toTreeFrame) (fun _ t ht => ?_)
      fun _ h => h
    refine Run.Ends.bind ((mergeLoop_frame _ t).mono fun _ h => ht.trans h.toTreeFrame) (fun _ u hu => ?_)
      fun _ h => h
    exact Run.Ends.bind ((heapExtract_frame u).mono fun _ h => hu.trans h.toQueueFrame.toTreeFrame)
      (fun n v hv => TreeFrame.trans hv (by rfl)) fun _ h => h

theorem walk_frame (k : Nat) (n : NodeIdx) (v d : Nat) (s : State) : (walk k n v d s).Ends (CodesFrame s) := by
  induction k generalizing n v d s with
  | zero => trivial
  | succ k ih =>
    rw [walk]
    split
    · rfl
    · split
      · exact Run.Ends.bind (ih _ _ _ s) (fun _ t ht => (ih _ _ _ t).mono fun _ h => ht.trans h) fun _ h => h
      · trivial

theorem genCodes_frame (s : State) : (genCodes s).Ends (CodesFrame s) := by
  unfold genCodes
  dsimp only
  split
  · rfl
  · exact Run.Ends.bind ((walk_frame _ _ _ _ _).mono fun _ h => CodesFrame.trans (by rfl) h)
      (fun _ t ht => CodesFrame.trans ht (by rfl)) fun _ h => h

/-! ### Header -/

theorem putBytes_frame (bs : List Byte) (s : State) : (putBytes bs s).Ends (SinkFrame s) := by
  induction bs generalizing s with
  | nil => exact SinkFrame.refl s
  | cons b bs ih =>
    exact Run.Ends.bind (sinkWrite_frame b s) (fun _ t ht => (ih t).mono fun _ h => ht.trans h) fun _ h => h

theorem putPairs_frame (ps : List (Byte × BitVec 32)) (s : State) : (putPairs ps s).Ends (SinkFrame s) := by
  induction ps generalizing s with
  | nil => exact SinkFrame.refl s
  | cons p ps ih =>
    exact Run.Ends.bind (putBytes_frame _ s) (fun _ t ht => (ih t).mono fun _ h => ht.trans h) fun _ h => h

theorem writeHeader_frame (s : State) : (writeHeader s).Ends (SinkFrame s) := by
  unfold writeHeader
  split
  · exact SinkFrame.refl s
  · split
    · exact SinkFrame.refl s
    · exact Run.Ends.bind (sinkWrite_frame _ s) (fun _ t ht => (putPairs_frame _ t).mono fun _ h => ht.trans h)
        fun _ h => h

theorem getByte_frame (s : State) : (getByte s).Ends (SourceFrame s) := by
  unfold getByte
  rcases sourceRead_cases s with ⟨ds, h⟩ | ⟨ds, h, _⟩ | ⟨ds, b, h, _⟩ <;> rw [h] <;> rfl

theorem readPairs_frame (c : Nat) (s : State) : (readPairs c s).Ends (ScanFrame s) := by
  induction c generalizing s with
  | zero => exact ScanFrame.refl s
  | succ c ih =>
    have next : ∀ t, ScanFrame s t → (getByte t).Ends (ScanFrame s) := fun t ht =>
      (getByte_frame t).mono fun _ h => ht.trans h.toScanFrame
    refine Run.Ends.bind (next s (ScanFrame.refl s)) (fun b t ht => ?_) fun _ h => h
    refine Run.Ends.bind (next t ht) (fun f0 t ht => ?_) fun _ h => h
    refine Run.Ends.bind (next t ht) (fun f1 t ht => ?_) fun _ h => h
    refine Run.Ends.bind (next t ht) (fun f2 t ht => ?_) fun _ h => h
    refine Run.Ends.bind (next t ht) (fun f3 t ht => ?_) fun _ h => h
    dsimp only
    split
    · exact ht
    · split
      · exact ht
      · exact (ih _).mono fun _ h => ScanFrame.trans (ScanFrame.trans ht (by rfl)) h

theorem readHeader_frame (s : State) : (readHeader s).Ends (HeaderFrame s) := by
  refine Run.Ends.bind ((getByte_frame _).mono fun _ h => HeaderFrame.trans (by rfl) h.toHeaderFrame) (fun c t ht => ?_)
    fun _ h => h
  split
  · exact ht
  · exact (readPairs_frame _ t).mono fun _ h => ht.trans h.toHeaderFrame

/-! ### Bit writer and bit reader -/

theorem putBit_frame (b : Bool) (s : State) : (putBit b s).Ends (WriterFrame s) := by
  unfold putBit
  dsimp only
  split
  · split
    · rfl
    · exact (sinkWrite_frame _ _).mono fun _ h => WriterFrame.trans (by rfl) h.toWriterFrame
  · trivial

theorem flushBits_frame (s : State) : (flushBits s).Ends (WriterFrame s) := by
  unfold flushBits
  dsimp only
  split
  · exact WriterFrame.refl s
  · split
    · exact (sinkWrite_frame _ _).mono fun _ h => WriterFrame.trans (by rfl) h.toWriterFrame
    · trivial

theorem putBits_frame (v : BitVec 255) (j : Nat) (s : State) : (putBits v j s).Ends (WriterFrame s) := by
  induction j generalizing s with
  | zero => exact WriterFrame.refl s
  | succ j ih => exact Run.Ends.bind (putBit_frame _ s) (fun _ t ht => (ih t).mono fun _ h => ht.trans h) fun _ h => h

theorem putCode_frame (b : Byte) (s : State) : (putCode b s).Ends (WriterFrame s) := putBits_frame _ _ s

theorem getBit_frame (s : State) : (getBit s).Ends (ReaderFrame s) := by
  unfold getBit
  split
  · rfl
  · rcases sourceRead_cases s with ⟨ds, h⟩ | ⟨ds, h, _⟩ | ⟨ds, b, h, _⟩ <;> rw [h] <;> rfl

theorem decodeLoop_frame (k : Nat) (n : NodeIdx) (first : Bool) (s : State) :
    (decodeLoop k n first s).Ends (ReaderFrame s) := by
  induction k generalizing n first s with
  | zero => exact ReaderFrame.refl s
  | succ k ih =>
    rw [decodeLoop]
    split
    · exact ReaderFrame.refl s
    · refine Run.Ends.bind (getBit_frame s) (fun b t ht => ?_) fun _ h => h
      split
      · split <;> exact ht
      · split
        · exact (ih _ _ t).mono fun _ h => ht.trans h
        · trivial
      · split
        · exact (ih _ _ t).mono fun _ h => ht.trans h
        · trivial

theorem decodeSym_frame (s : State) : (decodeSym s).Ends (ReaderFrame s) := by
  unfold decodeSym
  split
  · refine Run.Ends.bind (getBit_frame s) (fun b t ht => ?_) fun _ h => h
    split <;> exact ht
  · exact decodeLoop_frame _ _ _ s

/-! ### Sequencers -/

theorem encodeLoop_frame (n : Nat) (s : State) : (encodeLoop n s).Ends (EncodeFrame s) := by
  induction n generalizing s with
  | zero => exact EncodeFrame.refl s
  | succ n ih =>
    rw [encodeLoop]
    rcases sourceRead_cases s with ⟨ds, h⟩ | ⟨ds, h, _⟩ | ⟨ds, b, h, _⟩ <;> rw [h]
    · rfl
    · rfl
    · dsimp only
      split
      · rfl
      · refine Run.Ends.bind ((putCode_frame b _).mono fun _ h => EncodeFrame.trans (by rfl) h.toEncodeFrame)
          (fun _ t ht => ?_) fun _ h => h
        exact (ih _).mono fun _ h => EncodeFrame.trans (EncodeFrame.trans ht (by rfl)) h

theorem checkAlphabet_cases (s : State) :
    (ndist s = 0 ∧ checkAlphabet s = .raised .emptyInput s) ∨
    (ndist s = 256 ∧ checkAlphabet s = .raised .alphabetOverflow s) ∨
    (ndist s ≠ 0 ∧ ndist s ≠ 256 ∧ checkAlphabet s = .done () s) := by
  unfold checkAlphabet
  by_cases h0 : ndist s = 0
  · exact .inl ⟨h0, if_pos h0⟩
  · by_cases h1 : ndist s = 256
    · exact .inr (.inl ⟨h1, by rw [if_neg h0, if_pos h1]⟩)
    · exact .inr (.inr ⟨h0, h1, by rw [if_neg h0, if_neg h1]⟩)

theorem compressBody_frame (s : State) : (compressBody s).Ends (CompressFrame s) := by
  have h0 : CompressFrame s (clearReader (clearWriter (clearCount s))) := rfl
  refine Run.Ends.bind ((sourceRewind_frame _).mono fun _ h => h0.trans h.toCompressFrame) (fun _ a ha => ?_)
    fun _ h => h
  refine Run.Ends.bind ((scanFreq_frame a).mono fun _ h => ha.trans h.toCompressFrame) (fun _ b hb => ?_) fun _ h => h
  refine Run.Ends.bind (P := CompressFrame s) ?_ (fun _ c hc => ?_) fun _ h => h
  · rcases checkAlphabet_cases b with ⟨_, e⟩ | ⟨_, e⟩ | ⟨_, _, e⟩ <;> rw [e] <;> exact hb
  refine Run.Ends.bind ((buildTree_frame c).mono fun _ h => hc.trans h.toCompressFrame) (fun _ d hd => ?_) fun _ h => h
  refine Run.Ends.bind ((genCodes_frame d).mono fun _ h => hd.trans h.toCompressFrame) (fun _ e he => ?_) fun _ h => h
  refine Run.Ends.bind ((writeHeader_frame e).mono fun _ h => he.trans h.toCompressFrame) (fun _ f hf => ?_)
    fun _ h => h
  refine Run.Ends.bind ((sourceRewind_frame f).mono fun _ h => hf.trans h.toCompressFrame) (fun _ g hg => ?_)
    fun _ h => h
  refine Run.Ends.bind ((encodeLoop_frame _ g).mono fun _ h => hg.trans h.toCompressFrame) (fun _ i hi => ?_)
    fun _ h => h
  exact (flushBits_frame i).mono fun _ h => hi.trans h.toCompressFrame

theorem decodeAll_frame (n : Nat) (s : State) : (decodeAll n s).Ends (DecodeFrame s) := by
  induction n generalizing s with
  | zero => exact DecodeFrame.refl s
  | succ n ih =>
    refine Run.Ends.bind ((decodeSym_frame s).mono fun _ h => h.toDecodeFrame) (fun r t ht => ?_) fun _ h => h
    split
    · exact ht
    · refine Run.Ends.bind ((sinkWrite_frame _ t).mono fun _ h => ht.trans h.toDecodeFrame) (fun _ u hu => ?_)
        fun _ h => h
      exact (ih _).mono fun _ h => DecodeFrame.trans (DecodeFrame.trans hu (by rfl)) h

theorem decompressBody_frame (s : State) : (decompressBody s).Ends (DecompressFrame s) := by
  have h0 : DecompressFrame s (clearReader (clearCount s)) := rfl
  refine Run.Ends.bind ((readHeader_frame _).mono fun _ h => h0.trans h.toDecompressFrame) (fun _ a ha => ?_)
    fun _ h => h
  refine Run.Ends.bind ((buildTree_frame a).mono fun _ h => ha.trans h.toDecompressFrame) (fun _ b hb => ?_)
    fun _ h => h
  exact (decodeAll_frame _ b).mono fun _ h => hb.trans h.toDecompressFrame

end Sys2Proof.Machine
end

