-- ==== Sys2Proof/Laws/Loops.lean ====
section
/-!
SUPPORT. The bounds of the model's loops are no part of their meaning: with the bound each loop is given, a larger bound
changes nothing, so each loop runs until its own end test as the pseudocode's `loop` and `while` do.
-/

namespace Sys2Proof.Machine

theorem Run.bind_congr {α β : Type} {r : Run α} {k l : α → State → Run β}
    (h : ∀ a t, r = .done a t → k a t = l a t) : r.bind k = r.bind l := by
  cases r with
  | done a t => exact h a t rfl
  | raised e t => rfl
  | stopped f => rfl

/-- A byte is read only while one is left. -/
theorem sourceRead_byte {s : State} {b : Byte} {t : State} (h : sourceRead s = (.byte b, t)) :
    sourceLeft t + 1 = sourceLeft s ∧ t.srcseq = s.srcseq := by
  rcases sourceRead_cases s with ⟨ds, e⟩ | ⟨ds, e, _⟩ | ⟨ds, c, e, hc⟩ <;> rw [e] at h <;> cases h
  have hlt : s.spos < s.srcseq.length := by
    by_contra hge
    rw [List.getElem?_eq_none (by omega)] at hc
    cases hc
  exact ⟨by simp only [sourceLeft]; omega, rfl⟩

theorem scanLoop_succ {k : Nat} {s : State} (h : sourceLeft s < k) : scanLoop (k + 1) s = scanLoop k s := by
  induction k generalizing s with
  | zero => omega
  | succ k ih =>
    rw [scanLoop, scanLoop]
    cases hr : sourceRead s with
    | mk a t =>
      cases a with
      | fail => rfl
      | eos => rfl
      | byte b =>
        have hl := (sourceRead_byte hr).1
        dsimp only
        split
        · rfl
        · exact ih (by simp only [sourceLeft, setFreq_srcseq, setFreq_spos] at h hl ⊢; omega)

/-- `scanFreq`'s bound is enough. -/
theorem scanLoop_bound {k : Nat} {s : State} (h : sourceLeft s < k) :
    scanLoop k s = scanLoop (sourceLeft s + 1) s := by
  induction k with
  | zero => omega
  | succ k ih =>
    rcases Nat.lt_or_ge (sourceLeft s) k with hk | hk
    · rw [scanLoop_succ hk, ih hk]
    · rw [show k = sourceLeft s by omega]

theorem siftUp_step (k : Nat) (i : NodeIdx) (s : State) :
    siftUp (k + 1) i s =
      if i.val = 0 then s
      else if less s s.heap[i] s.heap[parentPos i] then siftUp k (parentPos i) (heapSwap i (parentPos i) s)
      else s := rfl

/-- `heapInsert`'s bound is enough. -/
theorem siftUp_succ {k : Nat} {i : NodeIdx} {s : State} (h : i.val ≤ k) : siftUp (k + 1) i s = siftUp k i s := by
  induction k generalizing i s with
  | zero => rw [siftUp_step, if_pos (by omega)]; rfl
  | succ k ih =>
    rw [siftUp_step (k + 1) i s, siftUp_step k i s, ih (i := parentPos i) (by simp only [parentPos]; omega)]

theorem smallerPos_eq (s : State) (c : Nat) (m : NodeIdx) :
    smallerPos s c m = m ∨ ((smallerPos s c m).val = c ∧ c < s.heapn.val) := by
  unfold smallerPos
  split
  · split
    · exact .inr ⟨rfl, ‹_›⟩
    · exact .inl rfl
  · exact .inl rfl

/-- The sift stays, or moves to a child inside the heap. -/
theorem leastPos_eq (s : State) (i : NodeIdx) :
    leastPos s i = i ∨
    (((leastPos s i).val = 2 * i.val + 1 ∨ (leastPos s i).val = 2 * i.val + 2) ∧
      (leastPos s i).val < s.heapn.val) := by
  unfold leastPos
  rcases smallerPos_eq s (2 * i.val + 2) (smallerPos s (2 * i.val + 1) i) with h | ⟨h, hl⟩
  · rw [h]
    rcases smallerPos_eq s (2 * i.val + 1) i with h' | ⟨h', hl'⟩
    · exact .inl h'
    · exact .inr ⟨.inl h', by omega⟩
  · exact .inr ⟨.inr h, by omega⟩

theorem siftDown_step (k : Nat) (i : NodeIdx) (s : State) :
    siftDown (k + 1) i s =
      if leastPos s i = i then s else siftDown k (leastPos s i) (heapSwap i (leastPos s i) s) := rfl

/-- `heapExtract`'s bound is enough. -/
theorem siftDown_succ {k : Nat} {i : NodeIdx} {s : State} (h : s.heapn.val ≤ k + i.val) :
    siftDown (k + 1) i s = siftDown k i s := by
  induction k generalizing i s with
  | zero =>
    rcases leastPos_eq s i with h' | ⟨h', hl⟩
    · rw [siftDown_step, if_pos h']; rfl
    · omega
  | succ k ih =>
    rw [siftDown_step (k + 1) i s, siftDown_step k i s]
    rcases leastPos_eq s i with h' | ⟨h', hl⟩
    · rw [if_pos h', if_pos h']
    · rw [ih (i := leastPos s i) (by simp only [heapSwap_heapn]; omega)]

/-! ### What the heap primitives do to the counts -/

theorem heapExtract_done {s t : State} {n : NodeIdx} (h : heapExtract s = .done n t) :
    t.heapn.val + 1 = s.heapn.val ∧ t.nnodes = s.nnodes ∧ t.node = s.node := by
  rcases heapExtract_cases s with ⟨_, e⟩ | ⟨hs, c, hp, e⟩ <;> rw [e] at h <;> cases h
  exact ⟨by dsimp only; omega, rfl, rfl⟩

theorem heapInsert_done {s t : State} {n : NodeIdx} (h : heapInsert n s = .done () t) :
    t.heapn.val = s.heapn.val + 1 ∧ t.nnodes = s.nnodes ∧ t.node = s.node := by
  rcases heapInsert_cases n s with ⟨_, hp, e⟩ | ⟨_, e⟩ <;> rw [e] at h <;> cases h
  exact ⟨rfl, rfl, rfl⟩

theorem newNode_done {s t : State} {d : Node} {n : NodeIdx} (h : newNode d s = .done n t) :
    n.val = s.nnodes.val ∧ t.nnodes.val = s.nnodes.val + 1 ∧ t.heapn = s.heapn ∧ t.heap = s.heap ∧
      t.node = s.node.set n.val d := by
  rcases newNode_cases d s with ⟨_, e⟩ | ⟨_, e⟩ <;> rw [e] at h <;> cases h
  exact ⟨rfl, rfl, rfl, rfl, rfl⟩

/-- The sum is exact: where `mergeNode` returns, the new node's frequency is the sum of the two. -/
theorem mergeNode_done {s t : State} {a b n : NodeIdx} (h : mergeNode a b s = .done n t) :
    s.node[a].freq.toNat + s.node[b].freq.toNat < 2 ^ 40 ∧
      newNode (innerNode (BitVec.ofNat 40 (s.node[a].freq.toNat + s.node[b].freq.toNat)) a b) s = .done n t := by
  unfold mergeNode at h
  dsimp only at h
  split at h
  · exact ⟨‹_›, h⟩
  · cases h

/-- A merge that returns leaves one node fewer queued and one slot more in use (42_heap.md R154). -/
theorem mergeTwo_counts {s t : State} {n : NodeIdx} (h : mergeTwo s = .done n t) :
    t.heapn.val + 1 = s.heapn.val ∧ t.nnodes.val = s.nnodes.val + 1 ∧ n.val = s.nnodes.val := by
  unfold mergeTwo at h
  obtain ⟨a, u, hu, h⟩ := Run.bind_eq_done h
  obtain ⟨b, v, hv, h⟩ := Run.bind_eq_done h
  obtain ⟨m, w, hw, h⟩ := Run.bind_eq_done h
  obtain ⟨_, x, hx, h⟩ := Run.bind_eq_done h
  cases h
  have h1 := heapExtract_done hu
  have h2 := heapExtract_done hv
  have h3 := newNode_done (mergeNode_done hw).2
  have h4 := heapInsert_done hx
  rw [h4.2.1, h3.2.1, h4.1, h3.2.2.1, h3.1, h2.2.1, h1.2.1]
  exact ⟨by omega, rfl, rfl⟩

theorem mergeLoop_step (k : Nat) (s : State) :
    mergeLoop (k + 1) s =
      if 1 < s.heapn.val then (mergeTwo s).bind fun _ s => mergeLoop k s else .done () s := rfl

/-- `buildTree`'s bound is enough. -/
theorem mergeLoop_succ {k : Nat} {s : State} (h : s.heapn.val ≤ k) : mergeLoop (k + 1) s = mergeLoop k s := by
  induction k generalizing s with
  | zero => rw [mergeLoop_step, if_neg (by omega)]; rfl
  | succ k ih =>
    rw [mergeLoop_step (k + 1), mergeLoop_step k]
    congr 1
    exact Run.bind_congr fun _ t ht => ih (by have := mergeTwo_counts ht; omega)

/-! ### The decoder's walk -/

/-- A bit is read only while one is left. -/
theorem getBit_some {s t : State} {b : Bool} (h : getBit s = .done (some b) t) :
    bitsLeft t + 1 = bitsLeft s ∧ t.node = s.node := by
  unfold getBit at h
  split at h
  · cases h
    rename_i hr
    exact ⟨by simp only [bitsLeft, sourceLeft, hr]; omega, rfl⟩
  · rename_i hr
    cases hs : sourceRead s with
    | mk a u =>
      rw [hs] at h
      cases a with
      | fail => cases h
      | eos => cases h
      | byte c =>
        cases h
        have hl := sourceRead_byte hs
        have hn : u.node = s.node := by
          have := sourceRead_frame s
          rw [hs] at this
          unfold SourceFrame at this
          have hn := congrArg State.node this
          exact hn
        refine ⟨?_, hn⟩
        simp only [bitsLeft, sourceLeft, hr] at hl ⊢
        omega

/-- `decodeSym`'s bound is enough. -/
theorem decodeLoop_succ {k : Nat} {n : NodeIdx} {first : Bool} {s : State} (h : bitsLeft s < k) :
    decodeLoop (k + 1) n first s = decodeLoop k n first s := by
  induction k generalizing n first s with
  | zero => omega
  | succ k ih =>
    rw [decodeLoop, decodeLoop]
    split
    · rfl
    · refine Run.bind_congr fun b t ht => ?_
      cases b with
      | none => rfl
      | some b =>
        have hb := (getBit_some ht).1
        cases b with
        | false => dsimp only; split <;> [exact ih (by omega); rfl]
        | true => dsimp only; split <;> [exact ih (by omega); rfl]

end Sys2Proof.Machine
end

