-- ==== Sys2Proof/Laws/Heap.lean ====
section
/-!
SUPPORT. What the heap primitives do to the set of queued nodes (42_heap.md R152 to R154): the sifts only reorder it,
`HeapInsert` adds one node, `HeapExtract` takes one out and leaves it in the slot just past the heap.
-/

namespace Sys2Proof.Machine

theorem queue_length (s : State) : (queue s).length = s.heapn.val := by
  simp only [queue, List.length_take, Vector.length_toList]
  omega

theorem queue_getElem (s : State) (i : Nat) (h : i < s.heapn.val) :
    (queue s)[i]'(by rw [queue_length]; exact h) = s.heap[i]'(by omega) := by
  simp [queue]

/-- A node is queued exactly where a position below HEAPN holds it. -/
theorem mem_queue {s : State} {n : NodeIdx} :
    n ∈ queue s ↔ ∃ i : NodeIdx, i.val < s.heapn.val ∧ s.heap[i] = n := by
  rw [List.mem_iff_getElem]
  constructor
  · rintro ⟨i, hi, e⟩
    rw [queue_length] at hi
    rw [queue_getElem s i hi] at e
    exact ⟨⟨i, by omega⟩, hi, e⟩
  · rintro ⟨i, hi, e⟩
    exact ⟨i.val, by rw [queue_length]; exact hi, by rw [queue_getElem s i.val hi]; exact e⟩

/-- The queue is a function of HEAP and HEAPN. -/
theorem queue_congr {s t : State} (hh : t.heap = s.heap) (hn : t.heapn = s.heapn) : queue t = queue s := by
  simp [queue, hh, hn]

/-- A swap of two queued positions reorders the queue. -/
theorem heapSwap_queue {i j : NodeIdx} {s : State} (hi : i.val < s.heapn.val) (hj : j.val < s.heapn.val) :
    (queue (heapSwap i j s)).Perm (queue s) := by
  have hi' : i.val < (queue s).length := by rw [queue_length]; exact hi
  have hj' : j.val < (queue s).length := by rw [queue_length]; exact hj
  have h : queue (heapSwap i j s) = ((queue s).set i.val (queue s)[j.val]).set j.val (queue s)[i.val] := by
    rw [queue_getElem s i.val hi, queue_getElem s j.val hj]
    simp [queue, heapSwap, Vector.toList_set, List.take_set]
  rw [h]
  exact List.set_set_perm hi' hj'

theorem siftUp_queue {k : Nat} {i : NodeIdx} {s : State} (hi : i.val < s.heapn.val) :
    (queue (siftUp k i s)).Perm (queue s) := by
  induction k generalizing i s with
  | zero => exact List.Perm.refl _
  | succ k ih =>
    rw [siftUp_step]
    split
    · exact List.Perm.refl _
    · split
      · have hp : (parentPos i).val < s.heapn.val := by simp only [parentPos]; omega
        exact (ih (by simpa using hp)).trans (heapSwap_queue hi hp)
      · exact List.Perm.refl _

theorem siftDown_queue {k : Nat} {i : NodeIdx} {s : State} (hi : i.val < s.heapn.val) :
    (queue (siftDown k i s)).Perm (queue s) := by
  induction k generalizing i s with
  | zero => exact List.Perm.refl _
  | succ k ih =>
    rw [siftDown_step]
    split
    · exact List.Perm.refl _
    · rcases leastPos_eq s i with h' | ⟨_, hl⟩
      · contradiction
      · exact (ih (by simpa using hl)).trans (heapSwap_queue hi hl)

/-- `HeapInsert` queues its node beside those already queued (42_heap.md R152). -/
theorem heapInsert_queue {n : NodeIdx} {s t : State} (h : heapInsert n s = .done () t) :
    (queue t).Perm (n :: queue s) := by
  unfold heapInsert at h
  split at h
  · rename_i hlt
    cases h
    refine (siftUp_queue (by simp)).trans ?_
    have e : queue { s with heap := s.heap.set s.heapn.val n hlt, heapn := ⟨s.heapn.val + 1, by omega⟩ } =
        queue s ++ [n] := by
      apply List.ext_getElem
      · simp [queue_length]
      · intro i h1 h2
        rw [queue_length] at h1
        rw [queue_getElem _ i h1, List.getElem_append]
        dsimp only at h1 ⊢
        split
        · rename_i hi
          rw [queue_length] at hi
          rw [queue_getElem s i hi, Vector.getElem_set_ne _ _ (by omega)]
        · rename_i hi
          rw [queue_length] at hi
          simp [show i = s.heapn.val by omega]
    rw [e]
    exact List.perm_append_singleton n (queue s)
  · cases h

/-- A sift below a bound leaves the positions at and past it alone. -/
theorem siftDown_above {k : Nat} {i j : NodeIdx} {s : State} (hi : i.val < j.val) (hj : s.heapn.val ≤ j.val) :
    (siftDown k i s).heap[j] = s.heap[j] := by
  induction k generalizing i s with
  | zero => rfl
  | succ k ih =>
    rw [siftDown_step]
    split
    · rfl
    · rcases leastPos_eq s i with h' | ⟨_, hl⟩
      · contradiction
      · rw [ih (by omega) (by simpa using hj)]
        simp only [heapSwap_heap, Fin.getElem_fin]
        rw [Vector.getElem_set_ne _ _ (by omega), Vector.getElem_set_ne _ _ (by omega)]

/-- `HeapExtract` takes the node at the root of the heap out of the queue, and leaves it in the slot just past the heap
(42_heap.md R153). -/
theorem heapExtract_queue {n : NodeIdx} {s t : State} (h : heapExtract s = .done n t) :
    n = s.heap[0] ∧ (queue s).Perm (n :: queue t) ∧ ∀ i : NodeIdx, i.val = t.heapn.val → t.heap[i] = n := by
  unfold heapExtract at h
  split at h
  · cases h
  · rename_i hn
    let last : NodeIdx := ⟨s.heapn.val - 1, by omega⟩
    let u : State := { heapSwap 0 last s with heapn := ⟨s.heapn.val - 1, by omega⟩ }
    have hlast : last.val = s.heapn.val - 1 := rfl
    have hu : u.heap[last] = s.heap[0] := by simp [u, heapSwap]
    have hsplit : queue (heapSwap 0 last s) = queue u ++ [u.heap[last]] := by
      apply List.ext_getElem
      · simp only [queue_length, heapSwap_heapn, List.length_append, List.length_singleton, u]
        omega
      · intro i h1 h2
        rw [queue_length] at h1
        rw [queue_getElem _ i h1, List.getElem_append]
        split
        · rename_i hi
          rw [queue_length] at hi
          rw [queue_getElem u i hi]
        · rename_i hi
          rw [queue_length] at hi
          have hi' : i = last.val := by simp only [heapSwap_heapn, u] at h1 hi; omega
          subst hi'
          simp [u]
    have hswap : (queue s).Perm (u.heap[last] :: queue u) :=
      (heapSwap_queue (by simp; omega) (by omega)).symm.trans
        (hsplit ▸ List.perm_append_singleton u.heap[last] (queue u))
    have ht : siftDown last.val 0 u = t ∧ t.heap[last] = n := by
      simp only [Run.done.injEq] at h
      exact ⟨h.2, by rw [← h.2]; exact h.1⟩
    have hheapn : t.heapn = u.heapn := by rw [← ht.1, siftDown_frame]
    have hzero : ∀ k : Nat, k = 0 → siftDown k 0 u = u := fun k h0 => by subst h0; rfl
    have hkeep : t.heap[last] = u.heap[last] := by
      rw [← ht.1]
      rcases Nat.eq_zero_or_pos last.val with h0 | h0
      · rw [hzero _ h0]
      · exact siftDown_above h0 (Nat.le_refl _)
    have hperm : (queue t).Perm (queue u) := by
      rw [← ht.1]
      rcases Nat.eq_zero_or_pos last.val with h0 | h0
      · rw [hzero _ h0]
      · exact siftDown_queue h0
    have hnu : n = u.heap[last] := by rw [← ht.2, hkeep]
    refine ⟨by rw [hnu, hu], ?_, fun i hi => ?_⟩
    · rw [hnu]
      exact hswap.trans (hperm.symm.cons _)
    · have : i = last := Fin.ext (by rw [hi, hheapn])
      rw [this, ht.2]

end Sys2Proof.Machine
end

