-- ==== Sys2Proof/Laws/PerInstr.lean ====
section
/-!
SUPPORT. Fields of an assembled word, and the per-instruction families: statements about every command as syntax, one
lemma per constructor.
-/

namespace Sys2Proof.Laws

/-- The bits of `{OPC, 0x00, OPND}` (30_encoding.md R91, R97). -/
theorem assemble_getLsbD (opc : BitVec 8) (opnd : BitVec 16) (j : Nat) :
    (assemble opc opnd).getLsbD j =
      if j < 16 then opnd.getLsbD j else if j < 24 then false else opc.getLsbD (j - 24) := by
  show BitVec.getLsbD (w := 8 + 8 + 16) (opc ++ 0#8 ++ opnd) j = _
  rw [BitVec.getLsbD_append]
  split
  · rfl
  · rw [BitVec.getLsbD_append]
    split
    · rw [if_pos (by omega)]; simp
    · rw [if_neg (by omega)]; congr 1

theorem opcField_assemble (opc : BitVec 8) (opnd : BitVec 16) : opcField (assemble opc opnd) = opc := by
  apply BitVec.eq_of_getLsbD_eq
  intro i hi
  simp only [opcField, bits, BitVec.getLsbD_extractLsb', assemble_getLsbD]
  simp [hi, show ¬(24 + i < 16) by omega]

theorem rsvField_assemble (opc : BitVec 8) (opnd : BitVec 16) : rsvField (assemble opc opnd) = 0#8 := by
  apply BitVec.eq_of_getLsbD_eq
  intro i hi
  simp only [rsvField, bits, BitVec.getLsbD_extractLsb', assemble_getLsbD]
  simp [show 16 + i < 24 by omega]

/-- A field inside OPND is that field of the operand. -/
theorem bits_assemble (opc : BitVec 8) (opnd : BitVec 16) (lo n : Nat) (h : lo + n ≤ 16) :
    bits (assemble opc opnd) lo n = bits opnd lo n := by
  apply BitVec.eq_of_getLsbD_eq
  intro i hi
  simp only [bits, BitVec.getLsbD_extractLsb', assemble_getLsbD]
  rw [if_pos (by omega)]

/-- The bits above a zero-extended operand are 0. -/
theorem bits_above_zext {w : Nat} (v : BitVec w) (lo n : Nat) (h : w ≤ lo) : bits (zext 16 v) lo n = 0 := by
  apply BitVec.eq_of_getLsbD_eq
  intro i hi
  simp only [bits, zext, BitVec.getLsbD_extractLsb', BitVec.getLsbD_setWidth]
  rw [BitVec.getLsbD_of_ge v _ (by omega)]
  simp

/-- The bits of a zero-extended operand are the operand. -/
theorem bits_of_zext {w : Nat} (v : BitVec w) (h : w ≤ 16) : bits (zext 16 v) 0 w = v := by
  apply BitVec.eq_of_getLsbD_eq
  intro i hi
  simp [bits, zext, hi, show i < 16 by omega]

/-- The three checks of R95 on an assembled word, from those on its operand. -/
theorem wellFormedWord_assemble {opc : BitVec 8} {opnd : BitVec 16} {f : Format} (hf : formatOf opc = some f)
    (ho : operandBitsOk f (assemble opc opnd) = true) (hi : indexFieldOk f (assemble opc opnd) = true) :
    wellFormedWord (assemble opc opnd) = true := by
  simp [wellFormedWord, opcField_assemble, rsvField_assemble, hf, ho, hi]

theorem operandBitsOk_none (opc : BitVec 8) : operandBitsOk .none (assemble opc 0#16) = true := by
  simp only [operandBitsOk, bits_assemble opc 0#16 0 16 (by omega), beq_iff_eq]
  decide

theorem operandBitsOk_symbol (opc : BitVec 8) (sym : Byte) :
    operandBitsOk .symbol (assemble opc (zext 16 sym)) = true := by
  simp only [operandBitsOk, bits_assemble opc _ 8 8 (by omega), beq_iff_eq]
  exact bits_above_zext sym 8 8 (by omega)

theorem operandBitsOk_index (opc : BitVec 8) (idx : BitVec 9) :
    operandBitsOk .index (assemble opc (zext 16 idx)) = true := by
  simp only [operandBitsOk, bits_assemble opc _ 9 7 (by omega), beq_iff_eq]
  exact bits_above_zext idx 9 7 (by omega)

theorem indexFieldOk_index (opc : BitVec 8) (idx : BitVec 9) (h : indexOk idx = true) :
    indexFieldOk .index (assemble opc (zext 16 idx)) = true := by
  simp only [indexFieldOk, idxField, bits_assemble opc _ 0 9 (by omega), bits_of_zext idx (by omega)]
  exact h

theorem operandBitsOk_codeWord (opc : BitVec 8) (sym : Byte) (w : BitVec 3) :
    operandBitsOk .codeWord (assemble opc (zext 16 (w ++ sym))) = true := by
  simp only [operandBitsOk, bits_assemble opc _ 11 5 (by omega), beq_iff_eq]
  exact bits_above_zext (w ++ sym) 11 5 (by omega)

theorem operandBitsOk_bit (opc : BitVec 8) (b : Bool) :
    operandBitsOk .bit (assemble opc (zext 16 (BitVec.ofBool b))) = true := by
  simp only [operandBitsOk, bits_assemble opc _ 1 15 (by omega), beq_iff_eq]
  exact bits_above_zext (BitVec.ofBool b) 1 15 (by omega)

/-! ### The family EncodedWord -/

/-- The word of a command that names an existing slot is well formed in the sense of 30_encoding.md R95. -/
def EncodedWord.Statement (i : Instr) : Prop := i.wellFormed = true → wellFormedWord (encode i) = true

theorem EncodedWord.nop : EncodedWord.Statement .nop := fun _ =>
  wellFormedWord_assemble rfl (operandBitsOk_none _) (rfl)

theorem EncodedWord.reset : EncodedWord.Statement .reset := fun _ =>
  wellFormedWord_assemble rfl (operandBitsOk_none _) (rfl)

theorem EncodedWord.freqClear : EncodedWord.Statement .freqClear := fun _ =>
  wellFormedWord_assemble rfl (operandBitsOk_none _) (rfl)

theorem EncodedWord.freqScan : EncodedWord.Statement .freqScan := fun _ =>
  wellFormedWord_assemble rfl (operandBitsOk_none _) (rfl)

theorem EncodedWord.freqSet (sym : Byte) : EncodedWord.Statement (.freqSet sym) := fun _ =>
  wellFormedWord_assemble rfl (operandBitsOk_symbol _ sym) (rfl)

theorem EncodedWord.freqGet (sym : Byte) : EncodedWord.Statement (.freqGet sym) := fun _ =>
  wellFormedWord_assemble rfl (operandBitsOk_symbol _ sym) (rfl)

theorem EncodedWord.srcRewind : EncodedWord.Statement .srcRewind := fun _ =>
  wellFormedWord_assemble rfl (operandBitsOk_none _) (rfl)

theorem EncodedWord.heapClear : EncodedWord.Statement .heapClear := fun _ =>
  wellFormedWord_assemble rfl (operandBitsOk_none _) (rfl)

theorem EncodedWord.heapInsert (sym : Byte) : EncodedWord.Statement (.heapInsert sym) := fun _ =>
  wellFormedWord_assemble rfl (operandBitsOk_symbol _ sym) (rfl)

theorem EncodedWord.heapExtract : EncodedWord.Statement .heapExtract := fun _ =>
  wellFormedWord_assemble rfl (operandBitsOk_none _) (rfl)

theorem EncodedWord.heapMerge : EncodedWord.Statement .heapMerge := fun _ =>
  wellFormedWord_assemble rfl (operandBitsOk_none _) (rfl)

theorem EncodedWord.heapGet (idx : BitVec 9) : EncodedWord.Statement (.heapGet idx) := fun h =>
  wellFormedWord_assemble rfl (operandBitsOk_index _ idx) (indexFieldOk_index _ idx h)

theorem EncodedWord.nodeGet (idx : BitVec 9) : EncodedWord.Statement (.nodeGet idx) := fun h =>
  wellFormedWord_assemble rfl (operandBitsOk_index _ idx) (indexFieldOk_index _ idx h)

theorem EncodedWord.buildTree : EncodedWord.Statement .buildTree := fun _ =>
  wellFormedWord_assemble rfl (operandBitsOk_none _) (rfl)

theorem EncodedWord.genCodes : EncodedWord.Statement .genCodes := fun _ =>
  wellFormedWord_assemble rfl (operandBitsOk_none _) (rfl)

theorem EncodedWord.codeGet (sym : Byte) (w : BitVec 3) : EncodedWord.Statement (.codeGet sym w) := fun _ =>
  wellFormedWord_assemble rfl (operandBitsOk_codeWord _ sym w) (rfl)

theorem EncodedWord.hdrWrite : EncodedWord.Statement .hdrWrite := fun _ =>
  wellFormedWord_assemble rfl (operandBitsOk_none _) (rfl)

theorem EncodedWord.hdrRead : EncodedWord.Statement .hdrRead := fun _ =>
  wellFormedWord_assemble rfl (operandBitsOk_none _) (rfl)

theorem EncodedWord.bwBit (b : Bool) : EncodedWord.Statement (.bwBit b) := fun _ =>
  wellFormedWord_assemble rfl (operandBitsOk_bit _ b) (rfl)

theorem EncodedWord.bwFlush : EncodedWord.Statement .bwFlush := fun _ =>
  wellFormedWord_assemble rfl (operandBitsOk_none _) (rfl)

theorem EncodedWord.bwSym (sym : Byte) : EncodedWord.Statement (.bwSym sym) := fun _ =>
  wellFormedWord_assemble rfl (operandBitsOk_symbol _ sym) (rfl)

theorem EncodedWord.bwClear : EncodedWord.Statement .bwClear := fun _ =>
  wellFormedWord_assemble rfl (operandBitsOk_none _) (rfl)

theorem EncodedWord.brClear : EncodedWord.Statement .brClear := fun _ =>
  wellFormedWord_assemble rfl (operandBitsOk_none _) (rfl)

theorem EncodedWord.brBit : EncodedWord.Statement .brBit := fun _ =>
  wellFormedWord_assemble rfl (operandBitsOk_none _) (rfl)

theorem EncodedWord.brSym : EncodedWord.Statement .brSym := fun _ =>
  wellFormedWord_assemble rfl (operandBitsOk_none _) (rfl)

theorem EncodedWord.compress : EncodedWord.Statement .compress := fun _ =>
  wellFormedWord_assemble rfl (operandBitsOk_none _) (rfl)

theorem EncodedWord.decompress : EncodedWord.Statement .decompress := fun _ =>
  wellFormedWord_assemble rfl (operandBitsOk_none _) (rfl)

end Sys2Proof.Laws
end

