-- ==== Sys2Proof/Tests/Slice0.lean ====
section
/-!
SUPPORT. Tests of the model on fixed values. The words are written out from 30_encoding.md R94 and its field tables,
the expected results are those of spec/95_test_vectors.md (named in each docstring). After them, one witness or more
for the hypotheses of every statement of Certificates/Slice0/Obligations.lean that has some.
-/

namespace Sys2Proof.Tests

-- One theorem at a time: each evaluates in a thread of its own, and a build has room for few of them.
set_option Elab.async false

open Sys2Proof Sys2Proof.Machine

/-! ### Helpers -/

/-- One view of the state an outcome gives, none where the machine stopped. -/
def seen {α : Type} (o : Host.Outcome State Fault Refusal) (f : State → α) : Option α :=
  match o with
  | .next t => some (f t)
  | .fault _ => none
  | .refused _ => none

/-- The state an outcome gives, the reset state where it gives none. -/
def after (o : Host.Outcome State Fault Refusal) : State :=
  match o with
  | .next t => t
  | .fault _ => State.reset
  | .refused _ => State.reset

/-- An outcome that shows something is a next state. -/
theorem next_of_seen {o : Host.Outcome State Fault Refusal} (h : (seen o fun _ => ()) = some ()) :
    o = .next (after o) := by
  cases o with
  | next t => rfl
  | fault f => cases h
  | refused r => cases h

/-- An engine at reset with a source placed at its start. -/
def withSource (bs : List Byte) : State := { State.reset with srcseq := bs }

/-- FREQ of 95_test_vectors.md V-TREE-1: A 5, B 3, C 2, D 1. -/
def tableABCD : State :=
  setFreq 0x41#8 5#32 (setFreq 0x42#8 3#32 (setFreq 0x43#8 2#32 (setFreq 0x44#8 1#32 State.reset)))

/-- "AAAAABBBCCD". -/
def textABCD : List Byte :=
  [0x41#8, 0x41#8, 0x41#8, 0x41#8, 0x41#8, 0x42#8, 0x42#8, 0x42#8, 0x43#8, 0x43#8, 0x44#8]

/-- The header of 95_test_vectors.md W7. -/
def headerABCD : List Byte :=
  [4#8, 0x41#8, 5#8, 0#8, 0#8, 0#8, 0x42#8, 3#8, 0#8, 0#8, 0#8, 0x43#8, 2#8, 0#8, 0#8, 0#8, 0x44#8, 1#8, 0#8, 0#8, 0#8]

/-- A node table that starts with the given records. -/
def nodesFrom (ds : List Node) : Vector Node 511 :=
  ds.zipIdx.foldl (fun v p => v.setIfInBounds p.2 p.1) (Vector.replicate 511 Node.zero)

/-- A heap array that starts with the given node indices. -/
def heapFrom (ns : List NodeIdx) : Vector NodeIdx 511 :=
  ns.zipIdx.foldl (fun v p => v.setIfInBounds p.2 p.1) (Vector.replicate 511 0)

/-- The tree of 95_test_vectors.md V-TREE-1a, valid. -/
def treeABCD : State :=
  { tableABCD with
    node := nodesFrom
      [leafNode 0x41#8 5#40, leafNode 0x42#8 3#40, leafNode 0x43#8 2#40, leafNode 0x44#8 1#40,
        innerNode 3#40 3 2, innerNode 6#40 1 4, innerNode 11#40 0 5]
    nnodes := 7, root := 6, rootValid := true }

/-- The tree of 95_test_vectors.md V-TREE-8, the single leaf of the table a 4. -/
def treeA : State :=
  { setFreq 0x61#8 4#32 State.reset with
    node := nodesFrom [leafNode 0x61#8 4#40], nnodes := 1, root := 0, rootValid := true }

/-- `treeABCD` with its codes, 95_test_vectors.md V-TREE-3: A 0, B 10, C 111, D 110. -/
def codesABCD : State :=
  { treeABCD with
    clen := setSym (setSym (setSym (setSym State.reset.clen 0x41#8 1#8) 0x42#8 2#8) 0x43#8 3#8) 0x44#8 3#8
    cval := setSym (setSym (setSym State.reset.cval 0x42#8 2#255) 0x43#8 7#255) 0x44#8 6#255
    outbits := 20#48, codesValid := true }

/-- `treeA` with its code, the one bit 0. -/
def codesA : State :=
  { treeA with clen := setSym State.reset.clen 0x61#8 1#8, outbits := 4#48, codesValid := true }

/-- A table of 256 symbols, each counted once, and one of 255, without symbol 0. -/
def table256 : State := { State.reset with freq := Vector.replicate 256 1#32 }
def table255 : State := setFreq 0#8 0#32 table256

/-- The first `n` byte values, once each. -/
def bytesBelow (n : Nat) : List Byte := (List.range n).map (BitVec.ofNat 8)

/-- The heap of 95_test_vectors.md W4 after step 4: HEAP[0..3] = 1, 3, 2, 0 over frequencies 7, 3, 7, 3. -/
def heapW4 : State :=
  { State.reset with
    node := nodesFrom [leafNode 0x10#8 7#40, leafNode 0x11#8 3#40, leafNode 0x12#8 7#40, leafNode 0x13#8 3#40]
    nnodes := 4
    heap := heapFrom [1, 3, 2, 0], heapn := 4 }

/-! ### Well-formed terms -/

theorem test_wellFormed_refuses_heapGet_511 : (Instr.heapGet 0x1FF#9).wellFormed = false := by decide
theorem test_wellFormed_refuses_nodeGet_511 : (Instr.nodeGet 0x1FF#9).wellFormed = false := by decide
theorem test_wellFormed_accepts_510 :
    (Instr.heapGet 0x1FE#9).wellFormed = true ∧ (Instr.nodeGet 0x1FE#9).wellFormed = true := by decide

/-! ### Decoding, words written out from R94 -/

theorem test_decode_control : decode 0x00000000#32 = .ok .nop ∧ decode 0x01000000#32 = .ok .reset := by decide

theorem test_decode_frequency :
    decode 0x10000000#32 = .ok .freqClear ∧ decode 0x11000000#32 = .ok .freqScan ∧
    decode 0x12000041#32 = .ok (.freqSet 0x41#8) ∧ decode 0x130000FE#32 = .ok (.freqGet 0xFE#8) ∧
    decode 0x14000000#32 = .ok .srcRewind := by decide

theorem test_decode_heap :
    decode 0x20000000#32 = .ok .heapClear ∧ decode 0x21000013#32 = .ok (.heapInsert 0x13#8) ∧
    decode 0x22000000#32 = .ok .heapExtract ∧ decode 0x23000000#32 = .ok .heapMerge ∧
    decode 0x24000103#32 = .ok (.heapGet 0x103#9) ∧ decode 0x250001FE#32 = .ok (.nodeGet 0x1FE#9) := by decide

theorem test_decode_tree :
    decode 0x30000000#32 = .ok .buildTree ∧ decode 0x31000000#32 = .ok .genCodes ∧
    decode 0x32000641#32 = .ok (.codeGet 0x41#8 6#3) ∧ decode 0x320007FF#32 = .ok (.codeGet 0xFF#8 7#3) := by decide

theorem test_decode_header :
    decode 0x40000000#32 = .ok .hdrWrite ∧ decode 0x41000000#32 = .ok .hdrRead := by decide

theorem test_decode_writer :
    decode 0x50000000#32 = .ok (.bwBit false) ∧ decode 0x50000001#32 = .ok (.bwBit true) ∧
    decode 0x51000000#32 = .ok .bwFlush ∧ decode 0x52000044#32 = .ok (.bwSym 0x44#8) ∧
    decode 0x53000000#32 = .ok .bwClear := by decide

theorem test_decode_reader :
    decode 0x60000000#32 = .ok .brClear ∧ decode 0x61000000#32 = .ok .brBit ∧
    decode 0x62000000#32 = .ok .brSym := by decide

theorem test_decode_sequencers :
    decode 0x70000000#32 = .ok .compress ∧ decode 0x71000000#32 = .ok .decompress := by decide

/-- V-CTRL-1, V-CTRL-5: the malformed words of each kind. -/
theorem test_decode_rejects :
    decode 0x02000000#32 = .error (.unassignedOpcode 0x02#8) ∧
    decode 0x15000000#32 = .error (.unassignedOpcode 0x15#8) ∧
    decode 0xFF000000#32 = .error (.unassignedOpcode 0xFF#8) ∧ decode 0x00010000#32 = .error .reservedBits ∧
    decode 0x00000001#32 = .error .operandBits ∧ decode 0x13000100#32 = .error .operandBits ∧
    decode 0x32000800#32 = .error .operandBits ∧ decode 0x50000002#32 = .error .operandBits ∧
    decode 0x25000200#32 = .error .operandBits ∧ decode 0x240001FF#32 = .error .indexOutOfRange ∧
    decode 0x250001FF#32 = .error .indexOutOfRange := by decide

theorem test_table_word :
    decodeTableWord 32 0x12000041 = some (.freqSet 0x41#8) ∧ decodeTableWord 32 0x240001FF = none ∧
    decodeTableWord 8 0x00 = some .nop := by decide

/-! ### One step of each command -/

/-- V-CTRL-1: STATUS 0x0B and ERRCMD. -/
theorem test_illegal_word :
    seen (executeCommand 0x02000000#32 State.reset) (fun t => (statusWord t, t.errcmd)) =
      some (0x0B#32, 0x02000000#32) := by decide +kernel

/-- V-CTRL-6, second command: NOP clears EMPTY. -/
theorem test_nop :
    seen (step ({ State.reset with empty := true }.withFetchWord 32 0x00000000)) statusWord = some 0#32 := by
  decide +kernel

/-- V-CTRL-4: RESET leaves the error state; V-CTRL-3: not with a nonzero OPND. -/
theorem test_reset :
    seen (step ({ State.reset with errcode := some .illegalCommand, arg := 5#32 }.withFetchWord 32 0x01000000))
      (fun t => (statusWord t, t.arg)) = some (0#32, 0#32) ∧
    seen (step ({ State.reset with errcode := some .illegalCommand }.withFetchWord 32 0x01000001)) statusWord =
      some 0x0B#32 := by decide +kernel

/-- V-CTRL-2: in the error state FREQ_SET is ignored. -/
theorem test_error_state_ignores :
    seen (exec (.freqSet 0x41#8) { State.reset with errcode := some .illegalCommand, arg := 5#32 })
      (fun t => (statusWord t, atSym t.freq 0x41#8)) = some (0x0B#32, 0#32) := by decide +kernel

/-- V-FREQ-11: FREQ_CLEAR clears ROOT_VALID and keeps NNODES. -/
theorem test_freqClear :
    seen (exec .freqClear treeA) (fun t => (total t, treeInfo t, heapInfo t)) = some (0, 0#32, 0x00010000#32) := by
  decide +kernel

/-- V-FREQ-6: the newline is counted. -/
theorem test_freqScan :
    seen (exec .freqScan (withSource [0x0A#8, 0x00#8, 0xFF#8, 0x0A#8]))
      (fun t => (atSym t.freq 0x0A#8, atSym t.freq 0x00#8, atSym t.freq 0xFF#8, t.spos)) =
      some (2#32, 1#32, 1#32, 4) := by decide +kernel

/-- V-FREQ-5: the fourth transfer fails. -/
theorem test_freqScan_fails :
    seen (exec .freqScan { withSource textABCD with draws := [false, false, false, true] })
      (fun t => (statusWord t, t.errcmd, atSym t.freq 0x41#8, t.spos)) =
      some (4#32, 0x11000000#32, 3#32, 3) := by decide +kernel

/-- V-FREQ-3: TOTAL 6, NDIST 3 after `A` is set to 0. -/
theorem test_freqSet :
    seen (exec (.freqSet 0x41#8) tableABCD) (fun t => (total t, treeInfo t)) = some (6, 0x00030000#32) := by
  decide +kernel

/-- V-FREQ-2. -/
theorem test_freqGet :
    seen (exec (.freqGet 0x42#8) tableABCD) State.result0 = some 3#32 ∧
    seen (exec (.freqGet 0x45#8) tableABCD) State.result0 = some 0#32 := by decide +kernel

/-- V-FREQ-4, V-FREQ-9. -/
theorem test_srcRewind :
    seen (exec .srcRewind { withSource textABCD with spos := 11 }) State.spos = some 0 ∧
    seen (exec .srcRewind { withSource [0x41#8, 0x42#8] with draws := [true] })
      (fun t => (statusWord t, t.errcmd, t.spos)) = some (4#32, 0x14000000#32, 0) := by decide +kernel

/-- V-HEAP-5: HEAPINFO 0, and the node records stay. -/
theorem test_heapClear :
    seen (exec .heapClear heapW4) (fun t => (heapInfo t, t.node[2].freq)) = some (0#32, 7#40) := by decide +kernel

/-- W4 step 1; V-HEAP-6: frequency 0. -/
theorem test_heapInsert :
    seen (exec (.heapInsert 0x10#8) { State.reset with arg := 7#32 })
      (fun t => (t.result0, t.result1, t.result2, heapInfo t)) =
      some (0x00100000#32, 7#32, 0x03FFFF00#32, 0x00010001#32) ∧
    seen (exec (.heapInsert 0x07#8) State.reset) (fun t => (t.result0, t.result1)) = some (0x00070000#32, 0#32) := by
  decide +kernel

/-- W4 step 6, and the heap it leaves. -/
theorem test_heapExtract :
    seen (exec .heapExtract heapW4)
      (fun t => (t.result0, t.result1, heapInfo t, t.heap[0], t.heap[1], t.heap[2], t.heap[3])) =
      some (0x00110001#32, 3#32, 0x00040003#32, 3, 0, 2, 1) := by decide +kernel

/-- V-CTRL-6: EMPTY of an empty heap. -/
theorem test_heapExtract_empty : seen (exec .heapExtract State.reset) statusWord = some 0x100#32 := by decide +kernel

/-- V-HEAP-7: a sum of 33 bits. -/
theorem test_heapMerge :
    seen (exec .heapMerge { State.reset with
        node := nodesFrom [leafNode 1#8 0xFFFFFFFF#40, leafNode 2#8 0xFFFFFFFF#40], nnodes := 2
        heap := heapFrom [0, 1], heapn := 2 })
      (fun t => (t.result0, t.result1, t.result2, heapInfo t)) =
      some (0x01000002#32, 0xFFFFFFFE#32, 0x00020001#32, 0x00030001#32) := by decide +kernel

/-- V-HEAP-9: the node memory is full. -/
theorem test_heapMerge_full :
    seen (exec .heapMerge { State.reset with nnodes := 511, heapn := 509 })
      (fun t => (statusWord t, t.errcmd, t.heapn)) = some (3#32, 0x23000000#32, 509) := by decide +kernel

/-- W4 step 5. -/
theorem test_heapGet :
    seen (exec (.heapGet 1#9) heapW4) State.result0 = some 3#32 ∧
    seen (exec (.heapGet 510#9) heapW4) State.result0 = some 0#32 := by decide +kernel +kernel

/-- V-TREE-1a, an internal node; V-HEAP-4, a reset slot. -/
theorem test_nodeGet :
    seen (exec (.nodeGet 4#9) treeABCD) (fun t => (t.result0, t.result1, t.result2)) =
      some (0x01000004#32, 3#32, 0x00040300#32) ∧
    seen (exec (.nodeGet 9#9) treeABCD) (fun t => (t.result0, t.result1, t.result2)) =
      some (0x00000009#32, 0#32, 0#32) := by decide +kernel

/-- V-TREE-1. -/
theorem test_buildTree :
    seen (exec .buildTree tableABCD) (fun t => (heapInfo t, treeInfo t, t.node[5])) =
      some (0x00070000#32, 0x00040206#32, innerNode 6#40 1 4) := by decide +kernel

/-- V-TREE-6. -/
theorem test_buildTree_empty :
    seen (exec .buildTree State.reset) (fun t => (statusWord t, t.errcmd, heapInfo t)) =
      some (1#32, 0x30000000#32, 0#32) := by decide +kernel

/-- V-TREE-2, V-TREE-3. -/
theorem test_genCodes :
    seen (exec .genCodes treeABCD) (fun t => (treeInfo t, t.outbits, atSym t.clen 0x43#8, atSym t.cval 0x44#8)) =
      some (0x00040606#32, 20#48, 3#8, 6#255) := by decide +kernel

/-- V-TREE-8. -/
theorem test_genCodes_single :
    seen (exec .genCodes treeA) (fun t => (treeInfo t, t.outbits, atSym t.clen 0x61#8, atSym t.cval 0x61#8)) =
      some (0x00010600#32, 4#48, 1#8, 0#255) := by decide +kernel

/-- V-TREE-3, `C`; V-TREE-4, word 1 of a short code. -/
theorem test_codeGet :
    seen (exec (.codeGet 0x43#8 0#3) (after (exec .genCodes treeABCD))) (fun t => (t.result0, t.result1, t.result2)) =
      some (3#32, 7#32, 1#32) ∧
    seen (exec (.codeGet 0x41#8 1#3) (after (exec .genCodes treeABCD))) (fun t => (t.result0, t.result1, t.result2)) =
      some (1#32, 0#32, 1#32) := by decide +kernel

/-- V-HDR-1. -/
theorem test_hdrWrite : seen (exec .hdrWrite tableABCD) State.snkseq = some headerABCD := by decide +kernel

/-- V-HDR-2: the third transfer fails. -/
theorem test_hdrWrite_fails :
    seen (exec .hdrWrite { tableABCD with draws := [false, false, true] })
      (fun t => (statusWord t, t.errcmd, t.snkseq)) = some (5#32, 0x40000000#32, [4#8, 0x41#8]) := by decide +kernel

/-- V-HDR-5: pairs out of order, and the byte after them is not read. -/
theorem test_hdrRead :
    seen (exec .hdrRead (withSource [2#8, 0x44#8, 1#8, 0#8, 0#8, 0#8, 0x41#8, 5#8, 0#8, 0#8, 0#8, 0x99#8]))
      (fun t => (statusWord t, atSym t.freq 0x41#8, atSym t.freq 0x44#8, t.spos)) =
      some (0#32, 5#32, 1#32, 11) := by decide +kernel

/-- V-HDR-9: the repeated symbol. -/
theorem test_hdrRead_repeated :
    seen (exec .hdrRead (withSource [2#8, 0x41#8, 1#8, 0#8, 0#8, 0#8, 0x41#8, 1#8, 0#8, 0#8, 0#8]))
      (fun t => (statusWord t, atSym t.freq 0x41#8, t.spos)) = some (2#32, 1#32, 11) := by decide +kernel

/-- V-BW-1, the eighth bit; V-BW-11, where its byte fails. -/
theorem test_bwBit :
    seen (exec (.bwBit false) { State.reset with wacc := 0x65#8, wcnt := 7 }) (fun t => (t.snkseq, bitInfo t)) =
      some ([0xCA#8], 0#32) ∧
    seen (exec (.bwBit true) { State.reset with wacc := 0x7F#8, wcnt := 7, draws := [true] })
      (fun t => (statusWord t, t.errcmd, bitInfo t)) = some (5#32, 0x50000001#32, 0#32) := by decide +kernel

/-- V-BW-3; V-BW-4, nothing pending. -/
theorem test_bwFlush :
    seen (exec .bwFlush { State.reset with wacc := 0x05#8, wcnt := 3 }) (fun t => (t.snkseq, bitInfo t)) =
      some ([0xA0#8], 0#32) ∧
    seen (exec .bwFlush State.reset) (fun t => (t.snkseq, bitInfo t)) = some ([], 0#32) := by decide +kernel

/-- V-BW-9: the code 111 spills two bits into the first byte. -/
theorem test_bwSym :
    seen (exec (.bwSym 0x43#8) { after (exec .genCodes treeABCD) with wacc := 0x2A#8, wcnt := 6 })
      (fun t => (t.snkseq, bitInfo t, t.xcnt)) = some ([0xAB#8], 0x00000101#32, 1#40) := by decide +kernel

/-- V-BW-8: no code. -/
theorem test_bwSym_no_code :
    seen (exec (.bwSym 0x45#8) (after (exec .genCodes treeABCD))) (fun t => (statusWord t, t.xcnt)) =
      some (0x0A#32, 0#40) := by decide +kernel

/-- V-BW-5. -/
theorem test_bwClear :
    seen (exec .bwClear { State.reset with wacc := 0x05#8, wcnt := 3 }) (fun t => (t.snkseq, bitInfo t)) =
      some ([], 0#32) := by decide +kernel

/-- V-BR-3. -/
theorem test_brClear :
    seen (exec .brClear { withSource [0xA5#8, 0x0F#8] with spos := 1, rwin := 0xA5#8, rcnt := 7 })
      (fun t => (bitInfo t, t.spos)) = some (0#32, 1) := by decide +kernel

/-- V-BR-3, the bit after the clear; V-BR-1, the end of the source. -/
theorem test_brBit :
    seen (exec .brBit { withSource [0xA5#8, 0x0F#8] with spos := 1 }) (fun t => (t.result0, bitInfo t, t.spos)) =
      some (0#32, 0x070F0000#32, 2) ∧
    seen (exec .brBit { withSource [0xA5#8, 0x0F#8] with spos := 2, rwin := 0x0F#8, result0 := 1#32 })
      (fun t => (statusWord t, t.result0, bitInfo t)) = some (0x200#32, 1#32, 0x000F0000#32) := by decide +kernel

/-- V-BR-5, the first symbol. -/
theorem test_brSym :
    seen (exec .brSym { treeABCD with srcseq := [0xE0#8] }) (fun t => (t.result0, t.xcnt, bitInfo t)) =
      some (0x43#32, 1#40, 0x05E00000#32) := by decide +kernel

/-- V-BR-8: a bit 1 under a single-leaf tree. -/
theorem test_brSym_corrupt :
    seen (exec .brSym { treeA with srcseq := [0x40#8], spos := 1, rwin := 0x40#8, rcnt := 7, xcnt := 1#40 })
      (fun t => (statusWord t, t.errcmd, bitInfo t, t.xcnt)) =
      some (8#32, 0x62000000#32, 0x06400000#32, 1#40) := by decide +kernel

/-- V-SEQ-1: header and payload, and the statistics. -/
theorem test_compress :
    seen (exec .compress (withSource textABCD))
      (fun t => (t.snkseq, t.outbits, t.xcnt, heapInfo t, treeInfo t, t.heap[3])) =
      some (headerABCD ++ [0x05#8, 0x5F#8, 0xE0#8], 20#48, 11#40, 0x00070000#32, 0x00040606#32, 3) := by decide +kernel

/-- V-SEQ-7: an empty source. -/
theorem test_compress_empty :
    seen (exec .compress State.reset) (fun t => (statusWord t, t.errcmd, t.snkseq)) =
      some (1#32, 0x70000000#32, []) := by decide +kernel

/-- V-SEQ-1, the other way; V-SEQ-10: the trailing bytes are not read. -/
theorem test_decompress :
    seen (exec .decompress (withSource (headerABCD ++ [0x05#8, 0x5F#8, 0xE0#8, 0x99#8, 0x98#8])))
      (fun t => (t.snkseq, t.xcnt, heapInfo t, treeInfo t, bitInfo t, t.spos)) =
      some (textABCD, 11#40, 0x00070000#32, 0x00040206#32, 0x04E00000#32, 24) := by decide +kernel

/-- V-SEQ-11: the payload's last byte is missing. -/
theorem test_decompress_truncated :
    seen (exec .decompress (withSource (headerABCD ++ [0x05#8, 0x5F#8])))
      (fun t => (statusWord t, t.errcmd, t.snkseq, bitInfo t)) =
      some (7#32, 0x71000000#32, textABCD.take 9, 0x005F0000#32) := by decide +kernel

/-! ### The host's side -/

/-- V-CTRL-7: ID, CMD and a reserved offset; a write to STATUS is ignored. -/
theorem test_registers :
    readReg 0x00#8 State.reset = 0x48554646#32 ∧ readReg 0x04#8 State.reset = 0#32 ∧
    readReg 0x4C#8 State.reset = 0#32 ∧
    seen (hostWrite .w32 0x0C#8 0xFFFFFFFF#32 State.reset) (fun t => readReg 0x0C#8 t) = some 0#32 := by decide +kernel

/-- R67: the bytes of ID, lowest address first. -/
theorem test_id_bytes :
    regByte 0x00#8 0 State.reset = 0x46#8 ∧ regByte 0x00#8 1 State.reset = 0x46#8 ∧
    regByte 0x00#8 2 State.reset = 0x55#8 ∧ regByte 0x00#8 3 State.reset = 0x48#8 := by decide +kernel

/-- W3: TOTAL of the two counts. -/
theorem test_total_halves :
    readReg 0x20#8 (setFreq 0x00#8 0xFFFFFFFF#32 (setFreq 0xFF#8 0x01020304#32 State.reset)) = 0x01020303#32 ∧
    readReg 0x24#8 (setFreq 0x00#8 0xFFFFFFFF#32 (setFreq 0xFF#8 0x01020304#32 State.reset)) = 1#32 := by decide +kernel

/-- R66: a byte access and an access off a multiple of 4 have no step. -/
theorem test_undefined_access :
    seen (hostRead .w8 0x0C#8 State.reset) statusWord = none ∧
    seen (hostWrite .w32 0x06#8 1#32 State.reset) statusWord = none := by decide +kernel

/-! ### Witnesses: values that meet the hypotheses of the statements -/

theorem noFailure_of_nil {s : State} (h : s.draws = []) : NoCollaboratorFailure s := by
  intro d hd
  rw [h] at hd
  cases hd

theorem countsFit_of_length {bs : List Byte} (h : bs.length < 2 ^ 32) : CountsFit bs := fun _ =>
  Nat.lt_of_le_of_lt List.count_le_length h

theorem nodup_bytesBelow {n : Nat} (h : n ≤ 256) : (bytesBelow n).Nodup := by
  refine (List.nodup_map_iff_inj_on List.nodup_range).mpr fun a ha b hb e => ?_
  rw [List.mem_range] at ha hb
  have := congrArg BitVec.toNat e
  simp only [BitVec.toNat_ofNat] at this
  omega

theorem distinct_bytesBelow {n : Nat} (h : n ≤ 256) : distinctSymbols (bytesBelow n) = n := by
  rw [distinctSymbols, (nodup_bytesBelow h).dedup, bytesBelow, List.length_map, List.length_range]

theorem treeOk_codesABCD : TreeOk codesABCD := by
  have leaf : ∀ (n : NodeIdx) (b : Byte), codesABCD.node[n].sym = .leaf b → codesABCD.node[n].left = none →
      codesABCD.node[n].right = none → Spans codesABCD n [n] := Spans.leaf
  have h4 : Spans codesABCD 4 [4, 3, 2] :=
    .inner 4 3 2 [3] [2] (by decide +kernel) (by decide +kernel) (by decide +kernel) (by decide) (by decide)
      (by decide +kernel) (leaf 3 0x44#8 (by decide +kernel) (by decide +kernel) (by decide +kernel))
      (leaf 2 0x43#8 (by decide +kernel) (by decide +kernel) (by decide +kernel))
  have h5 : Spans codesABCD 5 [5, 1, 4, 3, 2] :=
    .inner 5 1 4 [1] [4, 3, 2] (by decide +kernel) (by decide +kernel) (by decide +kernel) (by decide) (by decide)
      (by decide +kernel) (leaf 1 0x42#8 (by decide +kernel) (by decide +kernel) (by decide +kernel)) h4
  have h6 : Spans codesABCD 6 [6, 0, 5, 1, 4, 3, 2] :=
    .inner 6 0 5 [0] [5, 1, 4, 3, 2] (by decide +kernel) (by decide +kernel) (by decide +kernel) (by decide) (by decide)
      (by decide +kernel) (leaf 0 0x41#8 (by decide +kernel) (by decide +kernel) (by decide +kernel)) h5
  have hl : leafSyms codesABCD [6, 0, 5, 1, 4, 3, 2] = [0x41#8, 0x42#8, 0x44#8, 0x43#8] := by decide +kernel
  exact ⟨[6, 0, 5, 1, 4, 3, 2], h6, by decide, hl ▸ by decide, by decide +kernel, hl ▸ by decide +kernel⟩

theorem treeOk_codesA : TreeOk codesA := by
  have hl : leafSyms codesA [0] = [0x61#8] := by decide +kernel
  exact ⟨[0], .leaf 0 0x61#8 (by decide +kernel) (by decide +kernel) (by decide +kernel), by decide, hl ▸ by decide,
    by decide +kernel, hl ▸ by decide +kernel⟩

/-- What `genCodes` gives, for `CodesOk`. -/
theorem codesOk_of_done {s : State} (hv : s.rootValid = true)
    (h : (match genCodes s with
      | .done _ t => decide
        (t.clen.toList = s.clen.toList ∧ t.cval.toList = s.cval.toList ∧ t.outbits = s.outbits)
      | .raised _ _ | .stopped _ => false) = true) : CodesOk s := by
  split at h
  · rename_i t ht
    have := of_decide_eq_true h
    exact ⟨hv, t, ht, Vector.toList_inj.mp this.1, Vector.toList_inj.mp this.2.1, this.2.2⟩
  all_goals cases h

theorem codesOk_codesABCD : CodesOk codesABCD := codesOk_of_done rfl (by decide +kernel)

theorem codesOk_codesA : CodesOk codesA := codesOk_of_done rfl (by decide +kernel)

theorem pathD_codesABCD : CodePath codesABCD [true, true, false] 0x44#8 :=
  .inr ⟨by decide +kernel,
    .right 6 5 _ _ (by decide +kernel) (by decide +kernel)
      (.right 5 4 _ _ (by decide +kernel) (by decide +kernel)
        (.left 4 3 _ _ (by decide +kernel) (by decide +kernel) (.leaf 3 _ (by decide +kernel))))⟩

theorem queueOk_heapW4 : QueueOk heapW4 := by
  unfold QueueOk
  decide +kernel

theorem heapOrdered_heapW4 : HeapOrdered heapW4 := by
  unfold HeapOrdered
  decide +kernel

theorem queueWeighed_heapW4 : QueueWeighed heapW4 :=
  ⟨fun _ => 1, by decide +kernel, by decide +kernel⟩

theorem tablesOk_codesABCD : TablesOk codesABCD :=
  ⟨by unfold QueueOk; decide +kernel, by unfold HeapOrdered; decide +kernel, fun _ => treeOk_codesABCD,
    fun _ => codesOk_codesABCD⟩

/-! #### Encoding, step and dispatch -/

theorem witness_DecodeOfEncodeIsTheInstruction :
    (Instr.heapGet 0x1FE#9).wellFormed = true ∧ (Instr.codeGet 0xFF#8 7#3).wellFormed = true := by decide

theorem witness_DecodedWordIsTheEncodingOfItsInstruction : decode 0x250001FE#32 = .ok (.nodeGet 0x1FE#9) := by decide

/-- The bits each format leaves out, at the last accepted and the first refused value. -/
theorem witness_DecoderAcceptsExactlyTheWellFormedWords :
    decode 0x120000FF#32 = .ok (.freqSet 0xFF#8) ∧ decode 0x12000100#32 = .error .operandBits ∧
    decode 0x240001FE#32 = .ok (.heapGet 0x1FE#9) ∧ decode 0x240001FF#32 = .error .indexOutOfRange ∧
    decode 0x320007FF#32 = .ok (.codeGet 0xFF#8 7#3) ∧ decode 0x32000800#32 = .error .operandBits ∧
    decode 0x50000001#32 = .ok (.bwBit true) ∧ decode 0x50000002#32 = .error .operandBits ∧
    decode 0x71000000#32 = .ok .decompress ∧ decode 0x71000001#32 = .error .operandBits := by decide

theorem witness_StepRunsTheDecodedCommand :
    (State.reset.withFetchWord 32 0x24000001).pending = .write .w32 0x04#8 0x24000001#32 :: [] ∧
    decode 0x24000001#32 = .ok (.heapGet 1#9) := by decide +kernel

/-- One state for each act: none, a good and a bad read, a bad write, a write to ARG, one to ID and one to CMD, the reset
input, a source placed at its end and past it, a sink connected. -/
theorem witness_HostAccessesReachTheRegisters :
    State.reset.pending = [] ∧
    { State.reset with pending := [.read .w32 0xFC#8] }.pending = .read .w32 0xFC#8 :: [] ∧
    { State.reset with pending := [.read .w8 0x00#8] }.pending = .read .w8 0x00#8 :: [] ∧
    ({ State.reset with pending := [.write .w32 0x06#8 1#32] }.pending = .write .w32 0x06#8 1#32 :: [] ∧
      ¬((AccessWidth.w32 = .w32) ∧ (0x06#8).toNat % 4 = 0)) ∧
    ({ State.reset with pending := [.write .w32 0x08#8 1#32] }.pending = .write .w32 0x08#8 1#32 :: [] ∧
      (0x08#8).toNat % 4 = 0 ∧ (0x08#8 : BitVec 8) ≠ 0x04#8) ∧
    ({ State.reset with pending := [.write .w32 0x00#8 1#32] }.pending = .write .w32 0x00#8 1#32 :: [] ∧
      (0x00#8).toNat % 4 = 0 ∧ (0x00#8 : BitVec 8) ≠ 0x04#8) ∧
    { State.reset with pending := [.write .w32 0x04#8 0x02000000#32] }.pending =
      .write .w32 0x04#8 0x02000000#32 :: [] ∧
    { State.reset with pending := [.hardReset] }.pending = .hardReset :: [] ∧
    { State.reset with pending := [.placeSource [1#8] 1] }.pending = .placeSource [1#8] 1 :: [] ∧
    { State.reset with pending := [.placeSource [1#8] 2] }.pending = .placeSource [1#8] 2 :: [] ∧
    { State.reset with pending := [.connectSink] }.pending = .connectSink :: [] := by decide +kernel

theorem witness_IllegalWordRaisesIllegalCommand : decode 0x02000000#32 = .error (.unassignedOpcode 0x02#8) := by decide

theorem witness_ErrorStateIgnoresEveryWordButReset :
    { State.reset with errcode := some .noCode }.errcode ≠ none ∧ (0xFC#8).toNat % 4 = 0 := by decide +kernel

/-! #### Every command -/

theorem witness_FlagsAreSetOnlyByTheirCommands :
    State.reset.errcode = none ∧
    seen (exec .heapExtract State.reset) (fun t => t.empty) = some true ∧
    seen (exec .brBit State.reset) (fun t => t.eos) = some true := by decide +kernel

theorem witness_CommandsRaiseOnlyTheirErrors :
    Instr.buildTree.wellFormed = true ∧ State.reset.errcode = none ∧
    seen (exec .buildTree State.reset) (fun t => t.errcode) = some (some .emptyInput) := by decide +kernel

theorem witness_ErrorEntryRecordsCodeAndCommand :
    State.reset.errcode = none ∧
    (fun t : State => (Run.raised .noCode t : Run Unit)) (clearFlags State.reset) = .raised .noCode State.reset := by
  exact ⟨rfl, rfl⟩

theorem witness_CommandsOnlyAppendToTheSink :
    exec .hdrWrite tableABCD = .next (after (exec .hdrWrite tableABCD)) := next_of_seen (by decide +kernel)

/-- Each command ends in a next state from reset: the clause of its constructor has a case. -/
theorem witness_EachCommandKeepsWhatItDoesNotName :
    ∀ i ∈ [Instr.nop, .reset, .freqClear, .freqScan, .freqSet 0#8, .freqGet 0xFF#8, .srcRewind, .heapClear,
        .heapInsert 0xFF#8, .heapExtract, .heapMerge, .heapGet 0x1FE#9, .nodeGet 0x1FF#9, .buildTree, .genCodes,
        .codeGet 0xFF#8 7#3, .hdrWrite, .hdrRead, .bwBit true, .bwFlush, .bwSym 0#8, .bwClear, .brClear, .brBit,
        .brSym, .compress, .decompress],
      (seen (exec i State.reset) fun _ => ()) = some () := by decide +kernel

/-! #### Ports and the short commands -/

theorem witness_RegisterMapShowsTheState : 0x4C ≤ (0x4C#8).toNat ∧ 0x4C ≤ (0xFF#8).toNat := by decide

theorem witness_PortsFollowTheirDraws :
    { withSource [1#8] with draws := [true] }.draws = true :: [] ∧
    { withSource [1#8] with draws := [false, true] }.draws = false :: [true] := by decide +kernel

theorem witness_ClearingCommandsComplete : treeABCD.errcode = none := by decide +kernel

theorem witness_FreqSetWritesOneEntry : tableABCD.errcode = none := by decide +kernel

theorem witness_ReadingCommandsComplete :
    codesABCD.errcode = none ∧ (0#9).toNat = (0 : NodeIdx).val ∧ (0x1FE#9).toNat = (510 : NodeIdx).val := by
  decide +kernel

theorem witness_FreqScanCountsEveryByte :
    ∀ s ∈ [State.reset, withSource textABCD],
      s.errcode = none ∧ NoCollaboratorFailure s ∧ SourceOk s ∧ CountsFit (remaining s) := by
  intro s hs
  simp only [List.mem_cons, List.not_mem_nil, or_false] at hs
  rcases hs with rfl | rfl
  · exact ⟨rfl, noFailure_of_nil rfl, by unfold SourceOk; decide, countsFit_of_length (by decide)⟩
  · exact ⟨rfl, noFailure_of_nil rfl, by unfold SourceOk; decide, countsFit_of_length (by decide)⟩

/-- The first clause at its first and its last draw: before the first byte, and at the end of the source. -/
theorem witness_FreqScanErrorsKeepTheCounts_fail :
    ∀ k ∈ [0, 11], ∀ s ∈ [{ withSource textABCD with draws := List.replicate k false ++ true :: [] }],
      s.errcode = none ∧ s.draws = List.replicate k false ++ true :: [] ∧ k ≤ (remaining s).length ∧
      CountsFit ((remaining s).take k) := by
  intro k hk s hs
  simp only [List.mem_cons, List.not_mem_nil, or_false] at hk hs
  subst hs
  rcases hk with rfl | rfl
  · exact ⟨rfl, rfl, by decide, countsFit_of_length (by decide)⟩
  · exact ⟨rfl, rfl, by decide, countsFit_of_length (by decide)⟩

/-- The second clause: 2^32 equal bytes (95_test_vectors.md V-FREQ-10), for any number of them. -/
theorem full_count (n : Nat) (b : Byte) (h : n < 2 ^ 32) :
    NoCollaboratorFailure (withSource (List.replicate n b ++ b :: [])) ∧
    remaining (withSource (List.replicate n b ++ b :: [])) = List.replicate n b ++ b :: [] ∧
    CountsFit (List.replicate n b) ∧ (List.replicate n b).count b = n :=
  ⟨noFailure_of_nil rfl, rfl, countsFit_of_length (by simpa using h), List.count_replicate_self⟩

theorem witness_FreqScanErrorsKeepTheCounts_full :
    ∃ (s : State) (xs ys : List Byte) (b : Byte), s.errcode = none ∧ NoCollaboratorFailure s ∧
      remaining s = xs ++ b :: ys ∧ CountsFit xs ∧ xs.count b = 2 ^ 32 - 1 :=
  ⟨withSource (List.replicate (2 ^ 32 - 1) 0x41#8 ++ 0x41#8 :: []), List.replicate (2 ^ 32 - 1) 0x41#8, [], 0x41#8,
    rfl, full_count (2 ^ 32 - 1) 0x41#8 (by decide)⟩

theorem witness_SrcRewindReturnsTheSource :
    State.reset.errcode = none ∧ State.reset.draws = [] ∧
    { State.reset with draws := [false] }.draws = false :: [] ∧
    { State.reset with draws := [true] }.draws = true :: [] := by decide +kernel

/-! #### Heap -/

/-- Both halves of Less: nodes 1 and 3 by index, nodes 3 and 0 by frequency. -/
theorem witness_LessIsAStrictTotalOrder :
    less heapW4 1 3 = true ∧ less heapW4 3 0 = true ∧ (1 : NodeIdx) ≠ 3 := by decide +kernel

/-- Into an empty heap, and into the last slot of both arrays. -/
theorem witness_HeapInsertQueuesANewLeaf :
    (State.reset.errcode = none ∧ State.reset.nnodes.val = (0 : NodeIdx).val ∧ State.reset.heapn.val < 511) ∧
    ({ State.reset with nnodes := 510, heapn := 510 }.nnodes.val = (510 : NodeIdx).val ∧
      { State.reset with nnodes := 510, heapn := 510 }.heapn.val < 511) := by decide +kernel

theorem witness_HeapCommandsAtTheirLimits :
    { State.reset with nnodes := 511 }.nnodes.val = 511 ∧
    (2 ≤ { State.reset with nnodes := 511, heapn := 2 }.heapn.val ∧
      { State.reset with nnodes := 511, heapn := 2 }.nnodes.val = 511) ∧
    { State.reset with nnodes := 1, heapn := 1 }.heapn.val < 2 ∧ State.reset.heapn.val = 0 := by decide +kernel

theorem witness_HeapExtractTakesTheLeastNode :
    heapW4.errcode = none ∧ QueueOk heapW4 ∧ HeapOrdered heapW4 ∧ 0 < heapW4.heapn.val :=
  ⟨rfl, queueOk_heapW4, heapOrdered_heapW4, by decide⟩

/-- A heap of one node, the smallest there is to extract from. -/
theorem witness_HeapExtractTakesTheLeastNode_one :
    ∀ s ∈ [after (exec (.heapInsert 0x10#8) State.reset)],
      s.errcode = none ∧ QueueOk s ∧ HeapOrdered s ∧ 0 < s.heapn.val := by
  intro s hs
  simp only [List.mem_cons, List.not_mem_nil, or_false] at hs
  subst hs
  unfold QueueOk HeapOrdered
  decide +kernel

theorem witness_HeapMergeJoinsTheTwoLeast :
    heapW4.errcode = none ∧ QueueOk heapW4 ∧ HeapOrdered heapW4 ∧ QueueWeighed heapW4 ∧ 2 ≤ heapW4.heapn.val ∧
    heapW4.nnodes.val = (4 : NodeIdx).val :=
  ⟨rfl, queueOk_heapW4, heapOrdered_heapW4, queueWeighed_heapW4, by decide, rfl⟩

/-- A leaf with both children NIL, and an internal node with the two ends of the index range as children. -/
theorem witness_NodeRecordHoldsEveryField :
    ((leafNode 0xFF#8 1#40).sym = .leaf 0xFF#8 ∧ (leafNode 0xFF#8 1#40).left = none ∧
      (leafNode 0xFF#8 1#40).right = none) ∧
    ((innerNode 1#40 0 510).sym = .sentinel ∧ (innerNode 1#40 0 510).left = some 0 ∧
      (innerNode 1#40 0 510).right = some 510) := by decide

/-! #### Tree and codes -/

theorem witness_BuildTreeBuildsATreeOfTheTable :
    (treeA.errcode = none ∧ ndist treeA ≠ 0) ∧ (table256.errcode = none ∧ ndist table256 = 256) := by decide +kernel

/-- The same table in an engine without a tree and in one with a tree, codes and a heap of another table. -/
theorem witness_TreeDependsOnTheFrequenciesAlone :
    ∃ s u t v t' v' : State, s.errcode = none ∧ u.errcode = none ∧ s.freq = u.freq ∧ ndist s ≠ 0 ∧
      exec .buildTree s = .next t ∧ exec .buildTree u = .next v ∧
      exec .genCodes t = .next t' ∧ exec .genCodes v = .next v' :=
  ⟨{ State.reset with freq := treeA.freq }, { codesA with heapn := 4, heap := heapW4.heap }, _, _, _, _, rfl, rfl, rfl,
    by decide +kernel, next_of_seen (by decide +kernel), next_of_seen (by decide +kernel),
    next_of_seen (by decide +kernel), next_of_seen (by decide +kernel)⟩

theorem witness_GenCodesAssignsTheTreePaths :
    (codesABCD.errcode = none ∧ codesABCD.rootValid = true ∧ TreeOk codesABCD) ∧
    (codesA.errcode = none ∧ codesA.rootValid = true ∧ TreeOk codesA) ∧
    atSym codesABCD.freq 0x41#8 ≠ 0#32 ∧ atSym codesABCD.freq 0x45#8 = 0#32 :=
  ⟨⟨rfl, rfl, treeOk_codesABCD⟩, ⟨rfl, rfl, treeOk_codesA⟩, by decide +kernel⟩

theorem witness_CodesArePrefixFreeAndComplete :
    (TreeOk codesABCD ∧ CodesOk codesABCD ∧ atSym codesABCD.clen 0x41#8 ≠ 0#8 ∧ atSym codesABCD.clen 0x44#8 ≠ 0#8 ∧
      2 ≤ ndist codesABCD) ∧
    (TreeOk codesA ∧ CodesOk codesA ∧ ndist codesA = 1 ∧ atSym codesA.freq 0x61#8 ≠ 0#32) :=
  ⟨⟨treeOk_codesABCD, codesOk_codesABCD, by decide +kernel⟩, treeOk_codesA, codesOk_codesA, by decide +kernel⟩

theorem witness_CommandsCheckTheirPreconditions :
    (State.reset.errcode = none ∧ ndist State.reset = 0 ∧ State.reset.rootValid = false ∧
      State.reset.codesValid = false) ∧
    (codesABCD.errcode = none ∧ codesABCD.codesValid = true ∧ atSym codesABCD.clen 0x45#8 = 0#8) ∧
    (table256.errcode = none ∧ ndist table256 = 256) := by decide +kernel

/-! #### Header -/

/-- One symbol and 255 symbols. -/
theorem witness_HdrWriteSendsTheHeader :
    ∀ s ∈ [treeA, table255], s.errcode = none ∧ NoCollaboratorFailure s ∧ ndist s ≠ 0 ∧ ndist s ≠ 256 := by
  intro s hs
  simp only [List.mem_cons, List.not_mem_nil, or_false] at hs
  rcases hs with rfl | rfl
  · exact ⟨rfl, noFailure_of_nil rfl, by decide +kernel⟩
  · exact ⟨rfl, noFailure_of_nil rfl, by decide +kernel⟩

/-- The first byte of a header of six fails, and its last one. -/
theorem witness_HdrWriteFailureKeepsThePrefix :
    ∀ k ∈ [0, 5], ∀ s ∈ [{ treeA with draws := List.replicate k false ++ true :: [] }],
      s.errcode = none ∧ ndist s ≠ 0 ∧ ndist s ≠ 256 ∧ s.draws = List.replicate k false ++ true :: [] ∧
      k < 1 + 5 * ndist s := by decide +kernel

/-- A pair for each of the first `n` byte values, the highest one first. -/
def pairsBelow (n : Nat) : List (Byte × BitVec 32) := (bytesBelow n).reverse.map fun b => (b, 1#32)

/-- One pair, and 255 of them, with a byte after the last one. -/
theorem witness_HdrReadTakesPairsInAnyOrder :
    ∀ n ∈ [1, 255], ∃ s : State, s.errcode = none ∧ NoCollaboratorFailure s ∧
      pairsBelow n ≠ [] ∧ (pairsBelow n).length ≤ 255 ∧ ((pairsBelow n).map Prod.fst).Nodup ∧
      (∀ p ∈ pairsBelow n, p.2 ≠ 0#32) ∧
      remaining s = BitVec.ofNat 8 (pairsBelow n).length ::
        (pairsBelow n).flatMap (fun p => [p.1, bits p.2 0 8, bits p.2 8 8, bits p.2 16 8, bits p.2 24 8]) ++
          [0x99#8] := by
  intro n hn
  have hb : 1 ≤ n ∧ n ≤ 255 := by
    simp only [List.mem_cons, List.not_mem_nil, or_false] at hn
    omega
  have hl : (pairsBelow n).length = n := by simp [pairsBelow, bytesBelow]
  refine ⟨withSource _, rfl, noFailure_of_nil rfl, ?_, by omega, ?_, ?_, rfl⟩
  · exact List.ne_nil_of_length_pos (by omega)
  · simp only [pairsBelow, List.map_map, Function.comp_def, List.map_id']
    exact List.nodup_reverse.mpr (nodup_bytesBelow (by omega))
  · intro p hp
    obtain ⟨b, -, rfl⟩ := List.mem_map.mp hp
    simp

theorem witness_HeaderRoundTripRestoresTheTable :
    ∃ s t u : State, s.errcode = none ∧ NoCollaboratorFailure s ∧ ndist s ≠ 0 ∧ ndist s ≠ 256 ∧
      exec .hdrWrite s = .next t ∧ u.errcode = none ∧ NoCollaboratorFailure u ∧
      remaining u = t.snkseq.drop s.snkseq.length :=
  ⟨tableABCD, after (exec .hdrWrite tableABCD), withSource headerABCD, rfl, noFailure_of_nil rfl, by decide +kernel,
    by decide +kernel, next_of_seen (by decide +kernel), rfl, noFailure_of_nil rfl, by decide +kernel⟩

/-- The hypotheses that the clauses of the malformed headers share: `c` declares more pairs than the good ones `ps`. -/
def HeaderThen (s : State) (c : Byte) (ps : List (Byte × BitVec 32)) (bad : List Byte) : Prop :=
  ps.length < c.toNat ∧ (ps.map Prod.fst).Nodup ∧ (∀ p ∈ ps, p.2 ≠ 0#32) ∧
    remaining s = c :: ps.flatMap (fun p => [p.1, bits p.2 0 8, bits p.2 8 8, bits p.2 16 8, bits p.2 24 8]) ++ bad

/-- No count and the count 0; after no good pair the source's end and a zero frequency; after one good pair four bytes
of the next one, and the pair's symbol again. -/
theorem witness_HdrReadRejectsMalformedHeaders :
    (NoCollaboratorFailure State.reset ∧ remaining State.reset = []) ∧ remaining (withSource [0#8]) = 0#8 :: [] ∧
    HeaderThen (withSource [1#8]) 1#8 [] [] ∧
    HeaderThen (withSource [255#8, 0x41#8, 0#8, 0#8, 0#8, 0#8]) 255#8 [] (0x41#8 :: 0#8 :: 0#8 :: 0#8 :: 0#8 :: []) ∧
    (HeaderThen (withSource [2#8, 0x41#8, 1#8, 0#8, 0#8, 0#8, 0x42#8, 1#8, 0#8, 0#8]) 2#8 [(0x41#8, 1#32)]
        [0x42#8, 1#8, 0#8, 0#8] ∧ [0x42#8, 1#8, 0#8, 0#8].length < 5) ∧
    (HeaderThen (withSource [2#8, 0x41#8, 1#8, 0#8, 0#8, 0#8, 0x41#8, 1#8, 0#8, 0#8, 0#8]) 2#8 [(0x41#8, 1#32)]
        (0x41#8 :: 1#8 :: 0#8 :: 0#8 :: 0#8 :: []) ∧ 0x41#8 ∈ [(0x41#8, 1#32)].map Prod.fst) :=
  ⟨⟨noFailure_of_nil rfl, rfl⟩, rfl, ⟨by decide, by decide, by simp, rfl⟩, ⟨by decide, by decide, by simp, rfl⟩,
    ⟨⟨by decide, by decide, by simp, rfl⟩, by decide⟩, ⟨by decide, by decide, by simp, rfl⟩, .head _⟩

/-! #### Bit writer and bit reader -/

/-- No bit pending and seven pending, and the failing byte. -/
theorem witness_BwBitAppendsOneBit :
    (State.reset.errcode = none ∧ WriterOk State.reset ∧ NoCollaboratorFailure State.reset) ∧
    (WriterOk { State.reset with wacc := 0x7F#8, wcnt := 7 }) ∧
    (WriterOk { State.reset with wacc := 0x7F#8, wcnt := 7, draws := [true] } ∧
      { State.reset with wacc := 0x7F#8, wcnt := 7, draws := [true] }.draws = true :: [] ∧
      { State.reset with wacc := 0x7F#8, wcnt := 7, draws := [true] }.wcnt.val = 7) := by
  refine ⟨⟨rfl, ?_, noFailure_of_nil rfl⟩, ?_, ?_, ?_⟩ <;> first | (unfold WriterOk; decide) | decide +kernel

theorem witness_BwFlushPadsThePartialByte :
    ∀ s ∈ [State.reset, { State.reset with wacc := 0x7F#8, wcnt := 7 }],
      s.errcode = none ∧ WriterOk s ∧ NoCollaboratorFailure s := by
  intro s hs
  simp only [List.mem_cons, List.not_mem_nil, or_false] at hs
  rcases hs with rfl | rfl
  · exact ⟨rfl, by unfold WriterOk; decide, noFailure_of_nil rfl⟩
  · exact ⟨rfl, by unfold WriterOk; decide, noFailure_of_nil rfl⟩

theorem witness_BwSymWritesTheCode :
    codesABCD.errcode = none ∧ codesABCD.codesValid = true ∧ atSym codesABCD.clen 0x44#8 ≠ 0#8 ∧
    WriterOk codesABCD ∧ NoCollaboratorFailure codesABCD :=
  ⟨rfl, rfl, by decide +kernel, by unfold WriterOk; decide, noFailure_of_nil rfl⟩

/-- A bit of the window's last place, a bit of the next byte, and no bit left. -/
theorem witness_BrBitReturnsTheNextBit :
    NoCollaboratorFailure State.reset ∧
    unreadBits { State.reset with rwin := 1#8, rcnt := 1 } = true :: [] ∧
    unreadBits (withSource [0x80#8]) = true :: List.replicate 7 false ∧ unreadBits State.reset = [] :=
  ⟨noFailure_of_nil rfl, by decide +kernel⟩

/-- A code of three bits in a tree, and the one bit of a single-leaf tree. -/
theorem witness_BrSymDecodesOneCode :
    (NoCollaboratorFailure { codesABCD with rwin := 6#8, rcnt := 3 } ∧
      CodePath codesABCD [true, true, false] 0x44#8 ∧
      unreadBits { codesABCD with rwin := 6#8, rcnt := 3 } = [true, true, false] ++ []) ∧
    (NoCollaboratorFailure { codesA with rcnt := 1 } ∧ CodePath codesA [false] 0x61#8 ∧
      unreadBits { codesA with rcnt := 1 } = [false] ++ []) :=
  ⟨⟨noFailure_of_nil rfl, pathD_codesABCD, by decide +kernel⟩, noFailure_of_nil rfl,
    .inl ⟨by decide +kernel, rfl⟩, by decide +kernel⟩

/-- The end at a boundary, the end after two bits of the code of D, and a bit 1 under a single-leaf tree. -/
theorem witness_BrSymTellsTheEndsApart :
    (codesABCD.errcode = none ∧ NoCollaboratorFailure codesABCD ∧ codesABCD.rootValid = true ∧
      unreadBits codesABCD = []) ∧
    (unreadBits { codesABCD with rwin := 3#8, rcnt := 2 } = [true, true] ∧
      codesABCD.node[codesABCD.root].sym = .sentinel ∧
      PathTo codesABCD codesABCD.root ([true, true] ++ [false]) 0x44#8) ∧
    (codesA.node[codesA.root].sym = .leaf 0x61#8 ∧ unreadBits { codesA with rwin := 1#8, rcnt := 1 } = true :: []) :=
  ⟨⟨rfl, noFailure_of_nil rfl, rfl, by decide +kernel⟩,
    ⟨by decide +kernel, by decide +kernel, (pathD_codesABCD.resolve_left (by decide +kernel)).2⟩,
    by decide +kernel⟩

/-! #### Sequencers -/

/-- One symbol, and 255 of them. -/
theorem witness_CompressWritesHeaderAndPayload :
    ∀ s ∈ [withSource [0x61#8], withSource (bytesBelow 255)],
      s.errcode = none ∧ NoCollaboratorFailure s ∧ s.srcseq ≠ [] ∧ distinctSymbols s.srcseq ≤ 255 ∧
      CountsFit s.srcseq := by
  intro s hs
  simp only [List.mem_cons, List.not_mem_nil, or_false] at hs
  rcases hs with rfl | rfl
  · exact ⟨rfl, noFailure_of_nil rfl, by decide, by decide, countsFit_of_length (by decide)⟩
  · exact ⟨rfl, noFailure_of_nil rfl, by decide, Nat.le_of_eq (distinct_bytesBelow (by decide)),
      countsFit_of_length (by decide +kernel)⟩

theorem witness_CompressRefusesItsBoundaries :
    (State.reset.errcode = none ∧ NoCollaboratorFailure State.reset ∧ CountsFit State.reset.srcseq ∧
      State.reset.srcseq = []) ∧
    (CountsFit (withSource (bytesBelow 256)).srcseq ∧ distinctSymbols (withSource (bytesBelow 256)).srcseq = 256) :=
  ⟨⟨rfl, noFailure_of_nil rfl, countsFit_of_length (by decide), rfl⟩,
    countsFit_of_length (by decide +kernel), distinct_bytesBelow (by decide)⟩

/-- "aaaa" with four pad bits and a byte after the payload (95_test_vectors.md V-SEQ-2). -/
theorem witness_DecompressRecoversTheSymbols :
    ∃ (s table tree codes : State) (xs payload rest : List Byte) (pad : Nat),
      table.errcode = none ∧ xs ≠ [] ∧ distinctSymbols xs ≤ 255 ∧
      (∀ b : Byte, (atSym table.freq b).toNat = xs.count b) ∧
      exec .buildTree table = .next tree ∧ exec .genCodes tree = .next codes ∧
      s.errcode = none ∧ NoCollaboratorFailure s ∧ pad < 8 ∧
      streamBits payload = xs.flatMap (codeOf codes) ++ List.replicate pad false ∧
      remaining s = headerBytes table ++ payload ++ rest :=
  ⟨withSource [1#8, 0x61#8, 4#8, 0#8, 0#8, 0#8, 0#8, 0x99#8], treeA, after (exec .buildTree treeA),
    after (exec .genCodes (after (exec .buildTree treeA))), [0x61#8, 0x61#8, 0x61#8, 0x61#8], [0#8], [0x99#8], 4,
    rfl, by decide, by decide, by decide +kernel, next_of_seen (by decide +kernel), next_of_seen (by decide +kernel),
    rfl, noFailure_of_nil rfl, by decide, by decide +kernel, by decide +kernel⟩

/-- The least count, and the count 8 that leaves no pad bit. -/
theorem witness_DecompressOfOneSymbolWritesItsRun :
    (NoCollaboratorFailure (withSource [1#8, 0x61#8, 1#8, 0#8, 0#8, 0#8, 0#8, 0x99#8]) ∧ (1#32 : BitVec 32) ≠ 0#32 ∧
      remaining (withSource [1#8, 0x61#8, 1#8, 0#8, 0#8, 0#8, 0#8, 0x99#8]) =
        1#8 :: 0x61#8 :: bits 1#32 0 8 :: bits 1#32 8 8 :: bits 1#32 16 8 :: bits 1#32 24 8 ::
          (List.replicate (((1#32).toNat + 7) / 8) 0#8 ++ [0x99#8])) ∧
    (NoCollaboratorFailure (withSource [1#8, 0x61#8, 8#8, 0#8, 0#8, 0#8, 0#8]) ∧ (8#32 : BitVec 32) ≠ 0#32 ∧
      remaining (withSource [1#8, 0x61#8, 8#8, 0#8, 0#8, 0#8, 0#8]) =
        1#8 :: 0x61#8 :: bits 8#32 0 8 :: bits 8#32 8 8 :: bits 8#32 16 8 :: bits 8#32 24 8 ::
          (List.replicate (((8#32).toNat + 7) / 8) 0#8 ++ [])) :=
  ⟨⟨noFailure_of_nil rfl, by decide⟩, noFailure_of_nil rfl, by decide⟩

/-- 95_test_vectors.md V-SEQ-11, the source's end after two bits of the code of C, and V-SEQ-13, its end before the
first symbol. -/
theorem witness_DecompressTellsTheEndsApart_truncated :
    ∀ c ∈ [(textABCD.take 9, [true, true], [true], [0x05#8, 0x5F#8]), ([], [], [true, true, true], [])],
      ∃ s tree codes : State, tableABCD.errcode = none ∧ ndist tableABCD ≠ 0 ∧ ndist tableABCD ≠ 256 ∧
        s.errcode = none ∧ NoCollaboratorFailure s ∧ remaining s = headerBytes tableABCD ++ c.2.2.2 ∧
        exec .buildTree tableABCD = .next tree ∧ exec .genCodes tree = .next codes ∧
        (∀ x ∈ c.1, atSym tableABCD.freq x ≠ 0#32) ∧ atSym tableABCD.freq 0x43#8 ≠ 0#32 ∧
        c.1.length < total tableABCD ∧ codeOf codes 0x43#8 = c.2.1 ++ c.2.2.1 ∧ c.2.2.1 ≠ [] ∧
        streamBits c.2.2.2 = c.1.flatMap (codeOf codes) ++ c.2.1 := by
  intro c hc
  refine ⟨withSource (headerABCD ++ c.2.2.2), after (exec .buildTree tableABCD),
    after (exec .genCodes (after (exec .buildTree tableABCD))), rfl, by decide +kernel, by decide +kernel, rfl,
    noFailure_of_nil rfl, ?_, next_of_seen (by decide +kernel), next_of_seen (by decide +kernel), ?_⟩
  · have h : headerBytes tableABCD = headerABCD := by decide +kernel
    rw [h]
    rfl
  · revert c
    decide +kernel

/-- A 1 as the second bit under the single leaf of a 4, and as the fourth, the last one read. -/
theorem witness_DecompressTellsTheEndsApart_corrupt :
    ∀ c ∈ [(1, 0x40#8, List.replicate 6 false), (3, 0x10#8, List.replicate 4 false)],
      NoCollaboratorFailure (withSource [1#8, 0x61#8, 4#8, 0#8, 0#8, 0#8, c.2.1]) ∧
        remaining (withSource [1#8, 0x61#8, 4#8, 0#8, 0#8, 0#8, c.2.1]) = headerBytes treeA ++ [c.2.1] ∧
        ndist treeA = 1 ∧ atSym treeA.freq 0x61#8 ≠ 0#32 ∧ c.1 < total treeA ∧
        streamBits [c.2.1] = List.replicate c.1 false ++ true :: c.2.2 := by
  have h : headerBytes treeA = [1#8, 0x61#8, 4#8, 0#8, 0#8, 0#8] := by decide +kernel
  intro c hc
  refine ⟨noFailure_of_nil rfl, by rw [h]; rfl, by decide +kernel, by decide +kernel, ?_⟩
  revert c
  decide +kernel

theorem witness_DecompressOfCompressIsTheSource :
    ∃ s t u : State, s.errcode = none ∧ NoCollaboratorFailure s ∧ s.srcseq ≠ [] ∧ distinctSymbols s.srcseq ≤ 255 ∧
      CountsFit s.srcseq ∧ exec .compress s = .next t ∧
      u.errcode = none ∧ NoCollaboratorFailure u ∧ u.srcseq = t.snkseq.drop s.snkseq.length ∧ u.spos = 0 :=
  ⟨withSource [0x0A#8], after (exec .compress (withSource [0x0A#8])),
    withSource [1#8, 0x0A#8, 1#8, 0#8, 0#8, 0#8, 0#8], rfl, noFailure_of_nil rfl, by decide, by decide,
    countsFit_of_length (by decide), next_of_seen (by decide +kernel), rfl, noFailure_of_nil rfl, by decide +kernel,
    rfl⟩

/-! #### Invariants -/

theorem witness_EveryStepKeepsTheBuffersSound :
    ∃ s t : State, WriterOk s ∧ SourceOk s ∧ step s = .next t :=
  ⟨({ State.reset with wacc := 0x7F#8, wcnt := 7 }).withFetchWord 32 0x50000001, _, by unfold WriterOk; decide,
    by unfold SourceOk; decide, next_of_seen (by decide +kernel)⟩

/-- HEAP_MERGE on four queued nodes, for the three invariants of the heap. -/
theorem witness_EveryStepKeepsTheQueueSound :
    ∃ s t : State, QueueOk s ∧ HeapOrdered s ∧ QueueWeighed s ∧ step s = .next t :=
  ⟨heapW4.withFetchWord 32 0x23000000, _, queueOk_heapW4, heapOrdered_heapW4, queueWeighed_heapW4,
    next_of_seen (by decide +kernel)⟩

theorem witness_EveryStepKeepsTheHeapOrdered :
    ∃ s t : State, QueueOk s ∧ HeapOrdered s ∧ step s = .next t :=
  ⟨heapW4.withFetchWord 32 0x22000000, _, queueOk_heapW4, heapOrdered_heapW4, next_of_seen (by decide +kernel)⟩

/-- BW_SYM D in a state with a valid tree and valid codes. -/
theorem witness_EveryStepKeepsTheTablesSound :
    TablesOk codesABCD ∧ codesABCD.rootValid = true ∧ codesABCD.codesValid = true ∧
    ∃ t, step (codesABCD.withFetchWord 32 0x52000044) = .next t :=
  ⟨tablesOk_codesABCD, rfl, rfl, _, next_of_seen (by decide +kernel)⟩

theorem witness_EveryStepKeepsTheQueueWeighed :
    ∃ s t : State, QueueOk s ∧ QueueWeighed s ∧ step s = .next t :=
  ⟨heapW4.withFetchWord 32 0x2100000A, _, queueOk_heapW4, queueWeighed_heapW4, next_of_seen (by decide +kernel)⟩

theorem witness_NoStepStopsUnderTheInvariants :
    WriterOk codesABCD ∧ TablesOk codesABCD ∧ QueueWeighed codesABCD :=
  ⟨by unfold WriterOk; decide, tablesOk_codesABCD, fun _ => 1, by decide +kernel, by decide +kernel⟩

/-- Two engines: an access to the second one's ARG, and a step of the second one. -/
theorem witness_EnginesShareNoState :
    (match platformAccess (.write .w32 7#32) 0x108 [⟨0, State.reset⟩, ⟨0x100, State.reset⟩] with
      | .next q => q.map fun e => (e.base, e.engine.arg)
      | .fault _ | .refused _ => []) = [(0, 0#32), (0x100, 7#32)] ∧
    (⟨0, State.reset⟩ : Placed).covers 0x108 = false ∧
    (match platformStep 1 [⟨0, State.reset⟩, ⟨0x100, State.reset.withFetchWord 32 0x22000000⟩] with
      | .next q => q.map fun e => e.engine.empty
      | .fault _ | .refused _ => []) = [false, true] := by decide +kernel

end Sys2Proof.Tests
end

section
/-!
PROOFS. The statements about the whole engine (00_scope.md): engines of a platform share no state, and no step stops
in a state that meets the invariants.
-/

namespace Sys2Proof.Machine

/-! ### A platform, engine by engine (60_exceptions.md R297) -/

/-- An access that answers a platform went to the first engine, or passed it by and went to the others. -/
theorem platformAccess_cons {b : BusAct} {addr : Nat} {e : Placed} {es q : Platform}
    (h : platformAccess b addr (e :: es) = .next q) :
    (e.covers addr = true ∧ ∃ t, q = { e with engine := t } :: es) ∨
    ∃ es', platformAccess b addr es = .next es' ∧ q = e :: es' := by
  unfold platformAccess at h
  split at h
  · split at h <;> cases h
    exact .inl ⟨‹_›, _, rfl⟩
  · split at h <;> cases h
    exact .inr ⟨_, ‹_›, rfl⟩

/-- An access keeps every base, and every engine whose block does not hold the address. -/
theorem platformAccess_frame {b : BusAct} {addr : Nat} {p q : Platform} (h : platformAccess b addr p = .next q) :
    q.map Placed.base = p.map Placed.base ∧
      ∀ (k : Nat) (e : Placed), p[k]? = some e → e.covers addr = false → q[k]? = some e := by
  induction p generalizing q with
  | nil => cases h
  | cons e es ih =>
    rcases platformAccess_cons h with ⟨hc, t, rfl⟩ | ⟨es', hes, rfl⟩
    · refine ⟨rfl, fun k d hd hn => ?_⟩
      cases k with
      | zero => cases hd; rw [hc] at hn; cases hn
      | succ k => exact hd
    · obtain ⟨hbase, hkeep⟩ := ih hes
      refine ⟨congrArg (e.base :: ·) hbase, fun k d hd hn => ?_⟩
      cases k with
      | zero => exact hd
      | succ k => exact hkeep k d hd hn

/-- A step of the engine at the head is `step` on its state. -/
theorem platformStep_zero {e : Placed} {es q : Platform} (h : platformStep 0 (e :: es) = .next q) :
    ∃ t, step e.engine = .next t ∧ q = { e with engine := t } :: es := by
  unfold platformStep at h
  split at h <;> cases h
  exact ⟨_, ‹_›, rfl⟩

/-- A step of a later engine passes the head by. -/
theorem platformStep_succ {k : Nat} {e : Placed} {es q : Platform} (h : platformStep (k + 1) (e :: es) = .next q) :
    ∃ es', platformStep k es = .next es' ∧ q = e :: es' := by
  unfold platformStep at h
  split at h <;> cases h
  exact ⟨_, ‹_›, rfl⟩

/-- A step of the `k`-th engine is `step` on its state, and keeps every base and every other engine. -/
theorem platformStep_frame {k : Nat} {p q : Platform} (h : platformStep k p = .next q) :
    q.map Placed.base = p.map Placed.base ∧ (∀ j : Nat, j ≠ k → q[j]? = p[j]?) ∧
      ∃ (e : Placed) (t : State), p[k]? = some e ∧ step e.engine = .next t ∧
        q[k]? = some { e with engine := t } := by
  induction p generalizing k q with
  | nil => cases k <;> cases h
  | cons e es ih =>
    cases k with
    | zero =>
      obtain ⟨t, ht, rfl⟩ := platformStep_zero h
      refine ⟨rfl, fun j hj => ?_, e, t, rfl, ht, rfl⟩
      obtain ⟨j, rfl⟩ := Nat.exists_eq_succ_of_ne_zero hj
      rfl
    | succ k =>
      obtain ⟨es', hes, rfl⟩ := platformStep_succ h
      obtain ⟨hbase, hkeep, hstep⟩ := ih hes
      refine ⟨congrArg (e.base :: ·) hbase, fun j hj => ?_, hstep⟩
      cases j with
      | zero => rfl
      | succ j => exact hkeep j (by omega)

/-- Settles O59, by induction on the list of engines: an access or a step rebuilds one entry of it. -/
theorem enginesShareNoState : Obligations.EnginesShareNoState :=
  ⟨fun _ _ _ _ => platformAccess_frame, fun _ _ _ => platformStep_frame⟩

/-! ### Primitives that never stop -/

/-- The primitive returns or raises; it reaches no point that the spec gives no effect (`Fault`). -/
def Run.NeverStops {α : Type} (r : Run α) : Prop := ∀ f : Fault, r ≠ .stopped f

@[simp] theorem Run.neverStops_done {α : Type} (a : α) (s : State) : (Run.done a s).NeverStops := nofun

@[simp] theorem Run.neverStops_raised {α : Type} (e : ErrKind) (s : State) :
    (Run.raised e s : Run α).NeverStops := nofun

theorem Run.NeverStops.bind {α β : Type} {r : Run α} {k : α → State → Run β} (hr : r.NeverStops)
    (hk : ∀ a t, r = .done a t → (k a t).NeverStops) : (r.bind k).NeverStops := by
  intro f h
  rcases Run.bind_eq_stopped h with h | ⟨a, t, hd, h⟩
  · exact hr f h
  · exact hk a t hd f h

theorem Run.Ends.of_done {α : Type} {r : Run α} {P : State → Prop} {a : α} {t : State} (h : r.Ends P)
    (hd : r = .done a t) : P t := by
  subst hd
  exact h

/-- A command answers a fault only where its body stops. -/
theorem runCommand_ne_fault {cur : Word} {body : State → Run Unit} {s : State} {f : Fault}
    (h : (body (clearFlags s)).NeverStops) : runCommand cur body s ≠ .fault f := by
  by_cases he : s.errcode = none
  · rw [runCommand_noError he]
    cases hb : body (clearFlags s) with
    | done a t => nofun
    | raised e t => nofun
    | stopped g => exact absurd hb (h g)
  · rw [runCommand_error he]
    nofun

/-! ### Ports, frequency table and header never stop -/

theorem sourceRewind_neverStops (s : State) : (sourceRewind s).NeverStops := by
  rcases sourceRewind_cases s with ⟨ds, h⟩ | ⟨ds, h⟩ <;> simp [h]

theorem sinkWrite_neverStops (b : Byte) (s : State) : (sinkWrite b s).NeverStops := by
  rcases sinkWrite_cases b s with ⟨ds, h⟩ | ⟨ds, h⟩ <;> simp [h]

theorem scanLoop_neverStops (k : Nat) (s : State) : (scanLoop k s).NeverStops := by
  induction k generalizing s with
  | zero => exact Run.neverStops_done () s
  | succ k ih =>
    rw [scanLoop]
    rcases sourceRead_cases s with ⟨ds, h⟩ | ⟨ds, h, _⟩ | ⟨ds, b, h, _⟩ <;> rw [h]
    · exact Run.neverStops_raised _ _
    · exact Run.neverStops_done _ _
    · dsimp only
      split
      · exact Run.neverStops_raised _ _
      · exact ih _

theorem scanFreq_neverStops (s : State) : (scanFreq s).NeverStops := scanLoop_neverStops _ _

theorem putBytes_neverStops (bs : List Byte) (s : State) : (putBytes bs s).NeverStops := by
  induction bs generalizing s with
  | nil => exact Run.neverStops_done () s
  | cons b bs ih => exact (sinkWrite_neverStops b s).bind fun _ t _ => ih t

theorem putPairs_neverStops (ps : List (Byte × BitVec 32)) (s : State) : (putPairs ps s).NeverStops := by
  induction ps generalizing s with
  | nil => exact Run.neverStops_done () s
  | cons p ps ih => exact (putBytes_neverStops _ s).bind fun _ t _ => ih t

theorem writeHeader_neverStops (s : State) : (writeHeader s).NeverStops := by
  unfold writeHeader
  split
  · exact Run.neverStops_raised _ _
  · split
    · exact Run.neverStops_raised _ _
    · exact (sinkWrite_neverStops _ s).bind fun _ t _ => putPairs_neverStops _ t

theorem getByte_neverStops (s : State) : (getByte s).NeverStops := by
  unfold getByte
  rcases sourceRead_cases s with ⟨ds, h⟩ | ⟨ds, h, _⟩ | ⟨ds, b, h, _⟩ <;> simp [h]

theorem readPairs_neverStops (c : Nat) (s : State) : (readPairs c s).NeverStops := by
  induction c generalizing s with
  | zero => exact Run.neverStops_done () s
  | succ c ih =>
    refine (getByte_neverStops s).bind fun b s _ => ?_
    refine (getByte_neverStops s).bind fun f0 s _ => ?_
    refine (getByte_neverStops s).bind fun f1 s _ => ?_
    refine (getByte_neverStops s).bind fun f2 s _ => ?_
    refine (getByte_neverStops s).bind fun f3 s _ => ?_
    dsimp only
    split
    · exact Run.neverStops_raised _ _
    · split
      · exact Run.neverStops_raised _ _
      · exact ih _

theorem readHeader_neverStops (s : State) : (readHeader s).NeverStops := by
  refine (getByte_neverStops _).bind fun c s _ => ?_
  split
  · exact Run.neverStops_raised _ _
  · exact readPairs_neverStops _ s

theorem getBit_neverStops (s : State) : (getBit s).NeverStops := by
  unfold getBit
  split
  · exact Run.neverStops_done _ _
  · rcases sourceRead_cases s with ⟨ds, h⟩ | ⟨ds, h, _⟩ | ⟨ds, b, h, _⟩ <;> simp [h, takeBit]

/-! ### The bit writer (10_state.md R35, 45_bitwriter.md R220 to R222) -/

theorem SourceFrame.writerOk {s t : State} (h : SourceFrame s t) (hs : WriterOk s) : WriterOk t := by
  unfold SourceFrame at h
  rw [h]
  exact hs

theorem SinkFrame.writerOk {s t : State} (h : SinkFrame s t) (hs : WriterOk s) : WriterOk t := by
  unfold SinkFrame at h
  rw [h]
  exact hs

theorem HeaderFrame.writerOk {s t : State} (h : HeaderFrame s t) (hs : WriterOk s) : WriterOk t := by
  unfold HeaderFrame at h
  rw [h]
  exact hs

theorem TreeFrame.writerOk {s t : State} (h : TreeFrame s t) (hs : WriterOk s) : WriterOk t := by
  unfold TreeFrame at h
  rw [h]
  exact hs

theorem CodesFrame.writerOk {s t : State} (h : CodesFrame s t) (hs : WriterOk s) : WriterOk t := by
  unfold CodesFrame at h
  rw [h]
  exact hs

theorem clearWriter_writerOk (s : State) : WriterOk (clearWriter s) := Nat.one_pos

/-- The `WCNT + 1` bits of the buffer after one more bit hold a value of that width. -/
theorem WriterOk.push_lt {s : State} (h : WriterOk s) (b : Bool) :
    s.wacc.toNat * 2 + b.toNat < 2 ^ (s.wcnt.val + 1) := by
  have hb : b.toNat < 2 := Bool.toNat_lt b
  unfold WriterOk at h
  rw [Nat.pow_succ]
  omega

/-- With a sound buffer, `PutBit` keeps the bit, or sends the full byte from an emptied buffer. -/
theorem putBit_cases {s : State} (hw : WriterOk s) (b : Bool) :
    (∃ h : s.wcnt.val + 1 < 8, putBit b s = .done ()
      { s with wacc := BitVec.ofNat 8 (s.wacc.toNat * 2 + b.toNat), wcnt := ⟨s.wcnt.val + 1, h⟩ }) ∨
    putBit b s = sinkWrite (BitVec.ofNat 8 (s.wacc.toNat * 2 + b.toNat)) (clearWriter s) := by
  have hfit : s.wacc.toNat * 2 + b.toNat < 256 :=
    (hw.push_lt b).trans_le (Nat.pow_le_pow_right Nat.two_pos s.wcnt.isLt)
  unfold putBit
  rw [if_pos hfit]
  split
  · exact .inl ⟨‹_›, rfl⟩
  · exact .inr rfl

theorem putBit_neverStops {s : State} (hw : WriterOk s) (b : Bool) : (putBit b s).NeverStops := by
  rcases putBit_cases hw b with ⟨_, h⟩ | h <;> rw [h]
  · exact Run.neverStops_done _ _
  · exact sinkWrite_neverStops _ _

theorem putBit_writerOk {s : State} (hw : WriterOk s) (b : Bool) : (putBit b s).Ends WriterOk := by
  rcases putBit_cases hw b with ⟨hlt, h⟩ | h <;> rw [h]
  · exact (Nat.mod_le _ _).trans_lt (hw.push_lt b)
  · exact (sinkWrite_frame _ _).mono fun t ht => ht.writerOk (clearWriter_writerOk s)

theorem flushBits_neverStops {s : State} (hw : WriterOk s) : (flushBits s).NeverStops := by
  unfold flushBits
  split
  · exact Run.neverStops_done () s
  · have hfit : s.wacc.toNat * 2 ^ (8 - s.wcnt.val) < 256 :=
      calc s.wacc.toNat * 2 ^ (8 - s.wcnt.val)
        _ < 2 ^ s.wcnt.val * 2 ^ (8 - s.wcnt.val) := Nat.mul_lt_mul_of_pos_right hw (Nat.two_pow_pos _)
        _ = 256 := by rw [← Nat.pow_add, show s.wcnt.val + (8 - s.wcnt.val) = 8 by omega]
    rw [if_pos hfit]
    exact sinkWrite_neverStops _ _

theorem putBits_neverStops {s : State} (hw : WriterOk s) (v : BitVec 255) (j : Nat) : (putBits v j s).NeverStops := by
  induction j generalizing s with
  | zero => exact Run.neverStops_done () s
  | succ j ih => exact (putBit_neverStops hw _).bind fun _ t ht => ih ((putBit_writerOk hw _).of_done ht)

theorem putBits_writerOk {s : State} (hw : WriterOk s) (v : BitVec 255) (j : Nat) :
    (putBits v j s).Ends WriterOk := by
  induction j generalizing s with
  | zero => exact hw
  | succ j ih => exact Run.Ends.bind (putBit_writerOk hw _) (fun _ t ht => ih ht) fun _ h => h

theorem putCode_neverStops {s : State} (hw : WriterOk s) (b : Byte) : (putCode b s).NeverStops :=
  putBits_neverStops hw _ _

theorem putCode_writerOk {s : State} (hw : WriterOk s) (b : Byte) : (putCode b s).Ends WriterOk :=
  putBits_writerOk hw _ _

theorem sourceRead_writerOk {s t : State} {a : ReadAnswer} (hw : WriterOk s) (h : sourceRead s = (a, t)) :
    WriterOk t := by
  have ht := (sourceRead_frame s).writerOk hw
  rwa [h] at ht

theorem encodeLoop_neverStops {s : State} (hw : WriterOk s) (n : Nat) : (encodeLoop n s).NeverStops := by
  induction n generalizing s with
  | zero => exact Run.neverStops_done () s
  | succ n ih =>
    rw [encodeLoop]
    split
    · exact Run.neverStops_raised _ _
    · exact Run.neverStops_raised _ _
    · rename_i hr
      have ht := sourceRead_writerOk hw hr
      split
      · exact Run.neverStops_raised _ _
      · exact (putCode_neverStops ht _).bind fun _ u hu =>
          ih (show WriterOk u from (putCode_writerOk ht _).of_done hu)

theorem encodeLoop_writerOk {s : State} (hw : WriterOk s) (n : Nat) : (encodeLoop n s).Ends WriterOk := by
  induction n generalizing s with
  | zero => exact hw
  | succ n ih =>
    rw [encodeLoop]
    split <;> rename_i hr <;> have ht := sourceRead_writerOk hw hr
    · exact ht
    · exact ht
    · split
      · exact ht
      · exact Run.Ends.bind (putCode_writerOk ht _) (fun _ u hu => ih hu) fun _ h => h

/-! ### Walks below a node that heads a tree (10_state.md R37d, 43_tree_codes.md R181, 46_bitreader.md R244) -/

/-- The nodes reachable from ROOT form a tree, none reachable twice: the part of R37(d) that keeps a walk inside it. -/
def RootSpans (s : State) : Prop := ∃ ns : List NodeIdx, Spans s s.root ns ∧ ns.Nodup

theorem TreeOk.rootSpans {s : State} (h : TreeOk s) : RootSpans s := by
  obtain ⟨ns, hspans, hnodup, -⟩ := h
  exact ⟨ns, hspans, hnodup⟩

theorem Spans.head_mem {s : State} {n : NodeIdx} {ns : List NodeIdx} (h : Spans s n ns) : n ∈ ns := by
  cases h <;> exact List.mem_cons_self

/-- A tree depends on its own nodes' records alone. -/
theorem Spans.congr {s t : State} {n : NodeIdx} {ns : List NodeIdx} (h : Spans s n ns)
    (ht : ∀ m ∈ ns, t.node[m] = s.node[m]) : Spans t n ns := by
  induction h with
  | leaf n b hsym hl hr =>
    have hn := ht n List.mem_cons_self
    exact .leaf n b (hn ▸ hsym) (hn ▸ hl) (hn ▸ hr)
  | inner n l r xs ys hsym hl hr hln hrn hf hx hy ihx ihy =>
    have hxs : ∀ m ∈ xs, t.node[m] = s.node[m] := fun m hm => ht m (by simp [hm])
    have hys : ∀ m ∈ ys, t.node[m] = s.node[m] := fun m hm => ht m (by simp [hm])
    have hn := ht n List.mem_cons_self
    refine .inner n l r xs ys (hn ▸ hsym) (hn ▸ hl) (hn ▸ hr) hln hrn ?_ (ihx hxs) (ihy hys)
    rw [hn, hxs l hx.head_mem, hys r hy.head_mem]
    exact hf

theorem RootSpans.congr {s t : State} (h : RootSpans s) (hn : t.node = s.node) (hr : t.root = s.root) :
    RootSpans t := by
  obtain ⟨ns, hspans, hnodup⟩ := h
  exact ⟨ns, hr ▸ hspans.congr fun m _ => by rw [hn], hnodup⟩

/-- `GenCodes`' walk of a tree of fewer than `2 * k` nodes stays above the depth that `k` allows: each subtree of an
internal node has at least two nodes fewer than the whole. -/
theorem walk_neverStops {s t : State} {n : NodeIdx} {ns : List NodeIdx} (h : Spans s n ns) (ht : t.node = s.node)
    {k : Nat} (hk : ns.length < 2 * k) (v d : Nat) : (walk k n v d t).NeverStops := by
  induction h generalizing t k v d with
  | leaf n b hsym hl hr =>
    obtain ⟨k, rfl⟩ := Nat.exists_eq_succ_of_ne_zero (show k ≠ 0 by rintro rfl; simp at hk)
    simp only [walk, ht, hsym, Run.neverStops_done]
  | inner n l r xs ys hsym hl hr hln hrn hf hx hy ihx ihy =>
    have hxl := List.length_pos_of_mem hx.head_mem
    have hyl := List.length_pos_of_mem hy.head_mem
    simp only [List.length_cons, List.length_append] at hk
    obtain ⟨k, rfl⟩ := Nat.exists_eq_succ_of_ne_zero (show k ≠ 0 by omega)
    simp only [walk, ht, hsym, hl, hr]
    refine (ihx ht (by omega) _ _).bind fun _ u hu => ihy ?_ (by omega) _ _
    have hframe := (walk_frame _ _ _ _ _).of_done hu
    unfold CodesFrame at hframe
    rw [hframe, ht]

/-- The tree has at most 511 nodes, so no leaf is deeper than 255 (43_tree_codes.md R186c). -/
theorem genCodes_neverStops {s : State} (h : RootSpans s) : (genCodes s).NeverStops := by
  obtain ⟨ns, hspans, hnodup⟩ := h
  have hlen : ns.length ≤ 511 := by simpa using hnodup.length_le_card
  unfold genCodes
  dsimp only
  split
  · exact Run.neverStops_done _ _
  · exact (walk_neverStops hspans (by rfl) (by omega) _ _).bind fun _ t _ => Run.neverStops_done _ _

theorem getBit_node {s t : State} {b : Option Bool} (h : getBit s = .done b t) :
    t.node = s.node ∧ t.root = s.root := by
  have hframe := (getBit_frame s).of_done h
  unfold ReaderFrame at hframe
  rw [hframe]
  exact ⟨rfl, rfl⟩

theorem decodeLoop_neverStops {s t : State} {n : NodeIdx} {ns : List NodeIdx} (h : Spans s n ns)
    (ht : t.node = s.node) (k : Nat) (first : Bool) : (decodeLoop k n first t).NeverStops := by
  induction h generalizing t k first with
  | leaf n b hsym hl hr =>
    cases k with
    | zero => exact Run.neverStops_done _ _
    | succ k => simp only [decodeLoop, ht, hsym, Run.neverStops_done]
  | inner n l r xs ys hsym hl hr hln hrn hf hx hy ihx ihy =>
    cases k with
    | zero => exact Run.neverStops_done _ _
    | succ k =>
      simp only [decodeLoop, ht, hsym]
      refine (getBit_neverStops t).bind fun b u hu => ?_
      have hnode : u.node = s.node := (getBit_node hu).1.trans ht
      cases b with
      | none => dsimp only; split <;> simp
      | some b =>
        cases b with
        | false => simpa only [hnode, hl] using ihx hnode k false
        | true => simpa only [hnode, hr] using ihy hnode k false

theorem decodeSym_neverStops {s : State} (h : RootSpans s) : (decodeSym s).NeverStops := by
  obtain ⟨ns, hspans, -⟩ := h
  unfold decodeSym
  split
  · refine (getBit_neverStops s).bind fun b t _ => ?_
    split <;> simp
  · exact decodeLoop_neverStops hspans rfl _ _

theorem DecodeFrame.rootSpans {s t : State} (h : DecodeFrame s t) (hs : RootSpans s) : RootSpans t := by
  unfold DecodeFrame at h
  rw [h]
  exact hs.congr rfl rfl

theorem decodeAll_neverStops {s : State} (h : RootSpans s) (n : Nat) : (decodeAll n s).NeverStops := by
  induction n generalizing s with
  | zero => exact Run.neverStops_done () s
  | succ n ih =>
    refine (decodeSym_neverStops h).bind fun r t ht => ?_
    have hframe := ((decodeSym_frame s).of_done ht).toDecodeFrame
    split
    · exact Run.neverStops_raised _ _
    · refine (sinkWrite_neverStops _ t).bind fun _ u hu => ih ?_
      have hsent : DecodeFrame s u := hframe.trans ((sinkWrite_frame _ t).of_done hu).toDecodeFrame
      exact DecodeFrame.rootSpans (hsent.trans (by rfl)) h

/-! ### The queue: what an extraction, an insertion and a merge do to it (42_heap.md R151 to R154) -/

/-- `t` is `s` with the record `d` in the next free slot `n`, queued in the place of the nodes `taken`. -/
structure Requeued (s t : State) (taken : List NodeIdx) (n : NodeIdx) (d : Node) : Prop where
  slot : n.val = s.nnodes.val
  count : t.nnodes.val = s.nnodes.val + 1
  node : t.node = s.node.set n.val d
  swap : ∃ rest, (queue s).Perm (taken ++ rest) ∧ (queue t).Perm (n :: rest)

/-- A new node queued by `HeapInsert`. -/
theorem heapInsert_requeued {s u t : State} {n : NodeIdx} {d : Node} (hnew : newNode d s = .done n u)
    (hins : heapInsert n u = .done () t) : Requeued s t [] n d := by
  obtain ⟨hslot, hcount, hheapn, hheap, hnode⟩ := newNode_done hnew
  obtain ⟨-, hnn, hnd⟩ := heapInsert_done hins
  refine ⟨hslot, by rw [hnn, hcount], hnd.trans hnode, queue s, .refl _, ?_⟩
  rw [← queue_congr hheap hheapn]
  exact heapInsert_queue hins

theorem heapExtract_neverStops {s : State} (h : 0 < s.heapn.val) : (heapExtract s).NeverStops := by
  rcases heapExtract_cases s with ⟨h0, _⟩ | ⟨_, n, hp, e⟩
  · omega
  · rw [e]
    exact Run.neverStops_done _ _

theorem newNode_neverStops (d : Node) (s : State) : (newNode d s).NeverStops := by
  rcases newNode_cases d s with ⟨_, e⟩ | ⟨_, e⟩ <;> simp [e]

theorem heapInsert_neverStops (n : NodeIdx) (s : State) : (heapInsert n s).NeverStops := by
  rcases heapInsert_cases n s with ⟨_, _, e⟩ | ⟨_, e⟩ <;> simp [e]

/-- Two extractions in a row take two nodes out of the queue and change no record. -/
theorem heapExtract_twice {s t u : State} {a b : NodeIdx} (ha : heapExtract s = .done a t)
    (hb : heapExtract t = .done b u) :
    (queue s).Perm (a :: b :: queue u) ∧ u.nnodes = s.nnodes ∧ u.node = s.node := by
  obtain ⟨-, hqa, -⟩ := heapExtract_queue ha
  obtain ⟨-, hqb, -⟩ := heapExtract_queue hb
  obtain ⟨-, hna, hda⟩ := heapExtract_done ha
  obtain ⟨-, hnb, hdb⟩ := heapExtract_done hb
  exact ⟨hqa.trans (hqb.cons a), hnb.trans hna, hdb.trans hda⟩

/-- A merge queues one node over the two it takes, with the exact sum of their frequencies. -/
theorem mergeTwo_requeued {s t : State} {n : NodeIdx} (h : mergeTwo s = .done n t) :
    ∃ a b : NodeIdx, s.node[a].freq.toNat + s.node[b].freq.toNat < 2 ^ 40 ∧
      Requeued s t [a, b] n
        (innerNode (BitVec.ofNat 40 (s.node[a].freq.toNat + s.node[b].freq.toNat)) a b) := by
  unfold mergeTwo at h
  obtain ⟨a, u, hu, h⟩ := Run.bind_eq_done h
  obtain ⟨b, v, hv, h⟩ := Run.bind_eq_done h
  obtain ⟨m, w, hw, h⟩ := Run.bind_eq_done h
  obtain ⟨_, x, hx, h⟩ := Run.bind_eq_done h
  cases h
  obtain ⟨hqueue, hnn, hnd⟩ := heapExtract_twice hu hv
  obtain ⟨hfit, hnew⟩ := mergeNode_done hw
  obtain ⟨hslot, hcount, hnode, rest, hrest, hqt⟩ := heapInsert_requeued hnew hx
  rw [hnd] at hfit hnode
  rw [hnn] at hslot hcount
  exact ⟨a, b, hfit, hslot, hcount, hnode, rest, hqueue.trans ((hrest.cons b).cons a), hqt⟩

theorem Requeued.node_new {s t : State} {taken : List NodeIdx} {n : NodeIdx} {d : Node}
    (h : Requeued s t taken n d) : t.node[n] = d := by
  simp [h.node]

theorem Requeued.node_old {s t : State} {taken : List NodeIdx} {n m : NodeIdx} {d : Node}
    (h : Requeued s t taken n d) (hm : m.val < s.nnodes.val) : t.node[m] = s.node[m] := by
  have hne : n.val ≠ m.val := by rw [h.slot]; omega
  simp [h.node, hne]

/-- With the queued nodes below NNODES, the new node is none of those that stay queued beside it. -/
theorem Requeued.exchange {s t : State} {taken : List NodeIdx} {n : NodeIdx} {d : Node} (h : Requeued s t taken n d)
    (hb : ∀ m ∈ queue s, m.val < s.nnodes.val) :
    ∃ rest, (queue s).Perm (taken ++ rest) ∧ (queue t).Perm (n :: rest) ∧ (∀ m ∈ taken, m ∈ queue s) ∧
      ∀ m ∈ rest, m ∈ queue s ∧ m ≠ n := by
  obtain ⟨rest, hqs, hqt⟩ := h.swap
  have hrest : ∀ m ∈ rest, m ∈ queue s := fun m hm => hqs.mem_iff.mpr (List.mem_append_right _ hm)
  refine ⟨rest, hqs, hqt, fun m hm => hqs.mem_iff.mpr (List.mem_append_left _ hm), fun m hm => ⟨hrest m hm, ?_⟩⟩
  rintro rfl
  exact absurd (hb m (hrest m hm)) (by rw [h.slot]; exact Nat.lt_irrefl _)

/-! ### The queued nodes' frequencies fit (42_heap.md R154) -/

/-- The two least nodes' leaves are at most 256, so the sum of their frequencies is below `2 ^ 40`. -/
theorem QueueWeighed.merge_fits {s : State} {a b : NodeIdx} {rest : List NodeIdx} (h : QueueWeighed s)
    (hq : (queue s).Perm (a :: b :: rest)) : s.node[a].freq.toNat + s.node[b].freq.toNat < 2 ^ 40 := by
  obtain ⟨k, hk, hsum⟩ := h
  obtain ⟨ha1, ha⟩ := hk a (hq.mem_iff.mpr (by simp))
  obtain ⟨hb1, hb⟩ := hk b (hq.mem_iff.mpr (by simp))
  rw [(hq.map _).sum_eq] at hsum
  simp only [List.map_cons, List.sum_cons] at hsum
  omega

/-- A new queued node weighs no more than its slot and the taken nodes' allow. -/
theorem Requeued.queueWeighed {s t : State} {taken : List NodeIdx} {n : NodeIdx} {d : Node}
    (h : Requeued s t taken n d) (hb : ∀ m ∈ queue s, m.val < s.nnodes.val) (hw : QueueWeighed s)
    (hd : ∀ k : NodeIdx → Nat, (∀ m ∈ taken, 1 ≤ k m ∧ s.node[m].freq.toNat ≤ k m * (2 ^ 32 - 1)) →
      ∃ x, 1 ≤ x ∧ d.freq.toNat ≤ x * (2 ^ 32 - 1) ∧ 2 * x - 1 ≤ (taken.map fun m => 2 * k m - 1).sum + 1) :
    QueueWeighed t := by
  obtain ⟨k, hk, hsum⟩ := hw
  obtain ⟨rest, hqs, hqt, htaken, hrest⟩ := h.exchange hb
  obtain ⟨x, hx1, hx, hxs⟩ := hd k fun m hm => hk m (htaken m hm)
  refine ⟨Function.update k n x, fun m hm => ?_, ?_⟩
  · rcases List.mem_cons.mp (hqt.mem_iff.mp hm) with rfl | hm
    · rw [Function.update_self, h.node_new]
      exact ⟨hx1, hx⟩
    · obtain ⟨hq, hne⟩ := hrest m hm
      rw [Function.update_of_ne hne, h.node_old (hb m hq)]
      exact hk m hq
  · have hmap : (rest.map fun m => 2 * Function.update k n x m - 1) = rest.map fun m => 2 * k m - 1 :=
      List.map_congr_left fun m hm => by rw [Function.update_of_ne (hrest m hm).2]
    rw [(hqs.map _).sum_eq, List.map_append, List.sum_append] at hsum
    rw [(hqt.map _).sum_eq, List.map_cons, List.sum_cons, hmap, Function.update_self, h.count]
    omega

/-- A queued leaf of a 32-bit frequency keeps the weights. -/
theorem Requeued.queueWeighed_leaf {s t : State} {n : NodeIdx} {b : Byte} {f : BitVec 32}
    (h : Requeued s t [] n (leafNode b (zext 40 f))) (hb : ∀ m ∈ queue s, m.val < s.nnodes.val)
    (hw : QueueWeighed s) : QueueWeighed t := by
  refine h.queueWeighed hb hw fun k _ => ⟨1, le_rfl, ?_, by simp⟩
  have hf := f.isLt
  simp only [leafNode, BitVec.toNat_setWidth]
  omega

/-- The node of a merge weighs what the two it joins weigh. -/
theorem Requeued.queueWeighed_inner {s t : State} {n a b : NodeIdx}
    (h : Requeued s t [a, b] n (innerNode (BitVec.ofNat 40 (s.node[a].freq.toNat + s.node[b].freq.toNat)) a b))
    (hb : ∀ m ∈ queue s, m.val < s.nnodes.val) (hw : QueueWeighed s) : QueueWeighed t := by
  refine h.queueWeighed hb hw fun k hk => ⟨k a + k b, ?_⟩
  obtain ⟨ha1, ha⟩ := hk a (by simp)
  obtain ⟨hb1, hb⟩ := hk b (by simp)
  have hsum := Nat.mod_le (s.node[a].freq.toNat + s.node[b].freq.toNat) (2 ^ 40)
  simp only [innerNode, BitVec.toNat_ofNat, List.map_cons, List.map_nil, List.sum_cons, List.sum_nil]
  omega

theorem mergeTwo_neverStops {s : State} (hw : QueueWeighed s) (hn : 2 ≤ s.heapn.val) : (mergeTwo s).NeverStops := by
  refine (heapExtract_neverStops (by omega)).bind fun a t ha => ?_
  obtain ⟨hcount, -, -⟩ := heapExtract_done ha
  refine (heapExtract_neverStops (by omega)).bind fun b u hb => ?_
  obtain ⟨hqueue, -, hnode⟩ := heapExtract_twice ha hb
  have hmerge : (mergeNode a b u).NeverStops := by
    unfold mergeNode
    rw [hnode, if_pos (hw.merge_fits hqueue)]
    exact newNode_neverStops _ u
  refine hmerge.bind fun n v _ => ?_
  exact (heapInsert_neverStops n v).bind fun _ w _ => Run.neverStops_done _ _

/-! ### The queued nodes head separate trees while BuildTree runs (43_tree_codes.md R180) -/

/-- The queued nodes head trees that share no node, all made of slots in use. -/
def Forest (s : State) : Prop :=
  ∃ ns : NodeIdx → List NodeIdx, (∀ n ∈ queue s, Spans s n (ns n)) ∧ ((queue s).flatMap ns).Nodup ∧
    ∀ m ∈ (queue s).flatMap ns, m.val < s.nnodes.val

theorem Forest.queue_below {s : State} (h : Forest s) : ∀ n ∈ queue s, n.val < s.nnodes.val := by
  obtain ⟨ns, hspans, -, hbelow⟩ := h
  exact fun n hn => hbelow n (List.mem_flatMap.mpr ⟨n, hn, (hspans n hn).head_mem⟩)

/-- A new node over the taken ones heads one tree in the place of theirs. -/
theorem Requeued.forest {s t : State} {taken : List NodeIdx} {n : NodeIdx} {d : Node} (h : Requeued s t taken n d)
    (hf : Forest s) (hn : ∀ ns : NodeIdx → List NodeIdx,
      (∀ m ∈ taken, m.val < s.nnodes.val ∧ Spans t m (ns m)) → Spans t n (n :: taken.flatMap ns)) : Forest t := by
  have hqueued := hf.queue_below
  obtain ⟨ns, hspans, hnodup, hbelow⟩ := hf
  obtain ⟨rest, hqs, hqt, htaken, hrest⟩ := h.exchange hqueued
  have hold : ∀ m ∈ queue s, Spans t m (ns m) := fun m hm =>
    (hspans m hm).congr fun i hi => h.node_old (hbelow i (List.mem_flatMap.mpr ⟨m, hm, hi⟩))
  have hflat : ((queue t).flatMap (Function.update ns n (n :: taken.flatMap ns))).Perm
      (n :: (queue s).flatMap ns) := by
    refine (hqt.flatMap_right _).trans ?_
    have hkept := List.flatMap_congr (g := ns) fun m hm =>
      Function.update_of_ne (hrest m hm).2 (n :: taken.flatMap ns) ns
    rw [List.flatMap_cons, Function.update_self, hkept, List.cons_append, ← List.flatMap_append]
    exact (hqs.flatMap_right ns).symm.cons n
  refine ⟨Function.update ns n (n :: taken.flatMap ns), fun m hm => ?_, ?_, fun m hm => ?_⟩
  · rcases List.mem_cons.mp (hqt.mem_iff.mp hm) with rfl | hm
    · rw [Function.update_self]
      exact hn ns fun i hi => ⟨hqueued i (htaken i hi), hold i (htaken i hi)⟩
    · obtain ⟨hq, hne⟩ := hrest m hm
      rw [Function.update_of_ne hne]
      exact hold m hq
  · refine hflat.nodup_iff.mpr (List.nodup_cons.mpr ⟨fun hm => ?_, hnodup⟩)
    have := hbelow n hm
    rw [h.slot] at this
    omega
  · rw [h.count]
    rcases List.mem_cons.mp (hflat.mem_iff.mp hm) with rfl | hm
    · rw [h.slot]
      omega
    · exact Nat.lt_succ_of_lt (hbelow m hm)

theorem Requeued.forest_leaf {s t : State} {n : NodeIdx} {b : Byte} {f : BitVec 40}
    (h : Requeued s t [] n (leafNode b f)) (hf : Forest s) : Forest t :=
  h.forest hf fun _ _ => .leaf n b (by rw [h.node_new]; rfl) (by rw [h.node_new]; rfl) (by rw [h.node_new]; rfl)

theorem Requeued.forest_inner {s t : State} {n a b : NodeIdx}
    (h : Requeued s t [a, b] n (innerNode (BitVec.ofNat 40 (s.node[a].freq.toNat + s.node[b].freq.toNat)) a b))
    (hfit : s.node[a].freq.toNat + s.node[b].freq.toNat < 2 ^ 40) (hf : Forest s) : Forest t := by
  refine h.forest hf fun ns hns => ?_
  obtain ⟨ha, hsa⟩ := hns a (by simp)
  obtain ⟨hb, hsb⟩ := hns b (by simp)
  rw [← h.slot] at ha hb
  simp only [List.flatMap_cons, List.flatMap_nil, List.append_nil]
  refine .inner n a b (ns a) (ns b) (by rw [h.node_new]; rfl) (by rw [h.node_new]; rfl) (by rw [h.node_new]; rfl)
    ha hb ?_ hsa hsb
  rw [h.node_new, h.node_old (h.slot ▸ ha), h.node_old (h.slot ▸ hb)]
  exact Nat.mod_eq_of_lt hfit

/-- What BuildTree keeps of the queue from its first leaf to its last merge. -/
structure Growing (s : State) : Prop where
  weighed : QueueWeighed s
  forest : Forest s

theorem clearHeap_growing (s : State) : Growing (clearHeap s) where
  weighed := ⟨fun _ => 0, by simp [queue]⟩
  forest := ⟨fun _ => [], by simp [queue]⟩

theorem mergeTwo_growing {s t : State} {n : NodeIdx} (hg : Growing s) (h : mergeTwo s = .done n t) : Growing t := by
  obtain ⟨a, b, hfit, hr⟩ := mergeTwo_requeued h
  exact ⟨hr.queueWeighed_inner hg.forest.queue_below hg.weighed, hr.forest_inner hfit hg.forest⟩

theorem insertLeaves_neverStops (ps : List (Byte × BitVec 32)) (s : State) : (insertLeaves ps s).NeverStops := by
  induction ps generalizing s with
  | nil => exact Run.neverStops_done () s
  | cons p ps ih =>
    refine (newNode_neverStops _ s).bind fun n t _ => ?_
    exact (heapInsert_neverStops n t).bind fun _ u _ => ih u

/-- BuildTree's leaves are queued, one for each pair of the list. -/
theorem insertLeaves_growing {ps : List (Byte × BitVec 32)} {s t : State} (hg : Growing s)
    (h : insertLeaves ps s = .done () t) : Growing t ∧ t.heapn.val = s.heapn.val + ps.length := by
  induction ps generalizing s with
  | nil => cases h; exact ⟨hg, rfl⟩
  | cons p ps ih =>
    obtain ⟨n, u, hnew, h⟩ := Run.bind_eq_done h
    obtain ⟨_, v, hins, h⟩ := Run.bind_eq_done h
    have hr := heapInsert_requeued hnew hins
    obtain ⟨-, -, hheapn, -, -⟩ := newNode_done hnew
    obtain ⟨hcount, -, -⟩ := heapInsert_done hins
    obtain ⟨hgt, hlen⟩ := ih ⟨hr.queueWeighed_leaf hg.forest.queue_below hg.weighed, hr.forest_leaf hg.forest⟩ h
    refine ⟨hgt, ?_⟩
    rw [hlen, hcount, hheapn, List.length_cons]
    omega

theorem mergeLoop_neverStops {s : State} (hg : Growing s) (k : Nat) : (mergeLoop k s).NeverStops := by
  induction k generalizing s with
  | zero => exact Run.neverStops_done () s
  | succ k ih =>
    rw [mergeLoop_step]
    split
    · exact (mergeTwo_neverStops hg.weighed ‹_›).bind fun n t ht => ih (mergeTwo_growing hg ht)
    · exact Run.neverStops_done () s

/-- The merges leave one queued node. -/
theorem mergeLoop_growing {k : Nat} {s t : State} (hg : Growing s) (hk : s.heapn.val ≤ k) (h0 : 0 < s.heapn.val)
    (h : mergeLoop k s = .done () t) : Growing t ∧ t.heapn.val = 1 := by
  induction k generalizing s with
  | zero => omega
  | succ k ih =>
    rw [mergeLoop_step] at h
    split at h
    · obtain ⟨n, u, hu, h⟩ := Run.bind_eq_done h
      obtain ⟨hcount, -, -⟩ := mergeTwo_counts hu
      exact ih (mergeTwo_growing hg hu) (by omega) (by omega) h
    · cases h
      exact ⟨hg, by omega⟩

/-- The node taken out of a forest heads a tree. -/
theorem heapExtract_rootSpans {s t : State} {n : NodeIdx} (hf : Forest s) (h : heapExtract s = .done n t) :
    RootSpans (setRoot n t) := by
  obtain ⟨ns, hspans, hnodup, -⟩ := hf
  obtain ⟨-, hqueue, -⟩ := heapExtract_queue h
  obtain ⟨-, -, hnode⟩ := heapExtract_done h
  have hn : n ∈ queue s := hqueue.mem_iff.mpr (by simp)
  exact ⟨ns n, (hspans n hn).congr fun m _ => by rw [← hnode]; rfl, (List.nodup_flatMap.mp hnodup).1 n hn⟩

/-- The leaves of a table that is not empty are queued as trees of one node, and there is at least one. -/
theorem buildTree_queued {s t : State} (h0 : ndist s ≠ 0)
    (h : insertLeaves (present (clearHeap (invalidateTree s))) (clearHeap (invalidateTree s)) = .done () t) :
    Growing t ∧ 0 < t.heapn.val := by
  obtain ⟨hg, hlen⟩ := insertLeaves_growing (clearHeap_growing _) h
  have hpresent : (present (clearHeap (invalidateTree s))).length = ndist s := present_length _
  exact ⟨hg, by omega⟩

theorem buildTree_neverStops (s : State) : (buildTree s).NeverStops := by
  unfold buildTree
  dsimp only
  split
  · exact Run.neverStops_raised _ _
  · rename_i h0
    refine (insertLeaves_neverStops _ _).bind fun _ t ht => ?_
    obtain ⟨hg, hpos⟩ := buildTree_queued h0 ht
    refine (mergeLoop_neverStops hg _).bind fun _ u hu => ?_
    obtain ⟨-, hone⟩ := mergeLoop_growing hg le_rfl hpos hu
    exact (heapExtract_neverStops (by omega)).bind fun n v _ => Run.neverStops_done _ _

theorem buildTree_rootSpans {s t : State} (h : buildTree s = .done () t) : RootSpans t := by
  unfold buildTree at h
  dsimp only at h
  split at h
  · cases h
  · rename_i h0
    obtain ⟨_, u, hu, h⟩ := Run.bind_eq_done h
    obtain ⟨_, v, hv, h⟩ := Run.bind_eq_done h
    obtain ⟨n, w, hw, h⟩ := Run.bind_eq_done h
    cases h
    obtain ⟨hg, hpos⟩ := buildTree_queued h0 hu
    obtain ⟨hgv, -⟩ := mergeLoop_growing hg le_rfl hpos hv
    exact heapExtract_rootSpans hgv.forest hw

/-! ### Sequencers -/

theorem compressBody_neverStops (s : State) : (compressBody s).NeverStops := by
  have hw : WriterOk (clearReader (clearWriter (clearCount s))) := clearWriter_writerOk s
  refine (sourceRewind_neverStops _).bind fun _ a ha => ?_
  replace hw := ((sourceRewind_frame _).of_done ha).writerOk hw
  refine (scanFreq_neverStops a).bind fun _ b hb => ?_
  replace hw := ((scanFreq_frame a).of_done hb).writerOk hw
  rcases checkAlphabet_cases b with ⟨_, e⟩ | ⟨_, e⟩ | ⟨_, _, e⟩ <;> rw [e]
  · exact Run.neverStops_raised _ _
  · exact Run.neverStops_raised _ _
  refine (buildTree_neverStops b).bind fun _ c hc => ?_
  replace hw := ((buildTree_frame b).of_done hc).writerOk hw
  refine (genCodes_neverStops (buildTree_rootSpans hc)).bind fun _ d hd => ?_
  replace hw := ((genCodes_frame c).of_done hd).writerOk hw
  refine (writeHeader_neverStops d).bind fun _ e he => ?_
  replace hw := ((writeHeader_frame d).of_done he).writerOk hw
  refine (sourceRewind_neverStops e).bind fun _ f hf => ?_
  replace hw := ((sourceRewind_frame e).of_done hf).writerOk hw
  refine (encodeLoop_neverStops hw _).bind fun _ g hg => ?_
  exact flushBits_neverStops ((encodeLoop_writerOk hw _).of_done hg)

theorem decompressBody_neverStops (s : State) : (decompressBody s).NeverStops := by
  refine (readHeader_neverStops _).bind fun _ a _ => ?_
  refine (buildTree_neverStops a).bind fun _ b hb => ?_
  exact decodeAll_neverStops (buildTree_rootSpans hb) _

/-! ### Commands and host acts -/

/-- The part of the invariants that keeps every command from stopping. -/
structure Steady (s : State) : Prop where
  writer : WriterOk s
  weighed : QueueWeighed s
  tree : s.rootValid = true → RootSpans s

/-- The flags and the host's coming acts have no part in it. -/
theorem Steady.congr {s t : State} (h : Steady s)
    (ht : t = { s with empty := t.empty, eos := t.eos, pending := t.pending }) : Steady t := by
  rw [ht]
  exact ⟨h.writer, h.weighed, fun hv => (h.tree hv).congr rfl rfl⟩

theorem exec_ne_fault {s : State} (hs : Steady s) (i : Instr) (f : Fault) : exec i s ≠ .fault f := by
  have h : Steady (clearFlags s) := hs.congr rfl
  unfold exec
  cases i with
  | reset => nofun
  | nop | freqClear | freqSet | freqGet | heapClear | codeGet | bwClear | brClear =>
    exact runCommand_ne_fault (Run.neverStops_done _ _)
  | freqScan => exact runCommand_ne_fault (scanFreq_neverStops _)
  | srcRewind => exact runCommand_ne_fault (sourceRewind_neverStops _)
  | heapInsert sym =>
    refine runCommand_ne_fault ((newNode_neverStops _ _).bind fun n t _ => ?_)
    exact (heapInsert_neverStops n t).bind fun _ u _ => Run.neverStops_done _ _
  | heapExtract =>
    refine runCommand_ne_fault ?_
    dsimp only
    split
    · exact Run.neverStops_done _ _
    · exact (heapExtract_neverStops (by omega)).bind fun n t _ => Run.neverStops_done _ _
  | heapMerge =>
    refine runCommand_ne_fault ?_
    dsimp only
    split
    · exact Run.neverStops_done _ _
    · split
      · exact Run.neverStops_raised _ _
      · exact (mergeTwo_neverStops (s := invalidateTree (clearFlags s)) h.weighed (by omega)).bind fun n t _ =>
          Run.neverStops_done _ _
  | heapGet idx => refine runCommand_ne_fault ?_; split <;> simp
  | nodeGet idx => refine runCommand_ne_fault ?_; split <;> simp
  | buildTree => exact runCommand_ne_fault (buildTree_neverStops _)
  | genCodes =>
    refine runCommand_ne_fault ?_
    split
    · exact Run.neverStops_raised _ _
    · exact genCodes_neverStops (h.tree (eq_true_of_ne_false ‹_›))
  | hdrWrite => exact runCommand_ne_fault (writeHeader_neverStops _)
  | hdrRead => exact runCommand_ne_fault (readHeader_neverStops _)
  | bwBit b => exact runCommand_ne_fault (putBit_neverStops h.writer b)
  | bwFlush => exact runCommand_ne_fault (flushBits_neverStops h.writer)
  | bwSym sym =>
    refine runCommand_ne_fault ?_
    split
    · exact Run.neverStops_raised _ _
    · split
      · exact Run.neverStops_raised _ _
      · exact (putCode_neverStops h.writer sym).bind fun _ t _ => Run.neverStops_done _ _
  | brBit =>
    refine runCommand_ne_fault ((getBit_neverStops _).bind fun b t _ => ?_)
    split <;> simp
  | brSym =>
    refine runCommand_ne_fault ?_
    split
    · exact Run.neverStops_raised _ _
    · refine (decodeSym_neverStops (h.tree (eq_true_of_ne_false ‹_›))).bind fun r t _ => ?_
      split <;> simp
  | compress => exact runCommand_ne_fault (compressBody_neverStops _)
  | decompress => exact runCommand_ne_fault (decompressBody_neverStops _)

theorem executeCommand_ne_fault {s : State} (h : Steady s) (w : Word) (f : Fault) :
    executeCommand w s ≠ .fault f := by
  unfold executeCommand
  split
  · exact exec_ne_fault h _ f
  · exact runCommand_ne_fault (Run.neverStops_raised _ _)

/-- Only a write to CMD runs a command; every other act of the host answers a state or is refused. -/
theorem hostAct_ne_fault {s : State} (h : Steady s) (a : HostAct) (f : Fault) : hostAct a s ≠ .fault f := by
  cases a with
  | read width off => simp only [hostAct, hostRead]; split <;> nofun
  | write width off v =>
    simp only [hostAct, hostWrite]
    split
    · nofun
    · split
      · nofun
      · split
        · exact executeCommand_ne_fault h v f
        · nofun
  | hardReset => nofun
  | placeSource seq pos => simp only [hostAct, placeSource]; split <;> nofun
  | connectSink => nofun

theorem step_ne_fault {s : State} (h : Steady s) (f : Fault) : step s ≠ .fault f := by
  unfold step hostStep
  split
  · nofun
  · exact hostAct_ne_fault (h.congr rfl) _ f

/-- Settles O58: each command's body never stops, by its loops' invariants. The writer's byte fits by R35, a merge's sum
by the queue's weights, and a walk stays in the tree that R37(d) gives or BuildTree has just made. -/
theorem noStepStopsUnderTheInvariants : Obligations.NoStepStopsUnderTheInvariants := by
  intro s hwriter ⟨_, _, htree, _⟩ hweighed f
  exact step_ne_fault ⟨hwriter, hweighed, fun hv => (htree hv).rootSpans⟩ f

end Sys2Proof.Machine
end

section
/-!
PROOFS. Every command as one body behind the gate of `ExecuteCommand` (40_control.md R120, R121), the frame of each, and
what one step of the host can do.
-/

namespace Sys2Proof.Machine

/-! ### Every command as one body behind the gate of `ExecuteCommand` (40_control.md R120) -/

/-- What a command does once it has passed the gate and its flags are cleared. RESET, which passes the gate in the error
state too, is `DoReset`. -/
def commandBody (i : Instr) (s : State) : Run Unit :=
  match i with
  | .nop => .done () s
  | .reset => .done () (doReset s)
  | .freqClear => .done () (invalidateTree (clearFreq s))
  | .freqScan => scanFreq (clearReader s)
  | .freqSet sym => .done () (invalidateTree (setFreq sym s.arg s))
  | .freqGet sym => .done () (setResult0 (atSym s.freq sym) s)
  | .srcRewind => sourceRewind (clearReader s)
  | .heapClear => .done () (clearHeap (invalidateTree s))
  | .heapInsert sym =>
    (newNode (leafNode sym (argFreq s)) (invalidateTree s)).bind fun n s =>
    (heapInsert n s).bind fun _ s => .done () (nodeRecord n s)
  | .heapExtract =>
    if s.heapn.val = 0 then .done () (setEmpty (invalidateTree s))
    else (heapExtract (invalidateTree s)).bind fun n s => .done () (nodeRecord n s)
  | .heapMerge =>
    if s.heapn.val < 2 then .done () (setEmpty (invalidateTree s))
    else if s.nnodes.val = 511 then .raised .queueOverflow (invalidateTree s)
    else (mergeTwo (invalidateTree s)).bind fun n s => .done () (nodeRecord n s)
  | .heapGet idx =>
    match slotOf idx with
    | some n => .done () (setResult0 (zext 32 (idxBits s.heap[n])) s)
    | none => .raised .illegalCommand s
  | .nodeGet idx =>
    match slotOf idx with
    | some n => .done () (nodeRecord n s)
    | none => .raised .illegalCommand s
  | .buildTree => buildTree s
  | .genCodes => if s.rootValid = false then .raised .illegalCommand s else genCodes s
  | .codeGet sym w =>
    .done () (setResults (zext 32 (atSym s.clen sym)) (codeValueWord (atSym s.cval sym) w)
      (zext 32 (BitVec.ofBool s.codesValid)) s)
  | .hdrWrite => writeHeader s
  | .hdrRead => readHeader (clearReader s)
  | .bwBit b => putBit b s
  | .bwFlush => flushBits s
  | .bwSym sym =>
    if s.codesValid = false then .raised .illegalCommand s
    else if atSym s.clen sym = 0#8 then .raised .noCode s
    else (putCode sym s).bind fun _ s => .done () (countSymbol s)
  | .bwClear => .done () (clearWriter s)
  | .brClear => .done () (clearReader s)
  | .brBit =>
    (getBit s).bind fun b s =>
    match b with
    | none => .done () (setEos s)
    | some b => .done () (setResult0 (zext 32 (BitVec.ofBool b)) s)
  | .brSym =>
    if s.rootValid = false then .raised .illegalCommand s
    else
      (decodeSym s).bind fun r s =>
      match r with
      | none => .done () (setEos s)
      | some y => .done () (countSymbol (setResult0 (zext 32 y) s))
  | .compress => compressBody s
  | .decompress => decompressBody s

theorem exec_eq_runCommand {i : Instr} (hi : i ≠ .reset) (s : State) :
    exec i s = runCommand (encode i) (commandBody i) s := by
  cases i with
  | reset => exact absurd rfl hi
  | _ => rfl

/-- Everything a command that answers a next state can have done. -/
theorem exec_cases {i : Instr} {s t : State} (h : exec i s = .next t) :
    (i = .reset ∧ t = doReset s) ∨ (i ≠ .reset ∧ s.errcode ≠ none ∧ t = s) ∨
    (i ≠ .reset ∧ s.errcode = none ∧ commandBody i (clearFlags s) = .done () t) ∨
    ∃ e u, i ≠ .reset ∧ s.errcode = none ∧ commandBody i (clearFlags s) = .raised e u ∧
      t = enterError (encode i) e u := by
  by_cases hi : i = .reset
  · subst hi
    cases h
    exact .inl ⟨rfl, rfl⟩
  · rw [exec_eq_runCommand hi] at h
    rcases runCommand_cases h with ⟨he, rfl⟩ | ⟨he, hb⟩ | ⟨e, u, he, hb, rfl⟩
    · exact .inr (.inl ⟨hi, he, rfl⟩)
    · exact .inr (.inr (.inl ⟨hi, he, hb⟩))
    · exact .inr (.inr (.inr ⟨e, u, hi, he, hb, rfl⟩))

theorem Run.Ends.of_raised {α : Type} {r : Run α} {P : State → Prop} {e : ErrKind} {t : State} (h : r.Ends P)
    (hr : r = .raised e t) : P t := by
  subst hr
  exact h

/-- A property of the state that the gate, the flags and the error entry keep holds after a command if its body keeps
it. -/
theorem exec_keeps {P : State → Prop} {i : Instr} {s t : State} (h : exec i s = .next t) (hs : P s)
    (hreset : P (doReset s)) (hflags : P (clearFlags s))
    (hbody : P (clearFlags s) → (commandBody i (clearFlags s)).Ends P)
    (herror : ∀ e u, P u → P (enterError (encode i) e u)) : P t := by
  rcases exec_cases h with ⟨-, rfl⟩ | ⟨-, -, rfl⟩ | ⟨-, -, hd⟩ | ⟨e, u, -, -, hr, rfl⟩
  · exact hreset
  · exact hs
  · exact (hbody hflags).of_done hd
  · exact herror e u ((hbody hflags).of_raised hr)

/-! ### The frame of every command (10_state.md R23 to R36) -/

/-- The state elements that the body of a command may change. RESET sets every one of the engine's. -/
def CommandFrame (i : Instr) (s t : State) : Prop :=
  match i with
  | .nop => t = s
  | .reset => t = doReset s
  | .freqClear | .freqSet _ => t = { s with freq := t.freq, rootValid := t.rootValid, codesValid := t.codesValid }
  | .freqScan | .hdrRead =>
    t = { s with
      freq := t.freq, rootValid := t.rootValid, codesValid := t.codesValid, rwin := t.rwin, rcnt := t.rcnt
      spos := t.spos, draws := t.draws }
  | .freqGet _ | .heapGet _ => t = { s with result0 := t.result0 }
  | .srcRewind => t = { s with rwin := t.rwin, rcnt := t.rcnt, spos := t.spos, draws := t.draws }
  | .heapClear =>
    t = { s with heapn := t.heapn, nnodes := t.nnodes, rootValid := t.rootValid, codesValid := t.codesValid }
  | .heapInsert _ =>
    t = { s with
      result0 := t.result0, result1 := t.result1, result2 := t.result2
      node := t.node, nnodes := t.nnodes, heap := t.heap, heapn := t.heapn
      rootValid := t.rootValid, codesValid := t.codesValid }
  | .heapMerge =>
    t = { s with
      empty := t.empty, result0 := t.result0, result1 := t.result1, result2 := t.result2
      node := t.node, nnodes := t.nnodes, heap := t.heap, heapn := t.heapn
      rootValid := t.rootValid, codesValid := t.codesValid }
  | .heapExtract =>
    t = { s with
      empty := t.empty, result0 := t.result0, result1 := t.result1, result2 := t.result2
      heap := t.heap, heapn := t.heapn, rootValid := t.rootValid, codesValid := t.codesValid }
  | .nodeGet _ | .codeGet _ _ => t = { s with result0 := t.result0, result1 := t.result1, result2 := t.result2 }
  | .buildTree =>
    t = { s with
      node := t.node, nnodes := t.nnodes, heap := t.heap, heapn := t.heapn
      root := t.root, rootValid := t.rootValid, codesValid := t.codesValid }
  | .genCodes =>
    t = { s with clen := t.clen, cval := t.cval, codesValid := t.codesValid, outbits := t.outbits }
  | .hdrWrite => t = { s with snkseq := t.snkseq, draws := t.draws }
  | .bwBit _ | .bwFlush =>
    t = { s with wacc := t.wacc, wcnt := t.wcnt, snkseq := t.snkseq, draws := t.draws }
  | .bwSym _ =>
    t = { s with wacc := t.wacc, wcnt := t.wcnt, xcnt := t.xcnt, snkseq := t.snkseq, draws := t.draws }
  | .bwClear => t = { s with wacc := t.wacc, wcnt := t.wcnt }
  | .brClear => t = { s with rwin := t.rwin, rcnt := t.rcnt }
  | .brBit =>
    t = { s with
      eos := t.eos, result0 := t.result0, rwin := t.rwin, rcnt := t.rcnt, spos := t.spos, draws := t.draws }
  | .brSym =>
    t = { s with
      eos := t.eos, result0 := t.result0, rwin := t.rwin, rcnt := t.rcnt, xcnt := t.xcnt
      spos := t.spos, draws := t.draws }
  | .compress =>
    t = { s with
      freq := t.freq, node := t.node, nnodes := t.nnodes, heap := t.heap, heapn := t.heapn
      root := t.root, rootValid := t.rootValid, codesValid := t.codesValid
      clen := t.clen, cval := t.cval, outbits := t.outbits, xcnt := t.xcnt
      wacc := t.wacc, wcnt := t.wcnt, rwin := t.rwin, rcnt := t.rcnt
      spos := t.spos, snkseq := t.snkseq, draws := t.draws }
  | .decompress =>
    t = { s with
      freq := t.freq, node := t.node, nnodes := t.nnodes, heap := t.heap, heapn := t.heapn
      root := t.root, rootValid := t.rootValid, codesValid := t.codesValid, xcnt := t.xcnt
      rwin := t.rwin, rcnt := t.rcnt, spos := t.spos, snkseq := t.snkseq, draws := t.draws }

/-- The commands that end with a write of RESULT, of a flag or of XCNT: their frame holds before it, where a raise
may end the command, and after it. -/
theorem QueueFrame.toHeapInsert {s t : State} (h : QueueFrame (invalidateTree s) t) (sym : Byte) :
    CommandFrame (.heapInsert sym) s t ∧ ∀ n, CommandFrame (.heapInsert sym) s (nodeRecord n t) := by
  unfold QueueFrame at h
  rw [h]
  exact ⟨rfl, fun _ => rfl⟩

theorem QueueFrame.toHeapMerge {s t : State} (h : QueueFrame (invalidateTree s) t) :
    CommandFrame .heapMerge s t ∧ ∀ n, CommandFrame .heapMerge s (nodeRecord n t) := by
  unfold QueueFrame at h
  rw [h]
  exact ⟨rfl, fun _ => rfl⟩

theorem HeapFrame.toHeapExtract {s t : State} (h : HeapFrame (invalidateTree s) t) :
    CommandFrame .heapExtract s t ∧ ∀ n, CommandFrame .heapExtract s (nodeRecord n t) := by
  unfold HeapFrame at h
  rw [h]
  exact ⟨rfl, fun _ => rfl⟩

theorem WriterFrame.toBwSym {s t : State} (h : WriterFrame s t) (sym : Byte) :
    CommandFrame (.bwSym sym) s t ∧ CommandFrame (.bwSym sym) s (countSymbol t) := by
  unfold WriterFrame at h
  rw [h]
  exact ⟨rfl, rfl⟩

theorem ReaderFrame.toBrBit {s t : State} (h : ReaderFrame s t) :
    CommandFrame .brBit s t ∧ CommandFrame .brBit s (setEos t) ∧ ∀ v, CommandFrame .brBit s (setResult0 v t) := by
  unfold ReaderFrame at h
  rw [h]
  exact ⟨rfl, rfl, fun _ => rfl⟩

theorem ReaderFrame.toBrSym {s t : State} (h : ReaderFrame s t) :
    CommandFrame .brSym s t ∧ CommandFrame .brSym s (setEos t) ∧
      ∀ v, CommandFrame .brSym s (countSymbol (setResult0 v t)) := by
  unfold ReaderFrame at h
  rw [h]
  exact ⟨rfl, rfl, fun _ => rfl⟩

theorem HeaderFrame.toHdrRead {s t : State} (h : HeaderFrame (clearReader s) t) : CommandFrame .hdrRead s t := by
  unfold HeaderFrame at h
  rw [h]
  rfl

theorem SourceFrame.toSrcRewind {s t : State} (h : SourceFrame (clearReader s) t) :
    CommandFrame .srcRewind s t := by
  unfold SourceFrame at h
  rw [h]
  rfl

/-- Every command's body stays in its frame, whether it returns or raises. -/
theorem commandBody_frame (i : Instr) (s : State) : (commandBody i s).Ends (CommandFrame i s) := by
  cases i with
  | nop | reset | freqClear | freqSet | freqGet | heapClear | codeGet | bwClear | brClear => rfl
  | freqScan => exact (scanFreq_frame _).mono fun _ h => h.toHdrRead
  | srcRewind => exact (sourceRewind_frame _).mono fun _ h => h.toSrcRewind
  | heapInsert sym =>
    refine Run.Ends.bind (newNode_frame _ _) (fun n t ht => ?_) fun _ h => (h.toHeapInsert sym).1
    exact Run.Ends.bind ((heapInsert_frame n t).mono fun _ h => ht.trans h.toQueueFrame)
      (fun _ _ hu => (hu.toHeapInsert sym).2 n) fun _ h => (h.toHeapInsert sym).1
  | heapExtract =>
    rw [commandBody]
    split
    · rfl
    · exact Run.Ends.bind (heapExtract_frame _) (fun n _ ht => ht.toHeapExtract.2 n) fun _ h => h.toHeapExtract.1
  | heapMerge =>
    rw [commandBody]
    split
    · rfl
    · split
      · rfl
      · exact Run.Ends.bind (mergeTwo_frame _) (fun n _ ht => ht.toHeapMerge.2 n) fun _ h => h.toHeapMerge.1
  | heapGet idx | nodeGet idx => rw [commandBody]; split <;> rfl
  | buildTree => exact buildTree_frame s
  | genCodes =>
    rw [commandBody]
    split
    · exact CodesFrame.refl s
    · exact genCodes_frame s
  | hdrWrite => exact writeHeader_frame s
  | hdrRead => exact (readHeader_frame _).mono fun _ h => h.toHdrRead
  | bwBit b => exact putBit_frame b s
  | bwFlush => exact flushBits_frame s
  | bwSym sym =>
    rw [commandBody]
    split
    · rfl
    · split
      · rfl
      · exact Run.Ends.bind (putCode_frame sym s) (fun _ _ ht => (ht.toBwSym sym).2) fun _ h => (h.toBwSym sym).1
  | brBit =>
    refine Run.Ends.bind (getBit_frame s) (fun b t ht => ?_) fun _ h => h.toBrBit.1
    obtain ⟨-, heos, hbit⟩ := ht.toBrBit
    cases b with
    | none => exact heos
    | some b => exact hbit _
  | brSym =>
    rw [commandBody]
    split
    · rfl
    · refine Run.Ends.bind (decodeSym_frame s) (fun r t ht => ?_) fun _ h => h.toBrSym.1
      obtain ⟨-, heos, hsym⟩ := ht.toBrSym
      cases r with
      | none => exact heos
      | some y => exact hsym _
  | compress => exact compressBody_frame s
  | decompress => exact decompressBody_frame s

theorem heapExtract_ne_raised (s t : State) (e : ErrKind) : heapExtract s ≠ .raised e t := by
  rcases heapExtract_cases s with ⟨_, h⟩ | ⟨_, n, hp, h⟩ <;> rw [h] <;> nofun

theorem heapExtract_body_ne_raised (s t : State) (e : ErrKind) : commandBody .heapExtract s ≠ .raised e t := by
  intro h
  rw [commandBody] at h
  split at h
  · cases h
  · rcases Run.bind_eq_raised h with h | ⟨n, u, -, h⟩
    · exact heapExtract_ne_raised _ _ _ h
    · cases h

/-- Settles O15: the frame of the body, with the flags of R121 and the error entry of R282 around it. -/
theorem eachCommandKeepsWhatItDoesNotName : Obligations.EachCommandKeepsWhatItDoesNotName := by
  intro i s t h
  rcases exec_cases h with ⟨rfl, rfl⟩ | ⟨hi, -, rfl⟩ | ⟨hi, -, hd⟩ | ⟨e, u, hi, -, hr, rfl⟩
  · rfl
  · cases i with
    | reset => exact absurd rfl hi
    | _ => rfl
  · have hf := (commandBody_frame i (clearFlags s)).of_done hd
    cases i with
    | reset => exact absurd rfl hi
    | _ => rw [CommandFrame] at hf; rw [hf]; rfl
  · have hf := (commandBody_frame i (clearFlags s)).of_raised hr
    cases i with
    | reset => exact absurd rfl hi
    | nop | freqClear | freqSet | freqGet | heapClear | codeGet | bwClear | brClear => cases hr
    | heapExtract => exact absurd hr (heapExtract_body_ne_raised _ _ _)
    | _ => rw [CommandFrame] at hf; rw [hf]; rfl

/-- The body of a command that sets no flag leaves both flags alone. -/
theorem CommandFrame.flags {i : Instr} {s t : State} (h : CommandFrame i s t) (hi : i ≠ .reset) :
    (i ≠ .heapExtract ∧ i ≠ .heapMerge → t.empty = s.empty) ∧ (i ≠ .brBit ∧ i ≠ .brSym → t.eos = s.eos) := by
  cases i with
  | reset => exact absurd rfl hi
  | heapExtract | heapMerge => rw [CommandFrame] at h; rw [h]; simp
  | brBit | brSym => rw [CommandFrame] at h; rw [h]; simp
  | _ => rw [CommandFrame] at h; rw [h]; exact ⟨fun _ => rfl, fun _ => rfl⟩

/-- Settles O11: the flags are clear when a body starts (R121), and only those four commands' frames name one. -/
theorem flagsAreSetOnlyByTheirCommands : Obligations.FlagsAreSetOnlyByTheirCommands := by
  intro i s t he h
  have key : (i ≠ .heapExtract ∧ i ≠ .heapMerge → t.empty = false) ∧ (i ≠ .brBit ∧ i ≠ .brSym → t.eos = false) := by
    rcases exec_cases h with ⟨rfl, rfl⟩ | ⟨-, hne, -⟩ | ⟨hi, -, hd⟩ | ⟨e, u, hi, -, hr, rfl⟩
    · exact ⟨fun _ => rfl, fun _ => rfl⟩
    · exact absurd he hne
    · exact ((commandBody_frame i (clearFlags s)).of_done hd).flags hi
    · exact ((commandBody_frame i (clearFlags s)).of_raised hr).flags hi
  obtain ⟨hempty, heos⟩ := key
  refine ⟨fun ht => ?_, fun ht => ?_⟩
  · by_contra hn
    rw [hempty (not_or.mp hn)] at ht
    cases ht
  · by_contra hn
    rw [heos (not_or.mp hn)] at ht
    cases ht

/-! ### What a step can do (20_memory.md R80) -/

/-- What a step changes that runs no command and no reset: the host's lists, ARG, the collaborators, and the flags and
the error of an ill-formed word. -/
def HostFrame (s t : State) : Prop :=
  t = { s with
    pending := t.pending, answers := t.answers, arg := t.arg, srcseq := t.srcseq, spos := t.spos, snkseq := t.snkseq
    empty := t.empty, eos := t.eos, errcode := t.errcode, errcmd := t.errcmd }

theorem execIllegal_cases {w : Word} {s t : State} (h : execIllegal w s = .next t) :
    t = s ∨ t = enterError w .illegalCommand (clearFlags s) := by
  rcases runCommand_cases h with ⟨-, rfl⟩ | ⟨-, hd⟩ | ⟨e, u, -, hr, rfl⟩
  · exact .inl rfl
  · cases hd
  · cases hr
    exact .inr rfl

theorem executeCommand_cases {w : Word} {s t : State} (h : executeCommand w s = .next t) :
    (HostFrame s t ∧ t.srcseq = s.srcseq ∧ t.spos = s.spos) ∨ ∃ i, exec i s = .next t := by
  unfold executeCommand at h
  split at h
  · exact .inr ⟨_, h⟩
  · rcases execIllegal_cases h with rfl | rfl
    · exact .inl ⟨rfl, rfl, rfl⟩
    · exact .inl ⟨rfl, rfl, rfl⟩

/-- One act of the host stays in `HostFrame` with the source's position in range, or runs a command. -/
theorem hostAct_cases {a : HostAct} {s t : State} (h : hostAct a s = .next t) :
    (HostFrame s t ∧ (SourceOk s → SourceOk t)) ∨ ∃ i, exec i s = .next t := by
  cases a with
  | read width off =>
    simp only [hostAct, hostRead] at h
    split at h <;> cases h
    exact .inl ⟨rfl, id⟩
  | write width off v =>
    simp only [hostAct, hostWrite] at h
    split at h
    · cases h
    · split at h
      · cases h
        exact .inl ⟨rfl, id⟩
      · split at h
        · rcases executeCommand_cases h with ⟨hf, hseq, hpos⟩ | hex
          · exact .inl ⟨hf, by unfold SourceOk; rw [hseq, hpos]; exact id⟩
          · exact .inr hex
        · cases h
          exact .inl ⟨rfl, id⟩
  | hardReset => exact .inr ⟨.reset, h⟩
  | placeSource seq pos =>
    simp only [hostAct, placeSource] at h
    split at h <;> cases h
    exact .inl ⟨rfl, fun _ => ‹_›⟩
  | connectSink =>
    cases h
    exact .inl ⟨rfl, id⟩

/-- A step leaves the engine's tables alone, or runs a command once its act has left the queue. -/
theorem step_cases {s t : State} (h : step s = .next t) :
    (HostFrame s t ∧ (SourceOk s → SourceOk t)) ∨ ∃ i rest, exec i { s with pending := rest } = .next t := by
  unfold step hostStep at h
  split at h
  · cases h
    exact .inl ⟨rfl, id⟩
  · rename_i a rest _
    rcases hostAct_cases h with ⟨hf, hpos⟩ | ⟨i, hi⟩
    · unfold HostFrame at hf
      exact .inl ⟨by rw [hf]; rfl, hpos⟩
    · exact .inr ⟨i, rest, hi⟩

/-- A property of the engine's tables holds after every step, if it holds at reset, depends on nothing of `HostFrame`,
and every command's body keeps it. -/
theorem step_keeps {P : State → Prop} {s t : State} (h : step s = .next t) (hs : P s)
    (hreset : ∀ u, P (doReset u)) (hhost : ∀ u v, HostFrame u v → P u → P v)
    (hbody : ∀ i u, P u → (commandBody i u).Ends P) : P t := by
  rcases step_cases h with ⟨hf, -⟩ | ⟨i, rest, hi⟩
  · exact hhost s t hf hs
  · have hp : P { s with pending := rest } := hhost s _ rfl hs
    exact exec_keeps hi hp (hreset _) (hhost _ _ rfl hp) (hbody i _) fun e u hu => hhost u _ rfl hu

/-! ### The sequencers, primitive by primitive (47_orchestrators.md R260, R261) -/

/-- `Run.Ends.bind` with what the first part's return says. -/
theorem Run.Ends.bind_done {α β : Type} {r : Run α} {k : α → State → Run β} {P : State → Prop} (h : r.Ends P)
    (hk : ∀ a t, r = .done a t → P t → (k a t).Ends P) : (r.bind k).Ends P := by
  cases r with
  | done a t => exact hk a t rfl h
  | raised e t => exact h
  | stopped f => trivial

theorem checkAlphabet_ends {P : State → Prop} {s : State} (h : P s) : (checkAlphabet s).Ends P := by
  rcases checkAlphabet_cases s with ⟨_, e⟩ | ⟨_, e⟩ | ⟨_, _, e⟩ <;> rw [e] <;> exact h

/-- BuildTree returns with a valid tree only. -/
theorem buildTree_rootValid {s t : State} (h : buildTree s = .done () t) : t.rootValid = true := by
  unfold buildTree at h
  dsimp only at h
  split at h
  · cases h
  · obtain ⟨_, u, -, h⟩ := Run.bind_eq_done h
    obtain ⟨_, v, -, h⟩ := Run.bind_eq_done h
    obtain ⟨n, w, -, h⟩ := Run.bind_eq_done h
    cases h
    rfl

/-- COMPRESS keeps what each of its primitives keeps; GenCodes runs on the tree that BuildTree has made. -/
theorem compressBody_ends {P : State → Prop} {s : State} (h0 : P (clearReader (clearWriter (clearCount s))))
    (hrewind : ∀ t, P t → (sourceRewind t).Ends P) (hscan : ∀ t, P t → (scanFreq t).Ends P)
    (hbuild : ∀ t, P t → (buildTree t).Ends P) (hgen : ∀ t, t.rootValid = true → P t → (genCodes t).Ends P)
    (hheader : ∀ t, P t → (writeHeader t).Ends P) (hencode : ∀ n t, P t → (encodeLoop n t).Ends P)
    (hflush : ∀ t, P t → (flushBits t).Ends P) : (compressBody s).Ends P := by
  refine Run.Ends.bind (hrewind _ h0) (fun _ a ha => ?_) fun _ h => h
  refine Run.Ends.bind (hscan a ha) (fun _ b hb => ?_) fun _ h => h
  refine Run.Ends.bind (checkAlphabet_ends hb) (fun _ c hc => ?_) fun _ h => h
  refine Run.Ends.bind_done (hbuild c hc) fun _ d hdone hd => ?_
  refine Run.Ends.bind (hgen d (buildTree_rootValid hdone) hd) (fun _ e he => ?_) fun _ h => h
  refine Run.Ends.bind (hheader e he) (fun _ f hf => ?_) fun _ h => h
  refine Run.Ends.bind (hrewind f hf) (fun _ g hg => ?_) fun _ h => h
  exact Run.Ends.bind (hencode _ g hg) (fun _ => hflush) fun _ h => h

/-- DECOMPRESS keeps what each of its primitives keeps. -/
theorem decompressBody_ends {P : State → Prop} {s : State} (h0 : P (clearReader (clearCount s)))
    (hread : ∀ t, P t → (readHeader t).Ends P) (hbuild : ∀ t, P t → (buildTree t).Ends P)
    (hdecode : ∀ n t, P t → (decodeAll n t).Ends P) : (decompressBody s).Ends P := by
  refine Run.Ends.bind (hread _ h0) (fun _ a ha => ?_) fun _ h => h
  exact Run.Ends.bind (hbuild a ha) (fun _ b => hdecode _ b) fun _ h => h

end Sys2Proof.Machine
end

section
/-!
PROOFS. The streams and the bit buffers: no command goes back on what it has read or sent, and the writer and the
source's position stay sound.
-/

namespace Sys2Proof.Machine

/-! ### What a command does to the two streams (10_state.md R39, 20_memory.md R71 to R73) -/

/-- The source's bytes stay, its position stays in range, and the sink only gains bytes at its end. -/
structure StreamsAdvance (s t : State) : Prop where
  source : t.srcseq = s.srcseq
  position : SourceOk s → SourceOk t
  sink : s.snkseq <+: t.snkseq

theorem StreamsAdvance.of_eq {s t : State} (hseq : t.srcseq = s.srcseq) (hpos : t.spos = s.spos)
    (hsink : t.snkseq = s.snkseq) : StreamsAdvance s t where
  source := hseq
  position h := by rwa [SourceOk, hseq, hpos]
  sink := by rw [hsink]

theorem StreamsAdvance.refl (s : State) : StreamsAdvance s s := .of_eq rfl rfl rfl

theorem StreamsAdvance.trans {s t u : State} (h : StreamsAdvance s t) (h' : StreamsAdvance t u) :
    StreamsAdvance s u where
  source := h'.source.trans h.source
  position hs := h'.position (h.position hs)
  sink := h.sink.trans h'.sink

/-- A primitive on a state that the streams have reached carries them further. -/
theorem StreamsAdvance.then {α : Type} {s t : State} {r : Run α} (h : StreamsAdvance s t)
    (hr : r.Ends (StreamsAdvance t)) : r.Ends (StreamsAdvance s) :=
  hr.mono fun _ hu => h.trans hu

theorem TreeFrame.streams {s t : State} (h : TreeFrame s t) : StreamsAdvance s t := by
  unfold TreeFrame at h
  rw [h]
  exact .of_eq rfl rfl rfl

theorem CodesFrame.streams {s t : State} (h : CodesFrame s t) : StreamsAdvance s t := by
  unfold CodesFrame at h
  rw [h]
  exact .of_eq rfl rfl rfl

theorem sourceRead_streams (s : State) : StreamsAdvance s (sourceRead s).2 := by
  rcases sourceRead_cases s with ⟨ds, h⟩ | ⟨ds, h, _⟩ | ⟨ds, b, h, hb⟩ <;> rw [h]
  · exact .of_eq rfl rfl rfl
  · exact .of_eq rfl rfl rfl
  · exact ⟨rfl, fun _ => (List.getElem?_eq_some_iff.mp hb).1, List.prefix_rfl⟩

theorem sourceRead_streams_of_eq {s t : State} {a : ReadAnswer} (h : sourceRead s = (a, t)) : StreamsAdvance s t := by
  have ht := sourceRead_streams s
  rwa [h] at ht

theorem sourceRewind_streams (s : State) : (sourceRewind s).Ends (StreamsAdvance s) := by
  rcases sourceRewind_cases s with ⟨ds, h⟩ | ⟨ds, h⟩ <;> rw [h]
  · exact .of_eq rfl rfl rfl
  · exact ⟨rfl, fun _ => Nat.zero_le _, List.prefix_rfl⟩

theorem sinkWrite_streams (b : Byte) (s : State) : (sinkWrite b s).Ends (StreamsAdvance s) := by
  rcases sinkWrite_cases b s with ⟨ds, h⟩ | ⟨ds, h⟩ <;> rw [h]
  · exact .of_eq rfl rfl rfl
  · exact ⟨rfl, id, List.prefix_append _ _⟩

theorem scanLoop_streams (k : Nat) (s : State) : (scanLoop k s).Ends (StreamsAdvance s) := by
  induction k generalizing s with
  | zero => exact .refl s
  | succ k ih =>
    rw [scanLoop]
    split <;> rename_i hr <;> have ht := sourceRead_streams_of_eq hr
    · exact ht
    · exact ht
    · split
      · exact ht
      · exact (ht.trans (u := setFreq _ _ _) (.of_eq rfl rfl rfl)).then (ih _)

theorem scanFreq_streams (s : State) : (scanFreq s).Ends (StreamsAdvance s) :=
  (StreamsAdvance.of_eq rfl rfl rfl : StreamsAdvance s (invalidateTree (clearFreq s))).then (scanLoop_streams _ _)

theorem putBytes_streams (bs : List Byte) (s : State) : (putBytes bs s).Ends (StreamsAdvance s) := by
  induction bs generalizing s with
  | nil => exact .refl s
  | cons b bs ih => exact Run.Ends.bind (sinkWrite_streams b s) (fun _ t ht => ht.then (ih t)) fun _ h => h

theorem putPairs_streams (ps : List (Byte × BitVec 32)) (s : State) : (putPairs ps s).Ends (StreamsAdvance s) := by
  induction ps generalizing s with
  | nil => exact .refl s
  | cons p ps ih => exact Run.Ends.bind (putBytes_streams _ s) (fun _ t ht => ht.then (ih t)) fun _ h => h

theorem writeHeader_streams (s : State) : (writeHeader s).Ends (StreamsAdvance s) := by
  unfold writeHeader
  split
  · exact .refl s
  · split
    · exact .refl s
    · exact Run.Ends.bind (sinkWrite_streams _ s) (fun _ t ht => ht.then (putPairs_streams _ t)) fun _ h => h

theorem getByte_streams (s : State) : (getByte s).Ends (StreamsAdvance s) := by
  unfold getByte
  split <;> rename_i hr <;> exact sourceRead_streams_of_eq hr

theorem readPairs_streams (c : Nat) (s : State) : (readPairs c s).Ends (StreamsAdvance s) := by
  induction c generalizing s with
  | zero => exact .refl s
  | succ c ih =>
    refine Run.Ends.bind (getByte_streams s) (fun b t ht => ?_) fun _ h => h
    refine Run.Ends.bind (ht.then (getByte_streams t)) (fun f0 t ht => ?_) fun _ h => h
    refine Run.Ends.bind (ht.then (getByte_streams t)) (fun f1 t ht => ?_) fun _ h => h
    refine Run.Ends.bind (ht.then (getByte_streams t)) (fun f2 t ht => ?_) fun _ h => h
    refine Run.Ends.bind (ht.then (getByte_streams t)) (fun f3 t ht => ?_) fun _ h => h
    dsimp only
    split
    · exact ht
    · split
      · exact ht
      · exact (ht.trans (u := setFreq _ _ _) (.of_eq rfl rfl rfl)).then (ih _)

theorem readHeader_streams (s : State) : (readHeader s).Ends (StreamsAdvance s) := by
  have h0 : StreamsAdvance s (invalidateTree (clearFreq s)) := .of_eq rfl rfl rfl
  refine Run.Ends.bind (h0.then (getByte_streams _)) (fun c t ht => ?_) fun _ h => h
  split
  · exact ht
  · exact ht.then (readPairs_streams _ t)

theorem putBit_streams (b : Bool) (s : State) : (putBit b s).Ends (StreamsAdvance s) := by
  have h0 : StreamsAdvance s (clearWriter s) := .of_eq rfl rfl rfl
  unfold putBit
  dsimp only
  split
  · split
    · exact .of_eq rfl rfl rfl
    · exact h0.then (sinkWrite_streams _ _)
  · trivial

theorem flushBits_streams (s : State) : (flushBits s).Ends (StreamsAdvance s) := by
  have h0 : StreamsAdvance s (clearWriter s) := .of_eq rfl rfl rfl
  unfold flushBits
  dsimp only
  split
  · exact .refl s
  · split
    · exact h0.then (sinkWrite_streams _ _)
    · trivial

theorem putBits_streams (v : BitVec 255) (j : Nat) (s : State) : (putBits v j s).Ends (StreamsAdvance s) := by
  induction j generalizing s with
  | zero => exact .refl s
  | succ j ih => exact Run.Ends.bind (putBit_streams _ s) (fun _ t ht => ht.then (ih t)) fun _ h => h

theorem getBit_streams (s : State) : (getBit s).Ends (StreamsAdvance s) := by
  unfold getBit
  split
  · exact .of_eq rfl rfl rfl
  · split <;> rename_i hr <;> have ht := sourceRead_streams_of_eq hr
    · exact ht
    · exact ht
    · exact ht.trans (.of_eq rfl rfl rfl)

theorem decodeLoop_streams (k : Nat) (n : NodeIdx) (first : Bool) (s : State) :
    (decodeLoop k n first s).Ends (StreamsAdvance s) := by
  induction k generalizing n first s with
  | zero => exact .refl s
  | succ k ih =>
    rw [decodeLoop]
    split
    · exact .refl s
    · refine Run.Ends.bind (getBit_streams s) (fun b t ht => ?_) fun _ h => h
      split
      · split <;> exact ht
      · split
        · exact ht.then (ih _ _ t)
        · trivial
      · split
        · exact ht.then (ih _ _ t)
        · trivial

theorem decodeSym_streams (s : State) : (decodeSym s).Ends (StreamsAdvance s) := by
  unfold decodeSym
  split
  · refine Run.Ends.bind (getBit_streams s) (fun b t ht => ?_) fun _ h => h
    split <;> exact ht
  · exact decodeLoop_streams _ _ _ s

theorem encodeLoop_streams (n : Nat) (s : State) : (encodeLoop n s).Ends (StreamsAdvance s) := by
  induction n generalizing s with
  | zero => exact .refl s
  | succ n ih =>
    rw [encodeLoop]
    split <;> rename_i hr <;> have ht := sourceRead_streams_of_eq hr
    · exact ht
    · exact ht
    · split
      · exact ht
      · refine Run.Ends.bind (ht.then (putBits_streams _ _ _)) (fun _ u hu => ?_) fun _ h => h
        exact (hu.trans (u := countSymbol u) (.of_eq rfl rfl rfl)).then (ih _)

theorem decodeAll_streams (n : Nat) (s : State) : (decodeAll n s).Ends (StreamsAdvance s) := by
  induction n generalizing s with
  | zero => exact .refl s
  | succ n ih =>
    refine Run.Ends.bind (decodeSym_streams s) (fun r t ht => ?_) fun _ h => h
    split
    · exact ht
    · refine Run.Ends.bind (ht.then (sinkWrite_streams _ t)) (fun _ u hu => ?_) fun _ h => h
      exact (hu.trans (u := countSymbol u) (.of_eq rfl rfl rfl)).then (ih _)

theorem compressBody_streams (s : State) : (compressBody s).Ends (StreamsAdvance s) :=
  compressBody_ends (.of_eq rfl rfl rfl) (fun t ht => ht.then (sourceRewind_streams t))
    (fun t ht => ht.then (scanFreq_streams t)) (fun t ht => ht.then ((buildTree_frame t).mono fun _ h => h.streams))
    (fun t _ ht => ht.then ((genCodes_frame t).mono fun _ h => h.streams))
    (fun t ht => ht.then (writeHeader_streams t)) (fun n t ht => ht.then (encodeLoop_streams n t))
    fun t ht => ht.then (flushBits_streams t)

theorem decompressBody_streams (s : State) : (decompressBody s).Ends (StreamsAdvance s) :=
  decompressBody_ends (.of_eq rfl rfl rfl) (fun t ht => ht.then (readHeader_streams t))
    (fun t ht => ht.then ((buildTree_frame t).mono fun _ h => h.streams))
    fun n t ht => ht.then (decodeAll_streams n t)

/-- Every command's body carries the streams on. Those that use no port do so by their frame. -/
theorem commandBody_streams (i : Instr) (s : State) : (commandBody i s).Ends (StreamsAdvance s) := by
  have hreader : StreamsAdvance s (clearReader s) := .of_eq rfl rfl rfl
  cases i with
  | nop | freqClear | freqSet | freqGet | heapClear | codeGet | bwClear | brClear => exact .of_eq rfl rfl rfl
  | reset => exact .of_eq rfl rfl rfl
  | freqScan => exact hreader.then (scanFreq_streams _)
  | srcRewind => exact hreader.then (sourceRewind_streams _)
  | heapInsert | heapExtract | heapMerge | heapGet | nodeGet | buildTree | genCodes =>
    refine (commandBody_frame _ s).mono fun t ht => ?_
    rw [CommandFrame] at ht
    rw [ht]
    exact .of_eq rfl rfl rfl
  | hdrWrite => exact writeHeader_streams s
  | hdrRead => exact hreader.then (readHeader_streams _)
  | bwBit b => exact putBit_streams b s
  | bwFlush => exact flushBits_streams s
  | bwSym sym =>
    rw [commandBody]
    split
    · exact .refl s
    · split
      · exact .refl s
      · exact Run.Ends.bind (putBits_streams _ _ s) (fun _ t ht => ht.trans (.of_eq rfl rfl rfl)) fun _ h => h
  | brBit =>
    refine Run.Ends.bind (getBit_streams s) (fun b t ht => ?_) fun _ h => h
    cases b <;> exact ht.trans (.of_eq rfl rfl rfl)
  | brSym =>
    rw [commandBody]
    split
    · exact .refl s
    · refine Run.Ends.bind (decodeSym_streams s) (fun r t ht => ?_) fun _ h => h
      cases r <;> exact ht.trans (.of_eq rfl rfl rfl)
  | compress => exact compressBody_streams s
  | decompress => exact decompressBody_streams s

/-- No body but RESET's changes ARG, and none changes the host's lists. -/
theorem CommandFrame.host {i : Instr} {s t : State} (h : CommandFrame i s t) :
    t.pending = s.pending ∧ t.answers = s.answers ∧ (i ≠ .reset → t.arg = s.arg) := by
  cases i with
  | reset => rw [CommandFrame] at h; rw [h]; exact ⟨rfl, rfl, fun hi => absurd rfl hi⟩
  | _ => rw [CommandFrame] at h; rw [h]; exact ⟨rfl, rfl, fun _ => rfl⟩

/-- Settles O14: the streams by `commandBody_streams`, ARG and the host's lists by the command's frame. -/
theorem commandsOnlyAppendToTheSink : Obligations.CommandsOnlyAppendToTheSink := by
  intro i s t h
  have key : ∀ u, StreamsAdvance (clearFlags s) u → CommandFrame i (clearFlags s) u →
      u.srcseq = s.srcseq ∧ u.pending = s.pending ∧ u.answers = s.answers ∧
        (∃ bs, u.snkseq = s.snkseq ++ bs) ∧ (i ≠ .reset → u.arg = s.arg) := by
    intro u hu hf
    obtain ⟨hpending, hanswers, harg⟩ := hf.host
    obtain ⟨bs, hbs⟩ := hu.sink
    exact ⟨hu.source, hpending, hanswers, ⟨bs, hbs.symm⟩, harg⟩
  rcases exec_cases h with ⟨rfl, rfl⟩ | ⟨-, -, rfl⟩ | ⟨-, -, hd⟩ | ⟨e, u, -, -, hr, rfl⟩
  · exact ⟨rfl, rfl, rfl, ⟨[], (List.append_nil _).symm⟩, fun hi => absurd rfl hi⟩
  · exact ⟨rfl, rfl, rfl, ⟨[], (List.append_nil _).symm⟩, fun _ => rfl⟩
  · exact key t ((commandBody_streams i _).of_done hd) ((commandBody_frame i _).of_done hd)
  · exact key u ((commandBody_streams i _).of_raised hr) ((commandBody_frame i _).of_raised hr)

/-! ### The buffers stay sound (10_state.md R35, R39) -/

theorem flushBits_writerOk {s : State} (hw : WriterOk s) : (flushBits s).Ends WriterOk := by
  unfold flushBits
  split
  · exact hw
  · dsimp only
    split
    · exact (sinkWrite_frame _ _).mono fun t ht => ht.writerOk (clearWriter_writerOk s)
    · trivial

theorem compressBody_writerOk (s : State) : (compressBody s).Ends WriterOk :=
  compressBody_ends (clearWriter_writerOk s) (fun t ht => (sourceRewind_frame t).mono fun _ h => h.writerOk ht)
    (fun t ht => (scanFreq_frame t).mono fun _ h => h.writerOk ht)
    (fun t ht => (buildTree_frame t).mono fun _ h => h.writerOk ht)
    (fun t _ ht => (genCodes_frame t).mono fun _ h => h.writerOk ht)
    (fun t ht => (writeHeader_frame t).mono fun _ h => h.writerOk ht) (fun n _ ht => encodeLoop_writerOk ht n)
    fun _ => flushBits_writerOk

/-- The four commands that write through the bit writer keep it sound; the others leave it alone or clear it. -/
theorem commandBody_writerOk (i : Instr) {s : State} (hw : WriterOk s) : (commandBody i s).Ends WriterOk := by
  cases i with
  | reset => exact Nat.one_pos
  | bwClear => exact clearWriter_writerOk s
  | bwBit b => exact putBit_writerOk hw b
  | bwFlush => exact flushBits_writerOk hw
  | bwSym sym =>
    rw [commandBody]
    split
    · exact hw
    · split
      · exact hw
      · exact Run.Ends.bind (putCode_writerOk hw sym) (fun _ t ht => ht) fun _ h => h
  | compress => exact compressBody_writerOk s
  | _ =>
    refine (commandBody_frame _ s).mono fun t ht => ?_
    rw [CommandFrame] at ht
    rw [ht]
    exact hw

/-- Settles O53: WCNT and WACC change in the bit writer alone, and SPOS through the ports and the host's placing. -/
theorem everyStepKeepsTheBuffersSound : Obligations.EveryStepKeepsTheBuffersSound := by
  intro s t hw hs h
  refine ⟨step_keeps h hw (fun _ => Nat.one_pos) (fun u v huv hu => ?_) fun i u => commandBody_writerOk i, ?_⟩
  · unfold HostFrame at huv
    rw [huv]
    exact hu
  · rcases step_cases h with ⟨-, hpos⟩ | ⟨i, rest, hi⟩
    · exact hpos hs
    · exact exec_keeps hi hs hs hs (fun hu => (commandBody_streams i _).mono fun v hv => hv.position hu)
        fun _ _ hu => hu

end Sys2Proof.Machine
end

section
/-!
PROOFS. The heap: `Less` is a strict total order, the sifts restore the heap property, and every step keeps the queue's
invariants (10_state.md R37 (a) to (c), 42_heap.md R154).
-/

namespace Sys2Proof.Machine

/-! ### `Less` (42_heap.md R150) -/

theorem less_iff {s : State} {a b : NodeIdx} :
    less s a b = true ↔ s.node[a].freq.toNat < s.node[b].freq.toNat ∨
      s.node[a].freq.toNat = s.node[b].freq.toNat ∧ a.val < b.val := by
  simp only [less, Bool.or_eq_true, Bool.and_eq_true, decide_eq_true_eq, beq_iff_eq, BitVec.lt_def, Fin.lt_def,
    BitVec.toNat_eq]

theorem less_eq_false_iff {s : State} {a b : NodeIdx} :
    less s a b = false ↔ s.node[b].freq.toNat < s.node[a].freq.toNat ∨
      s.node[b].freq.toNat = s.node[a].freq.toNat ∧ b.val ≤ a.val := by
  rw [← Bool.not_eq_true, less_iff]
  omega

/-- `Less` reads the frequencies of its two nodes and their indices alone. -/
theorem less_congr {s t : State} {a b : NodeIdx} (ha : t.node[a] = s.node[a]) (hb : t.node[b] = s.node[b]) :
    less t a b = less s a b := by
  simp only [less, ha, hb]

theorem less_irrefl (s : State) (a : NodeIdx) : less s a a = false := by
  rw [less_eq_false_iff]
  omega

theorem less_asymm {s : State} {a b : NodeIdx} (h : less s a b = true) : less s b a = false := by
  rw [less_iff] at h
  rw [less_eq_false_iff]
  omega

/-- "Not less" is transitive: with `b` not less than `a` and `c` not less than `b`, `c` is not less than `a`. -/
theorem less_false_trans {s : State} {a b c : NodeIdx} (hba : less s b a = false) (hcb : less s c b = false) :
    less s c a = false := by
  rw [less_eq_false_iff] at hba hcb ⊢
  omega

theorem less_of_ne {s : State} {a b : NodeIdx} (hne : a ≠ b) (h : less s b a = false) : less s a b = true := by
  have hval := Fin.val_ne_of_ne hne
  rw [less_eq_false_iff] at h
  rw [less_iff]
  omega

/-! ### The sifts restore the heap property (42_heap.md R152, R153, R155) -/

theorem heapSwap_getElem (i j k : NodeIdx) (s : State) :
    (heapSwap i j s).heap[k] = if k = j then s.heap[i] else if k = i then s.heap[j] else s.heap[k] := by
  simp only [heapSwap_heap, Fin.getElem_fin, Vector.getElem_set, Fin.ext_iff, eq_comm (a := k.val)]

theorem parentPos_lt {i : NodeIdx} (h : 0 < i.val) : parentPos i < i := by
  simp only [parentPos, Fin.lt_def]
  omega

theorem parentPos_eq_iff {i j : NodeIdx} (h : 0 < j.val) :
    parentPos j = i ↔ j.val = 2 * i.val + 1 ∨ j.val = 2 * i.val + 2 := by
  simp only [parentPos, Fin.ext_iff]
  omega

/-- The heap property holds but for position `i`, whose node may be less than its parent's; the nodes below `i` are
not less than that parent. -/
structure OrderedButAt (s : State) (i : NodeIdx) : Prop where
  other : ∀ j : NodeIdx, 0 < j.val → j.val < s.heapn.val → j ≠ i → less s s.heap[j] s.heap[parentPos j] = false
  below : ∀ j : NodeIdx, 0 < j.val → j.val < s.heapn.val → parentPos j = i → 0 < i.val →
    less s s.heap[j] s.heap[parentPos i] = false

theorem OrderedButAt.heapOrdered {s : State} {i : NodeIdx} (h : OrderedButAt s i)
    (hi : 0 < i.val → less s s.heap[i] s.heap[parentPos i] = false) : HeapOrdered s := by
  intro j h0 hj
  by_cases hij : j = i
  · subst hij
    exact hi h0
  · exact h.other j h0 hj hij

/-- A swap with the parent moves the place that may be out of order up to it. -/
theorem OrderedButAt.swap {s : State} {i : NodeIdx} (h : OrderedButAt s i) (h0 : 0 < i.val)
    (hi : i.val < s.heapn.val) (hless : less s s.heap[i] s.heap[parentPos i] = true) :
    OrderedButAt (heapSwap i (parentPos i) s) (parentPos i) := by
  have hp := parentPos_lt h0
  have hup : less s s.heap[parentPos i] s.heap[i] = false := less_asymm hless
  constructor
  · intro j hj0 hj hjp
    show less s _ _ = false
    rw [heapSwap_getElem, heapSwap_getElem, if_neg hjp]
    by_cases hji : j = i
    · subst hji
      rwa [if_pos rfl, if_pos rfl]
    · have hold := h.other j hj0 hj hji
      rw [if_neg hji]
      split
      · rename_i hq
        simp only [hq] at hold
        exact less_false_trans hup hold
      · split
        · exact h.below j hj0 hj ‹_› h0
        · exact hold
  · intro j hj0 hj hjp hp0
    show less s _ _ = false
    have hpp := parentPos_lt hp0
    have hjne : j ≠ parentPos i := fun e => absurd (parentPos_lt hj0) (by rw [hjp, e]; exact lt_irrefl _)
    have hroot := h.other (parentPos i) hp0 (lt_trans (Fin.lt_def.mp hp) hi) (ne_of_lt hp)
    rw [heapSwap_getElem, heapSwap_getElem, if_neg hjne, if_neg (ne_of_lt hpp), if_neg (ne_of_lt (hpp.trans hp))]
    split
    · exact hroot
    · rename_i hji
      exact less_false_trans hroot (hjp ▸ h.other j hj0 hj hji)

theorem siftUp_ordered {k : Nat} {i : NodeIdx} {s : State} (hi : i.val < s.heapn.val) (hk : i.val ≤ k)
    (h : OrderedButAt s i) : HeapOrdered (siftUp k i s) := by
  induction k generalizing i s with
  | zero => exact h.heapOrdered fun h0 => by omega
  | succ k ih =>
    rw [siftUp_step]
    split
    · exact h.heapOrdered fun h0 => by omega
    · have hp : (parentPos i).val < i.val := parentPos_lt (by omega)
      split
      · exact ih (lt_trans hp hi) (by omega) (h.swap (by omega) hi ‹_›)
      · exact h.heapOrdered fun _ => eq_false_of_ne_true ‹_›

theorem smallerPos_least (s : State) (c : Nat) (m : NodeIdx) :
    less s s.heap[m] s.heap[smallerPos s c m] = false ∧
      ∀ j : NodeIdx, j.val = c → c < s.heapn.val → less s s.heap[j] s.heap[smallerPos s c m] = false := by
  unfold smallerPos
  split
  · split
    · refine ⟨less_asymm ‹_›, fun j hj _ => ?_⟩
      subst hj
      exact less_irrefl _ _
    · refine ⟨less_irrefl _ _, fun j hj _ => ?_⟩
      subst hj
      exact eq_false_of_ne_true ‹_›
  · exact ⟨less_irrefl _ _, fun j _ hc => absurd hc ‹_›⟩

/-- Neither position `i` nor a child of it in the heap is less than the position the sift moves to. -/
theorem leastPos_least (s : State) (i : NodeIdx) :
    less s s.heap[i] s.heap[leastPos s i] = false ∧
      ∀ j : NodeIdx, 0 < j.val → j.val < s.heapn.val → parentPos j = i →
        less s s.heap[j] s.heap[leastPos s i] = false := by
  obtain ⟨hself, hleft⟩ := smallerPos_least s (2 * i.val + 1) i
  obtain ⟨hfirst, hright⟩ := smallerPos_least s (2 * i.val + 2) (smallerPos s (2 * i.val + 1) i)
  refine ⟨less_false_trans hfirst hself, fun j h0 hj hp => ?_⟩
  rcases (parentPos_eq_iff h0).mp hp with hc | hc
  · exact less_false_trans hfirst (hleft j hc (hc ▸ hj))
  · exact hright j hc (hc ▸ hj)

/-- The heap property holds but for the children of position `i`, which may be less than its node; they are not less
than the node above `i`. -/
structure OrderedButBelow (s : State) (i : NodeIdx) : Prop where
  other : ∀ j : NodeIdx, 0 < j.val → j.val < s.heapn.val → parentPos j ≠ i →
    less s s.heap[j] s.heap[parentPos j] = false
  below : ∀ j : NodeIdx, 0 < j.val → j.val < s.heapn.val → parentPos j = i → 0 < i.val →
    less s s.heap[j] s.heap[parentPos i] = false

theorem OrderedButBelow.heapOrdered {s : State} {i : NodeIdx} (h : OrderedButBelow s i)
    (hi : ∀ j : NodeIdx, 0 < j.val → j.val < s.heapn.val → parentPos j = i → less s s.heap[j] s.heap[i] = false) :
    HeapOrdered s := by
  intro j h0 hj
  by_cases hp : parentPos j = i
  · exact hp ▸ hi j h0 hj hp
  · exact h.other j h0 hj hp

/-- A swap with the least child moves the place that may be out of order down to it. -/
theorem OrderedButBelow.swap {s : State} {i m : NodeIdx} (h : OrderedButBelow s i) (hm0 : 0 < m.val)
    (hm : m.val < s.heapn.val) (hpm : parentPos m = i) (hself : less s s.heap[i] s.heap[m] = false)
    (hleast : ∀ j : NodeIdx, 0 < j.val → j.val < s.heapn.val → parentPos j = i → less s s.heap[j] s.heap[m] = false) :
    OrderedButBelow (heapSwap i m s) m := by
  have him : i < m := hpm ▸ parentPos_lt hm0
  constructor
  · intro j hj0 hj hpj
    show less s _ _ = false
    rw [heapSwap_getElem, heapSwap_getElem, if_neg hpj]
    by_cases hjm : j = m
    · subst hjm
      rwa [if_pos rfl, if_pos hpm]
    · rw [if_neg hjm]
      by_cases hji : j = i
      · subst hji
        rw [if_pos rfl, if_neg (ne_of_lt (parentPos_lt hj0))]
        exact h.below m hm0 hm hpm hj0
      · rw [if_neg hji]
        split
        · exact hleast j hj0 hj ‹_›
        · exact h.other j hj0 hj ‹_›
  · intro j hj0 hj hpj _
    show less s _ _ = false
    have hmj : m < j := hpj ▸ parentPos_lt hj0
    rw [heapSwap_getElem, heapSwap_getElem, hpm, if_neg (ne_of_gt hmj), if_neg (ne_of_gt (him.trans hmj)),
      if_neg (ne_of_lt him), if_pos rfl]
    exact hpj ▸ h.other j hj0 hj (hpj ▸ ne_of_gt him)

theorem siftDown_ordered {k : Nat} {i : NodeIdx} {s : State} (hk : s.heapn.val ≤ k + i.val)
    (h : OrderedButBelow s i) : HeapOrdered (siftDown k i s) := by
  induction k generalizing i s with
  | zero =>
    refine h.heapOrdered fun j h0 hj hp => ?_
    have hij : i.val < j.val := hp ▸ parentPos_lt h0
    omega
  | succ k ih =>
    obtain ⟨hself, hleast⟩ := leastPos_least s i
    rw [siftDown_step]
    split
    · rename_i hm
      simp only [hm] at hleast
      exact h.heapOrdered hleast
    · rcases leastPos_eq s i with hm | ⟨hchild, hlt⟩
      · contradiction
      · have hm0 : 0 < (leastPos s i).val := by omega
        exact ih (by simp only [heapSwap_heapn]; omega)
          (h.swap hm0 hlt ((parentPos_eq_iff hm0).mpr hchild) hself hleast)

theorem heapInsert_ordered {n : NodeIdx} {s t : State} (hs : HeapOrdered s) (h : heapInsert n s = .done () t) :
    HeapOrdered t := by
  unfold heapInsert at h
  split at h
  · rename_i hlt
    cases h
    refine siftUp_ordered (by simp) le_rfl ⟨fun j h0 hj hne => ?_, fun j h0 hj hp _ => ?_⟩
    · have hj' : j.val < s.heapn.val := by
        simp only [ne_eq, Fin.ext_iff] at hj hne
        omega
      have hp : (parentPos j).val < j.val := parentPos_lt h0
      have hold := hs j h0 hj'
      show less s _ _ = false
      simp only [Fin.getElem_fin]
      rwa [Vector.getElem_set_ne _ _ (by omega), Vector.getElem_set_ne _ _ (by omega)]
    · have := hp ▸ parentPos_lt h0
      simp only [Fin.lt_def] at hj this
      omega
  · cases h

theorem heapExtract_ordered {n : NodeIdx} {s t : State} (hs : HeapOrdered s) (h : heapExtract s = .done n t) :
    HeapOrdered t := by
  unfold heapExtract at h
  split at h
  · cases h
  · cases h
    refine siftDown_ordered le_rfl ⟨fun j h0 hj hp => ?_, fun j _ _ _ hi => absurd hi (lt_irrefl _)⟩
    have hpj : (parentPos j).val < j.val := parentPos_lt h0
    simp only at hj
    show less s (heapSwap _ _ s).heap[j] (heapSwap _ _ s).heap[parentPos j] = false
    rw [heapSwap_getElem, heapSwap_getElem, if_neg (by simp only [Fin.ext_iff]; omega),
      if_neg (by simp only [Fin.ext_iff, Fin.val_zero]; omega), if_neg (by simp only [Fin.ext_iff]; omega), if_neg hp]
    exact hs j h0 (by omega)

/-- No queued node is less than the one at the root of the heap (42_heap.md R155). -/
theorem HeapOrdered.root_least {s : State} (hs : HeapOrdered s) {i : NodeIdx} (hi : i.val < s.heapn.val) :
    less s s.heap[i] s.heap[0] = false := by
  induction i using WellFoundedLT.induction with
  | _ i ih =>
    rcases Nat.eq_zero_or_pos i.val with h0 | h0
    · rw [show i = 0 from Fin.ext h0]
      exact less_irrefl _ _
    · have hp := parentPos_lt h0
      exact less_false_trans (ih _ hp (lt_trans (Fin.lt_def.mp hp) hi)) (hs i h0 hi)

/-- `HeapExtract` takes the least queued node. -/
theorem heapExtract_least {n m : NodeIdx} {s t : State} (hs : HeapOrdered s) (h : heapExtract s = .done n t)
    (hm : m ∈ queue s) : less s m n = false := by
  obtain ⟨i, hi, rfl⟩ := mem_queue.mp hm
  rw [(heapExtract_queue h).1]
  exact hs.root_least hi

/-- A record written into a free slot is none of the queued ones. -/
theorem newNode_ordered {n : NodeIdx} {d : Node} {s t : State} (hs : HeapOrdered s)
    (hb : ∀ m ∈ queue s, m.val < s.nnodes.val) (h : newNode d s = .done n t) : HeapOrdered t := by
  obtain ⟨hslot, -, hheapn, hheap, hnode⟩ := newNode_done h
  have hkeep : ∀ i : NodeIdx, i.val < s.heapn.val → t.node[s.heap[i]] = s.node[s.heap[i]] := fun i hi => by
    have hlt := hb s.heap[i] (mem_queue.mpr ⟨i, hi, rfl⟩)
    simp only [hnode, Fin.getElem_fin] at hlt ⊢
    exact Vector.getElem_set_ne _ _ (by omega)
  intro i h0 hi
  rw [hheapn] at hi
  rw [hheap]
  rw [less_congr (hkeep i hi) (hkeep _ (lt_trans (Fin.lt_def.mp (parentPos_lt h0)) hi))]
  exact hs i h0 hi

/-! ### Invariants of the queue, operation by operation (10_state.md R37) -/

/-- The two states hold the same nodes and the same queue. -/
structure SameQueue (s t : State) : Prop where
  node : t.node = s.node
  nnodes : t.nnodes = s.nnodes
  heap : t.heap = s.heap
  heapn : t.heapn = s.heapn

theorem SameQueue.queue_eq {s t : State} (h : SameQueue s t) : queue t = queue s := queue_congr h.heap h.heapn

theorem HeaderFrame.sameQueue {s t : State} (h : HeaderFrame s t) : SameQueue s t := by
  unfold HeaderFrame at h
  rw [h]
  exact ⟨rfl, rfl, rfl, rfl⟩

theorem CodesFrame.sameQueue {s t : State} (h : CodesFrame s t) : SameQueue s t := by
  unfold CodesFrame at h
  rw [h]
  exact ⟨rfl, rfl, rfl, rfl⟩

theorem EncodeFrame.sameQueue {s t : State} (h : EncodeFrame s t) : SameQueue s t := by
  unfold EncodeFrame at h
  rw [h]
  exact ⟨rfl, rfl, rfl, rfl⟩

theorem DecodeFrame.sameQueue {s t : State} (h : DecodeFrame s t) : SameQueue s t := by
  unfold DecodeFrame at h
  rw [h]
  exact ⟨rfl, rfl, rfl, rfl⟩

theorem HostFrame.sameQueue {s t : State} (h : HostFrame s t) : SameQueue s t := by
  unfold HostFrame at h
  rw [h]
  exact ⟨rfl, rfl, rfl, rfl⟩

/-- Where both memories have room, a new node is made and queued. -/
theorem newNode_heapInsert_done {s : State} (d : Node) (hn : s.nnodes.val < 511) (hh : s.heapn.val < 511) :
    ∃ n u t, newNode d s = .done n u ∧ heapInsert n u = .done () t := by
  rcases newNode_cases d s with ⟨_, hnew⟩ | ⟨hfull, -⟩
  · obtain ⟨-, -, hheapn, -, -⟩ := newNode_done hnew
    rcases heapInsert_cases ⟨s.nnodes.val, hn⟩ _ with ⟨_, hp, hins⟩ | ⟨hfull, -⟩
    · exact ⟨_, _, _, hnew, hins⟩
    · rw [hheapn] at hfull
      omega
  · omega

/-- The four parts of a merge that returns (42_heap.md R154). -/
theorem mergeTwo_parts {s t : State} {n : NodeIdx} (h : mergeTwo s = .done n t) :
    ∃ a b u v w, heapExtract s = .done a u ∧ heapExtract u = .done b v ∧ mergeNode a b v = .done n w ∧
      heapInsert n w = .done () t := by
  unfold mergeTwo at h
  obtain ⟨a, u, ha, h⟩ := Run.bind_eq_done h
  obtain ⟨b, v, hb, h⟩ := Run.bind_eq_done h
  obtain ⟨m, w, hw, h⟩ := Run.bind_eq_done h
  obtain ⟨_, x, hx, h⟩ := Run.bind_eq_done h
  cases h
  exact ⟨a, b, u, v, w, ha, hb, hw, hx⟩

theorem mergeNode_raised {s t : State} {a b : NodeIdx} {e : ErrKind} (h : mergeNode a b s = .raised e t) :
    s.nnodes.val = 511 ∧ t = s := by
  unfold mergeNode at h
  dsimp only at h
  split at h
  · rcases newNode_cases (innerNode _ a b) s with ⟨_, he⟩ | ⟨hfull, he⟩ <;> rw [he] at h <;> cases h
    exact ⟨hfull, rfl⟩
  · cases h

/-- A merge raises only where node memory is full, once both nodes are extracted. -/
theorem mergeTwo_raised {s t : State} {e : ErrKind} (h : mergeTwo s = .raised e t) :
    s.nnodes.val = 511 ∧ ∃ a b u, heapExtract s = .done a u ∧ heapExtract u = .done b t := by
  unfold mergeTwo at h
  rcases Run.bind_eq_raised h with h | ⟨a, u, ha, h⟩
  · exact absurd h (heapExtract_ne_raised _ _ _)
  rcases Run.bind_eq_raised h with h | ⟨b, v, hb, h⟩
  · exact absurd h (heapExtract_ne_raised _ _ _)
  obtain ⟨-, hnn, -⟩ := heapExtract_twice ha hb
  rcases Run.bind_eq_raised h with h | ⟨n, w, hw, h⟩
  · obtain ⟨hfull, rfl⟩ := mergeNode_raised h
    exact ⟨hnn ▸ hfull, a, b, u, ha, hb⟩
  rcases Run.bind_eq_raised h with h | ⟨_, x, hx, h⟩
  · obtain ⟨hcount, -, -⟩ := heapExtract_done hb
    obtain ⟨-, -, hheapn, -, -⟩ := newNode_done (mergeNode_done hw).2
    rcases heapInsert_cases n w with ⟨_, hp, he⟩ | ⟨hfull, -⟩
    · rw [he] at h
      cases h
    · rw [hheapn] at hfull
      have hmax := u.heapn.isLt
      omega
  · cases h

/-- `P` speaks of nodes and queue alone, implies a sound queue, and is kept by each operation on them: the clearing of
the queue, a queued leaf, an extraction and a merge that return. -/
structure QueueInvariant (P : State → Prop) : Prop where
  congr : ∀ {s t : State}, SameQueue s t → P s → P t
  queueOk : ∀ {s : State}, P s → QueueOk s
  clear : ∀ s : State, P (clearHeap s)
  leaf : ∀ {s u t : State} {n : NodeIdx} {b : Byte} {f : BitVec 32}, P s →
    newNode (leafNode b (zext 40 f)) s = .done n u → heapInsert n u = .done () t → P t
  extract : ∀ {s t : State} {n : NodeIdx}, P s → heapExtract s = .done n t → P t
  merge : ∀ {s t : State} {n : NodeIdx}, P s → mergeTwo s = .done n t → P t

section
variable {P : State → Prop} (hP : QueueInvariant P)
include hP

theorem QueueInvariant.of_eq {s t : State} (hs : P s) (hnode : t.node = s.node) (hnnodes : t.nnodes = s.nnodes)
    (hheap : t.heap = s.heap) (hheapn : t.heapn = s.heapn) : P t :=
  hP.congr ⟨hnode, hnnodes, hheap, hheapn⟩ hs

/-- A leaf is queued, or node memory is full and nothing changes: with a sound queue the heap has room wherever node
memory has. -/
theorem QueueInvariant.leaf_ends {s : State} (hs : P s) (b : Byte) (f : BitVec 32) {k : NodeIdx → State → Run Unit}
    (hk : ∀ n t, P t → (k n t).Ends P) :
    ((newNode (leafNode b (zext 40 f)) s).bind fun n u => (heapInsert n u).bind fun _ t => k n t).Ends P := by
  obtain ⟨hle, -, -⟩ := hP.queueOk hs
  rcases newNode_cases (leafNode b (zext 40 f)) s with ⟨hn, -⟩ | ⟨-, he⟩
  · obtain ⟨n, u, t, hnew, hins⟩ := newNode_heapInsert_done (leafNode b (zext 40 f)) hn (by omega)
    rw [hnew, Run.bind_done, hins]
    exact hk n t (hP.leaf hs hnew hins)
  · rw [he]
    exact hs

theorem QueueInvariant.mergeTwo_ends {s : State} (hs : P s) : (mergeTwo s).Ends P := by
  cases h : mergeTwo s with
  | done n t => exact hP.merge hs h
  | stopped f => trivial
  | raised e t =>
    obtain ⟨-, a, b, u, ha, hb⟩ := mergeTwo_raised h
    exact hP.extract (hP.extract hs ha) hb

theorem QueueInvariant.insertLeaves_ends {s : State} (hs : P s) (ps : List (Byte × BitVec 32)) :
    (insertLeaves ps s).Ends P := by
  induction ps generalizing s with
  | nil => exact hs
  | cons p ps ih => exact hP.leaf_ends hs p.1 p.2 fun _ _ ht => ih ht

theorem QueueInvariant.mergeLoop_ends {s : State} (hs : P s) (k : Nat) : (mergeLoop k s).Ends P := by
  induction k generalizing s with
  | zero => exact hs
  | succ k ih =>
    rw [mergeLoop_step]
    split
    · exact Run.Ends.bind (hP.mergeTwo_ends hs) (fun _ _ ht => ih ht) fun _ h => h
    · exact hs

theorem QueueInvariant.heapExtract_ends {s : State} (hs : P s) : (heapExtract s).Ends P := by
  cases h : heapExtract s with
  | done n t => exact hP.extract hs h
  | raised e t => exact absurd h (heapExtract_ne_raised _ _ _)
  | stopped f => trivial

theorem QueueInvariant.buildTree_ends (s : State) : (buildTree s).Ends P := by
  unfold buildTree
  dsimp only
  split
  · exact hP.clear _
  · refine Run.Ends.bind (hP.insertLeaves_ends (hP.clear _) _) (fun _ t ht => ?_) fun _ h => h
    refine Run.Ends.bind (hP.mergeLoop_ends ht _) (fun _ u hu => ?_) fun _ h => h
    exact Run.Ends.bind (hP.heapExtract_ends hu) (fun n v hv => hP.of_eq hv rfl rfl rfl rfl) fun _ h => h

theorem QueueInvariant.compressBody_ends {s : State} (hs : P s) : (compressBody s).Ends P :=
  Machine.compressBody_ends (hP.of_eq hs rfl rfl rfl rfl)
    (fun t ht => (sourceRewind_frame t).mono fun _ h => hP.congr h.toEncodeFrame.sameQueue ht)
    (fun t ht => (scanFreq_frame t).mono fun _ h => hP.congr h.sameQueue ht) (fun t _ => hP.buildTree_ends t)
    (fun t _ ht => (genCodes_frame t).mono fun _ h => hP.congr h.sameQueue ht)
    (fun t ht => (writeHeader_frame t).mono fun _ h => hP.congr h.toDecodeFrame.sameQueue ht)
    (fun n t ht => (encodeLoop_frame n t).mono fun _ h => hP.congr h.sameQueue ht)
    fun t ht => (flushBits_frame t).mono fun _ h => hP.congr h.toEncodeFrame.sameQueue ht

theorem QueueInvariant.decompressBody_ends {s : State} (hs : P s) : (decompressBody s).Ends P :=
  Machine.decompressBody_ends (hP.of_eq hs rfl rfl rfl rfl)
    (fun t ht => (readHeader_frame t).mono fun _ h => hP.congr h.sameQueue ht) (fun t _ => hP.buildTree_ends t)
    fun n t ht => (decodeAll_frame n t).mono fun _ h => hP.congr h.sameQueue ht

/-- Every command's body keeps an invariant of the queue. Those outside the heap's and the tree builder's families
leave nodes and queue alone by their frame. -/
theorem QueueInvariant.commandBody_ends (i : Instr) {s : State} (hs : P s) : (commandBody i s).Ends P := by
  have hvalid : P (invalidateTree s) := hP.of_eq hs rfl rfl rfl rfl
  have hlast : ∀ (n : NodeIdx) (t : State), P t → P (nodeRecord n t) := fun _ _ ht => hP.of_eq ht rfl rfl rfl rfl
  cases i with
  | reset => exact hP.of_eq (hP.clear State.reset) rfl rfl rfl rfl
  | heapClear => exact hP.clear _
  | heapInsert sym => exact hP.leaf_ends hvalid sym s.arg fun n t => hlast n t
  | heapExtract =>
    rw [commandBody]
    split
    · exact hP.of_eq hs rfl rfl rfl rfl
    · exact Run.Ends.bind (hP.heapExtract_ends hvalid) hlast fun _ h => h
  | heapMerge =>
    rw [commandBody]
    split
    · exact hP.of_eq hs rfl rfl rfl rfl
    · split
      · exact hvalid
      · exact Run.Ends.bind (hP.mergeTwo_ends hvalid) hlast fun _ h => h
  | buildTree => exact hP.buildTree_ends s
  | compress => exact hP.compressBody_ends hs
  | decompress => exact hP.decompressBody_ends hs
  | _ =>
    refine (commandBody_frame _ s).mono fun t ht => ?_
    rw [CommandFrame] at ht
    rw [ht]
    exact hP.of_eq hs rfl rfl rfl rfl

theorem QueueInvariant.step {s t : State} (hs : P s) (h : step s = .next t) : P t :=
  step_keeps h hs (fun _ => hP.of_eq (hP.clear State.reset) rfl rfl rfl rfl)
    (fun _ _ huv => hP.congr huv.sameQueue) fun i _ => hP.commandBody_ends i

end

/-! ### A sound queue (10_state.md R37a, R37b) -/

theorem QueueOk.nodup {s : State} (h : QueueOk s) : (queue s).Nodup := h.2.1

theorem QueueOk.below {s : State} (h : QueueOk s) : ∀ m ∈ queue s, m.val < s.nnodes.val := h.2.2

theorem clearHeap_queueOk (s : State) : QueueOk (clearHeap s) :=
  ⟨le_rfl, by simp [queue], by simp [queue]⟩

theorem QueueOk.congr {s t : State} (h : SameQueue s t) (hs : QueueOk s) : QueueOk t := by
  unfold QueueOk
  rw [h.queue_eq, h.heapn, h.nnodes]
  exact hs

/-- A new node queued in the place of the taken ones keeps the queue sound. -/
theorem Requeued.queueOk {s t : State} {taken : List NodeIdx} {n : NodeIdx} {d : Node} (h : Requeued s t taken n d)
    (hs : QueueOk s) : QueueOk t := by
  obtain ⟨hle, hnodup, hbelow⟩ := hs
  obtain ⟨rest, hqs, hqt, -, hrest⟩ := h.exchange hbelow
  have hlens := hqs.length_eq
  have hlent := hqt.length_eq
  simp only [queue_length, List.length_append, List.length_cons] at hlens hlent
  refine ⟨by rw [h.count]; omega, hqt.nodup_iff.mpr (List.nodup_cons.mpr ⟨fun hn => (hrest n hn).2 rfl, ?_⟩),
    fun m hm => ?_⟩
  · exact (hqs.nodup_iff.mp hnodup).of_append_right
  · rw [h.count]
    rcases List.mem_cons.mp (hqt.mem_iff.mp hm) with rfl | hm
    · rw [h.slot]
      exact Nat.lt_succ_self _
    · exact Nat.lt_succ_of_lt (hbelow m (hrest m hm).1)

theorem heapExtract_queueOk {s t : State} {n : NodeIdx} (hs : QueueOk s) (h : heapExtract s = .done n t) :
    QueueOk t := by
  obtain ⟨hle, hnodup, hbelow⟩ := hs
  obtain ⟨hcount, hnn, -⟩ := heapExtract_done h
  obtain ⟨-, hqueue, -⟩ := heapExtract_queue h
  refine ⟨by rw [hnn]; omega, (List.nodup_cons.mp (hqueue.nodup_iff.mp hnodup)).2, fun m hm => ?_⟩
  rw [hnn]
  exact hbelow m (hqueue.mem_iff.mpr (List.mem_cons_of_mem n hm))

theorem queueOk_invariant : QueueInvariant QueueOk where
  congr := .congr
  queueOk := id
  clear := clearHeap_queueOk
  leaf hs hnew hins := (heapInsert_requeued hnew hins).queueOk hs
  extract := heapExtract_queueOk
  merge hs h := by
    obtain ⟨a, b, -, hr⟩ := mergeTwo_requeued h
    exact hr.queueOk hs

/-- Settles O54: a sound queue is kept by each operation on it, so by every command and every step. -/
theorem everyStepKeepsTheQueueSound : Obligations.EveryStepKeepsTheQueueSound :=
  fun _ _ => queueOk_invariant.step

/-! ### The heap property (10_state.md R37c) -/

theorem HeapOrdered.congr {s t : State} (h : SameQueue s t) (hs : HeapOrdered s) : HeapOrdered t := by
  unfold HeapOrdered less
  rw [h.node, h.heap, h.heapn]
  exact hs

/-- Inserting a node just made keeps the heap property. -/
theorem newNode_heapInsert_ordered {s u t : State} {n : NodeIdx} {d : Node} (hs : HeapOrdered s)
    (hb : ∀ m ∈ queue s, m.val < s.nnodes.val) (hnew : newNode d s = .done n u) (hins : heapInsert n u = .done () t) :
    HeapOrdered t :=
  heapInsert_ordered (newNode_ordered hs hb hnew) hins

theorem mergeTwo_ordered {s t : State} {n : NodeIdx} (hq : QueueOk s) (hs : HeapOrdered s)
    (h : mergeTwo s = .done n t) : HeapOrdered t := by
  obtain ⟨a, b, u, v, w, ha, hb, hw, hx⟩ := mergeTwo_parts h
  have hqueue := heapExtract_queueOk (heapExtract_queueOk hq ha) hb
  exact newNode_heapInsert_ordered (heapExtract_ordered (heapExtract_ordered hs ha) hb) hqueue.below
    (mergeNode_done hw).2 hx

theorem heapOrdered_invariant : QueueInvariant fun s => QueueOk s ∧ HeapOrdered s where
  congr h hs := ⟨hs.1.congr h, hs.2.congr h⟩
  queueOk := And.left
  clear s := ⟨clearHeap_queueOk s, fun _ _ hi => absurd hi (Nat.not_lt_zero _)⟩
  leaf hs hnew hins := ⟨queueOk_invariant.leaf hs.1 hnew hins, newNode_heapInsert_ordered hs.2 hs.1.below hnew hins⟩
  extract hs h := ⟨heapExtract_queueOk hs.1 h, heapExtract_ordered hs.2 h⟩
  merge hs h := ⟨queueOk_invariant.merge hs.1 h, mergeTwo_ordered hs.1 hs.2 h⟩

/-- Settles O55: the sifts restore the heap property after each operation on the queue. -/
theorem everyStepKeepsTheHeapOrdered : Obligations.EveryStepKeepsTheHeapOrdered :=
  fun _ _ hq hs h => (heapOrdered_invariant.step ⟨hq, hs⟩ h).2

/-! ### The queue's weights (42_heap.md R154) -/

theorem QueueWeighed.congr {s t : State} (h : SameQueue s t) (hs : QueueWeighed s) : QueueWeighed t := by
  unfold QueueWeighed
  rw [h.queue_eq, h.node, h.nnodes]
  exact hs

theorem heapExtract_queueWeighed {s t : State} {n : NodeIdx} (hs : QueueWeighed s) (h : heapExtract s = .done n t) :
    QueueWeighed t := by
  obtain ⟨k, hk, hsum⟩ := hs
  obtain ⟨-, hnn, hnode⟩ := heapExtract_done h
  obtain ⟨-, hqueue, -⟩ := heapExtract_queue h
  rw [(hqueue.map _).sum_eq, List.map_cons, List.sum_cons] at hsum
  refine ⟨k, fun m hm => ?_, by rw [hnn]; omega⟩
  rw [hnode]
  exact hk m (hqueue.mem_iff.mpr (List.mem_cons_of_mem n hm))

theorem queueWeighed_invariant : QueueInvariant fun s => QueueOk s ∧ QueueWeighed s where
  congr h hs := ⟨hs.1.congr h, hs.2.congr h⟩
  queueOk := And.left
  clear s := ⟨clearHeap_queueOk s, (clearHeap_growing s).weighed⟩
  leaf hs hnew hins :=
    ⟨queueOk_invariant.leaf hs.1 hnew hins, (heapInsert_requeued hnew hins).queueWeighed_leaf hs.1.below hs.2⟩
  extract hs h := ⟨heapExtract_queueOk hs.1 h, heapExtract_queueWeighed hs.2 h⟩
  merge hs h := by
    obtain ⟨a, b, -, hr⟩ := mergeTwo_requeued h
    exact ⟨hr.queueOk hs.1, hr.queueWeighed_inner hs.1.below hs.2⟩

/-- Settles O57: a leaf weighs one, a merged node what the two it joins weigh, and nothing else enters the queue. -/
theorem everyStepKeepsTheQueueWeighed : Obligations.EveryStepKeepsTheQueueWeighed :=
  fun _ _ hq hs h => (queueWeighed_invariant.step ⟨hq, hs⟩ h).2

end Sys2Proof.Machine
end

section
/-!
PROOFS. BuildTree makes the Huffman tree of the table (43_tree_codes.md R180): the invariant that holds from its first
leaf to its last merge, and the tree it leaves.
-/

namespace Sys2Proof.Machine

/-! ### The next command's outcome from its body's -/

theorem exec_of_done {i : Instr} {s t : State} (hi : i ≠ .reset) (he : s.errcode = none)
    (h : commandBody i (clearFlags s) = .done () t) : exec i s = .next t := by
  rw [exec_eq_runCommand hi, runCommand_noError he, h]

theorem exec_of_raised {i : Instr} {s t : State} {e : ErrKind} (hi : i ≠ .reset) (he : s.errcode = none)
    (h : commandBody i (clearFlags s) = .raised e t) : exec i s = .next (enterError (encode i) e t) := by
  rw [exec_eq_runCommand hi, runCommand_noError he, h]

/-! ### A table as the list of its entries (10_state.md R27) -/

/-- A table lists its entries in the order of the symbols. -/
theorem toList_eq_map_atSym {α : Type} (t : Vector α 256) : t.toList = allSymbols.map (atSym t) := by
  apply List.ext_getElem
  · simp [allSymbols_length]
  · intro i h1 h2
    have hi : i < 256 := by simpa using h1
    have hn : (BitVec.ofNat 8 i).toNat = i := by simp; omega
    simp [allSymbols_getElem i hi, atSym, hn]

theorem total_eq_sum (s : State) : total s = (allSymbols.map fun b => (atSym s.freq b).toNat).sum := by
  rw [total, toList_eq_map_atSym, List.map_map]
  rfl

/-- The counts of the listed pairs add up to TOTAL: the symbols left out count 0. -/
theorem present_sum (s : State) : ((present s).map fun p => p.2.toNat).sum = total s := by
  have key : ∀ ps : List (Byte × BitVec 32),
      ((ps.filter fun p => p.2 != 0#32).map fun p => p.2.toNat).sum = (ps.map fun p => p.2.toNat).sum := by
    intro ps
    induction ps with
    | nil => rfl
    | cons p ps ih =>
      by_cases hp : p.2 = 0#32
      · simp [hp, ih]
      · simp [hp, ih]
  have hcounts : (allSymbols.zip s.freq.toList).map (fun p => p.2.toNat) = s.freq.toList.map BitVec.toNat := by
    rw [← List.map_snd_zip (l₁ := allSymbols) (l₂ := s.freq.toList) (by simp [allSymbols_length]), List.map_map]
    rw [List.map_snd_zip (by simp [allSymbols_length])]
    rfl
  rw [present, key, hcounts, total]

theorem allSymbols_map_toNat : allSymbols.map BitVec.toNat = List.range 256 := by
  rw [allSymbols, List.map_map]
  refine (List.map_congr_left fun i hi => ?_).trans (List.map_id _)
  exact Nat.mod_eq_of_lt (List.mem_range.mp hi)

/-- `present` lists the symbols in ascending order. -/
theorem present_ascending (s : State) : ((present s).map fun p => p.1.toNat).Pairwise (· < ·) := by
  have hzip : (allSymbols.zip s.freq.toList).map (fun p => p.1.toNat) = List.range 256 := by
    rw [← allSymbols_map_toNat, ← List.map_fst_zip (l₁ := allSymbols) (l₂ := s.freq.toList) (by simp [allSymbols_length]),
      List.map_map]
    rw [List.map_fst_zip (by simp [allSymbols_length])]
    rfl
  have hsub : ((present s).map fun p => p.1.toNat).Sublist (List.range 256) := hzip ▸ List.filter_sublist.map _
  exact List.pairwise_lt_range.sublist hsub

/-! ### Trees and their nodes -/

/-- A child of a node of a tree is a node of the tree. -/
theorem Spans.child_mem {s : State} {n p m : NodeIdx} {ns : List NodeIdx} (h : Spans s n ns) (hp : p ∈ ns)
    (hm : s.node[p].left = some m ∨ s.node[p].right = some m) : m ∈ ns := by
  induction h with
  | leaf n b hsym hl hr =>
    rw [List.mem_singleton.mp hp, hl, hr] at hm
    simp at hm
  | inner n l r xs ys hsym hl hr hln hrn hf hx hy ihx ihy =>
    rw [List.mem_cons, List.mem_append] at hp ⊢
    rcases hp with rfl | hp | hp
    · rw [hl, hr, Option.some.injEq, Option.some.injEq] at hm
      rcases hm with rfl | rfl
      · exact .inr (.inl hx.head_mem)
      · exact .inr (.inr hy.head_mem)
    · exact .inr (.inl (ihx hp))
    · exact .inr (.inr (ihy hp))

theorem leafSyms_congr {s t : State} (h : t.node = s.node) (ns : List NodeIdx) : leafSyms t ns = leafSyms s ns := by
  unfold leafSyms
  rw [h]

theorem mem_leafSyms {s : State} {ns : List NodeIdx} {b : Byte} :
    b ∈ leafSyms s ns ↔ ∃ n ∈ ns, s.node[n].sym = .leaf b := by
  unfold leafSyms
  rw [List.mem_filterMap]
  refine exists_congr fun n => and_congr_right fun _ => ?_
  cases s.node[n].sym <;> simp

/-- Nodes of distinct leaf symbols have a list of distinct symbols. -/
theorem leafSyms_nodup {s : State} {ns : List NodeIdx} (h : ns.Nodup)
    (hinj : ∀ n ∈ ns, ∀ m ∈ ns, ∀ b : Byte, s.node[n].sym = .leaf b → s.node[m].sym = .leaf b → n = m) :
    (leafSyms s ns).Nodup := by
  unfold leafSyms List.Nodup
  rw [List.pairwise_filterMap]
  refine List.Pairwise.imp_of_mem (fun {n m} hn hm hne a ha b hb hab => hne ?_) h
  subst hab
  refine hinj n hn m hm a ?_ ?_
  · cases hs : s.node[n].sym <;> simp_all
  · cases hs : s.node[m].sym <;> simp_all

/-! ### The nodes that wait in the queue (43_tree_codes.md R180) -/

/-- A node in use that no node in use has taken as a child. -/
def Unjoined (s : State) (m : NodeIdx) : Prop :=
  m.val < s.nnodes.val ∧
    ∀ p : NodeIdx, p.val < s.nnodes.val → s.node[p].left ≠ some m ∧ s.node[p].right ≠ some m

/-- Children are older than their parent. -/
def ChildrenOlder (s : State) : Prop :=
  ∀ p m : NodeIdx, p.val < s.nnodes.val → s.node[p].left = some m ∨ s.node[p].right = some m → m < p

/-- What waits when slot NNODES is filled is what stands unjoined before. -/
theorem waiting_iff_unjoined {s : State} {n : NodeIdx} (hn : n.val = s.nnodes.val) (m : NodeIdx) :
    Waiting s n m ↔ Unjoined s m := by
  simp only [Waiting, Unjoined, Fin.lt_def, hn]

/-- How a join stands depends on the records up to its own. -/
theorem JoinsTheTwoLeast.congr {s t : State} {n : NodeIdx} (h : JoinsTheTwoLeast s n)
    (ht : ∀ m : NodeIdx, m ≤ n → t.node[m] = s.node[m]) : JoinsTheTwoLeast t n := by
  obtain ⟨a, b, ha, hb, hab, hleast, hnode, hfreq⟩ := h
  have hwait : ∀ m, Waiting t n m ↔ Waiting s n m :=
    waiting_congr fun p hp => by rw [ht p hp.le]; exact ⟨rfl, rfl⟩
  have hnew := ht n le_rfl
  have hold : ∀ m, Waiting s n m → t.node[m] = s.node[m] := fun m hm => ht m hm.1.le
  refine ⟨a, b, (hwait a).mpr ha, (hwait b).mpr hb, ?_, fun m hm hma hmb => ?_, by rw [hnew]; exact hnode, ?_⟩
  · rw [less_congr (hold a ha) (hold b hb)]
    exact hab
  · rw [less_congr (hold b hb) (hold m ((hwait m).mp hm))]
    exact hleast m ((hwait m).mp hm) hma hmb
  · rw [hnew, hold a ha, hold b hb]
    exact hfreq

section
variable {s t : State} {taken : List NodeIdx} {n : NodeIdx} {d : Node}

theorem Requeued.childrenOlder (h : Requeued s t taken n d) (ho : ChildrenOlder s)
    (hb : ∀ m ∈ taken, m.val < s.nnodes.val) (hd : ∀ m, d.left = some m ∨ d.right = some m ↔ m ∈ taken) :
    ChildrenOlder t := by
  intro p m hp hm
  rw [h.count] at hp
  rcases Nat.lt_succ_iff_lt_or_eq.mp hp with hp | hp
  · rw [h.node_old hp] at hm
    exact ho p m hp hm
  · have hpn : p = n := Fin.ext (hp.trans h.slot.symm)
    subst hpn
    rw [h.node_new, hd] at hm
    exact Fin.lt_def.mpr (hp ▸ hb m hm)

/-- Where the queue held the unjoined nodes, it does so after a new node has taken its children. -/
theorem Requeued.unjoined (h : Requeued s t taken n d) (hq : QueueOk s) (ho : ChildrenOlder s)
    (hqueued : ∀ m, m ∈ queue s ↔ Unjoined s m) (hd : ∀ m, d.left = some m ∨ d.right = some m ↔ m ∈ taken)
    (m : NodeIdx) : m ∈ queue t ↔ Unjoined t m := by
  obtain ⟨-, hnodup, hbelow⟩ := hq
  obtain ⟨rest, hqs, hqt, htaken, hrest⟩ := h.exchange hbelow
  obtain ⟨-, -, hdisj⟩ := List.nodup_append.mp (hqs.nodup_iff.mp hnodup)
  have hsplit : m ∈ rest ↔ Unjoined s m ∧ m ∉ taken := by
    rw [← hqueued m, hqs.mem_iff, List.mem_append]
    exact ⟨fun hm => ⟨.inr hm, fun ht => hdisj m ht m hm rfl⟩, fun hm => hm.1.resolve_left hm.2⟩
  have hnew : Unjoined t m ↔ m.val < s.nnodes.val + 1 ∧
      (∀ p : NodeIdx, p.val < s.nnodes.val → s.node[p].left ≠ some m ∧ s.node[p].right ≠ some m) ∧ m ∉ taken := by
    unfold Unjoined
    rw [h.count]
    refine and_congr_right fun _ => ⟨fun hp => ⟨fun p hlt => ?_, fun hm => ?_⟩, fun hp p hlt => ?_⟩
    · rw [← h.node_old hlt]
      exact hp p (Nat.lt_succ_of_lt hlt)
    · have hn := hp n (by rw [h.slot]; exact Nat.lt_succ_self _)
      rw [h.node_new] at hn
      exact ((hd m).mpr hm).elim hn.1 hn.2
    · rcases Nat.lt_succ_iff_lt_or_eq.mp hlt with hlt | hlt
      · rw [h.node_old hlt]
        exact hp.1 p hlt
      · rw [Fin.ext (hlt.trans h.slot.symm), h.node_new]
        exact not_or.mp (mt (hd m).mp hp.2)
  rw [hqt.mem_iff, List.mem_cons, hsplit, hnew]
  constructor
  · rintro (rfl | ⟨⟨hlt, hfree⟩, hnot⟩)
    · refine ⟨by rw [h.slot]; exact Nat.lt_succ_self _, fun p hp => ?_, fun hm => ?_⟩
      · refine not_or.mp fun hc => absurd (ho p m hp hc) ?_
        rw [Fin.lt_def, h.slot]
        omega
      · have := hbelow m (htaken m hm)
        rw [h.slot] at this
        omega
    · exact ⟨Nat.lt_succ_of_lt hlt, hfree, hnot⟩
  · rintro ⟨hlt, hfree, hnot⟩
    rcases Nat.lt_succ_iff_lt_or_eq.mp hlt with hlt | hlt
    · exact .inr ⟨⟨hlt, hfree⟩, hnot⟩
    · exact .inl (Fin.ext (hlt.trans h.slot.symm))

/-- The slots not yet in use keep their records. -/
theorem Requeued.node_above (h : Requeued s t taken n d) {m : NodeIdx} (hm : t.nnodes.val ≤ m.val) :
    t.node[m] = s.node[m] := by
  rw [h.count, ← h.slot] at hm
  simp only [h.node, Fin.getElem_fin]
  exact Vector.getElem_set_ne _ _ (by omega)

/-- A node that joins the two least of the queued nodes is what R180 makes of those waiting for it. -/
theorem Requeued.joinsTheTwoLeast {a b : NodeIdx}
    (h : Requeued s t [a, b] n (innerNode (BitVec.ofNat 40 (s.node[a].freq.toNat + s.node[b].freq.toNat)) a b))
    (hb : ∀ m ∈ queue s, m.val < s.nnodes.val) (hqueued : ∀ m, m ∈ queue s ↔ Unjoined s m)
    (hfit : s.node[a].freq.toNat + s.node[b].freq.toNat < 2 ^ 40) (hab : less s a b = true)
    (hleast : ∀ m ∈ queue s, m ≠ a → m ≠ b → less s b m = true) : JoinsTheTwoLeast t n := by
  obtain ⟨rest, hqs, -⟩ := h.swap
  have ha' : a ∈ queue s := hqs.mem_iff.mpr (by simp)
  have hb' : b ∈ queue s := hqs.mem_iff.mpr (by simp)
  have hwait : ∀ m, Waiting t n m ↔ m ∈ queue s := fun m => by
    rw [hqueued, ← waiting_iff_unjoined h.slot]
    refine waiting_congr (fun p hp => ?_) m
    rw [h.node_old (h.slot ▸ hp)]
    exact ⟨rfl, rfl⟩
  have hless : ∀ i j : NodeIdx, i ∈ queue s → j ∈ queue s → less t i j = less s i j := fun i j hi hj =>
    less_congr (h.node_old (hb i hi)) (h.node_old (hb j hj))
  refine ⟨a, b, (hwait a).mpr ha', (hwait b).mpr hb', (hless a b ha' hb').trans hab, fun m hm hma hmb => ?_,
    by rw [h.node_new]; rfl, ?_⟩
  · rw [hwait] at hm
    exact (hless b m hb' hm).trans (hleast m hm hma hmb)
  · rw [h.node_new, h.node_old (hb a ha'), h.node_old (hb b hb')]
    exact Nat.mod_eq_of_lt hfit

/-- The sum of the queued nodes' frequencies. -/
def queueWeight (s : State) : Nat := ((queue s).map fun m => s.node[m].freq.toNat).sum

/-- The new node's frequency enters the sum and those of the taken ones leave it. -/
theorem Requeued.queueWeight_eq (h : Requeued s t taken n d) (hb : ∀ m ∈ queue s, m.val < s.nnodes.val) :
    queueWeight t + (taken.map fun m => s.node[m].freq.toNat).sum = queueWeight s + d.freq.toNat := by
  obtain ⟨rest, hqs, hqt, -, hrest⟩ := h.exchange hb
  have hold : rest.map (fun m => t.node[m].freq.toNat) = rest.map fun m => s.node[m].freq.toNat :=
    List.map_congr_left fun m hm => by rw [h.node_old (hb m (hrest m hm).1)]
  rw [queueWeight, queueWeight, (hqs.map _).sum_eq, (hqt.map _).sum_eq, List.map_append, List.sum_append,
    List.map_cons, List.sum_cons, hold, h.node_new]
  omega

end

/-- A merge joins the least queued node, on the left, and the next least, on the right. -/
theorem mergeTwo_joins {s t : State} {n : NodeIdx} (hq : QueueOk s) (ho : HeapOrdered s)
    (h : mergeTwo s = .done n t) :
    ∃ a b : NodeIdx, s.node[a].freq.toNat + s.node[b].freq.toNat < 2 ^ 40 ∧
      Requeued s t [a, b] n (innerNode (BitVec.ofNat 40 (s.node[a].freq.toNat + s.node[b].freq.toNat)) a b) ∧
      less s a b = true ∧ ∀ m ∈ queue s, m ≠ a → m ≠ b → less s b m = true := by
  obtain ⟨a, b, hfit, hr⟩ := mergeTwo_requeued h
  refine ⟨a, b, hfit, hr, ?_⟩
  obtain ⟨a', b', u, v, w, ha, hb, hw, hx⟩ := mergeTwo_parts h
  obtain ⟨-, -, -, -, hnode⟩ := newNode_done (mergeNode_done hw).2
  obtain ⟨-, -, hnode'⟩ := heapInsert_done hx
  have hrec : t.node[n] = innerNode (BitVec.ofNat 40 (v.node[a'].freq.toNat + v.node[b'].freq.toNat)) a' b' := by
    simp [hnode', hnode]
  rw [hr.node_new, innerNode, innerNode, Node.mk.injEq, Option.some.injEq, Option.some.injEq] at hrec
  obtain ⟨-, -, rfl, rfl⟩ := hrec
  obtain ⟨-, hqa, -⟩ := heapExtract_queue ha
  obtain ⟨-, hqb, -⟩ := heapExtract_queue hb
  obtain ⟨-, -, hnu⟩ := heapExtract_done ha
  have hless : ∀ x y : NodeIdx, less u x y = less s x y := fun x y => less_congr (by rw [hnu]) (by rw [hnu])
  have hbu : b ∈ queue u := hqb.mem_iff.mpr List.mem_cons_self
  have hnodup := List.nodup_cons.mp (hqa.nodup_iff.mp hq.nodup)
  refine ⟨less_of_ne (fun e => hnodup.1 (e ▸ hbu)) (heapExtract_least ho ha (hqa.mem_iff.mpr (.tail a hbu))),
    fun m hm hma hmb => less_of_ne (Ne.symm hmb) ?_⟩
  rw [← hless]
  exact heapExtract_least (heapExtract_ordered ho ha) hb ((List.mem_cons.mp (hqa.mem_iff.mp hm)).resolve_left hma)

/-! ### BuildTree, from its first leaf to its root (43_tree_codes.md R180) -/

/-- What BuildTree has made of `s` with the leaves of `ps` queued, before its first merge and after each. -/
structure Built (s : State) (ps : List (Byte × BitVec 32)) (t : State) : Prop where
  queueOk : QueueOk t
  ordered : HeapOrdered t
  growing : Growing t
  older : ChildrenOlder t
  queued : ∀ m : NodeIdx, m ∈ queue t ↔ Unjoined t m
  counts : t.heapn.val + t.nnodes.val = 2 * ps.length
  leaves : ps.length ≤ t.nnodes.val
  leaf : ∀ (j : NodeIdx) (p : Byte × BitVec 32), ps[j.val]? = some p → t.node[j] = leafNode p.1 (zext 40 p.2)
  joined : ∀ n : NodeIdx, ps.length ≤ n.val → n.val < t.nnodes.val → JoinsTheTwoLeast t n
  kept : ∀ n : NodeIdx, t.nnodes.val ≤ n.val → t.node[n] = s.node[n]
  weight : queueWeight t = (ps.map fun p => p.2.toNat).sum

theorem clearHeap_built (s : State) : Built s [] (clearHeap s) where
  queueOk := clearHeap_queueOk s
  ordered := (heapOrdered_invariant.clear s).2
  growing := clearHeap_growing s
  older _ _ hp := absurd hp (Nat.not_lt_zero _)
  queued m := by simp [queue, Unjoined]
  counts := rfl
  leaves := le_rfl
  leaf _ _ hp := by simp at hp
  joined _ _ hn := absurd hn (Nat.not_lt_zero _)
  kept _ _ := rfl
  weight := by simp [queueWeight, queue]

/-- One more leaf, before the first merge. -/
theorem Built.insertLeaf {s t u v : State} {ps : List (Byte × BitVec 32)} {p : Byte × BitVec 32} {n : NodeIdx}
    (h : Built s ps t) (hfirst : t.nnodes.val = ps.length) (hnew : newNode (leafNode p.1 (zext 40 p.2)) t = .done n u)
    (hins : heapInsert n u = .done () v) : Built s (ps ++ [p]) v ∧ v.nnodes.val = (ps ++ [p]).length := by
  have hr := heapInsert_requeued hnew hins
  have hbelow := h.queueOk.below
  have hchildren : ∀ m : NodeIdx, (leafNode p.1 (zext 40 p.2)).left = some m ∨
      (leafNode p.1 (zext 40 p.2)).right = some m ↔ m ∈ ([] : List NodeIdx) := by simp [leafNode]
  obtain ⟨-, -, hheapn, -, -⟩ := newNode_done hnew
  obtain ⟨hheapn', -, -⟩ := heapInsert_done hins
  have hlen : (ps ++ [p]).length = ps.length + 1 := by simp
  have hcount : v.nnodes.val = (ps ++ [p]).length := by rw [hr.count, hfirst, hlen]
  refine ⟨⟨hr.queueOk h.queueOk, newNode_heapInsert_ordered h.ordered hbelow hnew hins,
    ⟨hr.queueWeighed_leaf hbelow h.growing.weighed, hr.forest_leaf h.growing.forest⟩,
    hr.childrenOlder h.older (by simp) hchildren, hr.unjoined h.queueOk h.older h.queued hchildren, ?_, hcount.ge,
    fun j q hq => ?_, fun m hm hm' => by omega, fun m hm => (hr.node_above hm).trans (h.kept m ?_), ?_⟩, hcount⟩
  · have := h.counts
    rw [hheapn', hheapn, hcount, hlen]
    omega
  · rcases Nat.lt_or_ge j.val ps.length with hj | hj
    · rw [List.getElem?_append_left hj] at hq
      rw [hr.node_old (hfirst ▸ hj)]
      exact h.leaf j q hq
    · rw [List.getElem?_append_right hj, List.getElem?_singleton] at hq
      split at hq
      · cases hq
        have hj : j = n := Fin.ext (by rw [hr.slot, hfirst]; omega)
        rw [hj, hr.node_new]
      · cases hq
  · omega
  · have hweight := hr.queueWeight_eq hbelow
    have hf : (zext 40 p.2).toNat = p.2.toNat := by
      rw [BitVec.toNat_setWidth]
      omega
    simp only [leafNode, List.map_nil, List.sum_nil, Nat.add_zero, hf, h.weight] at hweight
    simp [hweight]

/-- The leaves are queued in the order of the list. -/
theorem insertLeaves_built {s t : State} {ps : List (Byte × BitVec 32)} (qs : List (Byte × BitVec 32))
    (h : Built s ps t) (hfirst : t.nnodes.val = ps.length) (hlen : (ps ++ qs).length ≤ 256) :
    ∃ u, insertLeaves qs t = .done () u ∧ Built s (ps ++ qs) u := by
  induction qs generalizing ps t with
  | nil => exact ⟨t, rfl, by rwa [List.append_nil]⟩
  | cons q qs ih =>
    have hsplit : ps ++ q :: qs = ps ++ [q] ++ qs := by simp
    have hcounts := h.counts
    simp only [List.length_append, List.length_cons] at hlen
    obtain ⟨n, u, v, hnew, hins⟩ :=
      newNode_heapInsert_done (leafNode q.1 (zext 40 q.2)) (s := t) (by omega) (by omega)
    obtain ⟨hb, hn⟩ := h.insertLeaf hfirst hnew hins
    obtain ⟨w, hw, hbw⟩ := ih hb hn (by simp only [List.length_append, List.length_singleton]; omega)
    refine ⟨w, ?_, hsplit ▸ hbw⟩
    rw [insertLeaves, hnew, Run.bind_done, hins, Run.bind_done, hw]

/-- One merge. -/
theorem Built.merge {s t u : State} {ps : List (Byte × BitVec 32)} {n : NodeIdx} (h : Built s ps t)
    (hm : mergeTwo t = .done n u) : Built s ps u := by
  obtain ⟨a, b, hfit, hr, hab, hleast⟩ := mergeTwo_joins h.queueOk h.ordered hm
  obtain ⟨hheapn, hnnodes, -⟩ := mergeTwo_counts hm
  have hbelow := h.queueOk.below
  obtain ⟨rest, hqs, -⟩ := hr.swap
  have htaken : ∀ m ∈ [a, b], m.val < t.nnodes.val := fun m hm =>
    hbelow m (hqs.mem_iff.mpr (List.mem_append_left rest hm))
  have hchildren : ∀ m : NodeIdx,
      (innerNode (BitVec.ofNat 40 (t.node[a].freq.toNat + t.node[b].freq.toNat)) a b).left = some m ∨
      (innerNode (BitVec.ofNat 40 (t.node[a].freq.toNat + t.node[b].freq.toNat)) a b).right = some m ↔
        m ∈ [a, b] := fun m => by simp [innerNode, eq_comm]
  refine ⟨hr.queueOk h.queueOk, mergeTwo_ordered h.queueOk h.ordered hm, mergeTwo_growing h.growing hm,
    hr.childrenOlder h.older htaken hchildren, hr.unjoined h.queueOk h.older h.queued hchildren, ?_,
    by rw [hnnodes]; exact Nat.le_succ_of_le h.leaves, fun j p hp => ?_, fun m hm hm' => ?_,
    fun m hm => (hr.node_above hm).trans (h.kept m (by omega)), ?_⟩
  · have := h.counts
    omega
  · have hj : j.val < ps.length := (List.getElem?_eq_some_iff.mp hp).1
    rw [hr.node_old (hj.trans_le h.leaves)]
    exact h.leaf j p hp
  · rw [hnnodes] at hm'
    rcases Nat.lt_succ_iff_lt_or_eq.mp hm' with hlt | heq
    · exact (h.joined m hm hlt).congr fun i hi => hr.node_old (lt_of_le_of_lt hi hlt)
    · obtain rfl : m = n := Fin.ext (heq.trans hr.slot.symm)
      exact hr.joinsTheTwoLeast hbelow h.queued hfit hab hleast
  · have hweight := hr.queueWeight_eq hbelow
    simp only [innerNode, BitVec.toNat_ofNat, Nat.mod_eq_of_lt hfit, List.map_cons, List.map_nil, List.sum_cons,
      List.sum_nil] at hweight
    rw [← h.weight]
    omega

theorem mergeTwo_done {s : State} (hw : QueueWeighed s) (hh : 2 ≤ s.heapn.val) (hn : s.nnodes.val < 511) :
    ∃ n t, mergeTwo s = .done n t := by
  cases h : mergeTwo s with
  | done n t => exact ⟨n, t, rfl⟩
  | raised e t => exact absurd (mergeTwo_raised h).1 hn.ne
  | stopped f => exact absurd h (mergeTwo_neverStops hw hh f)

/-- The merges end with one node queued. -/
theorem mergeLoop_built {s t : State} {ps : List (Byte × BitVec 32)} {k : Nat} (h : Built s ps t)
    (hlen : ps.length ≤ 256) (h0 : 0 < t.heapn.val) (hk : t.heapn.val ≤ k) :
    ∃ u, mergeLoop k t = .done () u ∧ Built s ps u ∧ u.heapn.val = 1 := by
  induction k generalizing t with
  | zero => omega
  | succ k ih =>
    rw [mergeLoop_step]
    split
    · have hcounts := h.counts
      obtain ⟨n, u, hu⟩ := mergeTwo_done h.growing.weighed ‹_› (by omega)
      obtain ⟨hheapn, -, -⟩ := mergeTwo_counts hu
      rw [hu, Run.bind_done]
      exact ih (h.merge hu) (by omega) (by omega)
    · exact ⟨t, rfl, h, by omega⟩

theorem heapExtract_done_of_pos {s : State} (h : 0 < s.heapn.val) : ∃ n t, heapExtract s = .done n t := by
  rcases heapExtract_cases s with ⟨h0, _⟩ | ⟨_, n, hp, e⟩
  · omega
  · exact ⟨n, _, e⟩

/-- BuildTree of a table with a count returns: its leaves are those of `present`, its merges leave one node queued, and
that node becomes ROOT. -/
theorem buildTree_built {s : State} (h0 : ndist s ≠ 0) :
    ∃ n t u, Built s (present s) t ∧ t.heapn.val = 1 ∧ heapExtract t = .done n u ∧
      QueueFrame (clearHeap (invalidateTree s)) u ∧ buildTree s = .done () (setRoot n u) := by
  have hlen : (present s).length ≤ 256 := (present_length s).trans_le (ndist_le s)
  have hstart : Built s [] (clearHeap (invalidateTree s)) :=
    { clearHeap_built (invalidateTree s) with kept := fun _ _ => rfl }
  obtain ⟨v, hv, hbv⟩ := insertLeaves_built (present s) hstart rfl hlen
  have hpos : 0 < v.heapn.val := (buildTree_queued h0 hv).2
  obtain ⟨t, ht, hbt, hone⟩ := mergeLoop_built hbv hlen hpos le_rfl
  obtain ⟨n, u, hu⟩ := heapExtract_done_of_pos (s := t) (by omega)
  refine ⟨n, t, u, hbt, hone, hu, ?_, ?_⟩
  · exact (((insertLeaves_frame _ _).of_done hv).trans ((mergeLoop_frame _ _).of_done ht)).trans
      ((heapExtract_frame t).of_done hu).toQueueFrame
  · have hp : present (clearHeap (invalidateTree s)) = present s := rfl
    have hd : ndist (clearHeap (invalidateTree s)) = ndist s := rfl
    simp only [buildTree, hp, hd, if_neg h0, hv, Run.bind_done, ht, hu]

/-! ### The finished tree (10_state.md R37d) -/

section
variable {s t : State} {ps : List (Byte × BitVec 32)} {n : NodeIdx}

/-- The one node left queued stands in the last slot in use. -/
theorem Built.root_slot (h : Built s ps t) (hq : queue t = [n]) : n.val + 1 = t.nnodes.val := by
  have hn : Unjoined t n := (h.queued n).mp (by simp [hq])
  have hmax := t.nnodes.isLt
  have hpos := hn.1
  let last : NodeIdx := ⟨t.nnodes.val - 1, by omega⟩
  have hlast : Unjoined t last := by
    refine ⟨by simp only [last]; omega, fun p hp => not_or.mp fun hc => ?_⟩
    have := Fin.lt_def.mp (h.older p last hp hc)
    simp only [last] at this
    omega
  have hmem : last ∈ queue t := (h.queued last).mpr hlast
  rw [hq, List.mem_singleton] at hmem
  rw [← hmem]
  simp only [last]
  omega

/-- Every slot in use hangs below the one node left queued: it is that node, or its parent hangs there. -/
theorem Built.covers (h : Built s ps t) (hq : queue t = [n]) {ns : List NodeIdx} (hspans : Spans t n ns)
    {m : NodeIdx} (hm : m.val < t.nnodes.val) : m ∈ ns := by
  induction m using WellFoundedGT.induction with
  | _ m ih =>
    by_cases hmn : m = n
    · subst hmn
      exact hspans.head_mem
    · have hjoined : ¬ Unjoined t m := fun hu => hmn (by simpa [hq] using (h.queued m).mpr hu)
      have hparent : ∃ p : NodeIdx, p.val < t.nnodes.val ∧ (t.node[p].left = some m ∨ t.node[p].right = some m) := by
        by_contra hno
        exact hjoined ⟨hm, fun p hp => not_or.mp fun hc => hno ⟨p, hp, hc⟩⟩
      obtain ⟨p, hp, hc⟩ := hparent
      exact hspans.child_mem (ih p (h.older p m hp hc) hp) hc

/-- A leaf in use stands in the slot of its pair. -/
theorem Built.leaf_pair (h : Built s ps t) {m : NodeIdx} (hm : m.val < t.nnodes.val) {b : Byte}
    (hb : t.node[m].sym = .leaf b) : ∃ p, ps[m.val]? = some p ∧ p.1 = b ∧ t.node[m].freq = zext 40 p.2 := by
  rcases Nat.lt_or_ge m.val ps.length with hlt | hge
  · have hp : ps[m.val]? = some ps[m.val] := List.getElem?_eq_getElem hlt
    have hnode := h.leaf m _ hp
    rw [hnode] at hb ⊢
    exact ⟨_, hp, Sym.leaf.inj hb, rfl⟩
  · obtain ⟨a, c, -, -, -, -, hnode, -⟩ := h.joined m hge hm
    rw [hnode] at hb
    cases hb

/-- With the leaves of `present`, the tree is one of the table. -/
theorem Built.treeOk (h : Built s (present s) t) (hq : queue t = [n]) {w : State} (hnode : w.node = t.node)
    (hroot : w.root = n) (hfreq : w.freq = s.freq) : TreeOk w := by
  obtain ⟨ns, hall, hnodup, hbelow⟩ := h.growing.forest
  rw [hq, List.flatMap_cons, List.flatMap_nil, List.append_nil] at hnodup hbelow
  have hspans : Spans t n (ns n) := hall n (by simp [hq])
  have hleaf : ∀ m ∈ ns n, ∀ b : Byte, w.node[m].sym = .leaf b →
      ∃ p, (present s)[m.val]? = some p ∧ p.1 = b ∧ w.node[m].freq = zext 40 p.2 := by
    rw [hnode]
    exact fun m hm b => h.leaf_pair (hbelow m hm)
  have hentry : ∀ {m : Nat} {p : Byte × BitVec 32}, (present s)[m]? = some p →
      p.2 = atSym w.freq p.1 ∧ p.2 ≠ 0#32 := fun hp => hfreq ▸ mem_present.mp (List.mem_of_getElem? hp)
  have hspans' : Spans w w.root (ns n) := by
    rw [hroot]
    exact hspans.congr fun m _ => by rw [hnode]
  refine ⟨ns n, hspans', hnodup, leafSyms_nodup hnodup ?_, ?_, fun b => ?_⟩
  · intro m hm m' hm' b hb hb'
    obtain ⟨p, hp, hpb, -⟩ := hleaf m hm b hb
    obtain ⟨p', hp', hpb', -⟩ := hleaf m' hm' b hb'
    have hmap : ((present s).map Prod.fst)[m.val]? = ((present s).map Prod.fst)[m'.val]? := by
      simp [hp, hp', hpb, hpb']
    have hlt : m.val < ((present s).map Prod.fst).length := by
      simpa using (List.getElem?_eq_some_iff.mp hp).1
    exact Fin.ext ((List.getElem?_inj hlt (present_symbols_nodup s)).mp hmap)
  · intro m hm b hb
    obtain ⟨p, hp, rfl, hf⟩ := hleaf m hm b hb
    rw [hf, (hentry hp).1]
  · rw [mem_leafSyms]
    constructor
    · rintro ⟨m, hm, hb⟩
      obtain ⟨p, hp, rfl, -⟩ := hleaf m hm b hb
      obtain ⟨hval, hne⟩ := hentry hp
      rwa [← hval]
    · intro hb
      obtain ⟨j, hj, he⟩ := List.mem_iff_getElem.mp (mem_present.mpr ⟨rfl, hfreq ▸ hb⟩)
      have hlt : j < t.nnodes.val := hj.trans_le h.leaves
      have hmax := t.nnodes.isLt
      let m : NodeIdx := ⟨j, by omega⟩
      refine ⟨m, h.covers hq hspans (m := m) hlt, ?_⟩
      rw [hnode, h.leaf m _ (List.getElem?_eq_getElem hj), he]
      rfl

end

/-- A queue of one node, extracted, was that node alone. -/
theorem heapExtract_last {s t : State} {n : NodeIdx} (hone : s.heapn.val = 1) (h : heapExtract s = .done n t) :
    queue s = [n] ∧ t.heapn.val = 0 := by
  obtain ⟨hcount, -, -⟩ := heapExtract_done h
  obtain ⟨-, hqueue, -⟩ := heapExtract_queue h
  have hzero : t.heapn.val = 0 := by omega
  have hnil : queue t = [] := List.eq_nil_of_length_eq_zero ((queue_length t).trans hzero)
  rw [hnil] at hqueue
  exact ⟨List.perm_singleton.mp hqueue, hzero⟩

/-- Settles O31, by the invariant `Built` from the first leaf to the last merge: the queue always holds the nodes that
no other has taken, so each merge joins the two least of them, and the last leaves one node over all the others. -/
theorem buildTreeBuildsATreeOfTheTable : Obligations.BuildTreeBuildsATreeOfTheTable := by
  intro s he h0
  obtain ⟨n, t, u, hb, hone, hx, hframe, hdone⟩ := buildTree_built (s := clearFlags s) h0
  obtain ⟨hq, hzero⟩ := heapExtract_last hone hx
  obtain ⟨-, hnn, hnode⟩ := heapExtract_done hx
  have hslot := hb.root_slot hq
  have hcounts := hb.counts
  have hlen : (present (clearFlags s)).length = ndist s := present_length _
  unfold QueueFrame at hframe
  have hfreq : u.freq = s.freq := by rw [hframe]; rfl
  have hnode' : (setRoot n u).node = t.node := hnode
  have hcount : (setRoot n u).nnodes.val = t.nnodes.val := congrArg Fin.val hnn
  refine ⟨setRoot n u, present (clearFlags s), exec_of_done nofun he hdone, hb.treeOk hq hnode' rfl hfreq, ?_, ?_, ?_,
    hlen, present_ascending _, fun b f => mem_present, fun j p hp => ?_, fun m hm hm' => ?_, fun m hm => ?_, ?_⟩
  · have hweight := hb.weight
    rw [queueWeight, hq, List.map_singleton, List.sum_singleton] at hweight
    rw [hnode']
    exact hweight.trans (present_sum _)
  · omega
  · show n.val = _
    omega
  · rw [hnode']
    exact hb.leaf j p hp
  · exact (hb.joined m (hlen ▸ hm) (hcount ▸ hm')).congr fun i _ => by rw [hnode']
  · rw [hnode']
    exact hb.kept m (hcount ▸ hm)
  · have hheapn : u.heapn = 0 := Fin.ext hzero
    rw [← hheapn, hframe]
    rfl

end Sys2Proof.Machine
end

section
/-!
PROOFS. GenCodes gives every leaf's symbol its path (43_tree_codes.md R181), and every step keeps a valid tree and a valid
code table true (10_state.md R37 (d), (e)).
-/

namespace Sys2Proof.Machine

/-! ### Bits of a value, most significant first (30_encoding.md R103, R104) -/

@[simp] theorem lowBits_zero {w : Nat} (v : BitVec w) : lowBits 0 v = [] := rfl

/-- A value shifted left by one bit, with that bit filled in, has the bit at the end of its list. -/
theorem lowBits_succ_ofNat {w n : Nat} (hn : n < w) (v : Nat) (b : Bool) :
    lowBits (n + 1) (BitVec.ofNat w (2 * v + b.toNat)) = lowBits n (BitVec.ofNat w v) ++ [b] := by
  have hb : b.toNat < 2 := Bool.toNat_lt b
  rw [lowBits, List.range_succ, List.map_append, List.map_singleton, lowBits]
  congr 1
  · refine List.map_congr_left fun j hj => ?_
    have hj : j < n := List.mem_range.mp hj
    rw [BitVec.getLsbD_ofNat, BitVec.getLsbD_ofNat, show n + 1 - 1 - j = n - 1 - j + 1 by omega, Nat.testBit_succ,
      show (2 * v + b.toNat) / 2 = v by omega]
    simp [show n - 1 - j + 1 < w by omega, show n - 1 - j < w by omega]
  · rw [BitVec.getLsbD_ofNat, show n + 1 - 1 - n = 0 by omega, Nat.testBit_zero,
      show (2 * v + b.toNat) % 2 = b.toNat by omega]
    cases b <;> simp [show 0 < w by omega]

/-- The value of a path, its first bit the most significant (43_tree_codes.md R181). -/
def pathValue (p : List Bool) : Nat := p.foldl (fun v b => 2 * v + b.toNat) 0

@[simp] theorem pathValue_snoc (p : List Bool) (b : Bool) : pathValue (p ++ [b]) = 2 * pathValue p + b.toNat := by
  simp [pathValue]

theorem pathValue_lt (p : List Bool) : pathValue p < 2 ^ p.length := by
  induction p using List.reverseRecOn with
  | nil => simp [pathValue]
  | append_singleton p b ih =>
    have hb : b.toNat < 2 := Bool.toNat_lt b
    rw [pathValue_snoc, List.length_append, List.length_singleton, Nat.pow_succ]
    omega

/-- The bits of a path's value are the path. -/
theorem lowBits_pathValue {w : Nat} (p : List Bool) (h : p.length ≤ w) :
    lowBits p.length (BitVec.ofNat w (pathValue p)) = p := by
  induction p using List.reverseRecOn with
  | nil => rfl
  | append_singleton p b ih =>
    rw [List.length_append, List.length_singleton] at h
    rw [pathValue_snoc, List.length_append, List.length_singleton, lowBits_succ_ofNat (by omega), ih (by omega)]

/-! ### GenCodes on a tree (43_tree_codes.md R181) -/

/-- The code table gives `b` the code `p`. -/
structure HasCode (s : State) (b : Byte) (p : List Bool) : Prop where
  fits : p.length ≤ 255
  clen : atSym s.clen b = BitVec.ofNat 8 p.length
  cval : atSym s.cval b = BitVec.ofNat 255 (pathValue p)

theorem HasCode.clen_toNat {s : State} {b : Byte} {p : List Bool} (h : HasCode s b p) :
    (atSym s.clen b).toNat = p.length := by
  rw [h.clen, BitVec.toNat_ofNat]
  have := h.fits
  omega

theorem HasCode.codeOf_eq {s : State} {b : Byte} {p : List Bool} (h : HasCode s b p) : codeOf s b = p := by
  rw [codeOf, h.clen_toNat, h.cval]
  exact lowBits_pathValue p h.fits

theorem HasCode.cval_lt {s : State} {b : Byte} {p : List Bool} (h : HasCode s b p) :
    (atSym s.cval b).toNat < 2 ^ (atSym s.clen b).toNat := by
  rw [h.clen_toNat, h.cval, BitVec.toNat_ofNat]
  exact (Nat.mod_le _ _).trans_lt (pathValue_lt p)

theorem HasCode.congr {s t : State} {b : Byte} {p : List Bool} (h : HasCode s b p)
    (hlen : atSym t.clen b = atSym s.clen b) (hval : atSym t.cval b = atSym s.cval b) : HasCode t b p :=
  ⟨h.fits, hlen.trans h.clen, hval.trans h.cval⟩

theorem setCode_hasCode (s : State) (b : Byte) {p : List Bool} (h : p.length ≤ 255) :
    HasCode (setCode b p.length (pathValue p) s) b p :=
  ⟨h, atSym_setSym_same _ _ _, atSym_setSym_same _ _ _⟩

theorem setCode_other (s : State) {a b : Byte} (len v : Nat) (h : a ≠ b) :
    atSym (setCode b len v s).clen a = atSym s.clen a ∧ atSym (setCode b len v s).cval a = atSym s.cval a :=
  ⟨atSym_setSym_ne _ _ h, atSym_setSym_ne _ _ h⟩

/-- The leaf symbols below an internal node are those of its left subtree, then those of its right. -/
theorem leafSyms_inner {s : State} {n : NodeIdx} {xs ys : List NodeIdx} (h : s.node[n].sym = .sentinel) :
    leafSyms s (n :: (xs ++ ys)) = leafSyms s xs ++ leafSyms s ys := by
  unfold leafSyms
  rw [List.filterMap_cons, h, List.filterMap_append]

theorem leafSyms_leaf {s : State} {n : NodeIdx} {b : Byte} (h : s.node[n].sym = .leaf b) : leafSyms s [n] = [b] := by
  unfold leafSyms
  rw [List.filterMap_cons, h, List.filterMap_nil]

theorem walk_node {k : Nat} {n : NodeIdx} {v d : Nat} {s t : State} (h : walk k n v d s = .done () t) :
    t.node = s.node := by
  have hf := (walk_frame k n v d s).of_done h
  unfold CodesFrame at hf
  rw [hf]

/-- The walk of a tree of distinct symbols, from a node reached by the path `q`, gives each leaf's symbol its path and
leaves every other symbol's code alone. -/
theorem walk_codes {s t : State} {n : NodeIdx} {ns : List NodeIdx} (h : Spans s n ns) (ht : t.node = s.node)
    (hsyms : (leafSyms s ns).Nodup) {k : Nat} {q : List Bool} (hk : ns.length < 2 * k) (hq : k + q.length = 256) :
    ∃ u, walk k n (pathValue q) q.length t = .done () u ∧
      (∀ b ∈ leafSyms s ns, ∃ p, PathTo s n p b ∧ HasCode u b (q ++ p)) ∧
      ∀ b ∉ leafSyms s ns, atSym u.clen b = atSym t.clen b ∧ atSym u.cval b = atSym t.cval b := by
  induction h generalizing t k q with
  | leaf n b hsym hl hr =>
    obtain ⟨k, rfl⟩ := Nat.exists_eq_succ_of_ne_zero (show k ≠ 0 by rintro rfl; simp at hk)
    rw [leafSyms_leaf hsym]
    refine ⟨setCode b q.length (pathValue q) t, by simp only [walk, ht, hsym], fun a ha => ?_, fun a ha => ?_⟩
    · obtain rfl := List.mem_singleton.mp ha
      exact ⟨[], .leaf n a hsym, by rw [List.append_nil]; exact setCode_hasCode t a (by omega)⟩
    · exact setCode_other t _ _ (mt List.mem_singleton.mpr ha)
  | inner n l r xs ys hsym hl hr hln hrn hf hx hy ihx ihy =>
    have hxl := List.length_pos_of_mem hx.head_mem
    have hyl := List.length_pos_of_mem hy.head_mem
    simp only [List.length_cons, List.length_append] at hk
    obtain ⟨k, rfl⟩ := Nat.exists_eq_succ_of_ne_zero (show k ≠ 0 by omega)
    rw [leafSyms_inner hsym] at hsyms ⊢
    obtain ⟨hsx, hsy, hdisj⟩ := List.nodup_append.mp hsyms
    obtain ⟨u, hu, hcodes, hother⟩ := ihx ht hsx (k := k) (q := q ++ [false]) (by omega) (by simp; omega)
    obtain ⟨v, hv, hcodes', hother'⟩ :=
      ihy ((walk_node hu).trans ht) hsy (k := k) (q := q ++ [true]) (by omega) (by simp; omega)
    rw [pathValue_snoc, List.length_append, List.length_singleton] at hu hv
    refine ⟨v, ?_, fun b hb => ?_, fun b hb => ?_⟩
    · simp only [walk, ht, hsym, hl, hr]
      rw [show 2 * pathValue q = 2 * pathValue q + false.toNat from rfl, hu]
      exact hv
    · rcases List.mem_append.mp hb with hb | hb
      · obtain ⟨p, hp, hcode⟩ := hcodes b hb
        obtain ⟨hlen, hval⟩ := hother' b fun hy => hdisj b hb b hy rfl
        refine ⟨false :: p, .left n l p b hsym hl hp, ?_⟩
        rw [List.append_cons]
        exact hcode.congr hlen hval
      · obtain ⟨p, hp, hcode⟩ := hcodes' b hb
        refine ⟨true :: p, .right n r p b hsym hr hp, ?_⟩
        rw [List.append_cons]
        exact hcode
    · rw [List.mem_append, not_or] at hb
      obtain ⟨hlen, hval⟩ := hother b hb.1
      obtain ⟨hlen', hval'⟩ := hother' b hb.2
      exact ⟨hlen'.trans hlen, hval'.trans hval⟩

theorem PathTo.congr {s t : State} {n : NodeIdx} {p : List Bool} {b : Byte} (h : PathTo s n p b)
    (ht : t.node = s.node) : PathTo t n p b := by
  induction h with
  | leaf n b hsym => exact .leaf n b (ht ▸ hsym)
  | left n l p b hsym hl _ ih => exact .left n l p b (ht ▸ hsym) (ht ▸ hl) ih
  | right n r p b hsym hr _ ih => exact .right n r p b (ht ▸ hsym) (ht ▸ hr) ih

theorem CodePath.congr {s t : State} {p : List Bool} {b : Byte} (h : CodePath s p b) (hnode : t.node = s.node)
    (hroot : t.root = s.root) : CodePath t p b := by
  unfold CodePath
  simp only [hnode, hroot]
  exact h.imp_right fun hp => ⟨hp.1, hp.2.congr hnode⟩

theorem CodePath.ne_nil {s : State} {p : List Bool} {b : Byte} (h : CodePath s p b) : p ≠ [] := by
  rcases h with ⟨-, rfl⟩ | ⟨hroot, hp⟩
  · simp
  · cases hp with
    | leaf n b hsym =>
      rw [hroot] at hsym
      cases hsym
    | left => simp
    | right => simp

/-- On a tree of distinct symbols GenCodes returns, with the path of each leaf's symbol, and no code for any other. -/
theorem genCodes_codes {s : State} {ns : List NodeIdx} (h : Spans s s.root ns) (hnodup : ns.Nodup)
    (hsyms : (leafSyms s ns).Nodup) :
    ∃ t, genCodes s = .done () (finishCodes t) ∧ CodesFrame s t ∧
      (∀ b ∈ leafSyms s ns, ∃ p, CodePath s p b ∧ HasCode t b p) ∧
      ∀ b ∉ leafSyms s ns, atSym t.clen b = 0#8 ∧ atSym t.cval b = 0#255 := by
  have hclear : ∀ b : Byte, atSym (clearCodes s).clen b = 0#8 ∧ atSym (clearCodes s).cval b = 0#255 :=
    fun b => ⟨atSym_replicate _ b, atSym_replicate _ b⟩
  cases hroot : s.node[s.root].sym with
  | leaf b =>
    have hns : leafSyms s ns = [b] := by
      cases h with
      | leaf => exact leafSyms_leaf hroot
      | inner n l r xs ys hsym => rw [hroot] at hsym; cases hsym
    have hdone : genCodes s = .done () (finishCodes (setCode b 1 0 (clearCodes s))) := by
      have hroot' : (clearCodes s).node[(clearCodes s).root].sym = .leaf b := hroot
      simp only [genCodes, hroot']
    refine ⟨setCode b 1 0 (clearCodes s), hdone, rfl, fun a ha => ?_, fun a ha => ?_⟩
    · rw [hns] at ha
      obtain rfl := List.mem_singleton.mp ha
      exact ⟨[false], .inl ⟨hroot, rfl⟩, setCode_hasCode (clearCodes s) a (p := [false]) (by simp)⟩
    · rw [hns] at ha
      obtain ⟨hlen, hval⟩ := setCode_other (clearCodes s) 1 0 (mt List.mem_singleton.mpr ha)
      exact ⟨hlen.trans (hclear a).1, hval.trans (hclear a).2⟩
  | sentinel =>
    have hlen : ns.length ≤ 511 := by simpa using hnodup.length_le_card
    obtain ⟨u, hu, hcodes, hother⟩ :=
      walk_codes h (t := clearCodes s) rfl hsyms (k := 256) (q := []) (by omega) rfl
    have hdone : genCodes s = .done () (finishCodes u) := by
      have hroot' : (clearCodes s).node[(clearCodes s).root].sym = .sentinel := hroot
      have hu' : walk 256 (clearCodes s).root 0 0 (clearCodes s) = .done () u := hu
      simp only [genCodes, hroot', hu', Run.bind_done]
    refine ⟨u, hdone, CodesFrame.trans (by rfl) ((walk_frame _ _ _ _ _).of_done hu), fun b hb => ?_, fun b hb => ?_⟩
    · obtain ⟨p, hp, hcode⟩ := hcodes b hb
      exact ⟨p, .inr ⟨hroot, hp⟩, hcode⟩
    · obtain ⟨hl, hv⟩ := hother b hb
      exact ⟨hl.trans (hclear b).1, hv.trans (hclear b).2⟩

/-! ### OUTBITS (43_tree_codes.md R181, 10_state.md R33) -/

theorem codeBits_eq_sum (s : State) :
    codeBits s = (allSymbols.map fun b => (atSym s.clen b).toNat * (atSym s.freq b).toNat).sum := by
  rw [codeBits, toList_eq_map_atSym, toList_eq_map_atSym, List.zipWith_map, List.zipWith_self]

/-- The sum of the code lengths fits the 48 bits of OUTBITS in every state. -/
theorem codeBits_lt (s : State) : codeBits s < 2 ^ 48 := by
  have hentry : ∀ x ∈ allSymbols.map fun b => (atSym s.clen b).toNat * (atSym s.freq b).toNat, x ≤ 2 ^ 40 - 1 := by
    intro x hx
    obtain ⟨b, -, rfl⟩ := List.mem_map.mp hx
    have hlen := (atSym s.clen b).isLt
    have hfreq := (atSym s.freq b).isLt
    calc (atSym s.clen b).toNat * (atSym s.freq b).toNat
      _ ≤ (2 ^ 8 - 1) * (2 ^ 32 - 1) := Nat.mul_le_mul (by omega) (by omega)
      _ ≤ 2 ^ 40 - 1 := by norm_num
  have hsum := List.sum_le_card_nsmul _ _ hentry
  rw [← codeBits_eq_sum, List.length_map, allSymbols_length, smul_eq_mul] at hsum
  omega

/-- TreeOk's part that GenCodes needs. -/
theorem TreeOk.genCodes {s : State} (h : TreeOk s) :
    ∃ t, genCodes s = .done () (finishCodes t) ∧ CodesFrame s t ∧
      (∀ b : Byte, atSym s.freq b ≠ 0#32 → ∃ p, CodePath s p b ∧ HasCode t b p) ∧
      ∀ b : Byte, atSym s.freq b = 0#32 → atSym t.clen b = 0#8 ∧ atSym t.cval b = 0#255 := by
  obtain ⟨ns, hspans, hnodup, hsyms, -, hmem⟩ := h
  obtain ⟨t, hdone, hframe, hcodes, hother⟩ := genCodes_codes hspans hnodup hsyms
  exact ⟨t, hdone, hframe, fun b hb => hcodes b ((hmem b).mpr hb), fun b hb => hother b fun hm => (hmem b).mp hm hb⟩

theorem TreeOk.congr {s t : State} (h : TreeOk s) (hnode : t.node = s.node) (hroot : t.root = s.root)
    (hfreq : t.freq = s.freq) : TreeOk t := by
  obtain ⟨ns, hspans, hnodup, hsyms, hleaf, hmem⟩ := h
  refine ⟨ns, ?_, hnodup, ?_, ?_, ?_⟩
  · rw [hroot]
    exact hspans.congr fun m _ => by rw [hnode]
  · rwa [leafSyms_congr hnode]
  · rwa [hnode, hfreq]
  · rwa [leafSyms_congr hnode, hfreq]

/-- Settles O33, by the walk of the tree (`walk_codes`): each leaf's symbol gets the path that led to it. -/
theorem genCodesAssignsTheTreePaths : Obligations.GenCodesAssignsTheTreePaths := by
  intro s he hv htree
  have htree' : TreeOk (clearFlags s) := htree.congr rfl rfl rfl
  obtain ⟨t, hdone, hframe, hcodes, hother⟩ := htree'.genCodes
  have hbody : commandBody .genCodes (clearFlags s) = .done () (finishCodes t) := by
    simp only [commandBody, clearFlags_rootValid, hv, Bool.true_eq_false, if_false, hdone]
  unfold CodesFrame at hframe
  have hfreq : (finishCodes t).freq = s.freq := by rw [hframe]; rfl
  refine ⟨finishCodes t, exec_of_done nofun he hbody, fun b hb => ?_, fun b hb => (hother b hb).1, fun b => ?_, ?_, ?_⟩
  · obtain ⟨p, hp, hcode⟩ := hcodes b hb
    have hcode' : HasCode (finishCodes t) b p := hcode.congr rfl rfl
    refine ⟨fun h0 => hp.ne_nil ?_, ?_⟩
    · rw [← List.length_eq_zero_iff, ← hcode'.clen_toNat, h0]
      rfl
    · rw [hcode'.codeOf_eq]
      exact hp.congr rfl rfl
  · by_cases hb : atSym s.freq b = 0#32
    · obtain ⟨hlen, hval⟩ := hother b hb
      show (atSym t.cval b).toNat < _
      rw [hval]
      exact Nat.two_pow_pos _
    · obtain ⟨p, -, hcode⟩ := hcodes b hb
      exact hcode.cval_lt
  · show (BitVec.ofNat 48 (codeBits t)).toNat = _
    rw [BitVec.toNat_ofNat, Nat.mod_eq_of_lt (codeBits_lt t), codeBits_eq_sum, ← hfreq]
    rfl
  · show finishCodes t = _
    rw [hframe]
    rfl

/-! ### The code table is a function of the tree and the counts (43_tree_codes.md R187) -/

/-- The walk depends on the nodes and the codes it starts from alone. -/
theorem walk_congr {k : Nat} {n : NodeIdx} {v d : Nat} {s t u : State} (hnode : t.node = s.node)
    (hlen : t.clen = s.clen) (hval : t.cval = s.cval) (h : walk k n v d s = .done () u) :
    ∃ w, walk k n v d t = .done () w ∧ w.clen = u.clen ∧ w.cval = u.cval := by
  induction k generalizing n v d s t u with
  | zero => cases h
  | succ k ih =>
    rw [walk] at h ⊢
    rw [hnode]
    split at h
    · cases h
      exact ⟨_, rfl, by simp only [setCode, hlen], by simp only [setCode, hval]⟩
    · split at h
      · obtain ⟨_, x, hx, h⟩ := Run.bind_eq_done h
        obtain ⟨y, hy, hylen, hyval⟩ := ih hnode hlen hval hx
        obtain ⟨w, hw, hwlen, hwval⟩ :=
          ih (((walk_node hy).trans hnode).trans (walk_node hx).symm) hylen hyval h
        exact ⟨w, by rw [hy, Run.bind_done, hw], hwlen, hwval⟩
      · cases h

theorem codeBits_congr {s t : State} (hlen : t.clen = s.clen) (hfreq : t.freq = s.freq) :
    codeBits t = codeBits s := by
  rw [codeBits, codeBits, hlen, hfreq]

/-- `GenCodes` depends on the nodes, ROOT and FREQ alone. -/
theorem genCodes_congr {s t u : State} (hnode : t.node = s.node) (hroot : t.root = s.root) (hfreq : t.freq = s.freq)
    (h : genCodes s = .done () u) :
    ∃ w, genCodes t = .done () w ∧ w.clen = u.clen ∧ w.cval = u.cval ∧ w.outbits = u.outbits := by
  have hbits : ∀ {x y : State}, CodesFrame (clearCodes s) x → CodesFrame (clearCodes t) y → y.clen = x.clen →
      (finishCodes y).outbits = (finishCodes x).outbits := by
    intro x y hx hy hlen
    unfold CodesFrame at hx hy
    have hf : y.freq = x.freq := by
      rw [hx, hy]
      exact hfreq
    exact congrArg (BitVec.ofNat 48) (codeBits_congr hlen hf)
  unfold genCodes at h ⊢
  have hroot' : (clearCodes t).node[(clearCodes t).root] = (clearCodes s).node[(clearCodes s).root] := by
    show t.node[t.root] = s.node[s.root]
    simp only [hnode, hroot]
  dsimp only at h ⊢
  rw [hroot']
  split at h <;> rename_i hsym <;> simp only [hsym]
  · cases h
    exact ⟨_, rfl, rfl, rfl, hbits (by rfl) (by rfl) rfl⟩
  · obtain ⟨_, x, hx, h⟩ := Run.bind_eq_done h
    cases h
    obtain ⟨y, hy, hlen, hval⟩ := walk_congr (s := clearCodes s) (t := clearCodes t) hnode rfl rfl hx
    rw [show (clearCodes t).root = (clearCodes s).root from hroot, hy]
    exact ⟨_, rfl, hlen, hval, hbits ((walk_frame _ _ _ _ _).of_done hx) ((walk_frame _ _ _ _ _).of_done hy) hlen⟩

/-! ### A valid tree and a valid code table stay true (10_state.md R37d, R37e) -/

/-- The two states hold the same nodes, tree, counts and codes. -/
structure SameTree (s t : State) : Prop where
  node : t.node = s.node
  freq : t.freq = s.freq
  root : t.root = s.root
  rootValid : t.rootValid = s.rootValid
  clen : t.clen = s.clen
  cval : t.cval = s.cval
  outbits : t.outbits = s.outbits
  codesValid : t.codesValid = s.codesValid

theorem EncodeFrame.sameTree {s t : State} (h : EncodeFrame s t) : SameTree s t := by
  unfold EncodeFrame at h
  rw [h]
  exact ⟨rfl, rfl, rfl, rfl, rfl, rfl, rfl, rfl⟩

theorem DecodeFrame.sameTree {s t : State} (h : DecodeFrame s t) : SameTree s t := by
  unfold DecodeFrame at h
  rw [h]
  exact ⟨rfl, rfl, rfl, rfl, rfl, rfl, rfl, rfl⟩

theorem HostFrame.sameTree {s t : State} (h : HostFrame s t) : SameTree s t := by
  unfold HostFrame at h
  rw [h]
  exact ⟨rfl, rfl, rfl, rfl, rfl, rfl, rfl, rfl⟩

/-- 10_state.md R37 (d) and (e): the parts of `TablesOk` that speak of the tree and the codes. -/
structure TreeAndCodesOk (s : State) : Prop where
  tree : s.rootValid = true → TreeOk s
  codes : s.codesValid = true → CodesOk s

theorem CodesOk.congr {s t : State} (h : CodesOk s) (hst : SameTree s t) : CodesOk t := by
  obtain ⟨hv, u, hu, hlen, hval, hbits⟩ := h
  obtain ⟨w, hw, hwlen, hwval, hwbits⟩ := genCodes_congr hst.node hst.root hst.freq hu
  refine ⟨hst.rootValid.trans hv, w, hw, ?_, ?_, ?_⟩
  · rw [hwlen, hlen, hst.clen]
  · rw [hwval, hval, hst.cval]
  · rw [hwbits, hbits, hst.outbits]

theorem TreeAndCodesOk.congr {s t : State} (h : TreeAndCodesOk s) (hst : SameTree s t) : TreeAndCodesOk t where
  tree hv := (h.tree (hst.rootValid ▸ hv)).congr hst.node hst.root hst.freq
  codes hv := (h.codes (hst.codesValid ▸ hv)).congr hst

theorem TreeAndCodesOk.of_eq {s t : State} (h : TreeAndCodesOk s) (hnode : t.node = s.node) (hfreq : t.freq = s.freq)
    (hroot : t.root = s.root) (hrootValid : t.rootValid = s.rootValid) (hclen : t.clen = s.clen)
    (hcval : t.cval = s.cval) (houtbits : t.outbits = s.outbits) (hcodesValid : t.codesValid = s.codesValid) :
    TreeAndCodesOk t :=
  h.congr ⟨hnode, hfreq, hroot, hrootValid, hclen, hcval, houtbits, hcodesValid⟩

/-- Neither a tree nor a code table is valid (43_tree_codes.md R183). -/
structure NoTree (s : State) : Prop where
  rootValid : s.rootValid = false
  codesValid : s.codesValid = false

theorem NoTree.ok {s : State} (h : NoTree s) : TreeAndCodesOk s where
  tree hv := by simp [h.rootValid] at hv
  codes hv := by simp [h.codesValid] at hv

theorem invalidateTree_noTree (s : State) : NoTree (invalidateTree s) := ⟨rfl, rfl⟩

theorem QueueFrame.noTree {s t : State} (h : QueueFrame s t) (hs : NoTree s) : NoTree t := by
  unfold QueueFrame at h
  rw [h]
  exact ⟨hs.rootValid, hs.codesValid⟩

theorem ScanFrame.noTree {s t : State} (h : ScanFrame s t) (hs : NoTree s) : NoTree t := by
  unfold ScanFrame at h
  rw [h]
  exact ⟨hs.rootValid, hs.codesValid⟩

theorem scanFreq_noTree (s : State) : (scanFreq s).Ends NoTree :=
  (scanLoop_frame _ _).mono fun _ h => h.noTree (invalidateTree_noTree _)

theorem readHeader_noTree (s : State) : (readHeader s).Ends NoTree := by
  refine Run.Ends.bind ((getByte_frame _).mono fun _ h => h.toScanFrame.noTree (invalidateTree_noTree _))
    (fun c t ht => ?_) fun _ h => h
  split
  · exact ht
  · exact (readPairs_frame _ t).mono fun _ h => h.noTree ht

/-- BuildTree ends with a tree of the table, or without one. -/
theorem buildTree_treeAndCodesOk (s : State) : (buildTree s).Ends TreeAndCodesOk := by
  by_cases h0 : ndist s = 0
  · have hraised : buildTree s = .raised .emptyInput (clearHeap (invalidateTree s)) := by
      have hd : ndist (clearHeap (invalidateTree s)) = 0 := h0
      simp only [buildTree, hd, if_true]
    rw [hraised]
    exact NoTree.ok ⟨rfl, rfl⟩
  · obtain ⟨n, t, u, hb, hone, hx, hframe, hdone⟩ := buildTree_built h0
    obtain ⟨-, -, hnode⟩ := heapExtract_done hx
    have hcodes : u.codesValid = false := (hframe.noTree ⟨rfl, rfl⟩).codesValid
    unfold QueueFrame at hframe
    have hfreq : u.freq = s.freq := by rw [hframe]; rfl
    rw [hdone]
    refine ⟨fun _ => hb.treeOk (heapExtract_last hone hx).1 (w := setRoot n u) hnode rfl hfreq, fun hv => ?_⟩
    have hv : u.codesValid = true := hv
    rw [hcodes] at hv
    cases hv

/-- GenCodes of a valid tree ends with the codes it computes. -/
theorem genCodes_treeAndCodesOk {s : State} (hv : s.rootValid = true) (htree : TreeOk s) :
    (genCodes s).Ends TreeAndCodesOk := by
  obtain ⟨t, hdone, hframe, -⟩ := htree.genCodes
  have hf : CodesFrame s (finishCodes t) := hframe.trans (by rfl)
  unfold CodesFrame at hf
  have hnode : (finishCodes t).node = s.node := by rw [hf]
  have hroot : (finishCodes t).root = s.root := by rw [hf]
  have hfreq : (finishCodes t).freq = s.freq := by rw [hf]
  have hvalid : (finishCodes t).rootValid = true := by rw [hf]; exact hv
  rw [hdone]
  exact ⟨fun _ => htree.congr hnode hroot hfreq, fun _ => ⟨hvalid, genCodes_congr hnode hroot hfreq hdone⟩⟩

theorem compressBody_treeAndCodesOk {s : State} (hs : TreeAndCodesOk s) : (compressBody s).Ends TreeAndCodesOk :=
  compressBody_ends (hs.of_eq rfl rfl rfl rfl rfl rfl rfl rfl)
    (fun t ht => (sourceRewind_frame t).mono fun _ h => ht.congr h.toEncodeFrame.sameTree)
    (fun t _ => (scanFreq_noTree t).mono fun _ h => h.ok) (fun t _ => buildTree_treeAndCodesOk t)
    (fun _ hv ht => genCodes_treeAndCodesOk hv (ht.tree hv))
    (fun t ht => (writeHeader_frame t).mono fun _ h => ht.congr h.toDecodeFrame.sameTree)
    (fun n t ht => (encodeLoop_frame n t).mono fun _ h => ht.congr h.sameTree)
    fun t ht => (flushBits_frame t).mono fun _ h => ht.congr h.toEncodeFrame.sameTree

theorem decompressBody_treeAndCodesOk {s : State} (hs : TreeAndCodesOk s) :
    (decompressBody s).Ends TreeAndCodesOk :=
  decompressBody_ends (hs.of_eq rfl rfl rfl rfl rfl rfl rfl rfl)
    (fun t _ => (readHeader_noTree t).mono fun _ h => h.ok) (fun t _ => buildTree_treeAndCodesOk t)
    fun n t ht => (decodeAll_frame n t).mono fun _ h => ht.congr h.sameTree

/-- Every command's body keeps a valid tree and a valid code table true: it invalidates them where it writes FREQ or
the nodes, makes them anew, or leaves all they speak of alone. -/
theorem commandBody_treeAndCodesOk (i : Instr) {s : State} (hs : TreeAndCodesOk s) :
    (commandBody i s).Ends TreeAndCodesOk := by
  have hno := invalidateTree_noTree s
  have hrecord : ∀ (n : NodeIdx) (t : State), NoTree t → NoTree (nodeRecord n t) :=
    fun _ _ ht => ⟨ht.rootValid, ht.codesValid⟩
  cases i with
  | reset => exact NoTree.ok ⟨rfl, rfl⟩
  | freqClear | freqSet | heapClear => exact NoTree.ok ⟨rfl, rfl⟩
  | freqScan => exact (scanFreq_noTree _).mono fun _ h => h.ok
  | hdrRead => exact (readHeader_noTree _).mono fun _ h => h.ok
  | heapInsert sym =>
    refine Run.Ends.mono (P := NoTree) ?_ fun _ h => h.ok
    refine Run.Ends.bind ((newNode_frame _ _).mono fun _ h => h.noTree hno) (fun n t ht => ?_) fun _ h => h
    exact Run.Ends.bind ((heapInsert_frame n t).mono fun _ h => h.toQueueFrame.noTree ht) (fun _ => hrecord n)
      fun _ h => h
  | heapExtract =>
    rw [commandBody]
    split
    · exact NoTree.ok ⟨rfl, rfl⟩
    · refine Run.Ends.mono (P := NoTree) ?_ fun _ h => h.ok
      exact Run.Ends.bind ((heapExtract_frame _).mono fun _ h => h.toQueueFrame.noTree hno) hrecord fun _ h => h
  | heapMerge =>
    rw [commandBody]
    split
    · exact NoTree.ok ⟨rfl, rfl⟩
    · split
      · exact hno.ok
      · refine Run.Ends.mono (P := NoTree) ?_ fun _ h => h.ok
        exact Run.Ends.bind ((mergeTwo_frame _).mono fun _ h => h.noTree hno) hrecord fun _ h => h
  | buildTree => exact buildTree_treeAndCodesOk s
  | genCodes =>
    rw [commandBody]
    split
    · exact hs
    · have hv := eq_true_of_ne_false ‹_›
      exact genCodes_treeAndCodesOk hv (hs.tree hv)
  | compress => exact compressBody_treeAndCodesOk hs
  | decompress => exact decompressBody_treeAndCodesOk hs
  | _ =>
    refine (commandBody_frame _ s).mono fun t ht => ?_
    rw [CommandFrame] at ht
    rw [ht]
    exact hs.of_eq rfl rfl rfl rfl rfl rfl rfl rfl

/-- Settles O56: the queue's part by its invariant, the tree's and the codes' by what each body does to them. -/
theorem everyStepKeepsTheTablesSound : Obligations.EveryStepKeepsTheTablesSound := by
  intro s t ⟨hq, ho, htree, hcodes⟩ h
  obtain ⟨hq', ho'⟩ := heapOrdered_invariant.step ⟨hq, ho⟩ h
  have hnew : TreeAndCodesOk t := step_keeps h ⟨htree, hcodes⟩ (fun _ => NoTree.ok ⟨rfl, rfl⟩)
    (fun _ _ huv hu => hu.congr huv.sameTree) fun i _ => commandBody_treeAndCodesOk i
  exact ⟨hq', ho', hnew.tree, hnew.codes⟩

end Sys2Proof.Machine
end

section
/-!
PROOFS. Commands that count bytes and move bits (41_frequency.md, 45_bitwriter.md, 46_bitreader.md), the registers and
the node record (20_memory.md R62, 30_encoding.md R99), and the reset state (10_state.md R40).
-/

namespace Sys2Proof.Machine

/-! ### The counts (10_state.md R27, 41_frequency.md R131, R134) -/

/-- A count written into the table enters TOTAL in the place of the old one. -/
theorem total_setFreq (b : Byte) (f : BitVec 32) (s : State) :
    total (setFreq b f s) + (atSym s.freq b).toNat = total s + f.toNat := by
  have hb : b.toNat < s.freq.toList.length := by simpa using b.isLt
  have hget : s.freq.toList[b.toNat] = atSym s.freq b := by simp [atSym]
  have hnew : (setFreq b f s).freq.toList = s.freq.toList.set b.toNat f := by
    simp [setFreq, setSym, Vector.toList_set]
  have hset := ((List.set_perm_cons_eraseIdx hb f).map BitVec.toNat).sum_eq
  have hold := ((List.getElem_cons_eraseIdx_perm hb).map BitVec.toNat).sum_eq
  rw [List.map_cons, List.sum_cons] at hset hold
  rw [hget] at hold
  rw [total, total, hnew]
  omega

/-- Settles O20: FREQ_SET is one write into the table, after which the tree and the codes are invalid. -/
theorem freqSetWritesOneEntry : Obligations.FreqSetWritesOneEntry := fun sym s he =>
  ⟨invalidateTree (setFreq sym s.arg (clearFlags s)), exec_of_done nofun he rfl,
    fun b => atSym_setSym s.freq b sym s.arg, total_setFreq sym s.arg (clearFlags s), rfl⟩

/-! ### The ports with no collaborator failure (20_memory.md R71 to R74) -/

theorem remaining_eq_nil_iff {s : State} : remaining s = [] ↔ s.srcseq[s.spos]? = none := by
  rw [remaining, List.drop_eq_nil_iff, List.getElem?_eq_none_iff]

/-- The first byte not yet read is the one at the source's position. -/
theorem remaining_eq_cons {s : State} {b : Byte} {xs : List Byte} (h : remaining s = b :: xs) :
    s.srcseq[s.spos]? = some b ∧ s.srcseq.drop (s.spos + 1) = xs := by
  unfold remaining at h
  refine ⟨?_, ?_⟩
  · rw [← List.head?_drop, h]
    rfl
  · rw [← List.tail_drop, h]
    rfl

theorem failDraw_noFailure_eq {s : State} (h : NoCollaboratorFailure s) :
    ∃ ds, failDraw s = (false, { s with draws := ds }) ∧ ∀ d ∈ ds, d = false := by
  refine ⟨(failDraw s).2.draws, ?_, failDraw_noFailure h⟩
  rw [← failDraw_frame, ← failDraw_fst_of_noFailure h]

theorem sourceRead_byte_of_noFailure {s : State} {b : Byte} {xs : List Byte} (h : NoCollaboratorFailure s)
    (hx : remaining s = b :: xs) :
    ∃ t, sourceRead s = (.byte b, t) ∧ NoCollaboratorFailure t ∧ remaining t = xs ∧
      t = { s with draws := t.draws, spos := s.spos + 1 } := by
  obtain ⟨hb, hrest⟩ := remaining_eq_cons hx
  obtain ⟨ds, hd, hds⟩ := failDraw_noFailure_eq h
  exact ⟨{ s with draws := ds, spos := s.spos + 1 }, by simp [sourceRead, hd, hb], hds, hrest, rfl⟩

theorem sourceRead_eos_of_noFailure {s : State} (h : NoCollaboratorFailure s) (hx : remaining s = []) :
    ∃ t, sourceRead s = (.eos, t) ∧ NoCollaboratorFailure t ∧ t = { s with draws := t.draws } := by
  obtain ⟨ds, hd, hds⟩ := failDraw_noFailure_eq h
  exact ⟨{ s with draws := ds }, by simp [sourceRead, hd, remaining_eq_nil_iff.mp hx], hds, rfl⟩

theorem sinkWrite_of_noFailure {s : State} (h : NoCollaboratorFailure s) (b : Byte) :
    ∃ t, sinkWrite b s = .done () t ∧ NoCollaboratorFailure t ∧
      t = { s with draws := t.draws, snkseq := s.snkseq ++ [b] } := by
  obtain ⟨ds, hd, hds⟩ := failDraw_noFailure_eq h
  exact ⟨{ s with draws := ds, snkseq := s.snkseq ++ [b] }, by simp [sinkWrite, hd], hds, rfl⟩

theorem sourceLeft_eq (s : State) : sourceLeft s = (remaining s).length := by
  rw [sourceLeft, remaining, List.length_drop]

/-! ### ScanFreq (41_frequency.md R131) -/

/-- One more of the byte `c`, where its count has room. -/
theorem setFreq_count {s : State} {c : Byte} (h : (atSym s.freq c).toNat + 1 < 2 ^ 32) :
    (∀ b : Byte, (atSym (setFreq c (atSym s.freq c + 1#32) s).freq b).toNat =
      (atSym s.freq b).toNat + [c].count b) ∧
    total (setFreq c (atSym s.freq c + 1#32) s) = total s + 1 := by
  have hsucc : (atSym s.freq c + 1#32).toNat = (atSym s.freq c).toNat + 1 := Nat.mod_eq_of_lt h
  refine ⟨fun b => ?_, ?_⟩
  · show (atSym (setSym s.freq c _) b).toNat = _
    rw [atSym_setSym]
    split
    · rename_i hbc
      rw [hsucc, hbc, List.count_singleton_self]
    · rename_i hbc
      rw [List.count_singleton]
      simp [Ne.symm hbc]
  · have hset := total_setFreq c (atSym s.freq c + 1#32) s
    omega

/-- The scan adds each byte left to its count, and ends at the source's end. -/
theorem scanLoop_counts {xs : List Byte} {k : Nat} {s : State} (hno : NoCollaboratorFailure s)
    (hx : remaining s = xs) (hk : xs.length < k)
    (hfit : ∀ b : Byte, (atSym s.freq b).toNat + xs.count b < 2 ^ 32) :
    ∃ t, scanLoop k s = .done () t ∧ (∀ b : Byte, (atSym t.freq b).toNat = (atSym s.freq b).toNat + xs.count b) ∧
      total t = total s + xs.length ∧ t.spos = s.spos + xs.length := by
  induction xs generalizing k s with
  | nil =>
    obtain ⟨k, rfl⟩ := Nat.exists_eq_succ_of_ne_zero (Nat.ne_of_gt hk)
    obtain ⟨t, hr, -, ht⟩ := sourceRead_eos_of_noFailure hno hx
    refine ⟨t, by rw [scanLoop, hr], ?_⟩
    rw [ht]
    exact ⟨fun b => by simp, rfl, rfl⟩
  | cons c xs ih =>
    obtain ⟨k, rfl⟩ := Nat.exists_eq_succ_of_ne_zero (Nat.ne_of_gt (Nat.zero_lt_of_lt hk))
    obtain ⟨t, hr, hno', hrest, ht⟩ := sourceRead_byte_of_noFailure hno hx
    have hfreq : t.freq = s.freq := by rw [ht]
    have hspos : t.spos = s.spos + 1 := by rw [ht]
    have hroom : (atSym t.freq c).toNat + 1 < 2 ^ 32 := by
      have hc := hfit c
      rw [List.count_cons_self] at hc
      rw [hfreq]
      omega
    have hnotfull : atSym t.freq c ≠ 0xFFFFFFFF#32 := fun hfull => by
      rw [hfull] at hroom
      exact absurd hroom (by decide)
    obtain ⟨hentry, htotal⟩ := setFreq_count hroom
    have hcount : ∀ b : Byte, (c :: xs).count b = [c].count b + xs.count b := fun b => List.count_append (l₁ := [c])
    obtain ⟨v, hv, hcounts, htotal', hspos'⟩ := ih (s := setFreq c (atSym t.freq c + 1#32) t) (k := k) hno' hrest
      (Nat.lt_of_succ_lt_succ hk) fun b => by rw [hentry, hfreq, Nat.add_assoc, ← hcount]; exact hfit b
    refine ⟨v, ?_, fun b => by rw [hcounts, hentry, hfreq, hcount, Nat.add_assoc], ?_, ?_⟩
    · rw [scanLoop, hr]
      simp only [hnotfull, if_false]
      exact hv
    · have hsame : total t = total s := by rw [total, total, hfreq]
      rw [htotal', htotal, hsame, List.length_cons]
      omega
    · rw [hspos', setFreq_spos, hspos, List.length_cons]
      omega

theorem ndist_eq_length_filter (s : State) : ndist s = (allSymbols.filter fun b => atSym s.freq b != 0#32).length := by
  rw [ndist, toList_eq_map_atSym, List.countP_map, List.countP_eq_length_filter]
  rfl

/-- A table of the counts of a byte sequence has as many distinct symbols as the sequence. -/
theorem ndist_of_counts {s : State} {xs : List Byte} (h : ∀ b : Byte, (atSym s.freq b).toNat = xs.count b) :
    ndist s = distinctSymbols xs := by
  have hmem : ∀ b : Byte, atSym s.freq b ≠ 0#32 ↔ b ∈ xs := by
    intro b
    rw [← List.count_pos_iff, ← h b, ne_eq, BitVec.toNat_eq]
    exact Nat.pos_iff_ne_zero.symm
  rw [ndist_eq_length_filter, distinctSymbols]
  refine List.Perm.length_eq ((List.perm_ext_iff_of_nodup (allSymbols_nodup.filter _) (List.nodup_dedup xs)).mpr ?_)
  intro b
  rw [List.mem_filter, List.mem_dedup, ← hmem b]
  simp [mem_allSymbols]

/-- Settles O23, by the counts that the scan has made at each byte (`scanLoop_counts`). -/
theorem freqScanCountsEveryByte : Obligations.FreqScanCountsEveryByte := by
  intro s he hno hpos hfit
  let u : State := invalidateTree (clearFreq (clearReader (clearFlags s)))
  have hzero : ∀ b : Byte, atSym u.freq b = 0#32 := fun b => atSym_replicate _ b
  obtain ⟨t, hdone, hcounts, htotal, hspos⟩ := scanLoop_counts (s := u) (xs := remaining s) (k := sourceLeft u + 1)
    hno rfl (by rw [sourceLeft_eq]; exact Nat.lt_succ_self _) fun b => by rw [hzero]; simpa using hfit b
  have hcounts' : ∀ b : Byte, (atSym t.freq b).toNat = (remaining s).count b := fun b => by
    rw [hcounts, hzero]
    exact Nat.zero_add _
  have hempty : total u = 0 := by
    rw [total_eq_sum]
    simp [hzero]
  have hframe := (scanLoop_frame _ _).of_done hdone
  refine ⟨t, exec_of_done nofun he hdone, hcounts', by rw [htotal, hempty, Nat.zero_add], ndist_of_counts hcounts', ?_,
    ?_⟩
  · rw [hspos]
    show s.spos + (s.srcseq.drop s.spos).length = _
    rw [List.length_drop]
    unfold SourceOk at hpos
    omega
  · unfold ScanFrame at hframe
    rw [hframe]
    rfl

/-! ### The bit writer (45_bitwriter.md R220, R221) -/

theorem byteBits_eq (b : Byte) : byteBits b = lowBits 8 b := rfl

theorem streamBits_append (xs ys : List Byte) : streamBits (xs ++ ys) = streamBits xs ++ streamBits ys :=
  List.flatMap_append

theorem streamBits_singleton (b : Byte) : streamBits [b] = lowBits 8 b := by simp [streamBits, byteBits_eq]

/-- The pending bits with one more put in after them. -/
theorem lowBits_push {n : Nat} (acc : BitVec 8) (b : Bool) (hn : n < 8) :
    lowBits (n + 1) (BitVec.ofNat 8 (acc.toNat * 2 + b.toNat)) = lowBits n acc ++ [b] := by
  rw [Nat.mul_comm, lowBits_succ_ofNat hn, BitVec.ofNat_toNat, BitVec.setWidth_eq]

/-- Zero bits shifted in stand at the end. -/
theorem lowBits_shift {n j : Nat} (acc : BitVec 8) (h : n + j ≤ 8) :
    lowBits (n + j) (BitVec.ofNat 8 (acc.toNat * 2 ^ j)) = lowBits n acc ++ List.replicate j false := by
  induction j with
  | zero => simp
  | succ j ih =>
    have hv : acc.toNat * 2 ^ (j + 1) = 2 * (acc.toNat * 2 ^ j) + false.toNat := by
      rw [Nat.pow_succ]
      simp
      ring
    rw [← Nat.add_assoc, hv, lowBits_succ_ofNat (by omega), ih (by omega), List.replicate_succ', List.append_assoc]

/-- The pending bits, shifted to the top of a byte, fit it. -/
theorem WriterOk.pad_lt {s : State} (h : WriterOk s) : s.wacc.toNat * 2 ^ (8 - s.wcnt.val) < 256 := by
  have hcnt := s.wcnt.isLt
  calc s.wacc.toNat * 2 ^ (8 - s.wcnt.val)
    _ < 2 ^ s.wcnt.val * 2 ^ (8 - s.wcnt.val) := Nat.mul_lt_mul_of_pos_right h (Nat.two_pow_pos _)
    _ = 256 := by rw [← Nat.pow_add, show s.wcnt.val + (8 - s.wcnt.val) = 8 by omega]

theorem putBit_of_room {s : State} (hw : WriterOk s) (b : Bool) (h : s.wcnt.val + 1 < 8) :
    putBit b s = .done ()
      { s with wacc := BitVec.ofNat 8 (s.wacc.toNat * 2 + b.toNat), wcnt := ⟨s.wcnt.val + 1, h⟩ } := by
  have hfit : s.wacc.toNat * 2 + b.toNat < 256 :=
    (hw.push_lt b).trans_le (Nat.pow_le_pow_right Nat.two_pos s.wcnt.isLt)
  unfold putBit
  rw [if_pos hfit, dif_pos h]

theorem putBit_of_full {s : State} (hw : WriterOk s) (b : Bool) (h : s.wcnt.val = 7) :
    putBit b s = sinkWrite (BitVec.ofNat 8 (s.wacc.toNat * 2 + b.toNat)) (clearWriter s) := by
  rcases putBit_cases hw b with ⟨hlt, -⟩ | he
  · omega
  · exact he

/-- With no collaborator failure the bit is appended to those written. -/
theorem putBit_appends {s : State} (hw : WriterOk s) (hno : NoCollaboratorFailure s) (b : Bool) :
    ∃ t, putBit b s = .done () t ∧ writtenBits t = writtenBits s ++ [b] ∧ t.wcnt.val = (s.wcnt.val + 1) % 8 := by
  have hcnt := s.wcnt.isLt
  have hpush := lowBits_push s.wacc b hcnt
  rcases Nat.lt_or_ge (s.wcnt.val + 1) 8 with hroom | hfull
  · refine ⟨_, putBit_of_room hw b hroom, ?_, (Nat.mod_eq_of_lt hroom).symm⟩
    rw [writtenBits, writtenBits, List.append_assoc]
    exact congrArg (streamBits s.snkseq ++ ·) hpush
  · have h7 : s.wcnt.val = 7 := by omega
    obtain ⟨t, hdone, -, ht⟩ := sinkWrite_of_noFailure (s := clearWriter s) hno
      (BitVec.ofNat 8 (s.wacc.toNat * 2 + b.toNat))
    refine ⟨t, (putBit_of_full hw b h7).trans hdone, ?_, ?_⟩
    · rw [ht, writtenBits, writtenBits, streamBits_append, streamBits_singleton, List.append_assoc]
      rw [pendingBits, pendingBits, List.append_assoc, ← hpush, h7]
      exact congrArg (streamBits s.snkseq ++ ·) (List.append_nil _)
    · rw [ht, h7]
      rfl

/-- Settles O41: where the buffer has room the bit stays in it, and a full byte is the eight bits pending. -/
theorem bwBitAppendsOneBit : Obligations.BwBitAppendsOneBit := by
  intro b s he hw
  refine ⟨fun hno => ?_, fun ds hds h7 => ?_⟩
  · obtain ⟨t, hdone, hbits, hcnt⟩ := putBit_appends (s := clearFlags s) hw hno b
    refine ⟨t, exec_of_done nofun he hdone, hbits, hcnt, (putBit_writerOk (s := clearFlags s) hw b).of_done hdone, ?_⟩
    have hframe := (putBit_frame b _).of_done hdone
    unfold WriterFrame at hframe
    rw [hframe]
    rfl
  · have hfull := putBit_of_full (s := clearFlags s) hw b h7
    refine exec_of_raised (e := .sinkWrite) (t := { clearWriter (clearFlags s) with draws := ds }) nofun he ?_
    exact hfull.trans (by simp [sinkWrite, failDraw, hds])

/-- With bits pending and no collaborator failure, the flush sends them padded with zero bits. -/
theorem flushBits_of_pending {s : State} (hw : WriterOk s) (hno : NoCollaboratorFailure s) (h0 : s.wcnt.val ≠ 0) :
    ∃ t, flushBits s = .done () t ∧ t.wacc = 0#8 ∧ t.wcnt.val = 0 ∧
      streamBits t.snkseq = writtenBits s ++ List.replicate (8 - s.wcnt.val) false := by
  have hcnt := s.wcnt.isLt
  have hsum : s.wcnt.val + (8 - s.wcnt.val) = 8 := by omega
  obtain ⟨t, hdone, -, ht⟩ := sinkWrite_of_noFailure (s := clearWriter s) hno
    (BitVec.ofNat 8 (s.wacc.toNat * 2 ^ (8 - s.wcnt.val)))
  refine ⟨t, ?_, by rw [ht]; rfl, by rw [ht]; rfl, ?_⟩
  · unfold flushBits
    rw [if_neg h0, if_pos hw.pad_lt, hdone]
  · have hpad := lowBits_shift s.wacc (j := 8 - s.wcnt.val) hsum.le
    rw [hsum] at hpad
    rw [ht, streamBits_append, streamBits_singleton, hpad, writtenBits, List.append_assoc]
    rfl

/-- Settles O42: nothing is sent with no bit pending, and the padded byte otherwise. -/
theorem bwFlushPadsThePartialByte : Obligations.BwFlushPadsThePartialByte := by
  intro s he hw hno
  have hcnt := s.wcnt.isLt
  by_cases h0 : s.wcnt.val = 0
  · have hdone : commandBody .bwFlush (clearFlags s) = .done () (clearFlags s) := if_pos h0
    refine ⟨clearFlags s, exec_of_done nofun he hdone, ?_, h0, fun h => absurd h0 h, fun _ => rfl, rfl⟩
    rw [writtenBits, pendingBits, h0]
    simp
  · obtain ⟨t, hdone, hacc, hzero, hbits⟩ := flushBits_of_pending (s := clearFlags s) hw hno h0
    refine ⟨t, exec_of_done nofun he hdone, ?_, hzero, fun _ => hacc, fun h => absurd h h0, ?_⟩
    · rw [Nat.mod_eq_of_lt (by omega)]
      exact hbits
    · have hframe := (flushBits_frame _).of_done hdone
      unfold WriterFrame at hframe
      rw [hframe]
      rfl

/-! ### The bit reader (46_bitreader.md R241) -/

/-- The first of the low bits is the highest. -/
theorem lowBits_succ {w : Nat} (n : Nat) (v : BitVec w) : lowBits (n + 1) v = v.getLsbD n :: lowBits n v := by
  rw [lowBits, List.range_succ_eq_map, List.map_cons, List.map_map, lowBits]
  congr 1
  refine List.map_congr_left fun j _ => ?_
  exact congrArg v.getLsbD (by omega)

theorem getBit_of_window {s : State} {r : Nat} (h : s.rcnt.val = r + 1) :
    ∃ hr : r < 9, getBit s = .done (some (s.rwin.getLsbD r)) { s with rcnt := ⟨r, hr⟩ } := by
  have hlt := s.rcnt.isLt
  refine ⟨by omega, ?_⟩
  have hrcnt : s.rcnt = ⟨r + 1, by omega⟩ := Fin.ext h
  unfold getBit
  split
  · rename_i r' h' heq
    rw [hrcnt, Fin.mk.injEq] at heq
    obtain rfl : r = r' := by omega
    rfl
  · rename_i heq
    rw [hrcnt, Fin.mk.injEq] at heq
    omega

/-- With an empty window `GetBit` reads a byte of the source and takes its first bit. -/
theorem getBit_of_byte {s t : State} {b : Byte} (h : s.rcnt.val = 0) (hr : sourceRead s = (.byte b, t)) :
    getBit s = .done (some (b.getLsbD 7)) { t with rwin := b, rcnt := 7 } := by
  unfold getBit
  split
  · rename_i heq
    rw [heq] at h
    cases h
  · rw [hr]
    rfl

theorem getBit_of_eos {s t : State} (h : s.rcnt.val = 0) (hr : sourceRead s = (.eos, t)) :
    getBit s = .done none t := by
  unfold getBit
  split
  · rename_i heq
    rw [heq] at h
    cases h
  · rw [hr]

/-- With no collaborator failure `GetBit` returns the first of the unread bits and leaves the others. -/
theorem getBit_of_unread {s : State} {b : Bool} {rest : List Bool} (hno : NoCollaboratorFailure s)
    (h : unreadBits s = b :: rest) :
    ∃ t, getBit s = .done (some b) t ∧ NoCollaboratorFailure t ∧ unreadBits t = rest := by
  rcases Nat.eq_zero_or_pos s.rcnt.val with h0 | hpos
  · cases hx : remaining s with
    | nil => simp [unreadBits, h0, hx, streamBits] at h
    | cons y ys =>
      obtain ⟨t, hr, hno', hrest, -⟩ := sourceRead_byte_of_noFailure hno hx
      have hunread : unreadBits s = y.getLsbD 7 :: (lowBits 7 y ++ streamBits ys) := by
        rw [unreadBits, h0, hx, lowBits_zero, List.nil_append, streamBits, List.flatMap_cons, byteBits_eq, lowBits_succ]
        rfl
      rw [hunread, List.cons.injEq] at h
      obtain ⟨rfl, rfl⟩ := h
      exact ⟨_, getBit_of_byte h0 hr, hno', congrArg (lowBits 7 y ++ streamBits ·) hrest⟩
  · obtain ⟨r, hr⟩ := Nat.exists_eq_succ_of_ne_zero hpos.ne'
    obtain ⟨hlt, hdone⟩ := getBit_of_window hr
    have hunread : unreadBits s = s.rwin.getLsbD r :: (lowBits r s.rwin ++ streamBits (remaining s)) := by
      rw [unreadBits, hr, lowBits_succ]
      rfl
    rw [hunread, List.cons.injEq] at h
    obtain ⟨rfl, rfl⟩ := h
    exact ⟨_, hdone, hno, rfl⟩

/-- With no bit left it answers the end of the stream. -/
theorem getBit_of_end {s : State} (hno : NoCollaboratorFailure s) (h : unreadBits s = []) :
    ∃ t, getBit s = .done none t ∧ NoCollaboratorFailure t ∧ t = { s with draws := t.draws } := by
  obtain ⟨hwindow, hstream⟩ := List.append_eq_nil_iff.mp h
  have h0 : s.rcnt.val = 0 := by
    have hlen := congrArg List.length hwindow
    simpa [lowBits] using hlen
  have hx : remaining s = [] := by
    cases hx : remaining s with
    | nil => rfl
    | cons y ys => simp [hx, streamBits, byteBits] at hstream
  obtain ⟨t, hr, hno', ht⟩ := sourceRead_eos_of_noFailure hno hx
  exact ⟨t, getBit_of_eos h0 hr, hno', ht⟩

/-- Settles O44, from what `GetBit` returns where a bit is left and where none is. -/
theorem brBitReturnsTheNextBit : Obligations.BrBitReturnsTheNextBit := by
  intro s he hno
  refine ⟨fun b rest h => ?_, fun h => ?_⟩
  · obtain ⟨t, hdone, -, hrest⟩ := getBit_of_unread (s := clearFlags s) hno h
    have hframe := (getBit_frame _).of_done hdone
    refine ⟨setResult0 (zext 32 (BitVec.ofBool b)) t, exec_of_done nofun he ?_, ?_, hrest, ?_⟩
    · rw [commandBody, hdone, Run.bind_done]
    · cases b <;> rfl
    · unfold ReaderFrame at hframe
      rw [hframe]
      rfl
  · obtain ⟨t, hdone, -, ht⟩ := getBit_of_end (s := clearFlags s) hno h
    refine ⟨setEos t, exec_of_done nofun he ?_, ?_⟩
    · rw [commandBody, hdone, Run.bind_done]
    · rw [ht]
      rfl

/-! ### The registers and the node record (20_memory.md R62, R68, 30_encoding.md R99) -/

/-- TOTAL fits 40 bits in every state (10_state.md R27). -/
theorem total_lt (s : State) : total s < 2 ^ 40 := by
  have hentry : ∀ x ∈ allSymbols.map fun b => (atSym s.freq b).toNat, x ≤ 2 ^ 32 - 1 := by
    intro x hx
    obtain ⟨b, -, rfl⟩ := List.mem_map.mp hx
    have := (atSym s.freq b).isLt
    omega
  have hsum := List.sum_le_card_nsmul _ _ hentry
  rw [← total_eq_sum, List.length_map, allSymbols_length, smul_eq_mul] at hsum
  omega

/-- The two words of a count of at most 64 bits give it whole. -/
theorem halves_of_nat {n : Nat} (h : n < 2 ^ 64) :
    (BitVec.ofNat 32 n).toNat + 2 ^ 32 * (BitVec.ofNat 32 (n / 2 ^ 32)).toNat = n := by
  rw [BitVec.toNat_ofNat, BitVec.toNat_ofNat]
  omega

/-- So do the two fields of a register of at most 64 bits. -/
theorem halves_of_bits {w k : Nat} (v : BitVec w) (hw : w = 32 + k) (hk : k ≤ 32) :
    (bits v 0 32).toNat + 2 ^ 32 * (zext 32 (bits v 32 k)).toNat = v.toNat := by
  have hlt : v.toNat / 2 ^ 32 < 2 ^ k := by
    rw [Nat.div_lt_iff_lt_mul (Nat.two_pow_pos 32), ← Nat.pow_add, Nat.add_comm, ← hw]
    exact v.isLt
  have hk32 : 2 ^ k ≤ 2 ^ 32 := Nat.pow_le_pow_right Nat.two_pos hk
  rw [BitVec.toNat_setWidth, BitVec.extractLsb'_toNat, BitVec.extractLsb'_toNat, Nat.shiftRight_eq_div_pow,
    Nat.shiftRight_eq_div_pow, Nat.mod_eq_of_lt hlt, Nat.mod_eq_of_lt (hlt.trans_le hk32)]
  omega

/-- Settles O17: each pair of registers shows the low and the high word of its count. -/
theorem registerHalvesGiveTheWholeCount : Obligations.RegisterHalvesGiveTheWholeCount := by
  intro s
  have htotal := total_lt s
  refine ⟨htotal, halves_of_nat (by omega), halves_of_bits s.outbits rfl (by omega), ?_,
    halves_of_bits s.xcnt rfl (by omega)⟩
  exact halves_of_nat (n := 8 * total s) (by omega)

/-- A field inside the low part of a word of two parts is a field of that part. -/
theorem bits_append_low {v w : Nat} (x : BitVec v) (y : BitVec w) {lo n : Nat} (h : lo + n ≤ w) :
    bits (x ++ y) lo n = bits y lo n := by
  apply BitVec.eq_of_getLsbD_eq
  intro i hi
  simp only [BitVec.getLsbD_extractLsb', BitVec.getLsbD_append, show lo + i < w by omega, if_true]

/-- A field above the low part is a field of the high one. -/
theorem bits_append_high {v w : Nat} (x : BitVec v) (y : BitVec w) (lo n : Nat) :
    bits (x ++ y) (w + lo) n = bits x lo n := by
  apply BitVec.eq_of_getLsbD_eq
  intro i hi
  simp only [BitVec.getLsbD_extractLsb', BitVec.getLsbD_append, show ¬ w + lo + i < w by omega, if_false,
    show w + lo + i - w = lo + i by omega]

theorem bits_all {w : Nat} (x : BitVec w) : bits x 0 w = x := by
  apply BitVec.eq_of_getLsbD_eq
  intro i hi
  simp [hi]

/-- The fields of RESULT0 of a node record. -/
theorem recordWord0_fields (n : NodeIdx) (d : Node) :
    bits (recordWord0 n d) 0 9 = idxBits n ∧ bits (recordWord0 n d) 9 7 = 0#7 ∧
      bits (recordWord0 n d) 16 9 = symBits d.sym ∧ bits (recordWord0 n d) 25 7 = 0#7 := by
  refine ⟨?_, ?_, ?_, ?_⟩
  · exact (bits_append_low _ _ (by omega)).trans (bits_all _)
  · refine (bits_append_high (w := 9) _ _ 0 7).trans ?_
    exact (bits_append_low _ _ (by omega)).trans (bits_all _)
  · refine (bits_append_high (w := 9) _ _ 7 9).trans ((bits_append_high (w := 7) _ _ 0 9).trans ?_)
    exact (bits_append_low _ _ (by omega)).trans (bits_all _)
  · refine (bits_append_high (w := 9) _ _ 16 7).trans ((bits_append_high (w := 7) _ _ 9 7).trans ?_)
    exact (bits_append_high (w := 9) _ _ 0 7).trans (bits_all _)

/-- The fields of RESULT2 of a node record. -/
theorem recordWord2_fields (d : Node) :
    bits (recordWord2 d) 0 8 = bits d.freq 32 8 ∧ bits (recordWord2 d) 8 9 = childBits d.left ∧
      bits (recordWord2 d) 17 9 = childBits d.right ∧ bits (recordWord2 d) 26 6 = 0#6 := by
  refine ⟨?_, ?_, ?_, ?_⟩
  · exact (bits_append_low _ _ (by omega)).trans (bits_all _)
  · refine (bits_append_high (w := 8) _ _ 0 9).trans ?_
    exact (bits_append_low _ _ (by omega)).trans (bits_all _)
  · refine (bits_append_high (w := 8) _ _ 9 9).trans ((bits_append_high (w := 9) _ _ 0 9).trans ?_)
    exact (bits_append_low _ _ (by omega)).trans (bits_all _)
  · refine (bits_append_high (w := 8) _ _ 18 6).trans ((bits_append_high (w := 9) _ _ 9 6).trans ?_)
    exact (bits_append_high (w := 9) _ _ 0 6).trans (bits_all _)

/-- Settles O22, field by field of the three words. -/
theorem nodeRecordHoldsEveryField : Obligations.NodeRecordHoldsEveryField := by
  intro n d
  obtain ⟨hidx, hgap, hsym, htop⟩ := recordWord0_fields n d
  obtain ⟨hfreq, hleft, hright, htop'⟩ := recordWord2_fields d
  rw [hidx, hsym, hfreq, hleft, hright]
  refine ⟨idxBits_toNat n, hgap, fun b hb => ?_, fun hs => ?_, htop, ?_, fun hl => ?_, fun l hl => ?_, fun hr => ?_,
    fun r hr => ?_, htop'⟩
  · rw [hb, symBits_leaf_toNat]
  · rw [hs, symBits_sentinel]
  · have hhigh : (bits d.freq 32 8).toNat < 2 ^ 8 := BitVec.isLt _
    have hhalves := halves_of_bits d.freq (k := 8) rfl (by omega)
    rwa [BitVec.toNat_setWidth, Nat.mod_eq_of_lt (by omega)] at hhalves
  · rw [hl, childBits_none]
  · rw [hl, childBits_some, idxBits_toNat]
  · rw [hr, childBits_none]
  · rw [hr, childBits_some, idxBits_toNat]

/-! ### The host's accesses (20_memory.md R64 to R66) -/

/-- The one access the block defines is 32 bits at a multiple of 4. -/
theorem accessOk_iff {width : AccessWidth} {off : BitVec 8} :
    accessOk width off = true ↔ width = .w32 ∧ off.toNat % 4 = 0 := by
  cases width with
  | w32 => simp [accessOk, BitVec.toNat_eq]
  | w8 | w16 | w64 => simp [accessOk]

theorem step_of_pending {s : State} {a : HostAct} {rest : List HostAct} (h : s.pending = a :: rest) :
    step s = hostAct a { s with pending := rest } := by
  unfold step hostStep
  rw [h]

/-- Settles O6, one clause for each act of the host. -/
theorem hostAccessesReachTheRegisters : Obligations.HostAccessesReachTheRegisters := by
  intro s
  refine ⟨fun h => by unfold step hostStep; rw [h], fun rest width off v seq pos => ?_⟩
  refine ⟨fun h => ?_, fun h hbad => ?_, fun h hoff hcmd => ?_, fun h => ?_, fun h => ?_, fun h => ?_, fun h => ?_⟩
  · rw [step_of_pending h]
    by_cases hok : width = .w32 ∧ off.toNat % 4 = 0
    · have haccess : accessOk width off ≠ false := by simp [accessOk_iff.mpr hok]
      rw [if_pos hok, hostAct, hostRead, if_neg haccess]
      rfl
    · rw [if_neg hok, hostAct, hostRead, if_pos (eq_false_of_ne_true (mt accessOk_iff.mp hok))]
  · simp [step_of_pending h, hostAct, hostWrite, eq_false_of_ne_true (mt accessOk_iff.mp hbad)]
  · simp [step_of_pending h, hostAct, hostWrite, accessOk_iff.mpr ⟨rfl, hoff⟩, hcmd]
  · have hok : accessOk .w32 0x04#8 = true := accessOk_iff.mpr ⟨rfl, rfl⟩
    simp [step_of_pending h, hostAct, hostWrite, hok]
  · rw [step_of_pending h]
    rfl
  · rw [step_of_pending h]
    rfl
  · rw [step_of_pending h]
    rfl

/-! ### The reset state (10_state.md R40) -/

theorem reset_freq (b : Byte) : atSym State.reset.freq b = 0#32 := atSym_replicate _ b

theorem total_reset : total State.reset = 0 := by
  rw [total_eq_sum]
  simp [reset_freq]

theorem ndist_reset : ndist State.reset = 0 := by
  rw [ndist_eq_length_filter]
  simp [reset_freq]

theorem reset_node (n : NodeIdx) : State.reset.node[n] = Node.zero := by
  simp [State.reset]

/-- Settles O10: the arrays entry by entry, and the derived values from the empty table. -/
theorem resetValuesAreThoseOfTheTable : Obligations.ResetValuesAreThoseOfTheTable := by
  have hinbits : inbits State.reset = 0 := by rw [inbits, total_reset]
  refine ⟨rfl, rfl, rfl, rfl, rfl, rfl, rfl, rfl, reset_freq, total_reset, ndist_reset, hinbits, fun n => ?_, rfl, rfl,
    fun n => ?_, rfl, rfl, fun b => ⟨atSym_replicate _ b, atSym_replicate _ b⟩, rfl, rfl, rfl, rfl, rfl, rfl, rfl, rfl⟩
  · rw [reset_node]
    exact ⟨rfl, rfl, rfl, rfl⟩
  · simp [State.reset]

/-- Settles O52: the buffers are empty, and the queue is the cleared one with no tree and no codes. -/
theorem resetMeetsTheInvariants : Obligations.ResetMeetsTheInvariants := by
  obtain ⟨hq, ho⟩ := heapOrdered_invariant.clear State.reset
  obtain ⟨-, hw⟩ := queueWeighed_invariant.clear State.reset
  have hnone : NoTree State.reset := ⟨rfl, rfl⟩
  exact ⟨Nat.one_pos, le_rfl, ⟨hq, ho, hnone.ok.tree, hnone.ok.codes⟩, hw⟩

end Sys2Proof.Machine
end

section
/-!
PROOFS. The register block and the ports (20_memory.md R61 to R65, R71 to R74): the fields of each packed register, the
host's write of a command word, and what each port does with its draw.
-/

namespace Sys2Proof.Machine

/-! ### The fields of the packed registers (20_memory.md R62) -/

/-- A field that starts above the low part of a word of two parts is a field of the high one. -/
theorem bits_append_of_le {v w : Nat} (x : BitVec v) (y : BitVec w) {lo n : Nat} (h : w ≤ lo) :
    bits (x ++ y) lo n = bits x (lo - w) n := by
  simpa [Nat.add_sub_cancel' h] using bits_append_high x y (lo - w) n

/-- A one-bit field is the bit. -/
theorem getLsbD_of_bits {w lo : Nat} {v : BitVec w} {b : Bool} (h : bits v lo 1 = BitVec.ofBool b) :
    v.getLsbD lo = b := by
  have hbit := congrArg (fun u => u.getLsbD 0) h
  simpa using hbit

/-- The fields of STATUS. -/
theorem statusWord_fields (s : State) :
    bits (statusWord s) 0 4 = errcodeBits s.errcode ∧ bits (statusWord s) 4 4 = 0#4 ∧
      bits (statusWord s) 8 1 = BitVec.ofBool s.empty ∧ bits (statusWord s) 9 1 = BitVec.ofBool s.eos ∧
      bits (statusWord s) 10 22 = 0#22 := by
  simp (disch := omega) only [statusWord, bits_append_low, bits_append_of_le, Nat.reduceSub, bits_all, and_self]

/-- The fields of HEAPINFO. -/
theorem heapInfo_fields (s : State) :
    bits (heapInfo s) 0 10 = BitVec.ofNat 10 s.heapn.val ∧ bits (heapInfo s) 10 6 = 0#6 ∧
      bits (heapInfo s) 16 10 = BitVec.ofNat 10 s.nnodes.val ∧ bits (heapInfo s) 26 6 = 0#6 := by
  simp (disch := omega) only [heapInfo, bits_append_low, bits_append_of_le, Nat.reduceSub, bits_all, and_self]

/-- The fields of TREEINFO. -/
theorem treeInfo_fields (s : State) :
    bits (treeInfo s) 0 9 = idxBits s.root ∧ bits (treeInfo s) 9 1 = BitVec.ofBool s.rootValid ∧
      bits (treeInfo s) 10 1 = BitVec.ofBool s.codesValid ∧ bits (treeInfo s) 11 5 = 0#5 ∧
      bits (treeInfo s) 16 9 = BitVec.ofNat 9 (ndist s) ∧ bits (treeInfo s) 25 7 = 0#7 := by
  simp (disch := omega) only [treeInfo, bits_append_low, bits_append_of_le, Nat.reduceSub, bits_all, and_self]

/-- The fields of BITINFO. -/
theorem bitInfo_fields (s : State) :
    bits (bitInfo s) 0 8 = s.wacc ∧ bits (bitInfo s) 8 3 = BitVec.ofNat 3 s.wcnt.val ∧ bits (bitInfo s) 11 5 = 0#5 ∧
      bits (bitInfo s) 16 8 = s.rwin ∧ bits (bitInfo s) 24 4 = BitVec.ofNat 4 s.rcnt.val ∧
      bits (bitInfo s) 28 4 = 0#4 := by
  simp (disch := omega) only [bitInfo, bits_append_low, bits_append_of_le, Nat.reduceSub, bits_all, and_self]

/-- The offsets past the last register are reserved (20_memory.md R63). -/
theorem readReg_reserved {off : BitVec 8} (h : 0x4C ≤ off.toNat) (s : State) : readReg off s = 0#32 := by
  unfold readReg
  split
  case h_19 => rfl
  all_goals omega

/-- A field that shows a count wide enough for it shows the count. -/
theorem toNat_of_eq_ofNat {w n : Nat} {v : BitVec w} (h : v = BitVec.ofNat w n) (hn : n < 2 ^ w) : v.toNat = n := by
  rw [h, BitVec.toNat_ofNat, Nat.mod_eq_of_lt hn]

/-- Settles O16: the plain registers by their rows, the packed ones field by field, and the reserved offsets. -/
theorem registerMapShowsTheState : Obligations.RegisterMapShowsTheState := by
  intro s
  obtain ⟨herr, hgap, hempty, heos, htop⟩ := statusWord_fields s
  obtain ⟨hheapn, hheapGap, hnnodes, hheapTop⟩ := heapInfo_fields s
  obtain ⟨hroot, hrootValid, hcodesValid, htreeGap, hndist, htreeTop⟩ := treeInfo_fields s
  obtain ⟨hwacc, hwcnt, hbitGap, hrwin, hrcnt, hbitTop⟩ := bitInfo_fields s
  have hdist : ndist s < 2 ^ 9 := (ndist_le s).trans_lt (by decide)
  exact ⟨rfl, rfl, rfl, ⟨herr, hgap, getLsbD_of_bits hempty, getLsbD_of_bits heos, htop⟩, rfl, rfl, rfl, rfl,
    toNat_of_eq_ofNat hheapn (by omega), hheapGap, toNat_of_eq_ofNat hnnodes (by omega), hheapTop,
    (congrArg BitVec.toNat hroot).trans (idxBits_toNat s.root), getLsbD_of_bits hrootValid, getLsbD_of_bits hcodesValid,
    htreeGap, toNat_of_eq_ofNat hndist hdist, htreeTop, hwacc, toNat_of_eq_ofNat hwcnt s.wcnt.isLt, hbitGap, hrwin,
    toNat_of_eq_ofNat hrcnt (by omega), hbitTop, fun off hoff => readReg_reserved hoff s⟩

/-! ### The host's write of a command word (20_memory.md R65) -/

/-- The write of a word to CMD, once it has left the queue, is `ExecuteCommand` of the word. -/
theorem step_of_commandWrite {s : State} {w : Word} {rest : List HostAct}
    (h : s.pending = .write .w32 0x04#8 w :: rest) : step s = executeCommand w { s with pending := rest } := by
  rw [step_of_pending h]
  rfl

theorem executeCommand_of_decode {w : Word} {i : Instr} (h : decode w = .ok i) (s : State) :
    executeCommand w s = exec i s := by
  rw [executeCommand, h]

/-- Settles O5: the step is the command word's, and the word decodes to the command. -/
theorem stepRunsTheDecodedCommand : Obligations.StepRunsTheDecodedCommand := fun _ _ _ _ hpending hdecode =>
  (step_of_commandWrite hpending).trans (executeCommand_of_decode hdecode _)

/-! ### The ports, draw by draw (20_memory.md R71 to R74) -/

theorem failDraw_nil {s : State} (h : s.draws = []) : failDraw s = (false, s) := by
  rw [failDraw, h]

theorem failDraw_cons {s : State} {d : Bool} {ds : List Bool} (h : s.draws = d :: ds) :
    failDraw s = (d, { s with draws := ds }) := by
  rw [failDraw, h]

theorem sourceRewind_nil {s : State} (h : s.draws = []) : sourceRewind s = .done () { s with spos := 0 } := by
  rw [sourceRewind, failDraw_nil h]

theorem sourceRewind_cons {s : State} {d : Bool} {ds : List Bool} (h : s.draws = d :: ds) :
    sourceRewind s =
      if d then .raised .sourceRead { s with draws := ds } else .done () { s with draws := ds, spos := 0 } := by
  rw [sourceRewind, failDraw_cons h]
  cases d <;> rfl

theorem sinkWrite_cons {s : State} {d : Bool} {ds : List Bool} (h : s.draws = d :: ds) (b : Byte) :
    sinkWrite b s =
      if d then .raised .sinkWrite { s with draws := ds }
      else .done () { s with draws := ds, snkseq := s.snkseq ++ [b] } := by
  rw [sinkWrite, failDraw_cons h]
  cases d <;> rfl

/-- Settles O18: each port by its draw, and a read whose draw is false by whether a byte is left. -/
theorem portsFollowTheirDraws : Obligations.PortsFollowTheirDraws := by
  intro s d ds b h
  refine ⟨?_, sourceRewind_cons h, sinkWrite_cons h b⟩
  rw [sourceRead, failDraw_cons h]
  cases d with
  | true => rfl
  | false => rfl

/-! ### SRC_REWIND (41_frequency.md R135) -/

/-- Settles O25: the body clears the window and then rewinds the source, so the window is empty either way. -/
theorem srcRewindReturnsTheSource : Obligations.SrcRewindReturnsTheSource := by
  intro s he
  refine ⟨fun h => ?_, fun ds => ⟨fun h => ?_, fun h => ?_⟩⟩
  · exact exec_of_done nofun he (sourceRewind_nil (s := clearReader (clearFlags s)) h)
  · exact exec_of_done nofun he (sourceRewind_cons (s := clearReader (clearFlags s)) h)
  · exact exec_of_raised (i := .srcRewind) nofun he (sourceRewind_cons (s := clearReader (clearFlags s)) h)

end Sys2Proof.Machine
end

section
/-!
PROOFS. The decoder and the encoder (30_encoding.md R90 to R97): a command as an opcode with an operand in the low bits
of OPND, which the decoder reads back.
-/

namespace Sys2Proof

/-! ### A command's opcode, format and operand (30_encoding.md R92 to R94) -/

/-- OPC of a command (R94). -/
def Instr.opcode (i : Instr) : BitVec 8 := opcField (encode i)

/-- OPND of a command (R93). -/
def Instr.operand (i : Instr) : BitVec 16 := opndField (encode i)

/-- How many low bits of OPND a format names (R92); it names no others. -/
def Format.width (f : Format) : Nat :=
  match f with
  | .none => 0
  | .symbol => 8
  | .index => 9
  | .codeWord => 11
  | .bit => 1

/-- The operand format of a command (R94). -/
def Instr.format (i : Instr) : Format :=
  match i with
  | .freqSet _ | .freqGet _ | .heapInsert _ | .bwSym _ => .symbol
  | .heapGet _ | .nodeGet _ => .index
  | .codeGet _ _ => .codeWord
  | .bwBit _ => .bit
  | .nop | .reset | .freqClear | .freqScan | .srcRewind | .heapClear | .heapExtract | .heapMerge | .buildTree
  | .genCodes | .hdrWrite | .hdrRead | .bwFlush | .bwClear | .brClear | .brBit | .brSym | .compress
  | .decompress => .none

theorem bits_toNat {w : Nat} (v : BitVec w) (lo n : Nat) : (bits v lo n).toNat = v.toNat / 2 ^ lo % 2 ^ n := by
  rw [bits, BitVec.extractLsb'_toNat, Nat.shiftRight_eq_div_pow]

/-- The fields of a word whose RSV is 0 make up the word (R91, R97). -/
theorem assemble_fields {w : Word} (h : rsvField w = 0#8) : assemble (opcField w) (opndField w) = w := by
  apply BitVec.eq_of_getLsbD_eq
  intro j hj
  have hrsv : ∀ k, (rsvField w).getLsbD k = false := fun k => by rw [h]; exact BitVec.getLsbD_zero
  rw [Laws.assemble_getLsbD]
  split
  next h16 => simp [opndField, bits, h16]
  next h16 =>
    split
    next h24 =>
      have := hrsv (j - 16)
      simp only [rsvField, bits, BitVec.getLsbD_extractLsb'] at this
      rw [show 16 + (j - 16) = j by omega] at this
      simpa [show j - 16 < 8 by omega] using this.symm
    next h24 => simp [opcField, bits, show j - 24 < 8 by omega, show 24 + (j - 24) = j by omega]

/-- Two words with the same OPC and OPND, and RSV 0, are the same. -/
theorem word_ext {v w : Word} (hv : rsvField v = 0#8) (hw : rsvField w = 0#8) (hopc : opcField v = opcField w)
    (hopnd : opndField v = opndField w) : v = w := by
  rw [← assemble_fields hv, ← assemble_fields hw, hopc, hopnd]

theorem encode_rsvField (i : Instr) : rsvField (encode i) = 0#8 := by
  cases i <;> exact Laws.rsvField_assemble _ _


theorem opndField_assemble (opc : BitVec 8) (opnd : BitVec 16) : opndField (assemble opc opnd) = opnd :=
  (Laws.bits_assemble opc opnd 0 16 (by omega)).trans (Machine.bits_all opnd)

theorem zext_bits_zero (w : Word) : zext 16 (bits w 0 0) = 0#16 := by
  rw [BitVec.of_length_zero (x := bits w 0 0)]
  rfl

theorem ofBool_bitField (w : Word) : BitVec.ofBool (bitField w) = bits w 0 1 := by
  apply BitVec.eq_of_getLsbD_eq
  intro j hj
  obtain rfl : j = 0 := by omega
  simp [bitField, bits]

theorem codeWordField_append_symField (w : Word) : codeWordField w ++ symField w = bits w 0 11 :=
  BitVec.extractLsb'_append_extractLsb'_eq_extractLsb' rfl

/-- The command of a word has the word's opcode, and its operand is the bits of OPND that its format names. -/
theorem commandOf_eq_some {w : Word} {i : Instr} (h : commandOf w = some i) :
    i.opcode = opcField w ∧ i.operand = zext 16 (bits w 0 i.format.width) := by
  unfold commandOf at h
  split at h
  case h_28 => cases h
  all_goals
    rename_i hopc
    obtain rfl := Option.some.inj h
    refine ⟨(Laws.opcField_assemble _ _).trans (BitVec.eq_of_toNat_eq hopc).symm, (opndField_assemble _ _).trans ?_⟩
  case h_5 | h_6 | h_9 | h_12 | h_13 | h_21 => rfl
  case h_16 => exact congrArg (zext 16) (codeWordField_append_symField w)
  case h_19 => exact congrArg (zext 16) (ofBool_bitField w)
  all_goals exact (zext_bits_zero w).symm

@[simp] theorem symField_assemble (opc : BitVec 8) (sym : Byte) : symField (assemble opc (zext 16 sym)) = sym :=
  (Laws.bits_assemble _ _ 0 8 (by omega)).trans (Laws.bits_of_zext sym (by omega))

@[simp] theorem idxField_assemble (opc : BitVec 8) (idx : BitVec 9) : idxField (assemble opc (zext 16 idx)) = idx :=
  (Laws.bits_assemble _ _ 0 9 (by omega)).trans (Laws.bits_of_zext idx (by omega))

/-- A field of a zero-extended operand is that field of the operand. -/
theorem bits_zext {w : Nat} (v : BitVec w) {lo n : Nat} (h : lo + n ≤ 16) : bits (zext 16 v) lo n = bits v lo n := by
  apply BitVec.eq_of_getLsbD_eq
  intro j hj
  simp [bits, zext, hj, show lo + j < 16 by omega]

@[simp] theorem symField_assemble_append (opc : BitVec 8) (sym : Byte) (w : BitVec 3) :
    symField (assemble opc (zext 16 (w ++ sym))) = sym := by
  rw [symField, Laws.bits_assemble _ _ 0 8 (by omega), bits_zext _ (by omega), Machine.bits_append_low _ _ (by omega),
    Machine.bits_all]

@[simp] theorem codeWordField_assemble_append (opc : BitVec 8) (sym : Byte) (w : BitVec 3) :
    codeWordField (assemble opc (zext 16 (w ++ sym))) = w := by
  rw [codeWordField, Laws.bits_assemble _ _ 8 3 (by omega), bits_zext _ (by omega)]
  exact (Machine.bits_append_high w sym 0 3).trans (Machine.bits_all w)

@[simp] theorem bitField_assemble (opc : BitVec 8) (b : Bool) :
    bitField (assemble opc (zext 16 (BitVec.ofBool b))) = b := by
  rw [bitField, Laws.assemble_getLsbD, if_pos (by omega)]
  cases b <;> rfl

/-- Every command is the one its own word names (R93, R94). -/
theorem commandOf_encode (i : Instr) : commandOf (encode i) = some i := by
  cases i <;> simp [commandOf, encode, Laws.opcField_assemble]

/-! ### What the decoder accepts (30_encoding.md R95) -/

/-- The command that an opcode of a format stands for has that format. -/
theorem formatOf_opcode (i : Instr) : formatOf i.opcode = some i.format := by
  cases i <;> exact congrArg formatOf (Laws.opcField_assemble _ _)

/-- The decoder's tables of formats and of commands list the same opcodes (R94). -/
theorem commandOf_isSome (w : Word) : (commandOf w).isSome = (formatOf (opcField w)).isSome := by
  unfold commandOf formatOf
  split <;> simp [*]

/-- The decoder answers the word's command exactly on the well-formed words (R95). -/
theorem decode_eq_ok_iff {w : Word} {i : Instr} :
    decode w = .ok i ↔ wellFormedWord w = true ∧ commandOf w = some i := by
  have htables := commandOf_isSome w
  cases hc : commandOf w with
  | none =>
    have hf : formatOf (opcField w) = none := by simpa [hc] using htables.symm
    simp [decode, wellFormedWord, hf, hc]
  | some j =>
    obtain ⟨f, hf⟩ : ∃ f, formatOf (opcField w) = some f := Option.isSome_iff_exists.mp (by rw [← htables, hc]; rfl)
    simp only [decode, wellFormedWord, hf, hc]
    split
    next hrsv => simp [hrsv]
    next hrsv =>
      split
      next hopnd => simp [hopnd]
      next hopnd =>
        split
        next hidx => simp [hidx]
        next hidx => simp_all

/-- Each constructor's word is well formed (the family EncodedWord of Laws/Encode.lean). -/
theorem wellFormedWord_encode {i : Instr} (h : i.wellFormed = true) : wellFormedWord (encode i) = true := by
  cases i with
  | nop => exact Laws.EncodedWord.nop h
  | reset => exact Laws.EncodedWord.reset h
  | freqClear => exact Laws.EncodedWord.freqClear h
  | freqScan => exact Laws.EncodedWord.freqScan h
  | freqSet sym => exact Laws.EncodedWord.freqSet sym h
  | freqGet sym => exact Laws.EncodedWord.freqGet sym h
  | srcRewind => exact Laws.EncodedWord.srcRewind h
  | heapClear => exact Laws.EncodedWord.heapClear h
  | heapInsert sym => exact Laws.EncodedWord.heapInsert sym h
  | heapExtract => exact Laws.EncodedWord.heapExtract h
  | heapMerge => exact Laws.EncodedWord.heapMerge h
  | heapGet idx => exact Laws.EncodedWord.heapGet idx h
  | nodeGet idx => exact Laws.EncodedWord.nodeGet idx h
  | buildTree => exact Laws.EncodedWord.buildTree h
  | genCodes => exact Laws.EncodedWord.genCodes h
  | codeGet sym w => exact Laws.EncodedWord.codeGet sym w h
  | hdrWrite => exact Laws.EncodedWord.hdrWrite h
  | hdrRead => exact Laws.EncodedWord.hdrRead h
  | bwBit b => exact Laws.EncodedWord.bwBit b h
  | bwFlush => exact Laws.EncodedWord.bwFlush h
  | bwSym sym => exact Laws.EncodedWord.bwSym sym h
  | bwClear => exact Laws.EncodedWord.bwClear h
  | brClear => exact Laws.EncodedWord.brClear h
  | brBit => exact Laws.EncodedWord.brBit h
  | brSym => exact Laws.EncodedWord.brSym h
  | compress => exact Laws.EncodedWord.compress h
  | decompress => exact Laws.EncodedWord.decompress h

/-- Settles O1: the command's word is well formed, and the decoder's table reads its fields back. -/
theorem decodeOfEncodeIsTheInstruction : Obligations.DecodeOfEncodeIsTheInstruction := fun i h =>
  decode_eq_ok_iff.mpr ⟨wellFormedWord_encode h, commandOf_encode i⟩

/-- The upper `m` bits of OPND are 0 exactly where OPND is its lower `n` bits. -/
theorem opndField_eq_zext_iff (w : Word) {n m : Nat} (h : n + m = 16) :
    bits w n m = 0#m ↔ opndField w = zext 16 (bits w 0 n) := by
  rw [← BitVec.toNat_inj, ← BitVec.toNat_inj, zext, BitVec.toNat_setWidth_of_le (by omega), opndField, bits_toNat,
    bits_toNat, bits_toNat, pow_zero, Nat.div_one, ← h, Nat.pow_add, Nat.mod_mul]
  simp

theorem operandBitsOk_iff (f : Format) (w : Word) :
    operandBitsOk f w = true ↔ opndField w = zext 16 (bits w 0 f.width) := by
  cases f <;> exact beq_iff_eq.trans (opndField_eq_zext_iff w (by decide))

/-- A well-formed word's reserved and unnamed bits are 0 (R95), and an index names a slot. -/
theorem wellFormedWord_iff {w : Word} {i : Instr} (h : commandOf w = some i) :
    wellFormedWord w = true ↔
      rsvField w = 0#8 ∧ operandBitsOk i.format w = true ∧ indexFieldOk i.format w = true := by
  simp [wellFormedWord, ← (commandOf_eq_some h).1, formatOf_opcode, and_assoc]

/-- The index check on the word is the one on the command. -/
theorem indexFieldOk_commandOf {w : Word} {i : Instr} (h : commandOf w = some i) :
    indexFieldOk i.format w = i.wellFormed := by
  unfold commandOf at h
  split at h
  case h_28 => cases h
  all_goals
    obtain rfl := Option.some.inj h
    rfl

/-- Settles O2: a decoded word's three fields are those of its command's encoding. -/
theorem decodedWordIsTheEncodingOfItsInstruction : Obligations.DecodedWordIsTheEncodingOfItsInstruction := by
  intro w i h
  obtain ⟨hwf, hc⟩ := decode_eq_ok_iff.mp h
  obtain ⟨hrsv, hopnd, hidx⟩ := (wellFormedWord_iff hc).mp hwf
  obtain ⟨hopc, hoperand⟩ := commandOf_eq_some hc
  exact ⟨(indexFieldOk_commandOf hc).symm.trans hidx,
    word_ext (encode_rsvField i) hrsv hopc (hoperand.trans ((operandBitsOk_iff _ w).mp hopnd).symm)⟩

/-! ### The opcodes of each format (30_encoding.md R92, R94) -/

theorem decode_ok_iff_wellFormedWord (w : Word) : (∃ i, decode w = .ok i) ↔ wellFormedWord w = true := by
  refine ⟨fun ⟨i, h⟩ => (decode_eq_ok_iff.mp h).1, fun h => ?_⟩
  obtain ⟨i, hi⟩ : ∃ i, commandOf w = some i := by
    rw [← Option.isSome_iff_exists, commandOf_isSome]
    unfold wellFormedWord at h
    split at h
    next => cases h
    next hf => rw [hf]; rfl
  exact ⟨i, decode_eq_ok_iff.mpr ⟨h, hi⟩⟩

theorem formatOf_isSome_iff : ∀ opc : BitVec 8, (formatOf opc).isSome = true ↔
    opc ∈ [0x00#8, 0x01#8, 0x10#8, 0x11#8, 0x12#8, 0x13#8, 0x14#8, 0x20#8, 0x21#8, 0x22#8, 0x23#8, 0x24#8,
      0x25#8, 0x30#8, 0x31#8, 0x32#8, 0x40#8, 0x41#8, 0x50#8, 0x51#8, 0x52#8, 0x53#8, 0x60#8, 0x61#8, 0x62#8, 0x70#8,
      0x71#8] := by
  decide

theorem formatOf_eq_none_format_iff : ∀ opc : BitVec 8, formatOf opc = some .none ↔
    opc ∈ [0x00#8, 0x01#8, 0x10#8, 0x11#8, 0x14#8, 0x20#8, 0x22#8, 0x23#8, 0x30#8, 0x31#8, 0x40#8, 0x41#8,
      0x51#8, 0x53#8, 0x60#8, 0x61#8, 0x62#8, 0x70#8, 0x71#8] := by
  decide

theorem formatOf_eq_symbol_iff : ∀ opc : BitVec 8, formatOf opc = some .symbol ↔
    opc ∈ [0x12#8, 0x13#8, 0x21#8, 0x52#8] := by
  decide

theorem formatOf_eq_index_iff : ∀ opc : BitVec 8, formatOf opc = some .index ↔ opc ∈ [0x24#8, 0x25#8] := by decide

theorem formatOf_eq_codeWord_iff : ∀ opc : BitVec 8, formatOf opc = some .codeWord ↔ opc = 0x32#8 := by decide

theorem formatOf_eq_bit_iff : ∀ opc : BitVec 8, formatOf opc = some .bit ↔ opc = 0x50#8 := by decide

/-- Settles O3: the opcode's format says which of the checks of R95 applies. -/
theorem decoderAcceptsExactlyTheWellFormedWords : Obligations.DecoderAcceptsExactlyTheWellFormedWords := by
  intro w
  rw [decode_ok_iff_wellFormedWord, ← formatOf_isSome_iff, ← formatOf_eq_none_format_iff, ← formatOf_eq_symbol_iff,
    ← formatOf_eq_index_iff, ← formatOf_eq_codeWord_iff, ← formatOf_eq_bit_iff]
  show wellFormedWord w = true ↔ (formatOf (opcField w)).isSome = true ∧ rsvField w = 0#8 ∧
    (formatOf (opcField w) = some .none → _) ∧ (formatOf (opcField w) = some .symbol → _) ∧
    (formatOf (opcField w) = some .index → _ ∧ idxField w ≠ 0x1FF#9) ∧
    (formatOf (opcField w) = some .codeWord → _) ∧ (formatOf (opcField w) = some .bit → _)
  unfold wellFormedWord
  cases formatOf (opcField w) with
  | none => simp
  | some f => cases f <;> simp [operandBitsOk, indexFieldOk, and_assoc]

/-- Settles O4: each word is evaluated by the decoder. -/
theorem exampleWordsDecode : Obligations.ExampleWordsDecode := by
  unfold Obligations.ExampleWordsDecode
  decide

end Sys2Proof

namespace Sys2Proof.Machine

/-- Settles O7: the word goes to the error entry of R122, behind the gate of R120. -/
theorem illegalWordRaisesIllegalCommand : Obligations.IllegalWordRaisesIllegalCommand := by
  intro w why s h
  rw [executeCommand, h]
  rfl

end Sys2Proof.Machine
end

section
/-!
PROOFS. The commands that read a table, a slot or a record, and the commands of the queue (30_encoding.md R99,
42_heap.md R150 to R161, 43_tree_codes.md R185).
-/

namespace Sys2Proof.Machine

/-! ### FREQ_GET, HEAP_GET, NODE_GET, CODE_GET (41_frequency.md R133, 42_heap.md R160, R161, 43_tree_codes.md R185) -/

theorem slotOf_of_val {idx : BitVec 9} {n : NodeIdx} (h : idx.toNat = n.val) : slotOf idx = some n := by
  have hlt : idx.toNat < 511 := h ▸ n.isLt
  rw [slotOf, dif_pos hlt, Option.some.injEq, Fin.ext_iff]
  exact h

theorem zext_idxBits (n : NodeIdx) : zext 32 (idxBits n) = BitVec.ofNat 32 n.val := by
  apply BitVec.eq_of_toNat_eq
  rw [zext, BitVec.toNat_setWidth_of_le (by omega), idxBits_toNat, BitVec.toNat_ofNat, Nat.mod_eq_of_lt (by omega)]

/-- Word `w` of the code value, zero-extended to 256 bits, bit by bit (43_tree_codes.md R185). -/
theorem codeValueWord_getLsbD (v : BitVec 255) (w : BitVec 3) {j : Nat} (hj : j < 32) :
    (codeValueWord v w).getLsbD j = v.getLsbD (32 * w.toNat + j) := by
  have hw := w.isLt
  simp [codeValueWord, bits, zext, hj, show 32 * w.toNat + j < 256 by omega]

/-- HEAP_GET and NODE_GET of a slot return what the slot holds. -/
theorem slotCommandsRead {s : State} (he : s.errcode = none) {idx : BitVec 9} {n : NodeIdx} (h : idx.toNat = n.val) :
    exec (.heapGet idx) s = .next (setResult0 (BitVec.ofNat 32 s.heap[n].val) (clearFlags s)) ∧
      exec (.nodeGet idx) s = .next (nodeRecord n (clearFlags s)) := by
  refine ⟨exec_of_done nofun he ?_, exec_of_done nofun he ?_⟩
  · rw [commandBody, slotOf_of_val h, ← zext_idxBits]
    rfl
  · rw [commandBody, slotOf_of_val h]

/-- Settles O21: each body is one read of a table, a slot or a record, and IDX 511 names no slot (R96). -/
theorem readingCommandsComplete : Obligations.ReadingCommandsComplete := by
  intro s he
  refine ⟨fun sym => exec_of_done nofun he rfl, fun idx n h => slotCommandsRead he h, fun sym w => ?_, ?_, ?_⟩
  · refine ⟨_, exec_of_done nofun he rfl, BitVec.toNat_setWidth_of_le (by omega),
      fun j hj => codeValueWord_getLsbD _ w hj, ?_, rfl⟩
    show zext 32 (BitVec.ofBool s.codesValid) = _
    cases s.codesValid <;> rfl
  · exact exec_of_raised (i := .heapGet 0x1FF#9) nofun he rfl
  · exact exec_of_raised (i := .nodeGet 0x1FF#9) nofun he rfl

/-! ### HEAP_INSERT (42_heap.md R151, R152, R157) -/

/-- A leaf made of a 32-bit count shows the count, and NIL for both children (R99). -/
theorem recordWords_leafNode (sym : Byte) (f : BitVec 32) :
    recordWord1 (leafNode sym (zext 40 f)) = f ∧ recordWord2 (leafNode sym (zext 40 f)) = 0x03FFFF00#32 := by
  have hlow : bits (zext 40 f) 0 32 = f := by
    apply BitVec.eq_of_getLsbD_eq
    intro j hj
    simp [bits, zext, hj, show j < 40 by omega]
  have hhigh : bits (zext 40 f) 32 8 = 0#8 := by
    apply BitVec.eq_of_getLsbD_eq
    intro j hj
    simp [bits, zext]
  refine ⟨hlow, ?_⟩
  show 0#6 ++ 0x1FF#9 ++ 0x1FF#9 ++ bits (zext 40 f) 32 8 = _
  rw [hhigh]
  rfl

/-- Settles O27: the leaf goes to the next free slot (`newNode`) and joins the queue (`heapInsert`). -/
theorem heapInsertQueuesANewLeaf : Obligations.HeapInsertQueuesANewLeaf := by
  intro sym s n he hn hh
  let d : Node := leafNode sym (zext 40 s.arg)
  obtain ⟨m, u, t, hnew, hins⟩ := newNode_heapInsert_done (s := invalidateTree (clearFlags s)) d
    (show s.nnodes.val < 511 by omega) hh
  have hr := heapInsert_requeued hnew hins
  obtain rfl : m = n := Fin.ext (hr.slot.trans hn)
  obtain ⟨-, -, hheapn, -, -⟩ := newNode_done hnew
  obtain ⟨hcount, -, -⟩ := heapInsert_done hins
  obtain ⟨rest, hqs, hqt⟩ := hr.swap
  have hframe := ((newNode_frame _ _).of_done hnew).trans ((heapInsert_frame _ _).of_done hins).toQueueFrame
  have hbody : commandBody (.heapInsert sym) (clearFlags s) = .done () (nodeRecord m t) := by
    simp only [commandBody, argFreq, clearFlags_arg]
    rw [hnew, Run.bind_done, hins, Run.bind_done]
  obtain ⟨hword1, hword2⟩ := recordWords_leafNode sym s.arg
  refine ⟨nodeRecord m t, exec_of_done nofun he hbody, hr.node, hr.count, ?_, hqt.trans (hqs.symm.cons m), rfl, ?_, ?_,
    ?_⟩
  · rw [← show u.heapn.val = s.heapn.val from congrArg Fin.val hheapn]
    exact hcount
  · show recordWord1 t.node[m] = _
    rw [hr.node_new]
    exact hword1
  · show recordWord2 t.node[m] = _
    rw [hr.node_new]
    exact hword2
  · unfold QueueFrame at hframe
    rw [hframe]
    rfl

/-! ### HEAP_EXTRACT and HEAP_MERGE (42_heap.md R153 to R155, R158, R159) -/

/-- Settles O29: the root of a heap is its least node (`heapExtract_least`), and the sift keeps what stays a heap. -/
theorem heapExtractTakesTheLeastNode : Obligations.HeapExtractTakesTheLeastNode := by
  intro s he hq ho hpos
  let v : State := invalidateTree (clearFlags s)
  have ho' : HeapOrdered v := ho
  obtain ⟨n, t, hx⟩ := heapExtract_done_of_pos (s := v) hpos
  obtain ⟨-, hqueue, hlast⟩ := heapExtract_queue hx
  obtain ⟨hcount, -, hnode⟩ := heapExtract_done hx
  have hframe := (heapExtract_frame v).of_done hx
  have hbody : commandBody .heapExtract (clearFlags s) = .done () (nodeRecord n t) := by
    rw [commandBody, if_neg (show (clearFlags s).heapn.val ≠ 0 from hpos.ne'), hx, Run.bind_done]
  have hleast : ∀ m ∈ queue s, m ≠ n → less s n m = true := fun m hm hne =>
    less_of_ne hne.symm (heapExtract_least (s := v) ho' hx hm)
  have hordered : HeapOrdered t := heapExtract_ordered ho' hx
  refine ⟨n, nodeRecord n t, exec_of_done nofun he hbody, hqueue.mem_iff.mpr List.mem_cons_self, hleast, hqueue,
    hordered, hcount, hlast, ?_⟩
  have hrec : t.node[n] = s.node[n] := by rw [hnode]; rfl
  rw [← hrec]
  unfold HeapFrame at hframe
  rw [hframe]
  rfl

/-- Settles O30, from what a merge of an ordered queue joins (`mergeTwo_joins`). -/
theorem heapMergeJoinsTheTwoLeast : Obligations.HeapMergeJoinsTheTwoLeast := by
  intro s n he hq ho hw hh hn
  let v : State := invalidateTree (clearFlags s)
  have hq' : QueueOk v := hq
  have hroom : v.nnodes.val < 511 := show s.nnodes.val < 511 by omega
  obtain ⟨m, t, hm⟩ := mergeTwo_done (s := v) hw hh hroom
  obtain ⟨hheapn, hnnodes, hslot⟩ := mergeTwo_counts hm
  obtain rfl : m = n := Fin.ext (hslot.trans hn)
  obtain ⟨a, b, hfit, hr, hab, hleast⟩ := mergeTwo_joins hq' (show HeapOrdered v from ho) hm
  obtain ⟨rest, hqs, hqt⟩ := hr.swap
  have hframe := (mergeTwo_frame v).of_done hm
  have hbody : commandBody .heapMerge (clearFlags s) = .done () (nodeRecord m t) := by
    rw [commandBody, if_neg (show ¬(clearFlags s).heapn.val < 2 from hh.not_gt),
      if_neg (show (clearFlags s).nnodes.val ≠ 511 from hroom.ne), hm, Run.bind_done]
  have hothers : ∀ x ∈ rest, x ∈ queue v ∧ x ≠ a ∧ x ≠ b := by
    obtain ⟨ha, hnodup⟩ := List.nodup_cons.mp (hqs.nodup_iff.mp hq'.nodup)
    obtain ⟨hb, -⟩ := List.nodup_cons.mp hnodup
    exact fun x hx => ⟨hqs.mem_iff.mpr (List.mem_append_right _ hx), fun e => ha (e ▸ List.mem_cons_of_mem b hx),
      fun e => hb (e ▸ hx)⟩
  have hfreq : t.node[m].freq.toNat = s.node[a].freq.toNat + s.node[b].freq.toNat := by
    rw [hr.node_new]
    exact Nat.mod_eq_of_lt hfit
  refine ⟨a, b, rest, nodeRecord m t, exec_of_done nofun he hbody, hqs, hqt, hab, fun x hx => ?_, hfreq, ?_, hnnodes,
    hheapn, ?_⟩
  · obtain ⟨hmem, hxa, hxb⟩ := hothers x hx
    exact hleast x hmem hxa hxb
  · show t.node = s.node.set m.val ⟨.sentinel, t.node[m].freq, some a, some b⟩
    rw [hr.node_new]
    exact hr.node
  · unfold QueueFrame at hframe
    rw [hframe]
    rfl

end Sys2Proof.Machine
end

section
/-!
PROOFS. The header written and read (30_encoding.md R101, R102, 44_header.md R200 to R203), with no collaborator
failure.
-/

namespace Sys2Proof.Machine

/-! ### What a run of sink writes leaves (20_memory.md R73, 44_header.md R200) -/

/-- The sink has taken the bytes `bs`, and nothing else has changed. -/
structure Sent (s t : State) (bs : List Byte) : Prop where
  noFailure : NoCollaboratorFailure t
  state : t = { s with draws := t.draws, snkseq := s.snkseq ++ bs }

theorem Sent.nil {s : State} (h : NoCollaboratorFailure s) : Sent s s [] where
  noFailure := h
  state := by rw [List.append_nil]

theorem Sent.append {s t u : State} {bs cs : List Byte} (h : Sent s t bs) (h' : Sent t u cs) : Sent s u (bs ++ cs) where
  noFailure := h'.noFailure
  state := by
    have hu := h'.state
    rw [h.state] at hu
    rw [← List.append_assoc]
    exact hu

theorem Sent.sinkFrame {s t : State} {bs : List Byte} (h : Sent s t bs) : SinkFrame s t := by
  have ht := h.state
  unfold SinkFrame
  rw [ht]

theorem Sent.snkseq {s t : State} {bs : List Byte} (h : Sent s t bs) : t.snkseq = s.snkseq ++ bs := by
  rw [h.state]

theorem sinkWrite_sent {s : State} (h : NoCollaboratorFailure s) (b : Byte) :
    ∃ t, sinkWrite b s = .done () t ∧ Sent s t [b] := by
  obtain ⟨t, hdone, hno, ht⟩ := sinkWrite_of_noFailure h b
  exact ⟨t, hdone, hno, ht⟩

theorem putBytes_sent {s : State} (h : NoCollaboratorFailure s) (bs : List Byte) :
    ∃ t, putBytes bs s = .done () t ∧ Sent s t bs := by
  induction bs generalizing s with
  | nil => exact ⟨s, rfl, .nil h⟩
  | cons b bs ih =>
    obtain ⟨t, hdone, ht⟩ := sinkWrite_sent h b
    obtain ⟨u, hdone', hu⟩ := ih ht.noFailure
    exact ⟨u, by rw [putBytes, hdone, Run.bind_done, hdone'], ht.append hu⟩

theorem putPairs_sent {s : State} (h : NoCollaboratorFailure s) (ps : List (Byte × BitVec 32)) :
    ∃ t, putPairs ps s = .done () t ∧ Sent s t (ps.flatMap pairBytes) := by
  induction ps generalizing s with
  | nil => exact ⟨s, rfl, .nil h⟩
  | cons p ps ih =>
    obtain ⟨t, hdone, ht⟩ := putBytes_sent h (pairBytes p)
    obtain ⟨u, hdone', hu⟩ := ih ht.noFailure
    exact ⟨u, by rw [putPairs, hdone, Run.bind_done, hdone'], ht.append hu⟩

/-- WriteHeader of a table of 1 to 255 symbols sends its header. -/
theorem writeHeader_sent {s : State} (h : NoCollaboratorFailure s) (h0 : ndist s ≠ 0) (h256 : ndist s ≠ 256) :
    ∃ t, writeHeader s = .done () t ∧ Sent s t (headerBytes s) := by
  obtain ⟨t, hdone, ht⟩ := sinkWrite_sent h (BitVec.ofNat 8 (ndist s))
  obtain ⟨u, hdone', hu⟩ := putPairs_sent ht.noFailure (present s)
  have hsame : present t = present s := by rw [ht.state]; rfl
  refine ⟨u, ?_, ht.append hu⟩
  rw [writeHeader, if_neg h0, if_neg h256, hdone, Run.bind_done, hsame, hdone']

/-- Settles O36: the pairs sent are those of `present`, which lists the counted symbols in ascending order. -/
theorem hdrWriteSendsTheHeader : Obligations.HdrWriteSendsTheHeader := by
  intro s he hno h0 h256
  obtain ⟨t, hdone, ht⟩ := writeHeader_sent (s := clearFlags s) hno h0 h256
  refine ⟨t, present s, exec_of_done nofun he hdone, ht.snkseq, present_length s, present_ascending s,
    fun b f => mem_present, ?_⟩
  have hframe := ht.sinkFrame
  unfold SinkFrame at hframe
  rw [hframe]
  rfl

/-! ### The header read back (44_header.md R202) -/

theorem getByte_of_remaining {s : State} {b : Byte} {xs : List Byte} (h : NoCollaboratorFailure s)
    (hx : remaining s = b :: xs) :
    ∃ t, getByte s = .done b t ∧ NoCollaboratorFailure t ∧ remaining t = xs ∧ t.freq = s.freq ∧
      t.spos = s.spos + 1 := by
  obtain ⟨t, hr, hno, hrest, ht⟩ := sourceRead_byte_of_noFailure h hx
  exact ⟨t, by rw [getByte, hr], hno, hrest, by rw [ht], by rw [ht]⟩

/-- The four bytes of a frequency give it back (30_encoding.md R101). -/
theorem freqOfBytes_bits (f : BitVec 32) : freqOfBytes (bits f 0 8) (bits f 8 8) (bits f 16 8) (bits f 24 8) = f := by
  have h3 : bits f 24 8 ++ bits f 16 8 = bits f 16 16 := BitVec.extractLsb'_append_extractLsb'_eq_extractLsb' rfl
  have h2 : bits f 16 16 ++ bits f 8 8 = bits f 8 24 := BitVec.extractLsb'_append_extractLsb'_eq_extractLsb' rfl
  have h1 : bits f 8 24 ++ bits f 0 8 = bits f 0 32 := BitVec.extractLsb'_append_extractLsb'_eq_extractLsb' rfl
  rw [freqOfBytes, h3, h2, h1]
  exact bits_all f

/-- One turn of ReadHeader's loop accepts a pair of a new symbol with a nonzero count. -/
theorem readPairs_accepts {s : State} {p : Byte × BitVec 32} {xs : List Byte} (h : NoCollaboratorFailure s)
    (hx : remaining s = pairBytes p ++ xs) (hp : p.2 ≠ 0#32) (hnew : atSym s.freq p.1 = 0#32) (c : Nat) :
    ∃ t, readPairs (c + 1) s = readPairs c (setFreq p.1 p.2 t) ∧ NoCollaboratorFailure t ∧ remaining t = xs ∧
      t.freq = s.freq ∧ t.spos = s.spos + 5 := by
  obtain ⟨s1, h1, hno1, hx1, hf1, hp1⟩ := getByte_of_remaining h hx
  obtain ⟨s2, h2, hno2, hx2, hf2, hp2⟩ := getByte_of_remaining hno1 hx1
  obtain ⟨s3, h3, hno3, hx3, hf3, hp3⟩ := getByte_of_remaining hno2 hx2
  obtain ⟨s4, h4, hno4, hx4, hf4, hp4⟩ := getByte_of_remaining hno3 hx3
  obtain ⟨s5, h5, hno5, hx5, hf5, hp5⟩ := getByte_of_remaining hno4 hx4
  have hfreq : s5.freq = s.freq := by rw [hf5, hf4, hf3, hf2, hf1]
  refine ⟨s5, ?_, hno5, hx5, hfreq, by omega⟩
  rw [← hfreq] at hnew
  simp only [readPairs, h1, h2, h3, h4, h5, Run.bind_done, freqOfBytes_bits, if_neg hp, hnew, ne_eq, not_true_eq_false,
    if_false]

/-- The loop of ReadHeader on pairs of new, distinct symbols with nonzero counts. -/
theorem readPairs_table {s : State} {ps : List (Byte × BitVec 32)} {xs : List Byte} (h : NoCollaboratorFailure s)
    (hx : remaining s = ps.flatMap pairBytes ++ xs) (hnodup : (ps.map Prod.fst).Nodup) (hp : ∀ p ∈ ps, p.2 ≠ 0#32)
    (hnew : ∀ b ∈ ps.map Prod.fst, atSym s.freq b = 0#32) :
    ∃ t, readPairs ps.length s = .done () t ∧ NoCollaboratorFailure t ∧ remaining t = xs ∧
      t.spos = s.spos + 5 * ps.length ∧ (∀ p ∈ ps, atSym t.freq p.1 = p.2) ∧
      ∀ b ∉ ps.map Prod.fst, atSym t.freq b = atSym s.freq b := by
  induction ps generalizing s with
  | nil => exact ⟨s, rfl, h, hx, rfl, nofun, fun _ _ => rfl⟩
  | cons p ps ih =>
    obtain ⟨hfresh, hnodup'⟩ := List.nodup_cons.mp hnodup
    obtain ⟨t, hstep, hno, hrest, hfreq, hpos⟩ := readPairs_accepts h (xs := ps.flatMap pairBytes ++ xs)
      (by rw [hx, List.flatMap_cons, List.append_assoc]) (hp p List.mem_cons_self) (hnew p.1 List.mem_cons_self)
      ps.length
    have hother : ∀ b, b ≠ p.1 → atSym (setFreq p.1 p.2 t).freq b = atSym s.freq b := fun b hb => by
      rw [← hfreq]
      exact atSym_setSym_ne _ _ hb
    obtain ⟨u, hdone, hno', hrest', hpos', hin, hout⟩ := ih (s := setFreq p.1 p.2 t) hno hrest hnodup'
      (fun q hq => hp q (List.mem_cons_of_mem p hq)) fun b hb =>
        (hother b fun e => hfresh (e ▸ hb)).trans (hnew b (List.mem_cons_of_mem p.1 hb))
    refine ⟨u, hstep.trans hdone, hno', hrest', ?_, ?_, fun b hb => ?_⟩
    · rw [hpos', setFreq_spos, hpos, List.length_cons]
      omega
    · rintro q (_ | ⟨_, hq⟩)
      · rw [hout p.1 hfresh]
        exact atSym_setSym_same _ _ _
      · exact hin q hq
    · obtain ⟨hb1, hb2⟩ := not_or.mp (mt List.mem_cons.mpr hb)
      rw [hout b hb2, hother b hb1]

/-- `t` holds the counts of the pairs `ps`, and 0 for every other symbol. -/
structure TableOf (t : State) (ps : List (Byte × BitVec 32)) : Prop where
  listed : ∀ p ∈ ps, atSym t.freq p.1 = p.2
  other : ∀ b ∉ ps.map Prod.fst, atSym t.freq b = 0#32

/-- ReadHeader on a well-formed header, its pairs in any order. -/
theorem readHeader_table {s : State} {ps : List (Byte × BitVec 32)} {xs : List Byte} (h : NoCollaboratorFailure s)
    (h0 : ps ≠ []) (hlen : ps.length ≤ 255) (hnodup : (ps.map Prod.fst).Nodup) (hp : ∀ p ∈ ps, p.2 ≠ 0#32)
    (hx : remaining s = BitVec.ofNat 8 ps.length :: ps.flatMap pairBytes ++ xs) :
    ∃ t, readHeader s = .done () t ∧ NoCollaboratorFailure t ∧ remaining t = xs ∧
      t.spos = s.spos + 1 + 5 * ps.length ∧ TableOf t ps := by
  have hcount : (BitVec.ofNat 8 ps.length).toNat = ps.length := Nat.mod_eq_of_lt (by omega)
  have hpos : 0 < ps.length := List.length_pos_iff.mpr h0
  obtain ⟨t, hget, hno, hrest, hfreq, hspos⟩ := getByte_of_remaining (s := invalidateTree (clearFreq s)) h hx
  have hzero : ∀ b, atSym t.freq b = 0#32 := fun b => by rw [hfreq]; exact atSym_replicate _ b
  obtain ⟨u, hdone, hno', hrest', hspos', hin, hout⟩ := readPairs_table hno hrest hnodup hp fun b _ => hzero b
  refine ⟨u, ?_, hno', hrest', hspos' ▸ hspos ▸ rfl, hin, fun b hb => (hout b hb).trans (hzero b)⟩
  have hne : BitVec.ofNat 8 ps.length ≠ 0#8 := fun e => by
    rw [e] at hcount
    exact hpos.ne hcount
  rw [readHeader, hget, Run.bind_done, if_neg hne, hcount, hdone]

theorem TableOf.mem_iff {t : State} {ps : List (Byte × BitVec 32)} (h : TableOf t ps) (hp : ∀ p ∈ ps, p.2 ≠ 0#32)
    (b : Byte) (f : BitVec 32) : (b, f) ∈ ps ↔ f = atSym t.freq b ∧ f ≠ 0#32 := by
  refine ⟨fun hm => ⟨(h.listed _ hm).symm, hp _ hm⟩, fun ⟨hf, hf0⟩ => ?_⟩
  obtain ⟨⟨c, g⟩, hq, rfl⟩ : ∃ q ∈ ps, q.1 = b := by
    by_contra hno
    exact hf0 (hf.trans (h.other b fun hm => hno (List.mem_map.mp hm)))
  rwa [hf, h.listed _ hq]

/-- The pairs of a table are those that `present` lists, in some order. -/
theorem TableOf.perm_present {t : State} {ps : List (Byte × BitVec 32)} (h : TableOf t ps)
    (hp : ∀ p ∈ ps, p.2 ≠ 0#32) (hnodup : (ps.map Prod.fst).Nodup) : ps.Perm (present t) :=
  (List.perm_ext_iff_of_nodup hnodup.of_map (present_symbols_nodup t).of_map).mpr fun p =>
    (h.mem_iff hp p.1 p.2).trans mem_present.symm

/-- Settles O38: each turn of the loop accepts one pair (`readPairs_accepts`), whatever its place. -/
theorem hdrReadTakesPairsInAnyOrder : Obligations.HdrReadTakesPairsInAnyOrder := by
  intro s ps rest he hno h0 hlen hnodup hp hx
  obtain ⟨t, hdone, hno', hrest, hspos, htable⟩ :=
    readHeader_table (s := clearReader (clearFlags s)) hno h0 hlen hnodup hp hx
  refine ⟨t, exec_of_done nofun he hdone, htable.listed, htable.other, ?_, hrest, hspos, ?_⟩
  · rw [← present_length, (htable.perm_present hp hnodup).length_eq]
  · obtain ⟨hroot, hcodes⟩ := (readHeader_noTree _).of_done hdone
    have hframe := (readHeader_frame _).of_done hdone
    unfold HeaderFrame at hframe
    rw [hroot, hcodes] at hframe
    exact hframe

end Sys2Proof.Machine
end

section
/-!
PROOFS. The bit writer's codes and COMPRESS (30_encoding.md R100 to R104, 45_bitwriter.md R220 to R225,
47_orchestrators.md R260, R262), with no collaborator failure.
-/

namespace Sys2Proof.Machine

/-! ### What the writer's primitives leave (45_bitwriter.md R220, R222) -/

/-- The writer has taken the bits `p` after those written before, and is sound. -/
structure Wrote (s t : State) (p : List Bool) : Prop where
  noFailure : NoCollaboratorFailure t
  writerOk : WriterOk t
  written : writtenBits t = writtenBits s ++ p
  frame : WriterFrame s t

theorem Wrote.nil {s : State} (hno : NoCollaboratorFailure s) (hw : WriterOk s) : Wrote s s [] where
  noFailure := hno
  writerOk := hw
  written := (List.append_nil _).symm
  frame := .refl s

theorem Wrote.append {s t u : State} {p q : List Bool} (h : Wrote s t p) (h' : Wrote t u q) : Wrote s u (p ++ q) where
  noFailure := h'.noFailure
  writerOk := h'.writerOk
  written := by rw [h'.written, h.written, List.append_assoc]
  frame := h.frame.trans h'.frame

theorem putBit_noFailure {s : State} (hno : NoCollaboratorFailure s) (hw : WriterOk s) (b : Bool) :
    (putBit b s).Ends NoCollaboratorFailure := by
  rcases putBit_cases hw b with ⟨_, h⟩ | h
  · rw [h]
    exact hno
  · obtain ⟨t, hdone, ht⟩ := sinkWrite_sent (s := clearWriter s) hno (BitVec.ofNat 8 (s.wacc.toNat * 2 + b.toNat))
    rw [h, hdone]
    exact ht.noFailure

theorem putBit_wrote {s : State} (hno : NoCollaboratorFailure s) (hw : WriterOk s) (b : Bool) :
    ∃ t, putBit b s = .done () t ∧ Wrote s t [b] := by
  obtain ⟨t, hdone, hbits, -⟩ := putBit_appends hw hno b
  exact ⟨t, hdone, (putBit_noFailure hno hw b).of_done hdone, (putBit_writerOk hw b).of_done hdone, hbits,
    (putBit_frame b s).of_done hdone⟩

theorem putBits_wrote {s : State} (hno : NoCollaboratorFailure s) (hw : WriterOk s) (v : BitVec 255) (j : Nat) :
    ∃ t, putBits v j s = .done () t ∧ Wrote s t (lowBits j v) := by
  induction j generalizing s with
  | zero => exact ⟨s, rfl, .nil hno hw⟩
  | succ j ih =>
    obtain ⟨t, hdone, ht⟩ := putBit_wrote hno hw (v.getLsbD j)
    obtain ⟨u, hdone', hu⟩ := ih ht.noFailure ht.writerOk
    refine ⟨u, by rw [putBits, hdone, Run.bind_done, hdone'], ?_⟩
    rw [lowBits_succ]
    exact ht.append hu

theorem putCode_wrote {s : State} (hno : NoCollaboratorFailure s) (hw : WriterOk s) (b : Byte) :
    ∃ t, putCode b s = .done () t ∧ Wrote s t (codeOf s b) :=
  putBits_wrote hno hw _ _

/-- Settles O43: `PutCode` writes the bits of the code, most significant first (`putBits_wrote`). -/
theorem bwSymWritesTheCode : Obligations.BwSymWritesTheCode := by
  intro sym s he hv hlen hw hno
  obtain ⟨t, hdone, ht⟩ := putCode_wrote (s := clearFlags s) hno hw sym
  have hbody : commandBody (.bwSym sym) (clearFlags s) = .done () (countSymbol t) := by
    rw [commandBody, if_neg (by rw [clearFlags_codesValid, hv]; decide),
      if_neg (show atSym (clearFlags s).clen sym ≠ 0#8 from hlen), hdone, Run.bind_done]
  refine ⟨countSymbol t, exec_of_done nofun he hbody, ht.written, ht.writerOk, ?_⟩
  have hframe := ht.frame
  unfold WriterFrame at hframe
  rw [hframe]
  rfl

/-! ### Pass 2 of COMPRESS and the final flush (47_orchestrators.md R260) -/

theorem codeOf_congr {s t : State} (hlen : t.clen = s.clen) (hval : t.cval = s.cval) : codeOf t = codeOf s := by
  funext b
  rw [codeOf, codeOf, hlen, hval]

theorem remaining_congr {s t : State} (hseq : t.srcseq = s.srcseq) (hpos : t.spos = s.spos) :
    remaining t = remaining s := by
  rw [remaining, remaining, hseq, hpos]

/-- The loop writes the code of each byte left and counts it. -/
theorem encodeLoop_wrote {s : State} {xs : List Byte} (hno : NoCollaboratorFailure s) (hw : WriterOk s)
    (hx : remaining s = xs) (hcode : ∀ b ∈ xs, atSym s.clen b ≠ 0#8) :
    ∃ t, encodeLoop xs.length s = .done () t ∧ NoCollaboratorFailure t ∧ WriterOk t ∧
      writtenBits t = writtenBits s ++ xs.flatMap (codeOf s) ∧ t.spos = s.spos + xs.length ∧
      t.xcnt = s.xcnt + BitVec.ofNat 40 xs.length := by
  induction xs generalizing s with
  | nil => exact ⟨s, rfl, hno, hw, (List.append_nil _).symm, rfl, (BitVec.add_zero _).symm⟩
  | cons b xs ih =>
    obtain ⟨t, hr, hno', hrest, ht⟩ := sourceRead_byte_of_noFailure hno hx
    have hframe : EncodeFrame s t := by rw [ht]; rfl
    obtain ⟨u, hdone, hu⟩ := putCode_wrote hno' (sourceRead_writerOk hw hr) b
    have hcount : EncodeFrame t (countSymbol u) := hu.frame.toEncodeFrame.trans (by rfl)
    have hsame := (hframe.trans hcount).sameTree
    have hsource : (countSymbol u).srcseq = t.srcseq ∧ (countSymbol u).spos = t.spos ∧ u.xcnt = t.xcnt := by
      have hf := hu.frame
      unfold WriterFrame at hf
      rw [hf]
      exact ⟨rfl, rfl, rfl⟩
    obtain ⟨hseq, hspos, hxcnt⟩ := hsource
    obtain ⟨v, hdone', hnov, hwv, hbits, hposv, hxcntv⟩ := ih (s := countSymbol u) hu.noFailure hu.writerOk
      ((remaining_congr hseq hspos).trans hrest) fun c hc => by
        rw [hsame.clen]
        exact hcode c (List.mem_cons_of_mem b hc)
    have hcodes : codeOf t = codeOf s := codeOf_congr hframe.sameTree.clen hframe.sameTree.cval
    have hold : writtenBits t = writtenBits s := by rw [ht]; rfl
    refine ⟨v, ?_, hnov, hwv, ?_, ?_, ?_⟩
    · have hb : atSym t.clen b ≠ 0#8 := by
        rw [hframe.sameTree.clen]
        exact hcode b List.mem_cons_self
      rw [List.length_cons, encodeLoop, hr]
      simp only [hb, if_false, hdone, Run.bind_done, hdone']
    · rw [hbits, codeOf_congr hsame.clen hsame.cval, show writtenBits (countSymbol u) = writtenBits u from rfl,
        hu.written, hcodes, hold, List.append_assoc, List.flatMap_cons]
    · rw [hposv, hspos, show t.spos = s.spos + 1 by rw [ht], List.length_cons]
      omega
    · rw [hxcntv, countSymbol_xcnt, hxcnt, ht, List.length_cons, Nat.add_comm xs.length, BitVec.ofNat_add,
        BitVec.add_assoc]

/-- The flush leaves an empty buffer, and fewer than 8 zero bits behind those written. -/
theorem flushBits_padded {s : State} (hno : NoCollaboratorFailure s) (hw : WriterOk s) :
    ∃ t pad, flushBits s = .done () t ∧ t.wacc = 0#8 ∧ t.wcnt = 0 ∧ pad < 8 ∧
      streamBits t.snkseq = writtenBits s ++ List.replicate pad false := by
  by_cases h0 : s.wcnt.val = 0
  · refine ⟨s, 0, if_pos h0, ?_, Fin.ext h0, by omega, ?_⟩
    · rw [WriterOk, h0, pow_zero, Nat.lt_one_iff] at hw
      exact BitVec.eq_of_toNat_eq hw
    · rw [writtenBits, pendingBits, h0]
      simp
  · obtain ⟨t, hdone, hacc, hcnt, hbits⟩ := flushBits_of_pending hw hno h0
    exact ⟨t, 8 - s.wcnt.val, hdone, hacc, Fin.ext hcnt, by omega, hbits⟩

/-- From an empty buffer, pass 2 and the flush send the codes of the bytes left, padded to whole bytes. -/
theorem encodeLoop_flushBits {s : State} {xs : List Byte} (hno : NoCollaboratorFailure s) (hacc : s.wacc = 0#8)
    (hcnt : s.wcnt = 0) (hx : remaining s = xs) (hcode : ∀ b ∈ xs, atSym s.clen b ≠ 0#8) :
    ∃ t u payload pad, encodeLoop xs.length s = .done () t ∧ flushBits t = .done () u ∧
      u.snkseq = s.snkseq ++ payload ∧ pad < 8 ∧
      streamBits payload = xs.flatMap (codeOf s) ++ List.replicate pad false ∧ u.wacc = 0#8 ∧ u.wcnt = 0 ∧
      u.spos = s.spos + xs.length ∧ u.xcnt = s.xcnt + BitVec.ofNat 40 xs.length ∧ EncodeFrame s u := by
  have hw : WriterOk s := by
    rw [WriterOk, hacc, hcnt]
    decide
  have hnone : writtenBits s = streamBits s.snkseq := by
    rw [writtenBits, pendingBits, hcnt]
    exact List.append_nil _
  obtain ⟨t, hdone, hnot, hwt, hbits, hspos, hxcnt⟩ := encodeLoop_wrote hno hw hx hcode
  obtain ⟨u, pad, hdone', hacc', hcnt', hpad, hstream⟩ := flushBits_padded hnot hwt
  obtain ⟨payload, hpayload⟩ :=
    (((encodeLoop_streams _ s).of_done hdone).trans ((flushBits_streams t).of_done hdone')).sink
  have hflush := (flushBits_frame t).of_done hdone'
  have hkept : u.spos = t.spos ∧ u.xcnt = t.xcnt := by
    unfold WriterFrame at hflush
    rw [hflush]
    exact ⟨rfl, rfl⟩
  refine ⟨t, u, payload, pad, hdone, hdone', hpayload.symm, hpad, ?_, hacc', hcnt', hkept.1.trans hspos,
    hkept.2.trans hxcnt, ((encodeLoop_frame _ s).of_done hdone).trans hflush.toEncodeFrame⟩
  rw [← hpayload, streamBits_append, hbits, hnone, List.append_assoc] at hstream
  exact List.append_cancel_left hstream

/-! ### The table, the tree and the codes of the source (47_orchestrators.md R260) -/

theorem sourceRewind_of_noFailure {s : State} (h : NoCollaboratorFailure s) :
    ∃ t, sourceRewind s = .done () t ∧ NoCollaboratorFailure t ∧ t = { s with draws := t.draws, spos := 0 } := by
  obtain ⟨ds, hd, hds⟩ := failDraw_noFailure_eq h
  exact ⟨{ s with draws := ds, spos := 0 }, by simp [sourceRewind, hd], hds, rfl⟩

theorem sourceRead_noFailure {s t : State} {a : ReadAnswer} (h : NoCollaboratorFailure s)
    (hr : sourceRead s = (a, t)) : NoCollaboratorFailure t := by
  cases hx : remaining s with
  | nil =>
    obtain ⟨u, hu, hno, -⟩ := sourceRead_eos_of_noFailure h hx
    obtain ⟨-, rfl⟩ := Prod.mk.inj (hr.symm.trans hu)
    exact hno
  | cons b xs =>
    obtain ⟨u, hu, hno, -⟩ := sourceRead_byte_of_noFailure h hx
    obtain ⟨-, rfl⟩ := Prod.mk.inj (hr.symm.trans hu)
    exact hno

theorem scanLoop_noFailure {s : State} (h : NoCollaboratorFailure s) (k : Nat) :
    (scanLoop k s).Ends NoCollaboratorFailure := by
  induction k generalizing s with
  | zero => exact h
  | succ k ih =>
    rw [scanLoop]
    split <;> rename_i hr <;> have ht := sourceRead_noFailure h hr
    · exact ht
    · exact ht
    · split
      · exact ht
      · exact ih (s := setFreq _ _ _) ht

/-- ScanFreq counts the bytes left. -/
theorem scanFreq_counts {s : State} (hno : NoCollaboratorFailure s) (hfit : CountsFit (remaining s)) :
    ∃ t, scanFreq s = .done () t ∧ NoCollaboratorFailure t ∧ HeaderFrame s t ∧
      ∀ b : Byte, (atSym t.freq b).toNat = (remaining s).count b := by
  let u : State := invalidateTree (clearFreq s)
  have hzero : ∀ b : Byte, (atSym u.freq b).toNat = 0 := fun b => congrArg BitVec.toNat (atSym_replicate _ b)
  obtain ⟨t, hdone, hcounts, -, -⟩ := scanLoop_counts (s := u) (xs := remaining s) (k := sourceLeft u + 1) hno rfl
    (by rw [sourceLeft_eq]; exact Nat.lt_succ_self _) fun b => by rw [hzero, Nat.zero_add]; exact hfit b
  exact ⟨t, hdone, (scanLoop_noFailure (s := u) hno _).of_done hdone, (scanFreq_frame s).of_done hdone,
    fun b => by rw [hcounts, hzero, Nat.zero_add]⟩

/-- A sum over the bytes of a sequence, gathered symbol by symbol. -/
theorem sum_count_mul (xs : List Byte) (g : Byte → Nat) :
    (allSymbols.map fun b => xs.count b * g b).sum = (xs.map g).sum := by
  have hsub : xs.toFinset ⊆ allSymbols.toFinset := fun b _ => List.mem_toFinset.mpr (mem_allSymbols b)
  rw [← List.sum_toFinset _ allSymbols_nodup, Finset.sum_list_map_count, ← Finset.sum_subset hsub]
  · rfl
  · intro b _ hb
    rw [List.count_eq_zero_of_not_mem (mt List.mem_toFinset.mpr hb), Nat.zero_mul]

theorem total_of_counts {s : State} {xs : List Byte} (h : ∀ b : Byte, (atSym s.freq b).toNat = xs.count b) :
    total s = xs.length := by
  have hsum := sum_count_mul xs fun _ => 1
  simp only [Nat.mul_one, ← h, ← total_eq_sum] at hsum
  rw [hsum]
  simp

/-- OUTBITS is the length of the codes of the bytes that were counted (R262). -/
theorem codeBits_of_counts {s : State} {xs : List Byte} (h : ∀ b : Byte, (atSym s.freq b).toNat = xs.count b) :
    codeBits s = (xs.flatMap (codeOf s)).length := by
  have hlen : ∀ b, (codeOf s b).length = (atSym s.clen b).toNat := fun b => by simp [codeOf, lowBits]
  rw [codeBits_eq_sum, List.length_flatMap, ← sum_count_mul xs]
  simp only [hlen, h, Nat.mul_comm]

/-- BuildTree of a table with a count ends with a tree of it, and no codes. -/
theorem buildTree_treeOk {s : State} (h0 : ndist s ≠ 0) :
    ∃ t, buildTree s = .done () t ∧ TreeFrame s t ∧ t.rootValid = true ∧ t.codesValid = false ∧ TreeOk t := by
  obtain ⟨n, _, u, -, -, -, hframe, hdone⟩ := buildTree_built h0
  have hv := buildTree_rootValid hdone
  exact ⟨_, hdone, (buildTree_frame s).of_done hdone, hv, (hframe.noTree ⟨rfl, rfl⟩).codesValid,
    ((buildTree_treeAndCodesOk s).of_done hdone).tree hv⟩

/-- GenCodes of a tree ends with a code for each symbol of the table. -/
theorem genCodes_codesOk {s : State} (hv : s.rootValid = true) (h : TreeOk s) :
    ∃ t, genCodes s = .done () t ∧ CodesFrame s t ∧ t.codesValid = true ∧ TreeOk t ∧ CodesOk t ∧
      (∀ b : Byte, atSym s.freq b ≠ 0#32 → atSym t.clen b ≠ 0#8) ∧ t.outbits.toNat = codeBits t := by
  obtain ⟨t, hdone, -, hcodes, -⟩ := h.genCodes
  have hframe := (genCodes_frame s).of_done hdone
  have hroot : (finishCodes t).rootValid = true := by
    unfold CodesFrame at hframe
    rw [hframe]
    exact hv
  have hok := (genCodes_treeAndCodesOk hv h).of_done hdone
  refine ⟨finishCodes t, hdone, hframe, rfl, hok.tree hroot, hok.codes rfl, fun b hb hzero => ?_, ?_⟩
  · obtain ⟨p, hp, hcode⟩ := hcodes b hb
    refine hp.ne_nil (List.length_eq_zero_iff.mp ?_)
    rw [← hcode.clen_toNat, show atSym t.clen b = 0#8 from hzero]
    rfl
  · exact (BitVec.toNat_ofNat _ _).trans (Nat.mod_eq_of_lt (codeBits_lt t))

/-- The fields that COMPRESS may change before it writes the header (R260). -/
def TablesFrame (s t : State) : Prop :=
  t = { s with
    draws := t.draws, spos := t.spos, freq := t.freq, rootValid := t.rootValid, codesValid := t.codesValid
    node := t.node, nnodes := t.nnodes, heap := t.heap, heapn := t.heapn, root := t.root
    clen := t.clen, cval := t.cval, outbits := t.outbits }

theorem TablesFrame.trans {s t u : State} (h : TablesFrame s t) (h' : TablesFrame t u) : TablesFrame s u := by
  unfold TablesFrame at h h' ⊢
  rw [h] at h'
  exact h'

theorem HeaderFrame.toTablesFrame {s t : State} (h : HeaderFrame s t) : TablesFrame s t := by
  unfold HeaderFrame at h
  rw [h]
  rfl

theorem TreeFrame.toTablesFrame {s t : State} (h : TreeFrame s t) : TablesFrame s t := by
  unfold TreeFrame at h
  rw [h]
  rfl

theorem CodesFrame.toTablesFrame {s t : State} (h : CodesFrame s t) : TablesFrame s t := by
  unfold CodesFrame at h
  rw [h]
  rfl

/-- What pass 1 of COMPRESS makes of `s`: the counts of the whole source, a tree of them, and its codes. -/
structure PassOne (s t : State) : Prop where
  noFailure : NoCollaboratorFailure t
  frame : TablesFrame s t
  counts : ∀ b : Byte, (atSym t.freq b).toNat = s.srcseq.count b
  rootValid : t.rootValid = true
  codesValid : t.codesValid = true
  treeOk : TreeOk t
  codesOk : CodesOk t
  coded : ∀ b ∈ s.srcseq, atSym t.clen b ≠ 0#8
  outbits : t.outbits.toNat = codeBits t

theorem distinctSymbols_ne_zero {xs : List Byte} (h : xs ≠ []) : distinctSymbols xs ≠ 0 := fun h0 =>
  h ((List.dedup_eq_nil xs).mp (List.length_eq_zero_iff.mp h0))

/-- COMPRESS up to its header (R260): pass 1 ends, and what follows runs from its result. -/
theorem passOne {s : State} (hno : NoCollaboratorFailure s) (hne : s.srcseq ≠ [])
    (hdist : distinctSymbols s.srcseq ≤ 255) (hfit : CountsFit s.srcseq) :
    ∃ t, PassOne s t ∧ ∀ k : State → Run Unit,
      ((sourceRewind s).bind fun _ s => (scanFreq s).bind fun _ s => (checkAlphabet s).bind fun _ s =>
        (buildTree s).bind fun _ s => (genCodes s).bind fun _ s => k s) = k t := by
  obtain ⟨a, ha, hnoa, hsa⟩ := sourceRewind_of_noFailure hno
  have hxa : remaining a = s.srcseq := by rw [hsa]; rfl
  have hfa : TablesFrame s a := by rw [hsa]; rfl
  obtain ⟨b, hb, hnob, hfb, hcounts⟩ := scanFreq_counts hnoa (hxa ▸ hfit)
  rw [hxa] at hcounts
  have hnd : ndist b = distinctSymbols s.srcseq := ndist_of_counts hcounts
  have h0 : ndist b ≠ 0 := hnd ▸ distinctSymbols_ne_zero hne
  have h256 : ndist b ≠ 256 := by omega
  obtain ⟨c, hc, hfc, hvc, -, htc⟩ := buildTree_treeOk h0
  obtain ⟨d, hd, hfd, hcv, htd, hcd, hcoded, hout⟩ := genCodes_codesOk hvc htc
  have hkept : d.draws = b.draws ∧ d.freq = b.freq ∧ c.freq = b.freq ∧ d.rootValid = c.rootValid := by
    unfold TreeFrame at hfc
    unfold CodesFrame at hfd
    rw [hfd, hfc]
    exact ⟨rfl, rfl, rfl, rfl⟩
  obtain ⟨hdraws, hfreqd, hfreqc, hvd⟩ := hkept
  have hframe := ((hfa.trans hfb.toTablesFrame).trans hfc.toTablesFrame).trans hfd.toTablesFrame
  refine ⟨d, ⟨?_, hframe, ?_, hvd.trans hvc, hcv, htd, hcd, fun x hx => hcoded x fun hzero => ?_, hout⟩, fun k => ?_⟩
  · rwa [NoCollaboratorFailure, hdraws]
  · rwa [hfreqd]
  · have hx0 := hcounts x
    rw [← hfreqc, hzero] at hx0
    exact (List.count_pos_iff.mpr hx).ne hx0
  · have hcheck : checkAlphabet b = .done () b := by rw [checkAlphabet, if_neg h0, if_neg h256]
    rw [ha, Run.bind_done, hb, Run.bind_done, hcheck, Run.bind_done, hc, Run.bind_done, hd, Run.bind_done]

theorem headerBytes_congr {s t : State} (h : t.freq = s.freq) : headerBytes t = headerBytes s := by
  rw [headerBytes, headerBytes, ndist, ndist, present, present, h]

/-- Settles O47: pass 1 (`passOne`), the header (`writeHeader_sent`), and pass 2 with the flush
(`encodeLoop_flushBits`), which leaves the tables of pass 1 alone. -/
theorem compressWritesHeaderAndPayload : Obligations.CompressWritesHeaderAndPayload := by
  intro s he hno hne hdist hfit
  let s0 : State := clearReader (clearWriter (clearCount (clearFlags s)))
  obtain ⟨d, hone, hrun⟩ := passOne (s := s0) hno hne hdist hfit
  have hframe := hone.frame
  unfold TablesFrame at hframe
  have hnd : ndist d = distinctSymbols s.srcseq := ndist_of_counts hone.counts
  obtain ⟨e, hhead, hsent⟩ := writeHeader_sent hone.noFailure (hnd ▸ distinctSymbols_ne_zero hne) (by omega)
  obtain ⟨f, hrewind, hnof, hstart⟩ := sourceRewind_of_noFailure hsent.noFailure
  have hdf : f = { d with draws := f.draws, spos := 0, snkseq := s.snkseq ++ headerBytes d } := by
    rw [hsent.state] at hstart
    rw [show s.snkseq = d.snkseq by rw [hframe]; rfl]
    exact hstart
  have henc : EncodeFrame d f := by rw [hdf]; rfl
  have hcodes : codeOf f = codeOf d := codeOf_congr henc.sameTree.clen henc.sameTree.cval
  obtain ⟨g, t, payload, pad, hloop, hflush, hsnk, hpad, hstream, hacc, hcnt, hspos, hxcnt, henc'⟩ :=
    encodeLoop_flushBits (s := f) (xs := s.srcseq) hnof (by rw [hdf, hframe]; rfl) (by rw [hdf, hframe]; rfl)
      (by rw [hdf, hframe]; rfl) fun b hb => by rw [henc.sameTree.clen]; exact hone.coded b hb
  have hsame := (henc.trans henc').sameTree
  have hcounts : ∀ b : Byte, (atSym t.freq b).toNat = s.srcseq.count b := by
    rw [hsame.freq]
    exact hone.counts
  have hcodest : codeOf t = codeOf d := codeOf_congr hsame.clen hsame.cval
  have htotal : total f = s.srcseq.length := total_of_counts (by rw [henc.sameTree.freq]; exact hone.counts)
  have hlt : s.srcseq.length < 2 ^ 40 := htotal ▸ total_lt f
  have hbody : commandBody .compress (clearFlags s) = .done () t :=
    (hrun _).trans (by rw [hhead, Run.bind_done, hrewind, Run.bind_done, htotal, hloop, Run.bind_done, hflush])
  refine ⟨t, payload, pad, exec_of_done nofun he hbody, hcounts, hone.treeOk.congr hsame.node hsame.root hsame.freq,
    hone.codesOk.congr hsame, ?_, hpad, ?_, total_of_counts hcounts, ?_, ?_, ?_, ?_⟩
  · rw [headerBytes_congr hsame.freq, hsnk, hdf]
  · rw [hcodest, ← hcodes]
    exact hstream
  · have hzero : f.xcnt = 0#40 := by rw [hdf, hframe]; rfl
    rw [hxcnt, hzero, BitVec.zero_add]
    exact Nat.mod_eq_of_lt hlt
  · rw [hsame.outbits, hone.outbits, hcodest]
    exact codeBits_of_counts hone.counts
  · rw [hspos, hdf, Nat.zero_add]
  · have hend := henc.trans henc'
    unfold EncodeFrame at hend
    rw [hone.rootValid, hone.codesValid] at hframe
    rw [hacc, hcnt, hframe] at hend
    rw [hend]
    rfl

end Sys2Proof.Machine
end

section
/-!
PROOFS. The decoder on the codes of a tree (46_bitreader.md R244), the tree as a function of the counts
(43_tree_codes.md R187), and DECOMPRESS (47_orchestrators.md R261, R262), with no collaborator failure.
-/

namespace Sys2Proof.Machine

/-! ### The decoder follows a path (46_bitreader.md R241, R244) -/

/-- The reader has `rest` still to return, and fewer than 8 bits of it in its window. -/
structure Consumed (s t : State) (rest : List Bool) : Prop where
  noFailure : NoCollaboratorFailure t
  unread : unreadBits t = rest
  short : t.rcnt.val < 8
  frame : ReaderFrame s t

theorem getBit_short {s t : State} {b : Bool} (h : getBit s = .done (some b) t) : t.rcnt.val < 8 := by
  unfold getBit takeBit at h
  split at h
  next r hr _ =>
    cases h
    exact Nat.lt_of_succ_lt_succ hr
  next =>
    split at h
    · cases h
    · cases h
    · cases h
      exact Nat.lt_succ_self 7

theorem getBit_consumed {s : State} {b : Bool} {rest : List Bool} (hno : NoCollaboratorFailure s)
    (h : unreadBits s = b :: rest) : ∃ t, getBit s = .done (some b) t ∧ Consumed s t rest := by
  obtain ⟨t, hdone, hno', hrest⟩ := getBit_of_unread hno h
  exact ⟨t, hdone, hno', hrest, getBit_short hdone, (getBit_frame s).of_done hdone⟩

theorem Consumed.trans {s t u : State} {q r : List Bool} (h : Consumed s t q) (h' : Consumed t u r) :
    Consumed s u r where
  noFailure := h'.noFailure
  unread := h'.unread
  short := h'.short
  frame := h.frame.trans h'.frame

/-- At an internal node the decoder's loop takes one bit and goes to the child it names, 0 left and 1 right. -/
theorem decodeLoop_turn {s : State} {n m : NodeIdx} {b : Bool} {rest : List Bool} (hno : NoCollaboratorFailure s)
    (hunread : unreadBits s = b :: rest) (hsym : s.node[n].sym = .sentinel)
    (hchild : (if b then s.node[n].right else s.node[n].left) = some m) :
    ∃ t, Consumed s t rest ∧ t.node = s.node ∧
      ∀ (k : Nat) (first : Bool), decodeLoop (k + 1) n first s = decodeLoop k m false t := by
  obtain ⟨t, hdone, ht⟩ := getBit_consumed hno hunread
  have hnode : t.node = s.node := (getBit_node hdone).1
  refine ⟨t, ht, hnode, fun k first => ?_⟩
  rw [decodeLoop, hsym]
  cases b with
  | false =>
    have hleft : t.node[n].left = some m := by rw [hnode]; exact hchild
    simp only [hdone, Run.bind_done, hleft]
  | true =>
    have hright : t.node[n].right = some m := by rw [hnode]; exact hchild
    simp only [hdone, Run.bind_done, hright]

/-- From a node, the bits of a path below it lead the decoder's loop to the path's leaf. -/
theorem decodeLoop_path {u s : State} {n : NodeIdx} {p rest : List Bool} {b : Byte} (h : PathTo u n p b)
    (hnode : s.node = u.node) (hno : NoCollaboratorFailure s) (hshort : s.rcnt.val < 8 ∨ p ≠ [])
    (hunread : unreadBits s = p ++ rest) {k : Nat} (hk : p.length < k) (first : Bool) :
    ∃ t, decodeLoop k n first s = .done (some b) t ∧ Consumed s t rest := by
  induction h generalizing s k first with
  | leaf n b hsym =>
    obtain ⟨k, rfl⟩ := Nat.exists_eq_succ_of_ne_zero (Nat.ne_of_gt hk)
    exact ⟨s, by rw [decodeLoop, hnode, hsym], hno, hunread, hshort.resolve_right (absurd rfl ·), .refl s⟩
  | left n l p b hsym hchild _ ih =>
    obtain ⟨k, rfl⟩ := Nat.exists_eq_succ_of_ne_zero (Nat.ne_of_gt (Nat.zero_lt_of_lt hk))
    obtain ⟨t, ht, htnode, hturn⟩ := decodeLoop_turn (m := l) hno hunread (hnode ▸ hsym) (hnode ▸ hchild)
    obtain ⟨v, hdone, hv⟩ := ih (htnode.trans hnode) ht.noFailure (.inl ht.short) ht.unread
      (Nat.lt_of_succ_lt_succ hk) false
    exact ⟨v, (hturn k first).trans hdone, ht.trans hv⟩
  | right n r p b hsym hchild _ ih =>
    obtain ⟨k, rfl⟩ := Nat.exists_eq_succ_of_ne_zero (Nat.ne_of_gt (Nat.zero_lt_of_lt hk))
    obtain ⟨t, ht, htnode, hturn⟩ := decodeLoop_turn (m := r) hno hunread (hnode ▸ hsym) (hnode ▸ hchild)
    obtain ⟨v, hdone, hv⟩ := ih (htnode.trans hnode) ht.noFailure (.inl ht.short) ht.unread
      (Nat.lt_of_succ_lt_succ hk) false
    exact ⟨v, (hturn k first).trans hdone, ht.trans hv⟩

theorem streamBits_length (bs : List Byte) : (streamBits bs).length = 8 * bs.length := by
  simp [streamBits, List.length_flatMap, byteBits, Nat.mul_comm]

theorem unreadBits_length (s : State) : (unreadBits s).length = bitsLeft s := by
  rw [unreadBits, List.length_append, streamBits_length, bitsLeft, sourceLeft_eq]
  simp [lowBits]

/-- DecodeSym reads exactly the bits of a code of the tree, and returns its symbol. -/
theorem decodeSym_code {s : State} {p rest : List Bool} {b : Byte} (hno : NoCollaboratorFailure s)
    (h : CodePath s p b) (hunread : unreadBits s = p ++ rest) :
    ∃ t, decodeSym s = .done (some b) t ∧ Consumed s t rest := by
  rcases h with ⟨hsym, rfl⟩ | ⟨hsym, hpath⟩
  · obtain ⟨t, hdone, ht⟩ := getBit_consumed hno hunread
    refine ⟨t, ?_, ht⟩
    rw [decodeSym, hsym]
    simp only [hdone, Run.bind_done]
  · have hne : p ≠ [] := CodePath.ne_nil (.inr ⟨hsym, hpath⟩)
    have hlen : p.length < bitsLeft s + 1 := by
      rw [← unreadBits_length, hunread, List.length_append]
      omega
    obtain ⟨t, hdone, ht⟩ := decodeLoop_path hpath rfl hno (.inr hne) hunread hlen true
    refine ⟨t, ?_, ht⟩
    rw [decodeSym, hsym]
    exact hdone

/-- The symbol loop of DECOMPRESS sends the symbols whose codes come next, and counts them. -/
theorem decodeAll_codes {s : State} {code : Byte → List Bool} {xs : List Byte} {rest : List Bool}
    (hno : NoCollaboratorFailure s) (hshort : s.rcnt.val < 8) (hcode : ∀ b ∈ xs, CodePath s (code b) b)
    (hunread : unreadBits s = xs.flatMap code ++ rest) :
    ∃ t, decodeAll xs.length s = .done () t ∧ unreadBits t = rest ∧ t.rcnt.val < 8 ∧ t.snkseq = s.snkseq ++ xs ∧
      t.xcnt = s.xcnt + BitVec.ofNat 40 xs.length := by
  induction xs generalizing s with
  | nil => exact ⟨s, rfl, hunread, hshort, (List.append_nil _).symm, (BitVec.add_zero _).symm⟩
  | cons b xs ih =>
    rw [List.flatMap_cons, List.append_assoc] at hunread
    obtain ⟨t, hdone, ht⟩ := decodeSym_code hno (hcode b List.mem_cons_self) hunread
    obtain ⟨u, hsent, hu⟩ := sinkWrite_sent ht.noFailure b
    have hframe := ht.frame
    have hsent' := hu.state
    unfold ReaderFrame at hframe
    have hu' : countSymbol u = { t with draws := u.draws, snkseq := s.snkseq ++ [b], xcnt := s.xcnt + 1#40 } := by
      rw [hsent', hframe]
      rfl
    have htree : (countSymbol u).node = s.node ∧ (countSymbol u).root = s.root := by
      rw [hu', hframe]
      exact ⟨rfl, rfl⟩
    obtain ⟨v, hdone', hrest, hshortv, hsnk, hxcnt⟩ := ih (s := countSymbol u) hu.noFailure
      (by rw [hu']; exact ht.short) (fun c hc => (hcode c (List.mem_cons_of_mem b hc)).congr htree.1 htree.2) (by rw [hu']; exact ht.unread)
    refine ⟨v, ?_, hrest, hshortv, ?_, ?_⟩
    · rw [List.length_cons, decodeAll, hdone, Run.bind_done]
      simp only [hsent, Run.bind_done, hdone']
    · rw [hsnk, hu', List.append_assoc, List.singleton_append]
    · rw [hxcnt, hu', List.length_cons, Nat.add_comm xs.length, BitVec.ofNat_add, BitVec.add_assoc]

/-! ### The tree is a function of the counts (43_tree_codes.md R187) -/

theorem less_trans {s : State} {a b c : NodeIdx} (hab : less s a b = true) (hbc : less s b c = true) :
    less s a c = true := by
  rw [less_iff] at *
  omega

/-- Of the nodes in `W`, `a` is the least and `b` the next least under Less. -/
structure TwoLeast (s : State) (W : NodeIdx → Prop) (a b : NodeIdx) : Prop where
  first : W a
  second : W b
  ordered : less s a b = true
  others : ∀ m : NodeIdx, W m → m ≠ a → m ≠ b → less s b m = true

theorem TwoLeast.least {s : State} {W : NodeIdx → Prop} {a b m : NodeIdx} (h : TwoLeast s W a b) (hm : W m)
    (hne : m ≠ a) : less s a m = true := by
  by_cases hb : m = b
  · exact hb ▸ h.ordered
  · exact less_trans h.ordered (h.others m hm hne hb)

theorem TwoLeast.unique {s : State} {W : NodeIdx → Prop} {a b c d : NodeIdx} (h : TwoLeast s W a b)
    (h' : TwoLeast s W c d) : a = c ∧ b = d := by
  have hfirst : a = c := by
    by_contra hne
    have hac := less_asymm (h.least h'.first (Ne.symm hne))
    rw [h'.least h.first hne] at hac
    cases hac
  subst hfirst
  have hsecond : ∀ {x : NodeIdx}, less s a x = true → x ≠ a := fun hx e => by
    rw [e, less_irrefl] at hx
    cases hx
  refine ⟨rfl, ?_⟩
  by_contra hne
  have hbd := less_asymm (h.others d h'.second (hsecond h'.ordered) (Ne.symm hne))
  rw [h'.others b h.second (hsecond h.ordered) hne] at hbd
  cases hbd

/-- What the nodes before it are decides what a node joins. -/
theorem JoinsTheTwoLeast.unique {s t : State} {n : NodeIdx} (hbefore : ∀ m : NodeIdx, m < n → t.node[m] = s.node[m])
    (hs : JoinsTheTwoLeast s n) (ht : JoinsTheTwoLeast t n) : t.node[n] = s.node[n] := by
  obtain ⟨a, b, ha, hb, hab, hothers, hrec, hsum⟩ := hs
  obtain ⟨c, d, hc, hd, hcd, hothers', hrec', hsum'⟩ := ht
  have hwait : ∀ m, Waiting s n m ↔ Waiting t n m :=
    waiting_congr fun p hp => ⟨by rw [hbefore p hp], by rw [hbefore p hp]⟩
  have hless : ∀ x y, x < n → y < n → less t x y = less s x y := fun x y hx hy =>
    less_congr (hbefore x hx) (hbefore y hy)
  have htwo : TwoLeast s (Waiting s n) a b := ⟨ha, hb, hab, hothers⟩
  have htwo' : TwoLeast s (Waiting s n) c d :=
    ⟨(hwait c).mpr hc, (hwait d).mpr hd, hless c d hc.1 hd.1 ▸ hcd, fun m hm hmc hmd =>
      hless d m hd.1 hm.1 ▸ hothers' m ((hwait m).mp hm) hmc hmd⟩
  obtain ⟨rfl, rfl⟩ := htwo.unique htwo'
  have hfreq : t.node[n].freq = s.node[n].freq := by
    apply BitVec.eq_of_toNat_eq
    rw [hsum, hsum', hbefore a ha.1, hbefore b hb.1]
  rw [hrec, hrec', hfreq]

/-- Two runs of BuildTree with the same leaves make the same nodes. -/
theorem Built.node_eq {s t u v : State} {ps : List (Byte × BitVec 32)} (h : Built s ps t) (h' : Built u ps v)
    (hcount : v.nnodes.val = t.nnodes.val) (n : NodeIdx) (hn : n.val < t.nnodes.val) : v.node[n] = t.node[n] := by
  induction n using WellFoundedLT.induction with
  | ind n ih =>
    rcases Nat.lt_or_ge n.val ps.length with hleaf | hinner
    · obtain ⟨p, hp⟩ : ∃ p, ps[n.val]? = some p := ⟨_, List.getElem?_eq_getElem hleaf⟩
      rw [h.leaf n p hp, h'.leaf n p hp]
    · exact (h.joined n hinner hn).unique (fun m hm => ih m hm (Nat.lt_trans hm hn))
        (h'.joined n hinner (hcount ▸ hn))

theorem Spans.le_head {s : State} {n : NodeIdx} {ns : List NodeIdx} (h : Spans s n ns) : ∀ m ∈ ns, m ≤ n := by
  induction h with
  | leaf n b _ _ _ => exact fun m hm => (List.mem_singleton.mp hm).le
  | inner n l r xs ys _ _ _ hl hr _ _ _ ihl ihr =>
    intro m hm
    rcases List.mem_cons.mp hm with rfl | hm
    · exact le_rfl
    · rcases List.mem_append.mp hm with hm | hm
      · exact (ihl m hm).trans hl.le
      · exact (ihr m hm).trans hr.le

/-- A path depends on the nodes below its first alone. -/
theorem PathTo.congr_of_spans {s t : State} {n : NodeIdx} {p : List Bool} {b : Byte} {ns : List NodeIdx}
    (h : PathTo s n p b) (hspans : Spans s n ns) (ht : ∀ m ∈ ns, t.node[m] = s.node[m]) : PathTo t n p b := by
  induction h generalizing ns with
  | leaf n b hsym => exact .leaf n b (by rw [ht n hspans.head_mem, hsym])
  | left n l p b hsym hl _ ih =>
    have hn := ht n hspans.head_mem
    cases hspans with
    | leaf _ c hleaf => rw [hsym] at hleaf; cases hleaf
    | inner _ x y xs ys _ hx _ _ _ _ hxs _ =>
      obtain rfl : l = x := Option.some.inj (hl.symm.trans hx)
      exact .left n l p b (by rw [hn, hsym]) (by rw [hn, hl])
        (ih hxs fun m hm => ht m (List.mem_cons_of_mem n (List.mem_append_left ys hm)))
  | right n r p b hsym hr _ ih =>
    have hn := ht n hspans.head_mem
    cases hspans with
    | leaf _ c hleaf => rw [hsym] at hleaf; cases hleaf
    | inner _ x y xs ys _ _ hy _ _ _ _ hys =>
      obtain rfl : r = y := Option.some.inj (hr.symm.trans hy)
      exact .right n r p b (by rw [hn, hsym]) (by rw [hn, hr])
        (ih hys fun m hm => ht m (List.mem_cons_of_mem n (List.mem_append_right xs hm)))

/-- Two engines with the same counts get trees with the same codes, whatever else they hold. -/
theorem buildTree_codePath {s t u v : State} (hfreq : u.freq = s.freq) (h0 : ndist s ≠ 0)
    (hs : buildTree s = .done () t) (hu : buildTree u = .done () v) {p : List Bool} {b : Byte} (h : CodePath t p b) :
    CodePath v p b := by
  have hpresent : present u = present s := by rw [present, present, hfreq]
  have h0' : ndist u ≠ 0 := by rwa [ndist, hfreq]
  obtain ⟨n, s', s'', hb, hone, hx, -, hdone⟩ := buildTree_built h0
  obtain ⟨m, u', u'', hb', hone', hx', -, hdone'⟩ := buildTree_built h0'
  rw [hpresent] at hb'
  obtain rfl : t = setRoot n s'' := by
    rw [hs] at hdone
    exact (Run.done.inj hdone).2
  obtain rfl : v = setRoot m u'' := by
    rw [hu] at hdone'
    exact (Run.done.inj hdone').2
  have hnode : s''.node = s'.node := (heapExtract_done hx).2.2
  have hnode' : u''.node = u'.node := (heapExtract_done hx').2.2
  have hslot := hb.root_slot (heapExtract_last hone hx).1
  have hslot' := hb'.root_slot (heapExtract_last hone' hx').1
  have hcounts := hb.counts
  have hcounts' := hb'.counts
  have hsame : u'.nnodes.val = s'.nnodes.val := by omega
  obtain rfl : m = n := Fin.ext (by omega)
  obtain ⟨ns, hspans, -⟩ := buildTree_rootSpans hs
  have hnodes : ∀ x ∈ ns, (setRoot m u'').node[x] = (setRoot m s'').node[x] := fun x hxs => by
    have hle : x.val ≤ m.val := hspans.le_head x hxs
    rw [setRoot_node, setRoot_node, hnode, hnode']
    exact hb.node_eq hb' hsame x (by omega)
  have hroot := hnodes m hspans.head_mem
  rcases h with ⟨hsym, hp⟩ | ⟨hsym, hpath⟩
  · exact .inl ⟨(congrArg Node.sym hroot).trans hsym, hp⟩
  · exact .inr ⟨(congrArg Node.sym hroot).trans hsym, hpath.congr_of_spans hspans hnodes⟩

/-! ### DECOMPRESS (47_orchestrators.md R261, R262) -/

theorem tableOf_present (s : State) : TableOf s (present s) where
  listed p hp := (mem_present.mp hp).1.symm
  other b hb := by
    by_contra hne
    exact hb (List.mem_map.mpr ⟨(b, atSym s.freq b), mem_present.mpr ⟨rfl, hne⟩, rfl⟩)

theorem TableOf.freq_eq {s t : State} {ps : List (Byte × BitVec 32)} (hs : TableOf s ps) (ht : TableOf t ps) :
    t.freq = s.freq := by
  refine table_ext fun b => ?_
  by_cases hb : b ∈ ps.map Prod.fst
  · obtain ⟨p, hp, rfl⟩ := List.mem_map.mp hb
    rw [ht.listed p hp, hs.listed p hp]
  · rw [ht.other b hb, hs.other b hb]

/-- ReadHeader of the header of a table restores it. -/
theorem readHeader_headerBytes {s table : State} {xs : List Byte} (hno : NoCollaboratorFailure s)
    (h0 : ndist table ≠ 0) (h255 : ndist table ≤ 255) (hx : remaining s = headerBytes table ++ xs) :
    ∃ t, readHeader s = .done () t ∧ NoCollaboratorFailure t ∧ remaining t = xs ∧ t.freq = table.freq := by
  rw [headerBytes, ← present_length] at hx
  rw [← present_length] at h0 h255
  obtain ⟨t, hdone, hnot, hrest, -, htable⟩ := readHeader_table hno (fun e => h0 (List.length_eq_zero_iff.mpr e)) h255
    (present_symbols_nodup table) (fun p hp => (mem_present.mp hp).2) hx
  exact ⟨t, hdone, hnot, hrest, (tableOf_present table).freq_eq htable⟩

/-- The tree and the codes that the two commands make of a table: each counted symbol's code is its path. -/
theorem exec_codes {table tree codes : State} (he : table.errcode = none) (h0 : ndist table ≠ 0)
    (htree : exec .buildTree table = .next tree) (hcodes : exec .genCodes tree = .next codes) :
    buildTree (clearFlags table) = .done () tree ∧
      ∀ b : Byte, atSym table.freq b ≠ 0#32 → CodePath tree (codeOf codes b) b := by
  obtain ⟨t, hdone, hframe, hv, -, hok⟩ := buildTree_treeOk (s := clearFlags table) h0
  have hnext := exec_of_done (i := .buildTree) nofun he hdone
  obtain rfl : tree = t := Host.Outcome.next.inj (htree.symm.trans hnext)
  unfold TreeFrame at hframe
  have he' : tree.errcode = none := by rw [hframe]; exact he
  have hfreq : tree.freq = table.freq := by rw [hframe]; rfl
  obtain ⟨u, hgen, hpaths, -⟩ := genCodesAssignsTheTreePaths tree he' hv hok
  obtain rfl : codes = u := Host.Outcome.next.inj (hcodes.symm.trans hgen)
  exact ⟨hdone, fun b hb => (hpaths b (hfreq ▸ hb)).2⟩

/-- Where the bits left are `pad` bits and whole bytes, the window holds the pad. -/
theorem window_of_unread {s : State} {pad : Nat} {rest : List Byte} (hshort : s.rcnt.val < 8) (hpad : pad < 8)
    (h : unreadBits s = List.replicate pad false ++ streamBits rest) :
    s.rcnt.val = pad ∧ (remaining s).length = rest.length := by
  have hlen := congrArg List.length h
  rw [unreadBits_length, bitsLeft, sourceLeft_eq, List.length_append, List.length_replicate, streamBits_length] at hlen
  omega

/-- The bytes left are the end of the source, so their number tells which they are. -/
theorem remaining_eq_of_length {s t : State} {xs ys : List Byte} (hseq : t.srcseq = s.srcseq)
    (hs : remaining s = xs ++ ys) (hlen : (remaining t).length = ys.length) : remaining t = ys := by
  have hsuffix : ys <:+ s.srcseq := (hs ▸ List.suffix_append xs ys : ys <:+ remaining s).trans (List.drop_suffix _ _)
  have hsuffix' : remaining t <:+ s.srcseq := hseq ▸ List.drop_suffix _ _
  exact (List.suffix_of_suffix_length_le hsuffix' hsuffix hlen.le).eq_of_length hlen

/-- Settles O49: the header restores the table (`readHeader_headerBytes`), its tree has the codes of the table's
(`buildTree_codePath`), and the symbol loop follows them (`decodeAll_codes`). -/
theorem decompressRecoversTheSymbols : Obligations.DecompressRecoversTheSymbols := by
  intro s table tree codes xs payload rest pad het hne hdist hcounts htree hcodes he hno hpad hstream hx
  have hnd : ndist table = distinctSymbols xs := ndist_of_counts hcounts
  have h0 : ndist table ≠ 0 := hnd ▸ distinctSymbols_ne_zero hne
  obtain ⟨hbuilt, hpaths⟩ := exec_codes het h0 htree hcodes
  rw [List.append_assoc] at hx
  obtain ⟨a, hread, hnoa, hxa, hfreq⟩ := readHeader_headerBytes (s := clearReader (clearCount (clearFlags s))) hno h0
    (hnd ▸ hdist) hx
  have h0a : ndist a ≠ 0 := by rwa [ndist, hfreq]
  obtain ⟨c, hc, hfc, hvc, hcv, -⟩ := buildTree_treeOk h0a
  have htables := ((readHeader_frame _).of_done hread).toTablesFrame.trans hfc.toTablesFrame
  have hkept : c.draws = a.draws ∧ c.freq = a.freq ∧ remaining c = remaining a := by
    unfold TreeFrame at hfc
    rw [hfc]
    exact ⟨rfl, rfl, rfl⟩
  have hstart : c.rcnt = 0 ∧ c.snkseq = s.snkseq ∧ c.xcnt = 0#40 := by
    unfold TablesFrame at htables
    rw [htables]
    exact ⟨rfl, rfl, rfl⟩
  obtain ⟨hdraws, hfreqc, hremc⟩ := hkept
  obtain ⟨hrcnt, hsnkc, hxcntc⟩ := hstart
  have htotal : total c = xs.length := total_of_counts (by rw [hfreqc, hfreq]; exact hcounts)
  have hlt : xs.length < 2 ^ 40 := htotal ▸ total_lt c
  have hunread : unreadBits c = xs.flatMap (codeOf codes) ++ (List.replicate pad false ++ streamBits rest) := by
    rw [unreadBits, hremc, hxa, hrcnt, streamBits_append, hstream, List.append_assoc]
    rfl
  have hcode : ∀ b ∈ xs, CodePath c (codeOf codes b) b := fun b hb =>
    buildTree_codePath (s := clearFlags table) hfreq h0 hbuilt hc <| hpaths b fun hzero => by
      have hb0 := hcounts b
      rw [hzero] at hb0
      exact (List.count_pos_iff.mpr hb).ne hb0
  obtain ⟨t, hall, hrest, hshort, hsnk, hxcnt⟩ := decodeAll_codes (by rwa [NoCollaboratorFailure, hdraws])
    (by rw [hrcnt]; decide) hcode hunread
  have hbody : commandBody .decompress (clearFlags s) = .done () t := by
    rw [commandBody, decompressBody, hread, Run.bind_done, hc, Run.bind_done, htotal, hall]
  have hdecode := (decodeAll_frame _ c).of_done hall
  have hsame := hdecode.sameTree
  obtain ⟨hwindow, hleft⟩ := window_of_unread hshort hpad hrest
  have hseq : t.srcseq = c.srcseq := by
    unfold DecodeFrame at hdecode
    rw [hdecode]
  refine ⟨t, exec_of_done nofun he hbody, by rw [hsnk, hsnkc], by rw [hsame.freq, hfreqc, hfreq], ?_,
    remaining_eq_of_length hseq (hremc.trans hxa) hleft, hwindow, ?_⟩
  · rw [hxcnt, hxcntc, BitVec.zero_add]
    exact Nat.mod_eq_of_lt hlt
  · have hframe := (decompressBody_frame _).of_done hbody
    unfold DecompressFrame at hframe
    rw [hsame.rootValid.trans hvc, hsame.codesValid.trans hcv] at hframe
    exact hframe

end Sys2Proof.Machine
end

section
/-!
PROOFS. The gate of the error state, RESET, and the commands that only clear (40_control.md R120 to R124,
41_frequency.md R130, 42_heap.md R156, 45_bitwriter.md R226, 46_bitreader.md R245).
-/

namespace Sys2Proof.Machine

/-! ### The gate of the error state (40_control.md R120, 60_exceptions.md R283) -/

/-- The one word of RESET (30_encoding.md R94). -/
theorem decode_eq_reset_iff {w : Word} : decode w = .ok .reset ↔ w = 0x01000000#32 := by
  refine ⟨fun h => ?_, fun h => ?_⟩
  · obtain ⟨-, hencode⟩ := decodedWordIsTheEncodingOfItsInstruction w .reset h
    exact hencode.symm
  · rw [h]
    exact decodeOfEncodeIsTheInstruction .reset rfl

theorem exec_error {i : Instr} {s : State} (hi : i ≠ .reset) (he : s.errcode ≠ none) : exec i s = .next s := by
  rw [exec_eq_runCommand hi, runCommand_error he]

/-- In the error state a word is ignored, whether it is another command's or no command's. -/
theorem executeCommand_error {w : Word} {s : State} (hw : w ≠ 0x01000000#32) (he : s.errcode ≠ none) :
    executeCommand w s = .next s := by
  cases hdecode : decode w with
  | ok i =>
    have hi : i ≠ .reset := fun h => hw (decode_eq_reset_iff.mp (h ▸ hdecode))
    rw [executeCommand_of_decode hdecode, exec_error hi he]
  | error why => rw [illegalWordRaisesIllegalCommand w why s hdecode, if_neg he]

theorem hostRead_of_aligned {off : BitVec 8} (h : off.toNat % 4 = 0) (s : State) :
    hostRead .w32 off s = .next { s with answers := s.answers ++ [readReg off s] } := by
  simp [hostRead, accessOk_iff.mpr ⟨rfl, h⟩]

theorem hostWrite_arg (v : Word) (s : State) : hostWrite .w32 0x08#8 v s = .next { s with arg := v } := by
  have hok : accessOk .w32 0x08#8 = true := accessOk_iff.mpr ⟨rfl, rfl⟩
  simp [hostWrite, hok]

/-- Settles O8: the gate of R120 lets only the word of RESET through, and a register read or a write of ARG is no command,
so it meets no gate. -/
theorem errorStateIgnoresEveryWordButReset : Obligations.ErrorStateIgnoresEveryWordButReset := by
  intro s he
  refine ⟨fun w => ?_, fun off hoff => hostRead_of_aligned hoff s, fun v => hostWrite_arg v s⟩
  split
  case isTrue hw =>
    rw [executeCommand_of_decode (decode_eq_reset_iff.mpr hw)]
    rfl
  case isFalse hw => exact executeCommand_error hw he

/-- Settles O9: RESET and the reset input are both `DoReset`, which has no gate of the error state. -/
theorem resetLeavesOnlyTheCollaborators : Obligations.ResetLeavesOnlyTheCollaborators := fun _ => ⟨rfl, rfl⟩

/-! ### The clearing commands -/

theorem clearFreq_counts (s : State) (b : Byte) : atSym (clearFreq s).freq b = 0#32 := atSym_replicate _ b

/-- With every count 0 the table is that of the empty sequence. -/
theorem total_ndist_of_counts_zero {s : State} (h : ∀ b : Byte, atSym s.freq b = 0#32) :
    total s = 0 ∧ ndist s = 0 := by
  have hcounts : ∀ b : Byte, (atSym s.freq b).toNat = ([] : List Byte).count b := fun b => by simp [h b]
  exact ⟨total_of_counts hcounts, ndist_of_counts hcounts⟩

/-- Settles O19: the flags are cleared first (R121), and each body then does its one clearing. -/
theorem clearingCommandsComplete : Obligations.ClearingCommandsComplete := by
  intro s he
  refine ⟨exec_of_done nofun he rfl, ?_, exec_of_done nofun he rfl, exec_of_done nofun he rfl,
    exec_of_done nofun he rfl⟩
  have hcounts : ∀ b : Byte, atSym (invalidateTree (clearFreq (clearFlags s))).freq b = 0#32 :=
    clearFreq_counts (clearFlags s)
  obtain ⟨htotal, hndist⟩ := total_ndist_of_counts_zero hcounts
  exact ⟨_, exec_of_done nofun he rfl, hcounts, htotal, hndist, rfl⟩

end Sys2Proof.Machine
end

section
/-!
PROOFS. FREQ_SCAN where a read fails or a count is full (41_frequency.md R131, R132, 60_exceptions.md R284).
-/

namespace Sys2Proof.Machine

/-! ### A source read by its draw (20_memory.md R71, R74) -/

theorem failDraw_of_head?_ne {s : State} (h : s.draws.head? ≠ some true) :
    failDraw s = (false, { s with draws := s.draws.tail }) := by
  rcases failDraw_cases s with ⟨hnil, hd⟩ | ⟨d, ds, hcons, hd⟩
  · have hsame : s.draws.tail = s.draws := by rw [hnil, List.tail_nil]
    rw [hd, hsame]
  · have hfalse : d = false := by simpa [hcons] using h
    rw [hd, hfalse, hcons, List.tail_cons]

theorem sourceRead_byte_of_draw {s : State} {b : Byte} {xs : List Byte} (hd : s.draws.head? ≠ some true)
    (hx : remaining s = b :: xs) :
    sourceRead s = (.byte b, { s with draws := s.draws.tail, spos := s.spos + 1 }) := by
  simp [sourceRead, failDraw_of_head?_ne hd, (remaining_eq_cons hx).1]

/-- The next of the draws is one of the next `n + 1`. -/
theorem head?_ne_of_take {ds : List Bool} {n : Nat} (h : ∀ d ∈ ds.take (n + 1), d = false) :
    ds.head? ≠ some true := by
  cases ds with
  | nil => exact nofun
  | cons d ds => simp [h d List.mem_cons_self]

/-! ### One turn of ScanFreq's loop (41_frequency.md R131) -/

theorem scanLoop_fail {s : State} {ds : List Bool} (h : s.draws = true :: ds) (k : Nat) :
    scanLoop (k + 1) s = .raised .sourceRead { s with draws := ds } := by
  simp [scanLoop, sourceRead, failDraw_cons h]

theorem scanLoop_full {s : State} {b : Byte} {xs : List Byte} (hd : s.draws.head? ≠ some true)
    (hx : remaining s = b :: xs) (hfull : atSym s.freq b = 0xFFFFFFFF#32) (k : Nat) :
    scanLoop (k + 1) s = .raised .inputTooLong { s with draws := s.draws.tail, spos := s.spos + 1 } := by
  rw [scanLoop, sourceRead_byte_of_draw hd hx]
  exact if_pos hfull

theorem scanLoop_byte {s : State} {b : Byte} {xs : List Byte} (hd : s.draws.head? ≠ some true)
    (hx : remaining s = b :: xs) (hroom : atSym s.freq b ≠ 0xFFFFFFFF#32) (k : Nat) :
    scanLoop (k + 1) s =
      scanLoop k (setFreq b (atSym s.freq b + 1#32) { s with draws := s.draws.tail, spos := s.spos + 1 }) := by
  rw [scanLoop, sourceRead_byte_of_draw hd hx]
  exact if_neg hroom

/-! ### The bytes before the failure -/

/-- From `s` to `t` the scan has counted the bytes `xs`, and the bytes `ys` are left. -/
structure Scanned (xs ys : List Byte) (s t : State) : Prop where
  counts : ∀ b : Byte, (atSym t.freq b).toNat = (atSym s.freq b).toNat + xs.count b
  spos : t.spos = s.spos + xs.length
  draws : t.draws = s.draws.drop xs.length
  unread : remaining t = ys

theorem Scanned.append {xs ys zs : List Byte} {s t u : State} (h : Scanned xs (ys ++ zs) s t)
    (h' : Scanned ys zs t u) : Scanned (xs ++ ys) zs s u where
  counts b := by rw [h'.counts, h.counts, List.count_append, Nat.add_assoc]
  spos := by rw [h'.spos, h.spos, List.length_append, Nat.add_assoc]
  draws := by rw [h'.draws, h.draws, List.drop_drop, List.length_append]
  unread := h'.unread

theorem scanLoop_scanned_byte {s : State} {c : Byte} {ys : List Byte} (hd : s.draws.head? ≠ some true)
    (hx : remaining s = c :: ys) (hfit : (atSym s.freq c).toNat + 1 < 2 ^ 32) (k : Nat) :
    ∃ t, scanLoop (k + 1) s = scanLoop k t ∧ Scanned [c] ys s t := by
  have hroom : atSym s.freq c ≠ 0xFFFFFFFF#32 := fun hfull => by
    rw [hfull] at hfit
    exact absurd hfit (by decide)
  obtain ⟨hcounts, -⟩ := setFreq_count (s := { s with draws := s.draws.tail, spos := s.spos + 1 }) hfit
  exact ⟨_, scanLoop_byte hd hx hroom k, hcounts, rfl, List.drop_one.symm, (remaining_eq_cons hx).2⟩

/-- The scan passes over bytes whose reads succeed and whose counts have room. -/
theorem scanLoop_scanned {xs ys : List Byte} {s : State} (hd : ∀ d ∈ s.draws.take xs.length, d = false)
    (hx : remaining s = xs ++ ys) (hfit : ∀ b : Byte, (atSym s.freq b).toNat + xs.count b < 2 ^ 32) (k : Nat) :
    ∃ t, scanLoop (k + xs.length) s = scanLoop k t ∧ Scanned xs ys s t := by
  induction xs generalizing s with
  | nil => exact ⟨s, rfl, fun _ => rfl, rfl, rfl, hx⟩
  | cons c xs ih =>
    have hroom : (atSym s.freq c).toNat + 1 < 2 ^ 32 := by
      have hc := hfit c
      rw [List.count_cons_self] at hc
      omega
    obtain ⟨t, hstep, ht⟩ := scanLoop_scanned_byte (head?_ne_of_take hd) hx hroom (k + xs.length)
    obtain ⟨u, hrest, hu⟩ := ih (s := t)
      (fun d hmem => hd d (by
        rw [ht.draws, List.length_singleton, List.take_drop] at hmem
        exact List.mem_of_mem_drop (Nat.add_comm _ _ ▸ hmem)))
      ht.unread fun b => by
        rw [ht.counts, Nat.add_assoc, ← List.count_append]
        exact hfit b
    exact ⟨u, hstep.trans hrest, ht.append hu⟩

/-- ScanFreq, up to the end of any such bytes: the table holds their counts. -/
theorem scanFreq_scanned {xs ys : List Byte} {s : State} (hd : ∀ d ∈ s.draws.take xs.length, d = false)
    (hx : remaining s = xs ++ ys) (hfit : CountsFit xs) :
    ∃ t, scanFreq s = scanLoop (ys.length + 1) t ∧ Scanned xs ys (invalidateTree (clearFreq s)) t := by
  obtain ⟨t, hloop, ht⟩ := scanLoop_scanned (s := invalidateTree (clearFreq s)) hd hx
    (fun b => by rw [invalidateTree_freq, clearFreq_counts]; simpa using hfit b) (ys.length + 1)
  refine ⟨t, ?_, ht⟩
  rw [scanFreq, sourceLeft_eq, hx, List.length_append, ← hloop]
  congr 1
  omega

theorem Scanned.counts_of_clear {xs ys : List Byte} {s t : State}
    (h : Scanned xs ys (invalidateTree (clearFreq s)) t) (b : Byte) : (atSym t.freq b).toNat = xs.count b := by
  rw [h.counts, invalidateTree_freq, clearFreq_counts]
  exact Nat.zero_add _

/-! ### FREQ_SCAN (41_frequency.md R132) -/

theorem exec_freqScan_of_raised {s t : State} {e : ErrKind} (he : s.errcode = none)
    (h : scanFreq (clearReader (clearFlags s)) = .raised e t) :
    exec .freqScan s = .next (enterError 0x11000000#32 e t) ∧ NoTree t :=
  ⟨exec_of_raised (i := .freqScan) nofun he h, (scanFreq_noTree _).of_raised h⟩

/-- Settles O24: the scan passes over the bytes before the failure (`scanFreq_scanned`), and its next turn raises the
error with the table as it stands. -/
theorem freqScanErrorsKeepTheCounts : Obligations.FreqScanErrorsKeepTheCounts := by
  intro s he
  refine ⟨fun k ds hdraws hk hfit => ?_, fun xs ys b hno hx hfit hfull => ?_⟩
  · have hlen : ((remaining s).take k).length = k := List.length_take_of_le hk
    obtain ⟨t, hscan, ht⟩ := scanFreq_scanned (s := clearReader (clearFlags s)) (xs := (remaining s).take k)
      (fun d hmem => by
        rw [hlen, clearReader_draws, clearFlags_draws, hdraws, List.take_left' List.length_replicate] at hmem
        exact List.eq_of_mem_replicate hmem)
      (List.take_append_drop k _).symm hfit
    have hnext : t.draws = true :: ds := by
      rw [ht.draws, hlen]
      exact hdraws ▸ List.drop_left' List.length_replicate
    obtain ⟨hexec, hroot, hcodes⟩ := exec_freqScan_of_raised he (hscan.trans (scanLoop_fail hnext _))
    exact ⟨_, hexec, rfl, rfl, ht.counts_of_clear, ht.spos.trans (congrArg (s.spos + ·) hlen), hroot, hcodes⟩
  · obtain ⟨t, hscan, ht⟩ := scanFreq_scanned (s := clearReader (clearFlags s))
      (fun d hmem => hno d (List.mem_of_mem_take hmem)) hx hfit
    have hnot : t.draws.head? ≠ some true := head?_ne_of_take (n := 0) fun d hmem =>
      hno d (List.mem_of_mem_drop (ht.draws ▸ List.mem_of_mem_take hmem))
    have hentry : atSym t.freq b = 0xFFFFFFFF#32 := BitVec.eq_of_toNat_eq ((ht.counts_of_clear b).trans hfull)
    obtain ⟨hexec, hroot, hcodes⟩ := exec_freqScan_of_raised he
      (hscan.trans (scanLoop_full hnot ht.unread hentry _))
    exact ⟨_, hexec, rfl, rfl, ht.counts_of_clear, congrArg (· + 1) ht.spos, hroot, hcodes⟩

end Sys2Proof.Machine
end

section
/-!
PROOFS. Less is a strict total order, the queue's commands at their limits, and the tree and the codes as functions of
FREQ alone (42_heap.md R150, R157 to R159, 43_tree_codes.md R187).
-/

namespace Sys2Proof.Machine

/-! ### Less and the limits of the queue (42_heap.md R150, R157 to R159) -/

/-- Settles O26, from what `less` compares (`less_iff`). -/
theorem lessIsAStrictTotalOrder : Obligations.LessIsAStrictTotalOrder := fun s =>
  ⟨fun _ _ => less_iff, less_irrefl s, fun _ _ _ => less_trans, fun _ _ hne => ⟨less_asymm, less_of_ne hne⟩⟩

theorem newNode_of_full {s : State} (d : Node) (h : s.nnodes.val = 511) : newNode d s = .raised .queueOverflow s := by
  rcases newNode_cases d s with ⟨hlt, -⟩ | ⟨-, hraised⟩
  · omega
  · exact hraised

/-- Settles O28: each body meets its check before it writes anything but the tree's and the codes' valid bits. -/
theorem heapCommandsAtTheirLimits : Obligations.HeapCommandsAtTheirLimits := by
  intro s he
  refine ⟨fun sym hfull => ?_, fun htwo hfull => ?_, fun hfew => ?_, fun hnone => ?_⟩
  · have hbody : commandBody (.heapInsert sym) (clearFlags s) =
        .raised .queueOverflow (invalidateTree (clearFlags s)) := by
      rw [commandBody, newNode_of_full (s := invalidateTree (clearFlags s)) _ hfull, Run.bind_raised]
    exact exec_of_raised (i := .heapInsert sym) nofun he hbody
  · have hbody : commandBody .heapMerge (clearFlags s) = .raised .queueOverflow (invalidateTree (clearFlags s)) := by
      rw [commandBody, if_neg (show ¬(clearFlags s).heapn.val < 2 from htwo.not_gt),
        if_pos (show (clearFlags s).nnodes.val = 511 from hfull)]
    exact exec_of_raised (i := .heapMerge) nofun he hbody
  · exact exec_of_done (i := .heapMerge) nofun he (if_pos hfew)
  · exact exec_of_done (i := .heapExtract) nofun he (if_pos hnone)

/-! ### BUILD_TREE of the same counts (43_tree_codes.md R180, R187) -/

/-- What BuildTree returns: the nodes of a `Built` state, with the last slot in use as ROOT. -/
theorem buildTree_done_built {s t : State} (h0 : ndist s ≠ 0) (h : buildTree s = .done () t) :
    ∃ r, Built s (present s) r ∧ t.node = r.node ∧ t.nnodes = r.nnodes ∧ t.root.val + 1 = t.nnodes.val ∧
      t.nnodes.val + 1 = 2 * ndist s := by
  obtain ⟨n, r, x, hb, hone, hx, -, hdone⟩ := buildTree_built h0
  obtain rfl : t = setRoot n x := (Run.done.inj (h.symm.trans hdone)).2
  obtain ⟨-, hnn, hnode⟩ := heapExtract_done hx
  have hcount : (setRoot n x).nnodes = r.nnodes := hnn
  have hcounts := hb.counts
  rw [hone, present_length, Nat.add_comm] at hcounts
  refine ⟨r, hb, hnode, hcount, ?_, ?_⟩ <;> rw [hcount]
  · exact hb.root_slot (heapExtract_last hone hx).1
  · exact hcounts

/-- Two engines with the same counts get the same tree. -/
theorem buildTree_sameTree {s u t v : State} (hfreq : s.freq = u.freq) (h0 : ndist s ≠ 0)
    (hs : buildTree s = .done () t) (hu : buildTree u = .done () v) :
    t.root = v.root ∧ t.nnodes = v.nnodes ∧ ∀ n : NodeIdx, n.val < t.nnodes.val → t.node[n] = v.node[n] := by
  have hndist : ndist u = ndist s := by rw [ndist, ndist, hfreq]
  have hpresent : present u = present s := by rw [present, present, hfreq]
  obtain ⟨x, hx, hnode, hnn, hroot, hcount⟩ := buildTree_done_built h0 hs
  obtain ⟨y, hy, hnode', hnn', hroot', hcount'⟩ := buildTree_done_built (hndist ▸ h0) hu
  rw [hndist] at hcount'
  rw [hpresent] at hy
  have hsame : t.nnodes = v.nnodes := Fin.ext (by omega)
  refine ⟨Fin.ext (by omega), hsame, fun n hn => ?_⟩
  rw [hnode, hnode']
  exact (hx.node_eq hy (by rw [← hnn, ← hnn', hsame]) n (hnn ▸ hn)).symm

/-! ### A tree of distinct symbols has one path to each -/

theorem PathTo.at_leaf {s : State} {n : NodeIdx} {p : List Bool} {b c : Byte} (h : PathTo s n p b)
    (hsym : s.node[n].sym = .leaf c) : p = [] ∧ b = c := by
  cases h with
  | leaf _ _ hleaf => exact ⟨rfl, Sym.leaf.inj (hleaf.symm.trans hsym)⟩
  | left _ _ _ _ hinner => rw [hsym] at hinner; cases hinner
  | right _ _ _ _ hinner => rw [hsym] at hinner; cases hinner

/-- From an internal node a path goes on to the left child after a 0, to the right child after a 1. -/
theorem PathTo.at_inner {s : State} {n l r : NodeIdx} {p : List Bool} {b : Byte} (h : PathTo s n p b)
    (hsym : s.node[n].sym = .sentinel) (hl : s.node[n].left = some l) (hr : s.node[n].right = some r) :
    (∃ q, p = false :: q ∧ PathTo s l q b) ∨ ∃ q, p = true :: q ∧ PathTo s r q b := by
  cases h with
  | leaf _ _ hleaf => rw [hsym] at hleaf; cases hleaf
  | left _ m q _ _ hm hq =>
    obtain rfl : l = m := Option.some.inj (hl.symm.trans hm)
    exact .inl ⟨q, rfl, hq⟩
  | right _ m q _ _ hm hq =>
    obtain rfl : r = m := Option.some.inj (hr.symm.trans hm)
    exact .inr ⟨q, rfl, hq⟩

/-- A path ends at a leaf of the tree it starts from. -/
theorem Spans.path_mem_leafSyms {s : State} {n : NodeIdx} {ns : List NodeIdx} {p : List Bool} {b : Byte}
    (h : Spans s n ns) (hp : PathTo s n p b) : b ∈ leafSyms s ns := by
  induction h generalizing p with
  | leaf n c hsym _ _ =>
    rw [leafSyms_leaf hsym, (hp.at_leaf hsym).2]
    exact List.mem_singleton_self c
  | inner n l r xs ys hsym hl hr _ _ _ _ _ ihx ihy =>
    rw [leafSyms_inner hsym]
    rcases hp.at_inner hsym hl hr with ⟨q, -, hq⟩ | ⟨q, -, hq⟩
    · exact List.mem_append_left _ (ihx hq)
    · exact List.mem_append_right _ (ihy hq)

/-- The two paths cannot part at an internal node: no symbol has leaves on both sides of it. -/
theorem Spans.path_unique {s : State} {n : NodeIdx} {ns : List NodeIdx} {p q : List Bool} {b : Byte}
    (h : Spans s n ns) (hsyms : (leafSyms s ns).Nodup) (hp : PathTo s n p b) (hq : PathTo s n q b) : p = q := by
  induction h generalizing p q with
  | leaf n c hsym _ _ => rw [(hp.at_leaf hsym).1, (hq.at_leaf hsym).1]
  | inner n l r xs ys hsym hl hr _ _ _ hx hy ihx ihy =>
    rw [leafSyms_inner hsym] at hsyms
    obtain ⟨hsx, hsy, hdisj⟩ := List.nodup_append.mp hsyms
    rcases hp.at_inner hsym hl hr with ⟨p', rfl, hp'⟩ | ⟨p', rfl, hp'⟩ <;>
      rcases hq.at_inner hsym hl hr with ⟨q', rfl, hq'⟩ | ⟨q', rfl, hq'⟩
    · rw [ihx hsx hp' hq']
    · exact absurd rfl (hdisj b (hx.path_mem_leafSyms hp') b (hy.path_mem_leafSyms hq'))
    · exact absurd rfl (hdisj b (hx.path_mem_leafSyms hq') b (hy.path_mem_leafSyms hp'))
    · rw [ihy hsy hp' hq']

theorem TreeOk.codePath_unique {s : State} (h : TreeOk s) {p q : List Bool} {b : Byte} (hp : CodePath s p b)
    (hq : CodePath s q b) : p = q := by
  obtain ⟨ns, hspans, -, hsyms, -⟩ := h
  rcases hp with ⟨hleaf, rfl⟩ | ⟨hinner, hp⟩ <;> rcases hq with ⟨hleaf', rfl⟩ | ⟨hinner', hq⟩
  · rfl
  · rw [hleaf] at hinner'; cases hinner'
  · rw [hinner] at hleaf'; cases hleaf'
  · exact hspans.path_unique hsyms hp hq

/-! ### GEN_CODES of the same tree (43_tree_codes.md R181, R184, R187) -/

/-- A value of `n` bits is told by the list of them. -/
theorem lowBits_inj {w n : Nat} {x y : BitVec w} (hx : x.toNat < 2 ^ n) (hy : y.toNat < 2 ^ n)
    (h : lowBits n x = lowBits n y) : x = y := by
  apply BitVec.eq_of_getLsbD_eq
  intro i _
  rcases Nat.lt_or_ge i n with hi | hi
  · have hbit := List.map_inj_left.mp h (n - 1 - i) (List.mem_range.mpr (by omega))
    rwa [show n - 1 - (n - 1 - i) = i by omega] at hbit
  · have hpow : 2 ^ n ≤ 2 ^ i := Nat.pow_le_pow_right (by omega) hi
    rw [BitVec.getLsbD, BitVec.getLsbD, Nat.testBit_lt_two_pow (hx.trans_le hpow),
      Nat.testBit_lt_two_pow (hy.trans_le hpow)]

/-- The length and the value of a symbol's code are told by its bits. -/
theorem codeOf_inj {s t : State} {b : Byte} (hs : (atSym s.cval b).toNat < 2 ^ (atSym s.clen b).toNat)
    (ht : (atSym t.cval b).toNat < 2 ^ (atSym t.clen b).toNat) (h : codeOf s b = codeOf t b) :
    atSym s.clen b = atSym t.clen b ∧ atSym s.cval b = atSym t.cval b := by
  have hlen : atSym s.clen b = atSym t.clen b :=
    BitVec.eq_of_toNat_eq (by simpa [codeOf, lowBits] using congrArg List.length h)
  rw [codeOf, codeOf, hlen] at h
  exact ⟨hlen, lowBits_inj (hlen ▸ hs) ht h⟩

/-- Outside the error state there is a tree of the table: GEN_CODES completes (43_tree_codes.md R184). -/
structure Codable (s : State) : Prop where
  noError : s.errcode = none
  rootValid : s.rootValid = true
  treeOk : TreeOk s

/-- BUILD_TREE of a table with a count is BuildTree, and GEN_CODES can follow. -/
theorem exec_buildTree_codable {s t : State} (he : s.errcode = none) (h0 : ndist s ≠ 0)
    (h : exec .buildTree s = .next t) :
    buildTree (clearFlags s) = .done () t ∧ t.freq = s.freq ∧ Codable t := by
  obtain ⟨x, hdone, hframe, hv, -, hok⟩ := buildTree_treeOk (s := clearFlags s) h0
  obtain rfl : t = x := Host.Outcome.next.inj (h.symm.trans (exec_of_done (i := .buildTree) nofun he hdone))
  unfold TreeFrame at hframe
  exact ⟨hdone, by rw [hframe]; rfl, by rw [hframe]; exact he, hv, hok⟩

/-- GEN_CODES gives two engines with the same counts and the same paths the same codes. -/
theorem exec_genCodes_congr {t v t' v' : State} (ht : Codable t) (hv : Codable v) (hfreq : t.freq = v.freq)
    (hpath : ∀ (p : List Bool) (b : Byte), CodePath t p b → CodePath v p b)
    (ht' : exec .genCodes t = .next t') (hv' : exec .genCodes v = .next v') :
    t'.clen = v'.clen ∧ t'.cval = v'.cval ∧ t'.outbits = v'.outbits := by
  obtain ⟨x, hx, hcode, hnone, hlt, hbits, -⟩ := genCodesAssignsTheTreePaths t ht.noError ht.rootValid ht.treeOk
  obtain ⟨y, hy, hcode', hnone', hlt', hbits', -⟩ := genCodesAssignsTheTreePaths v hv.noError hv.rootValid hv.treeOk
  obtain rfl : t' = x := Host.Outcome.next.inj (ht'.symm.trans hx)
  obtain rfl : v' = y := Host.Outcome.next.inj (hv'.symm.trans hy)
  rw [← hfreq] at hcode' hnone' hbits'
  have hsame : ∀ b : Byte, codeOf t' b = codeOf v' b := fun b => by
    by_cases hb : atSym t.freq b = 0#32
    · rw [codeOf, codeOf, hnone b hb, hnone' b hb]
      rfl
    · exact hv.treeOk.codePath_unique (hpath _ b (hcode b hb).2) (hcode' b hb).2
  have hentry := fun b => codeOf_inj (hlt b) (hlt' b) (hsame b)
  have hclen : t'.clen = v'.clen := table_ext fun b => (hentry b).1
  refine ⟨hclen, table_ext fun b => (hentry b).2, BitVec.eq_of_toNat_eq ?_⟩
  rw [hbits, hbits', hclen]

/-- Settles O32: the counts decide what each node joins (`buildTree_sameTree`), and so each symbol's one path. -/
theorem treeDependsOnTheFrequenciesAlone : Obligations.TreeDependsOnTheFrequenciesAlone := by
  intro s u t v hs hu hfreq h0 ht hv
  have h0' : ndist u ≠ 0 := by rwa [ndist, ← hfreq]
  obtain ⟨hdone, htfreq, htree⟩ := exec_buildTree_codable hs h0 ht
  obtain ⟨hdone', hvfreq, htree'⟩ := exec_buildTree_codable hu h0' hv
  have hflags : (clearFlags s).freq = (clearFlags u).freq := hfreq
  obtain ⟨hroot, hnn, hnode⟩ := buildTree_sameTree hflags h0 hdone hdone'
  refine ⟨hroot, hnn, hnode, fun t' v' => exec_genCodes_congr htree htree' ?_ ?_⟩
  · rw [htfreq, hvfreq, hfreq]
  · exact fun p b => buildTree_codePath hflags.symm h0 hdone hdone'

end Sys2Proof.Machine
end

section
/-!
PROOFS. The codes of a valid tree are prefix-free, bounded and complete (43_tree_codes.md R186), and the commands that
raise an error at their precondition (R182, R184, 44_header.md R200, 45_bitwriter.md R225, 46_bitreader.md R243).
-/

namespace Sys2Proof.Machine

/-! ### Paths below a node (43_tree_codes.md R186) -/

/-- The longer path would go on past the leaf where the shorter one ends. -/
theorem PathTo.eq_of_prefix {s : State} {n : NodeIdx} {p q : List Bool} {a b : Byte} (hp : PathTo s n p a)
    (hq : PathTo s n q b) (hpre : p <+: q) : a = b := by
  induction hp generalizing q with
  | leaf n a hsym => exact (hq.at_leaf hsym).2.symm
  | left n l p a hsym hl _ ih =>
    cases hq with
    | leaf => cases List.prefix_nil.mp hpre
    | left _ m q _ _ hm hq =>
      obtain rfl : l = m := Option.some.inj (hl.symm.trans hm)
      exact ih hq (List.cons_prefix_cons.mp hpre).2
    | right => cases (List.cons_prefix_cons.mp hpre).1
  | right n r p a hsym hr _ ih =>
    cases hq with
    | leaf => cases List.prefix_nil.mp hpre
    | left => cases (List.cons_prefix_cons.mp hpre).1
    | right _ m q _ _ hm hq =>
      obtain rfl : r = m := Option.some.inj (hr.symm.trans hm)
      exact ih hq (List.cons_prefix_cons.mp hpre).2

theorem CodePath.eq_of_prefix {s : State} {p q : List Bool} {a b : Byte} (hp : CodePath s p a) (hq : CodePath s q b)
    (hpre : p <+: q) : a = b := by
  rcases hp with ⟨hleaf, -⟩ | ⟨hinner, hp⟩ <;> rcases hq with ⟨hleaf', -⟩ | ⟨hinner', hq⟩
  · exact Sym.leaf.inj (hleaf.symm.trans hleaf')
  · rw [hleaf] at hinner'; cases hinner'
  · rw [hinner] at hleaf'; cases hleaf'
  · exact hp.eq_of_prefix hq hpre

theorem Spans.leafSyms_ne_nil {s : State} {n : NodeIdx} {ns : List NodeIdx} (h : Spans s n ns) :
    leafSyms s ns ≠ [] := by
  induction h with
  | leaf n b hsym _ _ => simp [leafSyms_leaf hsym]
  | inner n l r xs ys hsym _ _ _ _ _ _ _ ihx _ => simp [leafSyms_inner hsym, ihx]

/-- Each edge of a path leaves a subtree with a leaf of its own aside. -/
theorem Spans.path_length_lt {s : State} {n : NodeIdx} {ns : List NodeIdx} {p : List Bool} {b : Byte}
    (h : Spans s n ns) (hp : PathTo s n p b) : p.length < (leafSyms s ns).length := by
  induction h generalizing p with
  | leaf n c hsym _ _ =>
    rw [leafSyms_leaf hsym, (hp.at_leaf hsym).1]
    exact Nat.one_pos
  | inner n l r xs ys hsym hl hr _ _ _ hx hy ihx ihy =>
    have hxpos := List.length_pos_of_ne_nil hx.leafSyms_ne_nil
    have hypos := List.length_pos_of_ne_nil hy.leafSyms_ne_nil
    rw [leafSyms_inner hsym, List.length_append]
    rcases hp.at_inner hsym hl hr with ⟨q, rfl, hq⟩ | ⟨q, rfl, hq⟩
    · have := ihx hq
      rw [List.length_cons]
      omega
    · have := ihy hq
      rw [List.length_cons]
      omega

/-- A tree of two leaves or more has an internal node at its head. -/
theorem Spans.head_inner {s : State} {n : NodeIdx} {ns : List NodeIdx} (h : Spans s n ns)
    (h2 : 2 ≤ (leafSyms s ns).length) : s.node[n].sym = .sentinel := by
  cases h with
  | leaf _ b hsym _ _ =>
    rw [leafSyms_leaf hsym, List.length_singleton] at h2
    omega
  | inner _ _ _ _ _ hsym => exact hsym

/-- The lengths `len` are those of the paths of `d` bits to node `n` and on to the leaves below it, all at most `N`. -/
def LengthsBelow (s : State) (n : NodeIdx) (syms : List Byte) (d N : Nat) (len : Byte → Nat) : Prop :=
  ∀ b ∈ syms, ∃ p, PathTo s n p b ∧ len b = d + p.length ∧ len b ≤ N

/-- Where `d` bits lead to an internal node, `d + 1` lead to each of its children. -/
theorem LengthsBelow.children {s : State} {n l r : NodeIdx} {xs ys : List NodeIdx} {d N : Nat} {len : Byte → Nat}
    (h : LengthsBelow s n (leafSyms s xs ++ leafSyms s ys) d N len) (hsym : s.node[n].sym = .sentinel)
    (hl : s.node[n].left = some l) (hr : s.node[n].right = some r) (hx : Spans s l xs) (hy : Spans s r ys)
    (hdisj : ∀ a ∈ leafSyms s xs, ∀ b ∈ leafSyms s ys, a ≠ b) :
    LengthsBelow s l (leafSyms s xs) (d + 1) N len ∧ LengthsBelow s r (leafSyms s ys) (d + 1) N len := by
  constructor <;> intro b hb
  · obtain ⟨p, hp, hlen, hN⟩ := h b (List.mem_append_left _ hb)
    rcases hp.at_inner hsym hl hr with ⟨q, rfl, hq⟩ | ⟨q, -, hq⟩
    · exact ⟨q, hq, by rw [hlen, List.length_cons]; omega, hN⟩
    · exact absurd rfl (hdisj b hb b (hy.path_mem_leafSyms hq))
  · obtain ⟨p, hp, hlen, hN⟩ := h b (List.mem_append_right _ hb)
    rcases hp.at_inner hsym hl hr with ⟨q, -, hq⟩ | ⟨q, rfl, hq⟩
    · exact absurd rfl (hdisj b (hx.path_mem_leafSyms hq) b hb)
    · exact ⟨q, hq, by rw [hlen, List.length_cons]; omega, hN⟩

/-- Kraft's equality: the two subtrees of an internal node share its weight in halves, so the leaves below a node at
depth `d` weigh `2^(N - d)` together. -/
theorem Spans.kraft {s : State} {n : NodeIdx} {ns : List NodeIdx} (h : Spans s n ns) (hsyms : (leafSyms s ns).Nodup)
    {d N : Nat} {len : Byte → Nat} (hlen : LengthsBelow s n (leafSyms s ns) d N len) :
    ((leafSyms s ns).map fun b => 2 ^ (N - len b)).sum = 2 ^ (N - d) := by
  induction h generalizing d with
  | leaf n b hsym _ _ =>
    rw [leafSyms_leaf hsym] at hlen ⊢
    obtain ⟨p, hp, hd, -⟩ := hlen b (List.mem_singleton_self b)
    simp [hd, (hp.at_leaf hsym).1]
  | inner n l r xs ys hsym hl hr _ _ _ hx hy ihx ihy =>
    rw [leafSyms_inner hsym] at hsyms hlen ⊢
    obtain ⟨hsx, hsy, hdisj⟩ := List.nodup_append.mp hsyms
    obtain ⟨hlenx, hleny⟩ := hlen.children hsym hl hr hx hy hdisj
    obtain ⟨b, hb⟩ := List.exists_mem_of_ne_nil _ hx.leafSyms_ne_nil
    obtain ⟨p, -, hbd, hbN⟩ := hlenx b hb
    rw [List.map_append, List.sum_append, ihx hsx hlenx, ihy hsy hleny, ← Nat.two_mul, ← Nat.pow_succ']
    congr 1
    omega

/-! ### The code table of a valid tree (10_state.md R37e) -/

/-- The leaves of a tree of the table carry the symbols with a count. -/
theorem TreeOk.leaves {s : State} (h : TreeOk s) :
    ∃ ns, Spans s s.root ns ∧ (leafSyms s ns).Nodup ∧
      (leafSyms s ns).Perm (allSymbols.filter fun b => atSym s.freq b != 0#32) := by
  obtain ⟨ns, hspans, -, hsyms, -, hmem⟩ := h
  refine ⟨ns, hspans, hsyms, (List.perm_ext_iff_of_nodup hsyms (allSymbols_nodup.filter _)).mpr fun b => ?_⟩
  rw [hmem, List.mem_filter]
  simp [mem_allSymbols]

/-- The code table holds the path of each symbol with a count, and no code for any other. -/
theorem CodesOk.codes {s : State} (h : CodesOk s) (htree : TreeOk s) :
    (∀ b : Byte, atSym s.freq b ≠ 0#32 → ∃ p, CodePath s p b ∧ HasCode s b p) ∧
    ∀ b : Byte, atSym s.freq b = 0#32 → atSym s.clen b = 0#8 := by
  obtain ⟨-, t, ht, hlen, hval, -⟩ := h
  obtain ⟨u, hu, -, hcodes, hnone⟩ := htree.genCodes
  obtain rfl : t = finishCodes u := (Run.done.inj (ht.symm.trans hu)).2
  constructor <;> intro b hb
  · obtain ⟨p, hp, hcode⟩ := hcodes b hb
    exact ⟨p, hp, hcode.congr (by rw [← hlen]; rfl) (by rw [← hval]; rfl)⟩
  · rw [← hlen]
    exact (hnone b hb).1

theorem HasCode.clen_ne_zero {s : State} {b : Byte} {p : List Bool} (h : HasCode s b p) (hp : p ≠ []) :
    atSym s.clen b ≠ 0#8 := by
  have hpos := List.length_pos_of_ne_nil hp
  rw [← h.clen_toNat] at hpos
  intro h0
  simp [h0] at hpos

/-- The symbols with a code are those with a count. -/
theorem CodesOk.clen_ne_zero_iff {s : State} (h : CodesOk s) (htree : TreeOk s) (b : Byte) :
    atSym s.clen b ≠ 0#8 ↔ atSym s.freq b ≠ 0#32 := by
  obtain ⟨hcodes, hnone⟩ := h.codes htree
  refine ⟨mt (hnone b), fun hb => ?_⟩
  obtain ⟨p, hp, hcode⟩ := hcodes b hb
  exact hcode.clen_ne_zero hp.ne_nil

theorem CodesOk.prefix_free {s : State} (h : CodesOk s) (htree : TreeOk s) {a b : Byte} (hne : a ≠ b)
    (ha : atSym s.clen a ≠ 0#8) (hb : atSym s.clen b ≠ 0#8) : ¬ codeOf s a <+: codeOf s b := by
  obtain ⟨hcodes, -⟩ := h.codes htree
  obtain ⟨p, hp, hpa⟩ := hcodes a ((h.clen_ne_zero_iff htree a).mp ha)
  obtain ⟨q, hq, hqb⟩ := hcodes b ((h.clen_ne_zero_iff htree b).mp hb)
  rw [hpa.codeOf_eq, hqb.codeOf_eq]
  exact fun hpre => hne (hp.eq_of_prefix hq hpre)

/-- With two symbols or more every code is a path from an internal node at ROOT, shorter than the symbols are many. -/
theorem CodesOk.lengths {s : State} (h : CodesOk s) (htree : TreeOk s) (h2 : 2 ≤ ndist s) {b : Byte}
    (hb : atSym s.freq b ≠ 0#32) :
    ∃ p, PathTo s s.root p b ∧ (atSym s.clen b).toNat = p.length ∧ 0 < p.length ∧ p.length < ndist s := by
  obtain ⟨ns, hspans, -, hperm⟩ := htree.leaves
  have hcount : (leafSyms s ns).length = ndist s := hperm.length_eq.trans (ndist_eq_length_filter s).symm
  have hroot := hspans.head_inner (hcount ▸ h2)
  obtain ⟨p, hp, hcode⟩ := (h.codes htree).1 b hb
  have hpos := List.length_pos_of_ne_nil hp.ne_nil
  rcases hp with ⟨hleaf, -⟩ | ⟨-, hpath⟩
  · rw [hroot] at hleaf; cases hleaf
  · exact ⟨p, hpath, hcode.clen_toNat, hpos, hcount ▸ hspans.path_length_lt hpath⟩

theorem CodesOk.complete {s : State} (h : CodesOk s) (htree : TreeOk s) (h2 : 2 ≤ ndist s) :
    ((allSymbols.filter fun b => atSym s.clen b != 0#8).map fun b => 2 ^ (255 - (atSym s.clen b).toNat)).sum =
      2 ^ 255 := by
  obtain ⟨ns, hspans, hsyms, hperm⟩ := htree.leaves
  have hcoded : (allSymbols.filter fun b => atSym s.clen b != 0#8) =
      allSymbols.filter fun b => atSym s.freq b != 0#32 :=
    List.filter_congr fun b _ => by
      rw [Bool.eq_iff_iff, bne_iff_ne, bne_iff_ne]
      exact h.clen_ne_zero_iff htree b
  have hlen : LengthsBelow s s.root (leafSyms s ns) 0 255 fun b => (atSym s.clen b).toNat := by
    intro b hb
    have hb' : atSym s.freq b ≠ 0#32 := by simpa using (List.mem_filter.mp (hperm.mem_iff.mp hb)).2
    obtain ⟨p, hp, hplen, -, hlt⟩ := h.lengths htree h2 hb'
    have hmax := ndist_le s
    exact ⟨p, hp, hplen.trans (Nat.zero_add _).symm, hplen.trans_le (by omega)⟩
  rw [hcoded, ← (hperm.map _).sum_eq]
  exact hspans.kraft hsyms hlen

theorem CodesOk.single {s : State} (h : CodesOk s) (htree : TreeOk s) (h1 : ndist s = 1) {b : Byte}
    (hb : atSym s.freq b ≠ 0#32) : atSym s.clen b = 1#8 := by
  obtain ⟨ns, hspans, -, hperm⟩ := htree.leaves
  have hcount : (leafSyms s ns).length = 1 := hperm.length_eq.trans ((ndist_eq_length_filter s).symm.trans h1)
  obtain ⟨p, hp, hcode⟩ := (h.codes htree).1 b hb
  have hpos := List.length_pos_of_ne_nil hp.ne_nil
  rcases hp with ⟨-, rfl⟩ | ⟨-, hpath⟩
  · exact hcode.clen
  · have := hspans.path_length_lt hpath
    omega

/-- Settles O34: the codes are the paths of the tree, so none passes through another's leaf, each edge leaves a leaf
aside, and their weights add up from the leaves to the root (`Spans.kraft`). -/
theorem codesArePrefixFreeAndComplete : Obligations.CodesArePrefixFreeAndComplete := by
  intro s htree hcodes
  refine ⟨fun a b => hcodes.prefix_free htree, fun h2 => ⟨fun b hb => ?_, hcodes.complete htree h2⟩,
    fun h1 b => hcodes.single htree h1⟩
  obtain ⟨p, -, hplen, hpos, hlt⟩ := hcodes.lengths htree h2 hb
  omega

/-! ### Preconditions (60_exceptions.md R285) -/

theorem buildTree_of_empty {s : State} (h : ndist s = 0) :
    buildTree s = .raised .emptyInput (clearHeap (invalidateTree s)) :=
  if_pos h

theorem writeHeader_of_full {s : State} (h : ndist s = 256) : writeHeader s = .raised .alphabetOverflow s := by
  rw [writeHeader, if_neg (by omega), if_pos h]

/-- BW_SYM's check for a code comes after its check for a table. -/
theorem bwSym_of_noCode {s : State} {sym : Byte} (hv : s.codesValid = true) (h : atSym s.clen sym = 0#8) :
    commandBody (.bwSym sym) s = .raised .noCode s := by
  rw [commandBody, if_neg (by simp [hv]), if_pos h]

/-- Settles O35: each body's first step is its check, and what stands before BUILD_TREE's is its clearing. -/
theorem commandsCheckTheirPreconditions : Obligations.CommandsCheckTheirPreconditions := by
  intro s he
  refine ⟨fun h0 => ?_, fun hv => ?_, fun hv => ?_, fun sym hv => ?_, fun sym hv hlen => ?_, fun h0 => ?_, fun h => ?_⟩
  · exact exec_of_raised (i := .buildTree) nofun he (buildTree_of_empty (s := clearFlags s) h0)
  · exact exec_of_raised (i := .genCodes) nofun he (if_pos hv)
  · exact exec_of_raised (i := .brSym) nofun he (if_pos hv)
  · exact exec_of_raised (i := .bwSym sym) nofun he (if_pos hv)
  · exact exec_of_raised (i := .bwSym sym) nofun he (bwSym_of_noCode (s := clearFlags s) hv hlen)
  · exact exec_of_raised (i := .hdrWrite) nofun he (if_pos h0)
  · exact exec_of_raised (i := .hdrWrite) nofun he (writeHeader_of_full (s := clearFlags s) h)

end Sys2Proof.Machine
end

section
/-!
PROOFS. The header's round trip, HDR_WRITE at a failing sink, and HDR_READ of a malformed header (44_header.md R200 to
R204, 60_exceptions.md R284).
-/

namespace Sys2Proof.Machine

/-! ### The round trip (44_header.md R204) -/

/-- Settles O39: what HDR_WRITE sends is the table's header (`writeHeader_sent`), and ReadHeader of that restores the
table (`readHeader_headerBytes`). -/
theorem headerRoundTripRestoresTheTable : Obligations.HeaderRoundTripRestoresTheTable := by
  intro s t u he hno h0 h256 hwrite he' hno' hx
  obtain ⟨w, hdone, hsent⟩ := writeHeader_sent (s := clearFlags s) hno h0 h256
  obtain rfl : t = w := Host.Outcome.next.inj (hwrite.symm.trans (exec_of_done nofun he hdone))
  have hheader : remaining u = headerBytes s ++ [] := by
    rw [hx, hsent.snkseq, List.append_nil]
    exact List.drop_left
  have h255 : ndist s ≤ 255 := by
    have := ndist_le s
    omega
  obtain ⟨v, hread, -, -, hfreq⟩ :=
    readHeader_headerBytes (s := clearReader (clearFlags u)) hno' h0 h255 hheader
  have hframe := (readHeader_frame _).of_done hread
  unfold HeaderFrame at hframe
  exact ⟨v, exec_of_done nofun he' hread, by rw [hframe]; exact he', hfreq⟩

/-! ### HDR_WRITE at a failing sink (44_header.md R200, 60_exceptions.md R284) -/

theorem putBytes_append (bs cs : List Byte) (s : State) :
    putBytes (bs ++ cs) s = (putBytes bs s).bind fun _ t => putBytes cs t := by
  induction bs generalizing s with
  | nil => rfl
  | cons b bs ih =>
    rw [List.cons_append, putBytes, putBytes, Run.bind_assoc]
    exact Run.bind_congr fun _ t _ => ih t

theorem putPairs_eq_putBytes (ps : List (Byte × BitVec 32)) (s : State) :
    putPairs ps s = putBytes (ps.flatMap pairBytes) s := by
  induction ps generalizing s with
  | nil => rfl
  | cons p ps ih =>
    rw [putPairs, List.flatMap_cons, putBytes_append]
    exact Run.bind_congr fun _ t _ => ih t

/-- WriteHeader of a table of 1 to 255 symbols puts its header's bytes, one after the other. -/
theorem writeHeader_eq_putBytes {s : State} (h0 : ndist s ≠ 0) (h256 : ndist s ≠ 256) :
    writeHeader s = putBytes (headerBytes s) s := by
  rw [writeHeader, if_neg h0, if_neg h256, headerBytes, putBytes]
  refine Run.bind_congr fun _ t ht => ?_
  have hframe := (sinkWrite_frame _ s).of_done ht
  unfold SinkFrame at hframe
  have hsame : present t = present s := by rw [hframe]; rfl
  rw [hsame, putPairs_eq_putBytes]

theorem headerBytes_length (s : State) : (headerBytes s).length = 1 + 5 * ndist s := by
  have hpair : ∀ p : Byte × BitVec 32, (pairBytes p).length = 5 := fun _ => rfl
  rw [headerBytes, List.length_cons, List.length_flatMap, ← present_length]
  simp only [hpair, List.map_const', List.sum_replicate, smul_eq_mul]
  omega

/-- A sink that takes `k` of the bytes and fails at the next keeps those `k`. -/
theorem putBytes_fails {s : State} {bs : List Byte} {k : Nat} {ds : List Bool}
    (hd : s.draws = List.replicate k false ++ true :: ds) (hk : k < bs.length) :
    putBytes bs s = .raised .sinkWrite { s with snkseq := s.snkseq ++ bs.take k, draws := ds } := by
  induction bs generalizing s k with
  | nil => exact absurd hk (Nat.not_lt_zero k)
  | cons b bs ih =>
    cases k with
    | zero =>
      rw [putBytes, sinkWrite_cons hd, if_pos rfl, Run.bind_raised, List.take_zero, List.append_nil]
    | succ k =>
      rw [putBytes, sinkWrite_cons hd, if_neg Bool.false_ne_true, Run.bind_done, ih rfl (Nat.lt_of_succ_lt_succ hk)]
      simp only [List.take_succ_cons, List.append_assoc, List.singleton_append]

/-- Settles O37: the header goes out byte by byte (`writeHeader_eq_putBytes`), and the failing byte ends it
(`putBytes_fails`). -/
theorem hdrWriteFailureKeepsThePrefix : Obligations.HdrWriteFailureKeepsThePrefix := by
  intro s k ds he h0 h256 hd hk
  have hwrite := writeHeader_eq_putBytes (s := clearFlags s) h0 h256
  have hfail := putBytes_fails (s := clearFlags s) hd (hk.trans_eq (headerBytes_length (clearFlags s)).symm)
  exact exec_of_raised (i := .hdrWrite) nofun he (hwrite.trans hfail)

/-! ### A header that is not well formed (44_header.md R202) -/

/-- From `s`, the run `r` reads `n` bytes and raises HeaderCorruptError, with the counts of `s`. -/
def CorruptAfter (s : State) (n : Nat) (r : Run Unit) : Prop :=
  ∃ t, r = .raised .headerCorrupt t ∧ t.freq = s.freq ∧ t.spos = s.spos + n

theorem getByte_bind_of_end {s : State} (hno : NoCollaboratorFailure s) (hx : remaining s = [])
    (k : Byte → State → Run Unit) : CorruptAfter s 0 ((getByte s).bind k) := by
  obtain ⟨t, hr, -, ht⟩ := sourceRead_eos_of_noFailure hno hx
  exact ⟨t, by rw [getByte, hr, Run.bind_raised], by rw [ht], by rw [ht, Nat.add_zero]⟩

/-- A byte read before the run that raises is one byte more. -/
theorem getByte_bind_corruptAfter {s : State} {b : Byte} {xs : List Byte} {n : Nat} {k : Byte → State → Run Unit}
    (hno : NoCollaboratorFailure s) (hx : remaining s = b :: xs)
    (hk : ∀ t, NoCollaboratorFailure t → remaining t = xs → t.freq = s.freq → CorruptAfter t n (k b t)) :
    CorruptAfter s (n + 1) ((getByte s).bind k) := by
  obtain ⟨t, hget, hnot, hrest, hfreq, hpos⟩ := getByte_of_remaining hno hx
  obtain ⟨u, hu, hfreq', hpos'⟩ := hk t hnot hrest hfreq
  exact ⟨u, by rw [hget, Run.bind_done, hu], hfreq'.trans hfreq, by omega⟩

/-- A run that wants more than `n` bytes raises where at most `n` are left, after reading them. -/
theorem getByte_bind_short {s : State} {n : Nat} {k : Byte → State → Run Unit} (hno : NoCollaboratorFailure s)
    (hlen : (remaining s).length < n + 1)
    (hk : ∀ b t, NoCollaboratorFailure t → (remaining t).length < n → CorruptAfter t (remaining t).length (k b t)) :
    CorruptAfter s (remaining s).length ((getByte s).bind k) := by
  cases hx : remaining s with
  | nil => exact getByte_bind_of_end hno hx k
  | cons b xs =>
    refine getByte_bind_corruptAfter hno hx fun t hnot hrest _ => ?_
    rw [hx, List.length_cons] at hlen
    rw [← hrest]
    exact hk b t hnot (by rw [hrest]; omega)

/-- A turn of ReadHeader's loop reads five bytes, so it raises where fewer are left. -/
theorem readPairs_short {s : State} (hno : NoCollaboratorFailure s) (hlen : (remaining s).length < 5) (c : Nat) :
    CorruptAfter s (remaining s).length (readPairs (c + 1) s) :=
  getByte_bind_short hno hlen fun _ _ hno1 hlen1 =>
    getByte_bind_short hno1 hlen1 fun _ _ hno2 hlen2 =>
      getByte_bind_short hno2 hlen2 fun _ _ hno3 hlen3 =>
        getByte_bind_short hno3 hlen3 fun _ _ hno4 hlen4 =>
          getByte_bind_short hno4 hlen4 fun _ _ _ hlen5 => absurd hlen5 (Nat.not_lt_zero _)

/-- A turn of ReadHeader's loop reads the pair's five bytes before it rejects a zero frequency or a symbol that has a
count. -/
theorem readPairs_rejects {s : State} {b f0 f1 f2 f3 : Byte} {xs : List Byte} (hno : NoCollaboratorFailure s)
    (hx : remaining s = b :: f0 :: f1 :: f2 :: f3 :: xs)
    (hbad : freqOfBytes f0 f1 f2 f3 = 0#32 ∨ atSym s.freq b ≠ 0#32) (c : Nat) :
    CorruptAfter s 5 (readPairs (c + 1) s) := by
  refine getByte_bind_corruptAfter hno hx fun s1 hno1 hx1 hf1 => ?_
  refine getByte_bind_corruptAfter hno1 hx1 fun s2 hno2 hx2 hf2 => ?_
  refine getByte_bind_corruptAfter hno2 hx2 fun s3 hno3 hx3 hf3 => ?_
  refine getByte_bind_corruptAfter hno3 hx3 fun s4 hno4 hx4 hf4 => ?_
  refine getByte_bind_corruptAfter hno4 hx4 fun s5 _ _ hf5 => ⟨s5, ?_, rfl, rfl⟩
  rw [← hf1, ← hf2, ← hf3, ← hf4, ← hf5] at hbad
  by_cases hzero : freqOfBytes f0 f1 f2 f3 = 0#32
  · exact if_pos hzero
  · exact (if_neg hzero).trans (if_pos (hbad.resolve_left hzero))

theorem readPairs_add (n c : Nat) (s : State) :
    readPairs (n + c) s = (readPairs n s).bind fun _ t => readPairs c t := by
  induction n generalizing s with
  | zero => rw [Nat.zero_add, readPairs, Run.bind_done]
  | succ n ih =>
    rw [Nat.succ_add]
    simp only [readPairs, Run.bind_assoc]
    refine Run.bind_congr fun b _ _ => Run.bind_congr fun f0 _ _ => Run.bind_congr fun f1 _ _ =>
      Run.bind_congr fun f2 _ _ => Run.bind_congr fun f3 t _ => ?_
    split
    · rfl
    · split
      · rfl
      · exact ih _

/-- ReadHeader after its count and good pairs, fewer than the count declares, stands at the turn for the next pair. -/
theorem readHeader_goodPairs {s : State} {c : Byte} {ps : List (Byte × BitVec 32)} {bad : List Byte}
    (hno : NoCollaboratorFailure s) (hlen : ps.length < c.toNat) (hnodup : (ps.map Prod.fst).Nodup)
    (hp : ∀ p ∈ ps, p.2 ≠ 0#32) (hx : remaining s = c :: ps.flatMap pairBytes ++ bad) :
    ∃ t m, readHeader s = readPairs (m + 1) t ∧ NoCollaboratorFailure t ∧ remaining t = bad ∧
      t.spos = s.spos + 1 + 5 * ps.length ∧ TableOf t ps := by
  obtain ⟨t, hget, hnot, hrest, hfreq, hspos⟩ := getByte_of_remaining (s := invalidateTree (clearFreq s)) hno hx
  have hclear : ∀ b, atSym t.freq b = 0#32 := fun b => by rw [hfreq]; exact clearFreq_counts s b
  obtain ⟨u, hdone, hnou, hrest', hspos', hin, hout⟩ := readPairs_table hnot hrest hnodup hp fun b _ => hclear b
  obtain ⟨m, hm⟩ := Nat.exists_eq_add_of_lt hlen
  have hne : c ≠ 0#8 := fun h => by
    rw [h] at hlen
    exact Nat.not_lt_zero _ hlen
  refine ⟨u, m, ?_, hnou, hrest', hspos' ▸ hspos ▸ rfl, hin, fun b hb => (hout b hb).trans (hclear b)⟩
  rw [readHeader, hget, Run.bind_done, if_neg hne, hm, Nat.add_assoc, readPairs_add, hdone, Run.bind_done]

/-- A cleared table holds no pair. -/
theorem tableOf_nil {s t : State} (h : t.freq = (clearFreq s).freq) : TableOf t [] where
  listed := nofun
  other b _ := by rw [h]; exact clearFreq_counts s b

/-! ### HDR_READ of a header that is not well formed (44_header.md R203, 60_exceptions.md R284) -/

/-- The command keeps what ReadHeader leaves where it raises, beside the error entry. -/
theorem hdrRead_refused {s t : State} {e : ErrKind} {ps : List (Byte × BitVec 32)} {n : Nat} (he : s.errcode = none)
    (h : readHeader (clearReader (clearFlags s)) = .raised e t) (htable : TableOf t ps) (hpos : t.spos = s.spos + n) :
    ∃ u, exec .hdrRead s = .next u ∧ HeaderRefused s u e ps n := by
  refine ⟨_, exec_of_raised (i := .hdrRead) nofun he h, htable.listed, htable.other, ?_⟩
  obtain ⟨hroot, hcodes⟩ := (readHeader_noTree _).of_raised h
  have hframe := (readHeader_frame _).of_raised h
  unfold HeaderFrame at hframe
  rw [hroot, hcodes, hpos] at hframe
  exact congrArg (enterError 0x41000000#32 e) hframe

/-- The clauses of R202 about the pairs: good ones, and then a turn of the loop that raises after `n` bytes. -/
theorem hdrRead_refused_after_pairs {s : State} {c : Byte} {ps : List (Byte × BitVec 32)} {bad : List Byte} {n : Nat}
    (he : s.errcode = none) (hno : NoCollaboratorFailure s) (hlen : ps.length < c.toNat)
    (hnodup : (ps.map Prod.fst).Nodup) (hp : ∀ p ∈ ps, p.2 ≠ 0#32)
    (hx : remaining s = c :: ps.flatMap pairBytes ++ bad)
    (hturn : ∀ t m, NoCollaboratorFailure t → remaining t = bad → TableOf t ps →
      CorruptAfter t n (readPairs (m + 1) t)) :
    ∃ u, exec .hdrRead s = .next u ∧ HeaderRefused s u .headerCorrupt ps (1 + 5 * ps.length + n) := by
  obtain ⟨t, m, hread, hnot, hrest, hspos, htable⟩ :=
    readHeader_goodPairs (s := clearReader (clearFlags s)) hno hlen hnodup hp hx
  obtain ⟨u, hraised, hfreq, hspos'⟩ := hturn t m hnot hrest htable
  refine hdrRead_refused he (hread.trans hraised) ⟨?_, ?_⟩ ?_
  · rw [hfreq]
    exact htable.listed
  · rw [hfreq]
    exact htable.other
  · rw [hspos', hspos, clearReader_spos, clearFlags_spos]
    omega

/-- Settles O40: with no count, or the count 0, the first read decides. After good pairs (`readHeader_goodPairs`) the
loop's next turn raises for want of bytes (`readPairs_short`) or at its checks (`readPairs_rejects`). -/
theorem hdrReadRejectsMalformedHeaders : Obligations.HdrReadRejectsMalformedHeaders := by
  intro s he hno
  refine ⟨fun hx => ?_, fun rest hx => ?_, fun c ps bad hlen hnodup hp hx => ⟨fun hshort => ?_, ?_, ?_⟩⟩
  · obtain ⟨t, hraised, hfreq, hspos⟩ :=
      getByte_bind_of_end (s := invalidateTree (clearFreq (clearReader (clearFlags s)))) hno hx _
    exact hdrRead_refused he hraised (tableOf_nil (s := s) hfreq) hspos
  · obtain ⟨t, hget, -, -, hfreq, hspos⟩ :=
      getByte_of_remaining (s := invalidateTree (clearFreq (clearReader (clearFlags s)))) hno hx
    have hread : readHeader (clearReader (clearFlags s)) = .raised .emptyInput t := by
      rw [readHeader, hget, Run.bind_done, if_pos rfl]
    exact hdrRead_refused he hread (tableOf_nil (s := s) hfreq) hspos
  · exact hdrRead_refused_after_pairs he hno hlen hnodup hp hx fun t m hnot hrest _ =>
      hrest ▸ readPairs_short hnot (hrest ▸ hshort) m
  · rintro b rest rfl
    exact hdrRead_refused_after_pairs he hno hlen hnodup hp hx fun t m hnot hrest _ =>
      readPairs_rejects hnot hrest (.inl rfl) m
  · rintro b f0 f1 f2 f3 rest rfl hmem
    obtain ⟨p, hpmem, rfl⟩ := List.mem_map.mp hmem
    refine hdrRead_refused_after_pairs he hno hlen hnodup hp hx fun t m hnot hrest htable =>
      readPairs_rejects hnot hrest (.inr ?_) m
    rw [htable.listed p hpmem]
    exact hp p hpmem

end Sys2Proof.Machine
end

section
/-!
PROOFS. The decoder where the bits end, and BR_SYM (46_bitreader.md R243, R244), with no collaborator failure.
-/

namespace Sys2Proof.Machine

/-! ### The first step of a path (43_tree_codes.md R181) -/

/-- A path with a bit starts at an internal node and goes on from the child that the bit names. -/
theorem PathTo.of_cons {s : State} {n : NodeIdx} {x : Bool} {p : List Bool} {b : Byte} (h : PathTo s n (x :: p) b) :
    s.node[n].sym = .sentinel ∧ ∃ m, (if x then s.node[n].right else s.node[n].left) = some m ∧ PathTo s m p b := by
  cases h with
  | left _ l _ _ hsym hl hp => exact ⟨hsym, l, hl, hp⟩
  | right _ r _ _ hsym hr hp => exact ⟨hsym, r, hr, hp⟩

theorem PathTo.sentinel_of_ne_nil {s : State} {n : NodeIdx} {p : List Bool} {b : Byte} (h : PathTo s n p b)
    (hp : p ≠ []) : s.node[n].sym = .sentinel := by
  obtain ⟨x, q, rfl⟩ := List.exists_cons_of_ne_nil hp
  exact h.of_cons.1

/-! ### Where the bits end (46_bitreader.md R244) -/

/-- Where the bits end at an internal node, the loop answers the end before the first bit of a code, and raises
PayloadTruncatedError after it. -/
theorem decodeLoop_end {s : State} {n : NodeIdx} (hno : NoCollaboratorFailure s) (hunread : unreadBits s = [])
    (hsym : s.node[n].sym = .sentinel) :
    ∃ t, t = { s with draws := t.draws } ∧ ∀ (k : Nat) (first : Bool),
      decodeLoop (k + 1) n first s = if first then .done none t else .raised .payloadTruncated t := by
  obtain ⟨t, hdone, -, ht⟩ := getBit_of_end hno hunread
  refine ⟨t, ht, fun k first => ?_⟩
  rw [decodeLoop, hsym]
  simp only [hdone, Run.bind_done]

/-- Bits that end inside a path, after at least one bit of the code, raise PayloadTruncatedError and are all read. -/
theorem decodeLoop_truncated {u s : State} {n : NodeIdx} {p q : List Bool} {b : Byte} (h : PathTo u n (p ++ q) b)
    (hq : q ≠ []) (hnode : s.node = u.node) (hno : NoCollaboratorFailure s) (hunread : unreadBits s = p) {k : Nat}
    (hk : p.length < k) {first : Bool} (hfirst : first = false ∨ p ≠ []) :
    ∃ t, decodeLoop k n first s = .raised .payloadTruncated t ∧ unreadBits t = [] := by
  obtain ⟨k, rfl⟩ := Nat.exists_eq_succ_of_ne_zero (Nat.ne_of_gt (Nat.zero_lt_of_lt hk))
  induction p generalizing s n k first with
  | nil =>
    obtain ⟨t, ht, hend⟩ := decodeLoop_end hno hunread (hnode ▸ h.sentinel_of_ne_nil hq)
    refine ⟨t, ?_, by rw [ht]; exact hunread⟩
    rw [hend, hfirst.resolve_right (absurd rfl ·), if_neg Bool.false_ne_true]
  | cons x p ih =>
    obtain ⟨hsym, m, hchild, hpath⟩ := h.of_cons
    obtain ⟨t, ht, htnode, hturn⟩ := decodeLoop_turn (m := m) hno hunread (hnode ▸ hsym) (hnode ▸ hchild)
    have hk' : p.length < k := Nat.lt_of_succ_lt_succ hk
    obtain ⟨j, rfl⟩ := Nat.exists_eq_succ_of_ne_zero (Nat.ne_of_gt (Nat.zero_lt_of_lt hk'))
    rw [hturn]
    exact ih hpath (htnode.trans hnode) ht.noFailure ht.unread (.inl rfl) j hk'

/-- With no bit left DecodeSym answers the end of the stream, whatever the tree. -/
theorem decodeSym_end {s : State} (hno : NoCollaboratorFailure s) (hunread : unreadBits s = []) :
    ∃ t, decodeSym s = .done none t ∧ t = { s with draws := t.draws } := by
  cases hsym : s.node[s.root].sym with
  | leaf b =>
    obtain ⟨t, hdone, -, ht⟩ := getBit_of_end hno hunread
    refine ⟨t, ?_, ht⟩
    rw [decodeSym, hsym]
    simp only [hdone, Run.bind_done]
  | sentinel =>
    obtain ⟨t, ht, hend⟩ := decodeLoop_end hno hunread hsym
    refine ⟨t, ?_, ht⟩
    rw [decodeSym, hsym]
    exact hend (bitsLeft s) true

theorem decodeSym_truncated {s : State} {p q : List Bool} {b : Byte} (hno : NoCollaboratorFailure s)
    (hpath : PathTo s s.root (p ++ q) b) (hp : p ≠ []) (hq : q ≠ []) (hunread : unreadBits s = p) :
    ∃ t, decodeSym s = .raised .payloadTruncated t ∧ unreadBits t = [] := by
  have hlen : p.length < bitsLeft s + 1 := by
    rw [← unreadBits_length, hunread]
    exact Nat.lt_succ_self _
  have hsym := hpath.sentinel_of_ne_nil (List.append_ne_nil_of_left_ne_nil hp q)
  rw [decodeSym, hsym]
  exact decodeLoop_truncated hpath hq rfl hno hunread hlen (.inr hp)

/-- Under a single leaf a 1 is no code. -/
theorem decodeSym_corrupt {s : State} {b : Byte} {rest : List Bool} (hno : NoCollaboratorFailure s)
    (hsym : s.node[s.root].sym = .leaf b) (hunread : unreadBits s = true :: rest) :
    ∃ t, decodeSym s = .raised .payloadCorrupt t ∧ unreadBits t = rest := by
  obtain ⟨t, hdone, ht⟩ := getBit_consumed hno hunread
  refine ⟨t, ?_, ht.unread⟩
  rw [decodeSym, hsym]
  simp only [hdone, Run.bind_done]

/-! ### BR_SYM (46_bitreader.md R243) -/

/-- With a tree BR_SYM is DecodeSym and what it does with the answer. -/
theorem commandBody_brSym {s : State} (hv : s.rootValid = true) :
    commandBody .brSym s = (decodeSym s).bind fun r t =>
      match r with
      | none => .done () (setEos t)
      | some y => .done () (countSymbol (setResult0 (zext 32 y) t)) :=
  if_neg (by rw [hv]; decide)

/-- Settles O45: DecodeSym reads the path and returns its leaf's symbol (`decodeSym_code`). -/
theorem brSymDecodesOneCode : Obligations.BrSymDecodesOneCode := by
  intro s p rest b he hno hv hcode hunread
  obtain ⟨t, hdone, ht⟩ := decodeSym_code (s := clearFlags s) hno (hcode.congr rfl rfl) hunread
  have hframe := ht.frame
  refine ⟨countSymbol (setResult0 (zext 32 b) t), exec_of_done nofun he ?_, ?_, ht.unread, ?_⟩
  · rw [commandBody_brSym (s := clearFlags s) hv, hdone, Run.bind_done]
  · show (b.setWidth 32).toNat = b.toNat
    rw [BitVec.toNat_setWidth]
    omega
  · unfold ReaderFrame at hframe
    rw [hframe]
    rfl

/-- Where DecodeSym raises, BR_SYM records the error and neither counts a symbol nor writes a result. -/
theorem brSym_raised {s t : State} {e : ErrKind} (he : s.errcode = none) (hv : s.rootValid = true)
    (h : decodeSym (clearFlags s) = .raised e t) :
    ∃ u, exec .brSym s = .next u ∧ u.errcode = some e ∧ u.errcmd = 0x62000000#32 ∧ u.xcnt = s.xcnt ∧
      u.result0 = s.result0 ∧ unreadBits u = unreadBits t := by
  have hbody : commandBody .brSym (clearFlags s) = .raised e t := by
    rw [commandBody_brSym (s := clearFlags s) hv, h, Run.bind_raised]
  have hframe := (decodeSym_frame _).of_raised h
  have hkept : t.xcnt = s.xcnt ∧ t.result0 = s.result0 := by
    unfold ReaderFrame at hframe
    rw [hframe]
    exact ⟨rfl, rfl⟩
  exact ⟨enterError (encode .brSym) e t, exec_of_raised nofun he hbody, rfl, rfl, hkept.1, hkept.2, rfl⟩

/-- Settles O46: the end at a boundary (`decodeSym_end`), inside a code (`decodeSym_truncated`), and a 1 under a single
leaf (`decodeSym_corrupt`). -/
theorem brSymTellsTheEndsApart : Obligations.BrSymTellsTheEndsApart := by
  intro s he hno hv
  refine ⟨fun hend => ?_, fun p q b hp hq hunread _ hpath => ?_, fun b rest hleaf hunread => ?_⟩
  · obtain ⟨t, hdone, ht⟩ := decodeSym_end (s := clearFlags s) hno hend
    refine ⟨setEos t, exec_of_done nofun he ?_, ?_⟩
    · rw [commandBody_brSym (s := clearFlags s) hv, hdone, Run.bind_done]
    · rw [ht]
      rfl
  · obtain ⟨t, hraised, hrest⟩ := decodeSym_truncated (s := clearFlags s) hno (hpath.congr rfl) hp hq hunread
    rw [← hrest]
    exact brSym_raised he hv hraised
  · obtain ⟨t, hraised, hrest⟩ := decodeSym_corrupt (s := clearFlags s) hno hleaf hunread
    rw [← hrest]
    exact brSym_raised he hv hraised

end Sys2Proof.Machine
end

section
/-!
PROOFS. DECOMPRESS on a stream of one symbol, and where it stops in the payload (47_orchestrators.md R261, R264), with no
collaborator failure.
-/

namespace Sys2Proof.Machine

/-! ### What the symbol loop keeps (46_bitreader.md R241, R244, 47_orchestrators.md R261) -/

section
variable {P : State → Prop}

/-- What GetBit keeps DecodeSym's walk keeps. -/
theorem decodeLoop_ends (hbit : ∀ t, P t → (getBit t).Ends P) (k : Nat) (n : NodeIdx) (first : Bool) {s : State}
    (hs : P s) : (decodeLoop k n first s).Ends P := by
  induction k generalizing n first s with
  | zero => exact hs
  | succ k ih =>
    rw [decodeLoop]
    split
    · exact hs
    · refine Run.Ends.bind (hbit s hs) (fun b t ht => ?_) fun _ h => h
      split
      · split <;> exact ht
      · split
        · exact ih _ _ ht
        · trivial
      · split
        · exact ih _ _ ht
        · trivial

theorem decodeSym_ends (hbit : ∀ t, P t → (getBit t).Ends P) {s : State} (hs : P s) : (decodeSym s).Ends P := by
  unfold decodeSym
  split
  · refine Run.Ends.bind (hbit s hs) (fun b t ht => ?_) fun _ h => h
    split <;> exact ht
  · exact decodeLoop_ends hbit _ _ _ hs

/-- What a bit read, a byte sent and a symbol counted keep, the symbol loop of DECOMPRESS keeps. -/
theorem decodeAll_ends (hbit : ∀ t, P t → (getBit t).Ends P) (hsink : ∀ b t, P t → (sinkWrite b t).Ends P)
    (hcount : ∀ t, P t → P (countSymbol t)) (n : Nat) {s : State} (hs : P s) : (decodeAll n s).Ends P := by
  induction n generalizing s with
  | zero => exact hs
  | succ n ih =>
    refine Run.Ends.bind (decodeSym_ends hbit hs) (fun r t ht => ?_) fun _ h => h
    split
    · exact ht
    · exact Run.Ends.bind (hsink _ t ht) (fun _ u hu => ih (hcount u hu)) fun _ h => h

end

theorem getBit_noFailure {s : State} (hno : NoCollaboratorFailure s) : (getBit s).Ends NoCollaboratorFailure := by
  unfold getBit
  split
  · exact hno
  · split <;> rename_i hr <;> have ht := sourceRead_noFailure hno hr
    · exact ht
    · exact ht
    · exact ht

theorem sinkWrite_noFailure (b : Byte) {s : State} (hno : NoCollaboratorFailure s) :
    (sinkWrite b s).Ends NoCollaboratorFailure := by
  obtain ⟨t, hdone, hnot, -⟩ := sinkWrite_of_noFailure hno b
  rw [hdone]
  exact hnot

theorem decodeAll_noFailure (n : Nat) {s : State} (hno : NoCollaboratorFailure s) :
    (decodeAll n s).Ends NoCollaboratorFailure :=
  decodeAll_ends (fun _ => getBit_noFailure) (fun b _ => sinkWrite_noFailure b) (fun _ h => h) n hno

/-! ### The window is the last byte read (46_bitreader.md R241) -/

/-- From `s` to `t` the bytes `read` have been read, and the window holds one of them or what it held before. -/
def WindowRead (s t : State) : Prop :=
  ∃ read : List Byte, remaining s = read ++ remaining t ∧ (t.rwin = s.rwin ∨ t.rwin ∈ read)

theorem WindowRead.refl (s : State) : WindowRead s s := ⟨[], rfl, .inl rfl⟩

/-- A change that moves neither the source nor the window. -/
theorem WindowRead.congr {s t u : State} (h : WindowRead s t) (hx : remaining u = remaining t) (hw : u.rwin = t.rwin) :
    WindowRead s u := by
  unfold WindowRead
  rw [hx, hw]
  exact h

theorem WindowRead.trans {s t u : State} (h : WindowRead s t) (h' : WindowRead t u) : WindowRead s u := by
  obtain ⟨xs, hx, hw⟩ := h
  obtain ⟨ys, hy, hw'⟩ := h'
  refine ⟨xs ++ ys, by rw [hx, hy, List.append_assoc], ?_⟩
  rcases hw' with he | hmem
  · rw [he]
    exact hw.imp_right fun hmem => List.mem_append_left ys hmem
  · exact .inr (List.mem_append_right xs hmem)

theorem getBit_windowRead (s : State) : (getBit s).Ends (WindowRead s) := by
  unfold getBit
  split
  · exact WindowRead.refl s
  · rcases sourceRead_cases s with ⟨ds, h⟩ | ⟨ds, h, _⟩ | ⟨ds, b, h, hb⟩ <;> rw [h]
    · exact WindowRead.refl s
    · exact WindowRead.refl s
    · refine ⟨[b], ?_, .inr List.mem_cons_self⟩
      obtain ⟨hlt, rfl⟩ := List.getElem?_eq_some_iff.mp hb
      exact List.drop_eq_getElem_cons hlt

theorem decodeAll_windowRead (n : Nat) (s : State) : (decodeAll n s).Ends (WindowRead s) := by
  refine decodeAll_ends (fun t ht => (getBit_windowRead t).mono fun _ => ht.trans) (fun b t ht => ?_)
    (fun t ht => ht.congr rfl rfl) n (.refl s)
  refine (sinkWrite_frame b t).mono fun u hu => ?_
  unfold SinkFrame at hu
  rw [hu]
  exact ht.congr rfl rfl

/-! ### The symbol loop goes on after the symbols decoded (47_orchestrators.md R261) -/

theorem decodeAll_add (n m : Nat) (s : State) :
    decodeAll (n + m) s = (decodeAll n s).bind fun _ t => decodeAll m t := by
  induction n generalizing s with
  | zero => rw [Nat.zero_add, decodeAll, Run.bind_done]
  | succ n ih =>
    rw [Nat.succ_add, decodeAll, decodeAll, Run.bind_assoc]
    refine Run.bind_congr fun r t _ => ?_
    cases r with
    | none => rfl
    | some y =>
      dsimp only
      rw [Run.bind_assoc]
      exact Run.bind_congr fun _ u _ => ih _

theorem DecodeFrame.nnodes_heapn {s t : State} (h : DecodeFrame s t) : t.nnodes = s.nnodes ∧ t.heapn = s.heapn := by
  unfold DecodeFrame at h
  rw [h]
  exact ⟨rfl, rfl⟩

/-- After the symbols whose codes come first, the loop stands at the next with the rest of the bits. -/
structure Decoded (s t : State) (xs : List Byte) (rest : List Bool) : Prop where
  noFailure : NoCollaboratorFailure t
  unread : unreadBits t = rest
  short : t.rcnt.val < 8
  frame : DecodeFrame s t
  sent : t.snkseq = s.snkseq ++ xs
  counted : t.xcnt = s.xcnt + BitVec.ofNat 40 xs.length
  goesOn : ∀ n : Nat, decodeAll (xs.length + n) s = decodeAll n t

theorem decodeAll_decoded {s : State} {code : Byte → List Bool} {xs : List Byte} {rest : List Bool}
    (hno : NoCollaboratorFailure s) (hshort : s.rcnt.val < 8) (hcode : ∀ b ∈ xs, CodePath s (code b) b)
    (hunread : unreadBits s = xs.flatMap code ++ rest) : ∃ t, Decoded s t xs rest := by
  obtain ⟨t, hdone, hrest, hshort', hsnk, hxcnt⟩ := decodeAll_codes hno hshort hcode hunread
  exact ⟨t, (decodeAll_noFailure _ hno).of_done hdone, hrest, hshort', (decodeAll_frame _ s).of_done hdone, hsnk,
    hxcnt, fun n => by rw [decodeAll_add, hdone, Run.bind_done]⟩

theorem Decoded.xcnt_toNat {s t : State} {xs : List Byte} {rest : List Bool} (h : Decoded s t xs rest)
    (h0 : s.xcnt = 0#40) (hlen : xs.length < 2 ^ 40) : t.xcnt.toNat = xs.length := by
  rw [h.counted, h0, BitVec.zero_add]
  exact Nat.mod_eq_of_lt hlen

theorem Decoded.done {s t : State} {xs : List Byte} {rest : List Bool} (h : Decoded s t xs rest) :
    decodeAll xs.length s = .done () t := h.goesOn 0

/-- Where the loop wants one more symbol and the bits left are none, or a proper part of a code, it raises
PayloadTruncatedError. -/
theorem decodeAll_truncated {s : State} {p q : List Bool} {b : Byte} (hno : NoCollaboratorFailure s)
    (hcode : CodePath s (p ++ q) b) (hq : q ≠ []) (hunread : unreadBits s = p) (n : Nat) :
    ∃ t, decodeAll (n + 1) s = .raised .payloadTruncated t ∧ ReaderFrame s t ∧ unreadBits t = [] := by
  by_cases hp : p = []
  · obtain ⟨t, hend, ht⟩ := decodeSym_end hno (hunread.trans hp)
    refine ⟨t, by rw [decodeAll, hend, Run.bind_done], (decodeSym_frame s).of_done hend, ?_⟩
    rw [ht]
    exact hunread.trans hp
  · have hpath : PathTo s s.root (p ++ q) b := by
      rcases hcode with ⟨-, hone⟩ | ⟨-, hpath⟩
      · have hlen := congrArg List.length hone
        have hp' := List.length_pos_of_ne_nil hp
        have hq' := List.length_pos_of_ne_nil hq
        rw [List.length_append, List.length_singleton] at hlen
        omega
      · exact hpath
    obtain ⟨t, hraised, hrest⟩ := decodeSym_truncated hno hpath hp hq hunread
    exact ⟨t, by rw [decodeAll, hraised, Run.bind_raised], (decodeSym_frame s).of_raised hraised, hrest⟩

theorem decodeAll_corrupt {s : State} {b : Byte} {rest : List Bool} (hno : NoCollaboratorFailure s)
    (hleaf : s.node[s.root].sym = .leaf b) (hunread : unreadBits s = true :: rest) (n : Nat) :
    ∃ t, decodeAll (n + 1) s = .raised .payloadCorrupt t ∧ ReaderFrame s t ∧ unreadBits t = rest := by
  obtain ⟨t, hraised, hrest⟩ := decodeSym_corrupt hno hleaf hunread
  exact ⟨t, by rw [decodeAll, hraised, Run.bind_raised], (decodeSym_frame s).of_raised hraised, hrest⟩

/-- Where the bytes read are all 0, so is the window; and where fewer than 8 bits stand before whole bytes, they are the
window's. -/
theorem Decoded.zero_window {s t : State} {xs rest : List Byte} {m pad : Nat}
    (h : Decoded s t xs (List.replicate pad false ++ streamBits rest)) (hwin : s.rwin = 0#8) (hpad : pad < 8)
    (hx : remaining s = List.replicate m 0#8 ++ rest) : t.rcnt.val = pad ∧ t.rwin = 0#8 ∧ remaining t = rest := by
  obtain ⟨hrcnt, hlen⟩ := window_of_unread h.short hpad h.unread
  obtain ⟨read, hread, hlast⟩ := (decodeAll_windowRead _ s).of_done h.done
  obtain ⟨rfl, hrest⟩ := List.append_inj' (hx.symm.trans hread) hlen.symm
  exact ⟨hrcnt, hlast.elim (·.trans hwin) List.eq_of_mem_replicate, hrest.symm⟩

/-! ### The table of one symbol and its tree (43_tree_codes.md R180) -/

theorem present_of_tableOf_single {s : State} {b : Byte} {f : BitVec 32} (h : TableOf s [(b, f)]) (hf : f ≠ 0#32) :
    present s = [(b, f)] :=
  List.perm_singleton.mp
    (h.perm_present (fun p hp => by rw [List.mem_singleton.mp hp]; exact hf) (List.nodup_singleton b)).symm

theorem present_of_ndist_one {s : State} {b : Byte} (h1 : ndist s = 1) (hb : atSym s.freq b ≠ 0#32) :
    present s = [(b, atSym s.freq b)] := by
  obtain ⟨p, hp⟩ := List.length_eq_one_iff.mp ((present_length s).trans h1)
  have hmem : (b, atSym s.freq b) ∈ present s := mem_present.mpr ⟨rfl, hb⟩
  rw [hp, List.mem_singleton] at hmem
  rw [hp, hmem]

/-- The tree of one symbol is its leaf, in slot 0. -/
theorem buildTree_single {s t : State} {b : Byte} {f : BitVec 32} (hp : present s = [(b, f)])
    (h : buildTree s = .done () t) : t.nnodes.val = 1 ∧ t.root = 0 ∧ t.node[t.root].sym = .leaf b := by
  have h1 : ndist s = 1 := by rw [← present_length, hp, List.length_singleton]
  obtain ⟨r, hb, hnode, -, hroot, hcount⟩ := buildTree_done_built (by omega) h
  have hzero : t.root.val = 0 := by omega
  have hleaf := hb.leaf t.root (b, f) (by rw [hp, hzero]; rfl)
  refine ⟨by omega, Fin.ext hzero, ?_⟩
  rw [hnode, hleaf]
  rfl

/-- BuildTree leaves the queue empty: its last node is the root taken out. -/
theorem buildTree_heapn {s t : State} (h0 : ndist s ≠ 0) (h : buildTree s = .done () t) : t.heapn = 0 := by
  obtain ⟨n, r, x, -, hone, hx, -, hdone⟩ := buildTree_built h0
  obtain rfl : t = setRoot n x := (Run.done.inj (h.symm.trans hdone)).2
  exact Fin.ext (heapExtract_last hone hx).2

/-! ### DECOMPRESS up to its payload (47_orchestrators.md R261) -/

/-- DECOMPRESS of `s` stands at `c` before the payload `xs`: the header's table is that of `table`, its tree is built,
and the symbol loop follows. -/
structure AtPayload (s table c : State) (xs : List Byte) : Prop where
  noFailure : NoCollaboratorFailure c
  frame : TablesFrame (clearReader (clearCount s)) c
  freq : c.freq = table.freq
  built : ∃ a, a.freq = table.freq ∧ buildTree a = .done () c
  heapn : c.heapn = 0
  rootValid : c.rootValid = true
  codesValid : c.codesValid = false
  unread : remaining c = xs
  run : decompressBody s = decodeAll (total table) c

theorem decompressBody_atPayload {s table : State} {xs : List Byte} (hno : NoCollaboratorFailure s)
    (h0 : ndist table ≠ 0) (h256 : ndist table ≠ 256) (hx : remaining s = headerBytes table ++ xs) :
    ∃ c, AtPayload s table c xs := by
  have h255 : ndist table ≤ 255 := by
    have := ndist_le table
    omega
  obtain ⟨a, hread, hnoa, hxa, hfreq⟩ := readHeader_headerBytes (s := clearReader (clearCount s)) hno h0 h255 hx
  have h0a : ndist a ≠ 0 := by rwa [ndist, hfreq]
  obtain ⟨c, hc, hframe, hv, hcv, -⟩ := buildTree_treeOk h0a
  have htables := ((readHeader_frame _).of_done hread).toTablesFrame.trans hframe.toTablesFrame
  have hkept : c.draws = a.draws ∧ c.freq = a.freq ∧ remaining c = remaining a := by
    unfold TreeFrame at hframe
    rw [hframe]
    exact ⟨rfl, rfl, rfl⟩
  obtain ⟨hdraws, hfreqc, hremc⟩ := hkept
  have hfreqt := hfreqc.trans hfreq
  refine ⟨c, by rwa [NoCollaboratorFailure, hdraws], htables, hfreqt, ⟨a, hfreq, hc⟩, buildTree_heapn h0a hc, hv, hcv,
    hremc.trans hxa, ?_⟩
  rw [decompressBody, hread, Run.bind_done, hc, Run.bind_done, total, hfreqt, ← total]

section
variable {s table c : State} {xs : List Byte}

theorem AtPayload.start (h : AtPayload s table c xs) :
    c.rcnt = 0 ∧ c.rwin = 0#8 ∧ c.snkseq = s.snkseq ∧ c.xcnt = 0#40 := by
  have hframe := h.frame
  unfold TablesFrame at hframe
  rw [hframe]
  exact ⟨rfl, rfl, rfl, rfl⟩

theorem AtPayload.unreadBits (h : AtPayload s table c xs) : unreadBits c = streamBits xs := by
  obtain ⟨hrcnt, -⟩ := h.start
  rw [Machine.unreadBits, h.unread, hrcnt]
  rfl

/-- The codes that BUILD_TREE and GEN_CODES give the table are those of the tree built here. -/
theorem AtPayload.codePath {tree codes : State} {b : Byte} (h : AtPayload s table c xs) (het : table.errcode = none)
    (h0 : ndist table ≠ 0) (htree : exec .buildTree table = .next tree) (hcodes : exec .genCodes tree = .next codes)
    (hb : atSym table.freq b ≠ 0#32) : CodePath c (codeOf codes b) b := by
  obtain ⟨a, hfreq, hc⟩ := h.built
  obtain ⟨hbuilt, hpaths⟩ := exec_codes het h0 htree hcodes
  exact buildTree_codePath (s := clearFlags table) hfreq h0 hbuilt hc (hpaths b hb)

theorem AtPayload.single {b : Byte} {f : BitVec 32} (h : AtPayload s table c xs) (hp : present table = [(b, f)]) :
    c.nnodes.val = 1 ∧ c.root = 0 ∧ c.node[c.root].sym = .leaf b := by
  obtain ⟨a, hfreq, hc⟩ := h.built
  exact buildTree_single (by rw [present, hfreq]; exact hp) hc

/-- The symbols whose codes come first in the payload are decoded. -/
theorem AtPayload.decoded {code : Byte → List Bool} {ys : List Byte} {rest : List Bool} (h : AtPayload s table c xs)
    (hcode : ∀ b ∈ ys, CodePath c (code b) b) (hstream : streamBits xs = ys.flatMap code ++ rest) :
    ∃ t, Decoded c t ys rest := by
  obtain ⟨hrcnt, -⟩ := h.start
  exact decodeAll_decoded h.noFailure (by rw [hrcnt]; decide) hcode (h.unreadBits.trans hstream)

/-- Under a single leaf each bit 0 is a symbol. -/
theorem AtPayload.decoded_run {b : Byte} {k : Nat} {rest : List Bool} (h : AtPayload s table c xs)
    (hleaf : c.node[c.root].sym = .leaf b) (hstream : streamBits xs = List.replicate k false ++ rest) :
    ∃ t, Decoded c t (List.replicate k b) rest :=
  h.decoded (code := fun _ => [false]) (fun a ha => .inl ⟨List.eq_of_mem_replicate ha ▸ hleaf, rfl⟩) <| by
    rw [hstream, List.flatMap_replicate, List.flatten_replicate_singleton]

end

/-! ### DECOMPRESS that stops in its payload (47_orchestrators.md R264, 60_exceptions.md R284) -/

/-- The command keeps the symbols decoded and the table with its tree, beside the error entry. -/
theorem decompress_refused {s table c t u : State} {payload ys : List Byte} {rest : List Bool} {e : ErrKind} {n : Nat}
    (he : s.errcode = none) (hc : AtPayload (clearFlags s) table c payload) (ht : Decoded c t ys rest)
    (htotal : total table = ys.length + n) (hraised : decodeAll n t = .raised e u) (hu : ReaderFrame t u) :
    ∃ v, exec .decompress s = .next v ∧ PayloadRefused s v e ys ∧ v.freq = table.freq ∧
      unreadBits v = unreadBits u := by
  have hbody : commandBody .decompress (clearFlags s) = .raised e u := by
    rw [commandBody, hc.run, htotal, ht.goesOn, hraised]
  obtain ⟨-, -, hsnk, hxcnt⟩ := hc.start
  have hkept : u.snkseq = t.snkseq ∧ u.xcnt = t.xcnt := by
    unfold ReaderFrame at hu
    rw [hu]
    exact ⟨rfl, rfl⟩
  have hloop := ht.frame.trans hu.toDecodeFrame
  have hsame := hloop.sameTree
  have hsent : u.snkseq = s.snkseq ++ ys := by rw [hkept.1, ht.sent, hsnk, clearFlags_snkseq]
  have hlen : ys.length < 2 ^ 40 := by
    have := total_lt table
    omega
  refine ⟨_, exec_of_raised nofun he hbody, ⟨?_, ?_⟩, hsame.freq.trans hc.freq, rfl⟩
  · exact (congrArg BitVec.toNat hkept.2).trans (ht.xcnt_toNat hxcnt hlen)
  · have hframe := (decompressBody_frame _).of_raised hbody
    unfold DecompressFrame at hframe
    rw [hsame.rootValid.trans hc.rootValid, hsame.codesValid.trans hc.codesValid,
      hloop.nnodes_heapn.2.trans hc.heapn, hsent] at hframe
    exact congrArg (enterError 0x71000000#32 e) hframe

/-- Settles O60: the symbols before the stop are decoded (`AtPayload.decoded`), and the next one raises
(`decodeAll_truncated`, `decodeAll_corrupt`) while symbols of the table's TOTAL are missing. -/
theorem decompressTellsTheEndsApart : Obligations.DecompressTellsTheEndsApart := by
  intro s table payload het h0 h256 he hno hx
  obtain ⟨c, hc⟩ := decompressBody_atPayload (s := clearFlags s) hno h0 h256 hx
  refine ⟨fun tree codes xs p q b htree hcodes hxs hb hlt hcode hq hstream => ?_,
    fun b k more h1 hb hlt hstream => ?_⟩
  · obtain ⟨n, hn⟩ := Nat.exists_eq_add_of_lt hlt
    have hpath := fun y hy => hc.codePath (b := y) het h0 htree hcodes hy
    obtain ⟨t, ht⟩ := hc.decoded (fun x hx => hpath x (hxs x hx)) hstream
    have hsame := ht.frame.sameTree
    have hnext : CodePath t (p ++ q) b := hcode ▸ (hpath b hb).congr hsame.node hsame.root
    obtain ⟨u, hraised, hu, hrest⟩ := decodeAll_truncated ht.noFailure hnext hq ht.unread n
    rw [← hrest]
    exact decompress_refused he hc ht (hn.trans (Nat.add_assoc _ _ _)) hraised hu
  · obtain ⟨n, hn⟩ := Nat.exists_eq_add_of_lt hlt
    obtain ⟨-, -, hleaf⟩ := hc.single (present_of_ndist_one h1 hb)
    obtain ⟨t, ht⟩ := hc.decoded_run hleaf hstream
    have hsame := ht.frame.sameTree
    have hleaf' : t.node[t.root].sym = .leaf b := by
      simp only [hsame.node, hsame.root]
      exact hleaf
    obtain ⟨u, hraised, hu, hrest⟩ := decodeAll_corrupt ht.noFailure hleaf' ht.unread n
    rw [← hrest]
    exact decompress_refused he hc ht (by rw [List.length_replicate, hn, Nat.add_assoc]) hraised hu

/-! ### DECOMPRESS of one symbol (47_orchestrators.md R261, R262) -/

theorem streamBits_replicate_zero (m : Nat) : streamBits (List.replicate m 0#8) = List.replicate (8 * m) false := by
  have hbyte : byteBits 0#8 = List.replicate 8 false := by decide
  rw [streamBits, List.flatMap_replicate, hbyte, List.flatten_replicate_replicate, Nat.mul_comm]

/-- The zero bytes after a header of one pair hold a bit for each symbol, and fewer than 8 more. -/
theorem streamBits_run (n : Nat) (rest : List Byte) :
    streamBits (List.replicate ((n + 7) / 8) 0#8 ++ rest) =
      List.replicate n false ++ (List.replicate ((8 - n % 8) % 8) false ++ streamBits rest) := by
  rw [streamBits_append, streamBits_replicate_zero, ← List.append_assoc, List.replicate_append_replicate,
    show 8 * ((n + 7) / 8) = n + (8 - n % 8) % 8 by omega]

/-- The table with the one count `f`, of `b`. -/
def singleTable (b : Byte) (f : BitVec 32) : State := setFreq b f (clearFreq State.reset)

theorem singleTable_freq (a b : Byte) (f : BitVec 32) :
    atSym (singleTable b f).freq a = if a = b then f else 0#32 := by
  rw [singleTable, setFreq_freq, atSym_setSym, clearFreq_counts]

theorem singleTable_present {b : Byte} {f : BitVec 32} (hf : f ≠ 0#32) : present (singleTable b f) = [(b, f)] := by
  refine present_of_tableOf_single ⟨fun p hp => ?_, fun a ha => ?_⟩ hf
  · rw [List.mem_singleton.mp hp, singleTable_freq, if_pos rfl]
  · rw [singleTable_freq, if_neg (by simpa using ha)]

/-- Settles O50: the header is that of a table of one count, its tree a leaf (`AtPayload.single`), and each zero bit
sends that leaf's symbol (`AtPayload.decoded_run`). -/
theorem decompressOfOneSymbolWritesItsRun : Obligations.DecompressOfOneSymbolWritesItsRun := by
  intro s b f rest he hno hf hx
  have hp := singleTable_present (b := b) hf
  have h1 : ndist (singleTable b f) = 1 := by rw [← present_length, hp, List.length_singleton]
  have htotal : total (singleTable b f) = f.toNat := by
    rw [← present_sum, hp]
    exact Nat.add_zero _
  have hheader : remaining s = headerBytes (singleTable b f) ++ (List.replicate ((f.toNat + 7) / 8) 0#8 ++ rest) := by
    rw [headerBytes, h1, hp]
    exact hx
  obtain ⟨c, hc⟩ := decompressBody_atPayload (s := clearFlags s) hno (by omega) (by omega) hheader
  obtain ⟨hnnodes, hroot, hleaf⟩ := hc.single hp
  obtain ⟨-, hrwin, hsnk, hxcnt⟩ := hc.start
  obtain ⟨t, ht⟩ := hc.decoded_run hleaf (streamBits_run f.toNat rest)
  obtain ⟨hpad, hzero, hrest⟩ := ht.zero_window hrwin (Nat.mod_lt _ (by decide)) hc.unread
  have hsame := ht.frame.sameTree
  obtain ⟨hnn, hheapn⟩ := ht.frame.nnodes_heapn
  have hlen : (List.replicate f.toNat b).length = f.toNat := List.length_replicate
  have hbody : commandBody .decompress (clearFlags s) = .done () t := by
    rw [commandBody, hc.run, htotal, ← hlen, ht.done]
  refine ⟨t, exec_of_done nofun he hbody, by rw [ht.sent, hsnk, clearFlags_snkseq], fun a => ?_, ?_,
    by rw [hnn, hnnodes], hrest, hpad, ?_⟩
  · rw [hsame.freq, hc.freq, singleTable_freq]
  · rw [ht.xcnt_toNat hxcnt (by omega), hlen]
  · have hframe := (decompressBody_frame _).of_done hbody
    unfold DecompressFrame at hframe
    rw [hsame.rootValid.trans hc.rootValid, hsame.codesValid.trans hc.codesValid, hheapn.trans hc.heapn,
      hsame.root.trans hroot, hzero] at hframe
    exact hframe

end Sys2Proof.Machine
end

section
/-!
PROOFS. COMPRESS of a source that its alphabet check refuses (47_orchestrators.md R260, 60_exceptions.md R285), and
DECOMPRESS of the stream that COMPRESS wrote (R263).
-/

namespace Sys2Proof.Machine

/-! ### COMPRESS up to its alphabet check (47_orchestrators.md R260) -/

/-- The scan of a source that fits ends past its last byte, with the counts of the bytes it was given. -/
theorem scanFreq_whole {s : State} (hno : NoCollaboratorFailure s) (hfit : CountsFit (remaining s)) :
    ∃ t, scanFreq s = .done () t ∧ (∀ b : Byte, (atSym t.freq b).toNat = (remaining s).count b) ∧
      t.spos = s.spos + (remaining s).length := by
  obtain ⟨t, hscan, ht⟩ := scanFreq_scanned (ys := []) (fun d hd => hno d (List.mem_of_mem_take hd))
    (List.append_nil _).symm hfit
  have hnot : NoCollaboratorFailure t := fun d hd => hno d (List.mem_of_mem_drop (ht.draws ▸ hd))
  obtain ⟨u, hread, -, hu⟩ := sourceRead_eos_of_noFailure hnot ht.unread
  refine ⟨u, by rw [hscan, scanLoop, hread], ?_⟩
  rw [hu]
  exact ⟨ht.counts_of_clear, ht.spos⟩

/-- Where the check refuses every table with as many symbols as the source, COMPRESS has read the whole source and
written nothing. -/
theorem compressBody_refused {s : State} {e : ErrKind} (hno : NoCollaboratorFailure s) (hfit : CountsFit s.srcseq)
    (hcheck : ∀ b : State, ndist b = distinctSymbols s.srcseq → checkAlphabet b = .raised e b) :
    ∃ t, compressBody s = .raised e t ∧ t.snkseq = s.snkseq ∧ t.spos = s.srcseq.length := by
  obtain ⟨a, ha, hnoa, hsa⟩ := sourceRewind_of_noFailure (s := clearReader (clearWriter (clearCount s))) hno
  have hstart : remaining a = s.srcseq ∧ a.spos = 0 ∧ a.snkseq = s.snkseq := by
    rw [hsa]
    exact ⟨rfl, rfl, rfl⟩
  obtain ⟨hxa, hposa, hsnka⟩ := hstart
  obtain ⟨b, hb, hcounts, hspos⟩ := scanFreq_whole hnoa (hxa ▸ hfit)
  have hsnkb : b.snkseq = a.snkseq := by
    have hframe := (scanFreq_frame a).of_done hb
    unfold HeaderFrame at hframe
    rw [hframe]
  rw [hxa] at hcounts hspos
  refine ⟨b, ?_, hsnkb.trans hsnka, by rw [hspos, hposa, Nat.zero_add]⟩
  rw [compressBody, ha, Run.bind_done, hb, Run.bind_done, hcheck b (ndist_of_counts hcounts), Run.bind_raised]

/-- Settles O48: the table of an empty source has no symbol and that of all byte values has 256, which the check
refuses (`compressBody_refused`). -/
theorem compressRefusesItsBoundaries : Obligations.CompressRefusesItsBoundaries := by
  intro s he hno hfit
  refine ⟨fun hempty => ?_, fun hfull => ?_⟩
  · obtain ⟨t, hbody, hsnk, -⟩ := compressBody_refused (s := clearFlags s) (e := .emptyInput) hno hfit fun b hb =>
      if_pos (hb.trans (congrArg distinctSymbols hempty))
    exact ⟨_, exec_of_raised (i := .compress) nofun he hbody, rfl, rfl, hsnk⟩
  · obtain ⟨t, hbody, hsnk, hspos⟩ := compressBody_refused (s := clearFlags s) (e := .alphabetOverflow) hno hfit
      fun b hb => by
        have h256 : ndist b = 256 := hb.trans hfull
        rw [checkAlphabet, if_neg (by omega), if_pos h256]
    exact ⟨_, exec_of_raised (i := .compress) nofun he hbody, rfl, rfl, hsnk, hspos⟩

/-! ### DECOMPRESS of what COMPRESS wrote (47_orchestrators.md R263) -/

/-- A command that leaves no error has run its body to the end. -/
theorem commandBody_of_exec {i : Instr} {s t : State} (hi : i ≠ .reset) (h : exec i s = .next t)
    (ht : t.errcode = none) : commandBody i (clearFlags s) = .done () t := by
  rcases exec_cases h with ⟨rfl, -⟩ | ⟨-, he, rfl⟩ | ⟨-, -, hdone⟩ | ⟨e, u, -, -, -, rfl⟩
  · exact absurd rfl hi
  · exact absurd ht he
  · exact hdone
  · cases ht

/-- COMPRESS leaves the tree that BuildTree makes of the table it leaves. -/
theorem compressBody_built {s t : State} (h : compressBody s = .done () t) :
    ∃ b c, buildTree b = .done () c ∧ t.freq = b.freq ∧ t.node = c.node ∧ t.root = c.root := by
  obtain ⟨_, _, -, h⟩ := Run.bind_eq_done h
  obtain ⟨_, _, -, h⟩ := Run.bind_eq_done h
  obtain ⟨_, b, -, h⟩ := Run.bind_eq_done h
  obtain ⟨_, c, hbuild, h⟩ := Run.bind_eq_done h
  obtain ⟨_, d, hgen, h⟩ := Run.bind_eq_done h
  obtain ⟨_, f, hheader, h⟩ := Run.bind_eq_done h
  obtain ⟨_, g, hrewind, h⟩ := Run.bind_eq_done h
  obtain ⟨_, i, hencode, hflush⟩ := Run.bind_eq_done h
  have htree := (buildTree_frame b).of_done hbuild
  have hcodes := (genCodes_frame c).of_done hgen
  have hsent := ((writeHeader_frame d).of_done hheader).toDecodeFrame.sameTree
  have hpass := ((((sourceRewind_frame f).of_done hrewind).toEncodeFrame.trans
    ((encodeLoop_frame _ g).of_done hencode)).trans ((flushBits_frame i).of_done hflush).toEncodeFrame).sameTree
  have hfreq : d.freq = b.freq := by
    unfold TreeFrame at htree
    unfold CodesFrame at hcodes
    rw [hcodes, htree]
  have hroot : d.node = c.node ∧ d.root = c.root := by
    unfold CodesFrame at hcodes
    rw [hcodes]
    exact ⟨rfl, rfl⟩
  exact ⟨b, c, hbuild, hpass.freq.trans (hsent.freq.trans hfreq), hpass.node.trans (hsent.node.trans hroot.1),
    hpass.root.trans (hsent.root.trans hroot.2)⟩

/-- A table of the counts of a byte sequence counts each of its bytes. -/
theorem count_ne_zero_of_mem {s : State} {xs : List Byte} {b : Byte}
    (h : ∀ b : Byte, (atSym s.freq b).toNat = xs.count b) (hb : b ∈ xs) : atSym s.freq b ≠ 0#32 := fun hzero => by
  have hcount := h b
  rw [hzero] at hcount
  exact (List.count_pos_iff.mpr hb).ne hcount

/-- In a valid code table the code of each symbol with a count is its path. -/
theorem CodesOk.codePath {s : State} (h : CodesOk s) (htree : TreeOk s) {b : Byte} (hb : atSym s.freq b ≠ 0#32) :
    CodePath s (codeOf s b) b := by
  obtain ⟨p, hp, hcode⟩ := (h.codes htree).1 b hb
  rwa [hcode.codeOf_eq]

/-- DECOMPRESS that stands before the payload of COMPRESS's stream has built the tree whose codes were written. -/
theorem AtPayload.codePath_of_compress {s t u c : State} {xs : List Byte} {b : Byte} (h : AtPayload u t c xs)
    (hdone : compressBody s = .done () t) (h0 : ndist t ≠ 0) (htree : TreeOk t) (hcodes : CodesOk t)
    (hb : atSym t.freq b ≠ 0#32) : CodePath c (codeOf t b) b := by
  obtain ⟨x, y, hbuild, hfreq, hnode, hroot⟩ := compressBody_built hdone
  obtain ⟨a, hfreqa, hc⟩ := h.built
  exact buildTree_codePath (hfreqa.trans hfreq) (by rwa [ndist, ← hfreq]) hbuild hc
    ((hcodes.codePath htree hb).congr hnode.symm hroot.symm)

/-- Settles O51: COMPRESS sends the header and the codes (`compressWritesHeaderAndPayload`), DECOMPRESS builds the same
tree from the header (`AtPayload.codePath_of_compress`), and follows the codes back to the source
(`AtPayload.decoded`). -/
theorem decompressOfCompressIsTheSource : Obligations.DecompressOfCompressIsTheSource := by
  intro s t u he hno hne hdist hfit hexec heu hnou hseq hpos
  obtain ⟨t', payload, pad, hexec', hcounts, htree, hcodes, hsnk, -, hstream, htotal, -, -, -, hframe⟩ :=
    compressWritesHeaderAndPayload s he hno hne hdist hfit
  obtain rfl : t = t' := Host.Outcome.next.inj (hexec.symm.trans hexec')
  have hdone := commandBody_of_exec (i := .compress) nofun hexec (by rw [hframe]; exact he)
  have hnd : ndist t = distinctSymbols s.srcseq := ndist_of_counts hcounts
  have h0 : ndist t ≠ 0 := hnd ▸ distinctSymbols_ne_zero hne
  have hx : remaining (clearFlags u) = headerBytes t ++ payload := by
    rw [remaining, clearFlags_srcseq, clearFlags_spos, hpos, List.drop_zero, hseq, hsnk, List.append_assoc,
      List.drop_left]
  obtain ⟨c, hc⟩ := decompressBody_atPayload (s := clearFlags u) hnou h0 (by omega) hx
  have hcode : ∀ b ∈ s.srcseq, CodePath c (codeOf t b) b := fun b hb =>
    hc.codePath_of_compress hdone h0 htree hcodes (count_ne_zero_of_mem hcounts hb)
  obtain ⟨v, hv⟩ := hc.decoded hcode hstream
  obtain ⟨-, -, hsnkc, -⟩ := hc.start
  have hbody : commandBody .decompress (clearFlags u) = .done () v := by
    rw [commandBody, hc.run, htotal, hv.done]
  refine ⟨v, exec_of_done nofun heu hbody, ?_, by rw [hv.sent, hsnkc, clearFlags_snkseq]⟩
  have hkept := (decompressBody_frame _).of_done hbody
  unfold DecompressFrame at hkept
  rw [hkept]
  exact heu

end Sys2Proof.Machine
end

section
/-!
PROOFS. The errors that each command can raise, and the error entry (60_exceptions.md R280 to R284).
-/

namespace Sys2Proof.Machine

/-! ### Error entry (60_exceptions.md R280, R282) -/

/-- Settles O13: the raise ends the body, and the entry is `enterError` over its state. -/
theorem errorEntryRecordsCodeAndCommand : Obligations.ErrorEntryRecordsCodeAndCommand := by
  refine ⟨fun cur body s u e he hraised => ?_, by decide⟩
  rw [runCommand_noError he, hraised]
  rfl

/-! ### The errors a primitive can raise -/

/-- Where the primitive raises, the error is one of `es`. -/
def Run.RaisesOnly {α : Type} (r : Run α) (es : List ErrKind) : Prop :=
  ∀ (e : ErrKind) (t : State), r = .raised e t → e ∈ es

@[simp] theorem Run.raisesOnly_done {α : Type} (a : α) (s : State) (es : List ErrKind) :
    (Run.done a s).RaisesOnly es := fun _ _ h => by cases h

@[simp] theorem Run.raisesOnly_stopped {α : Type} (f : Fault) (es : List ErrKind) :
    (Run.stopped f : Run α).RaisesOnly es := fun _ _ h => by cases h

@[simp] theorem Run.raisesOnly_raised {α : Type} {e : ErrKind} {s : State} {es : List ErrKind} :
    (Run.raised e s : Run α).RaisesOnly es ↔ e ∈ es :=
  ⟨fun h => h e s rfl, fun h e' t ht => by cases ht; exact h⟩

theorem Run.RaisesOnly.mono {α : Type} {r : Run α} {es es' : List ErrKind} (h : r.RaisesOnly es) (hsub : es ⊆ es') :
    r.RaisesOnly es' := fun e t ht => hsub (h e t ht)

theorem Run.RaisesOnly.bind {α β : Type} {r : Run α} {k : α → State → Run β} {es : List ErrKind}
    (h : r.RaisesOnly es) (hk : ∀ a t, (k a t).RaisesOnly es) : (r.bind k).RaisesOnly es := by
  intro e u hraised
  rcases Run.bind_eq_raised hraised with hr | ⟨a, t, -, ht⟩
  · exact h e u hr
  · exact hk a t e u ht

/-! ### The source's readers (41_frequency.md R131, 44_header.md R202, 46_bitreader.md R241, R244) -/

theorem sourceRewind_raisesOnly (s : State) : (sourceRewind s).RaisesOnly [.sourceRead] := by
  rcases sourceRewind_cases s with ⟨ds, h⟩ | ⟨ds, h⟩ <;> simp [h]

theorem scanLoop_raisesOnly (k : Nat) (s : State) : (scanLoop k s).RaisesOnly [.sourceRead, .inputTooLong] := by
  induction k generalizing s with
  | zero => exact Run.raisesOnly_done () s _
  | succ k ih =>
    rw [scanLoop]
    split
    · simp
    · simp
    · split
      · simp
      · exact ih _

theorem scanFreq_raisesOnly (s : State) : (scanFreq s).RaisesOnly [.sourceRead, .inputTooLong] :=
  scanLoop_raisesOnly _ _

theorem getByte_raisesOnly (s : State) : (getByte s).RaisesOnly [.headerCorrupt, .sourceRead] := by
  unfold getByte
  split <;> simp

theorem readPairs_raisesOnly (c : Nat) (s : State) : (readPairs c s).RaisesOnly [.headerCorrupt, .sourceRead] := by
  induction c generalizing s with
  | zero => exact Run.raisesOnly_done () s _
  | succ c ih =>
    refine (getByte_raisesOnly s).bind fun b s => ?_
    refine (getByte_raisesOnly s).bind fun f0 s => ?_
    refine (getByte_raisesOnly s).bind fun f1 s => ?_
    refine (getByte_raisesOnly s).bind fun f2 s => ?_
    refine (getByte_raisesOnly s).bind fun f3 s => ?_
    dsimp only
    split
    · simp
    · split
      · simp
      · exact ih _

theorem readHeader_raisesOnly (s : State) :
    (readHeader s).RaisesOnly [.emptyInput, .headerCorrupt, .sourceRead] := by
  refine ((getByte_raisesOnly _).mono (by decide)).bind fun c s => ?_
  split
  · simp
  · exact (readPairs_raisesOnly _ s).mono (by decide)

theorem getBit_raisesOnly (s : State) : (getBit s).RaisesOnly [.sourceRead] := by
  unfold getBit
  split
  · exact Run.raisesOnly_done _ _ _
  · split <;> simp [takeBit]

theorem decodeLoop_raisesOnly (k : Nat) (n : NodeIdx) (first : Bool) (s : State) :
    (decodeLoop k n first s).RaisesOnly [.sourceRead, .payloadTruncated] := by
  induction k generalizing n first s with
  | zero => exact Run.raisesOnly_done _ s _
  | succ k ih =>
    rw [decodeLoop]
    split
    · simp
    · refine ((getBit_raisesOnly s).mono (by decide)).bind fun b t => ?_
      split
      · split <;> simp
      · split
        · exact ih _ _ t
        · simp
      · split
        · exact ih _ _ t
        · simp

theorem decodeSym_raisesOnly (s : State) :
    (decodeSym s).RaisesOnly [.sourceRead, .payloadTruncated, .payloadCorrupt] := by
  unfold decodeSym
  split
  · refine ((getBit_raisesOnly s).mono (by decide)).bind fun b t => ?_
    split <;> simp
  · exact (decodeLoop_raisesOnly _ _ _ s).mono (by decide)

/-! ### The sink's writers (44_header.md R200, 45_bitwriter.md R220 to R222) -/

theorem sinkWrite_raisesOnly (b : Byte) (s : State) : (sinkWrite b s).RaisesOnly [.sinkWrite] := by
  rcases sinkWrite_cases b s with ⟨ds, h⟩ | ⟨ds, h⟩ <;> simp [h]

theorem putBytes_raisesOnly (bs : List Byte) (s : State) : (putBytes bs s).RaisesOnly [.sinkWrite] := by
  induction bs generalizing s with
  | nil => exact Run.raisesOnly_done () s _
  | cons b bs ih => exact (sinkWrite_raisesOnly b s).bind fun _ t => ih t

theorem putPairs_raisesOnly (ps : List (Byte × BitVec 32)) (s : State) : (putPairs ps s).RaisesOnly [.sinkWrite] := by
  induction ps generalizing s with
  | nil => exact Run.raisesOnly_done () s _
  | cons p ps ih => exact (putBytes_raisesOnly _ s).bind fun _ t => ih t

theorem writeHeader_raisesOnly (s : State) :
    (writeHeader s).RaisesOnly [.emptyInput, .sinkWrite, .alphabetOverflow] := by
  unfold writeHeader
  split
  · simp
  · split
    · simp
    · exact ((sinkWrite_raisesOnly _ s).bind fun _ t => putPairs_raisesOnly _ t).mono (by decide)

theorem putBit_raisesOnly (b : Bool) (s : State) : (putBit b s).RaisesOnly [.sinkWrite] := by
  unfold putBit
  dsimp only
  split
  · split
    · exact Run.raisesOnly_done _ _ _
    · exact sinkWrite_raisesOnly _ _
  · exact Run.raisesOnly_stopped _ _

theorem flushBits_raisesOnly (s : State) : (flushBits s).RaisesOnly [.sinkWrite] := by
  unfold flushBits
  dsimp only
  split
  · exact Run.raisesOnly_done () s _
  · split
    · exact sinkWrite_raisesOnly _ _
    · exact Run.raisesOnly_stopped _ _

theorem putBits_raisesOnly (v : BitVec 255) (j : Nat) (s : State) : (putBits v j s).RaisesOnly [.sinkWrite] := by
  induction j generalizing s with
  | zero => exact Run.raisesOnly_done () s _
  | succ j ih => exact (putBit_raisesOnly _ s).bind fun _ t => ih t

theorem putCode_raisesOnly (b : Byte) (s : State) : (putCode b s).RaisesOnly [.sinkWrite] :=
  putBits_raisesOnly _ _ s

/-! ### The queue, the tree and the codes (42_heap.md R151 to R154, 43_tree_codes.md R180, R181) -/

theorem newNode_raisesOnly (d : Node) (s : State) : (newNode d s).RaisesOnly [.queueOverflow] := by
  rcases newNode_cases d s with ⟨_, h⟩ | ⟨_, h⟩ <;> simp [h]

theorem heapInsert_raisesOnly (n : NodeIdx) (s : State) : (heapInsert n s).RaisesOnly [.queueOverflow] := by
  rcases heapInsert_cases n s with ⟨_, hp, h⟩ | ⟨_, h⟩ <;> simp [h]

theorem heapExtract_raisesOnly (s : State) (es : List ErrKind) : (heapExtract s).RaisesOnly es :=
  fun e t h => absurd h (heapExtract_ne_raised s t e)

theorem mergeNode_raisesOnly (a b : NodeIdx) (s : State) : (mergeNode a b s).RaisesOnly [.queueOverflow] := by
  unfold mergeNode
  dsimp only
  split
  · exact newNode_raisesOnly _ s
  · exact Run.raisesOnly_stopped _ _

theorem mergeTwo_raisesOnly (s : State) : (mergeTwo s).RaisesOnly [.queueOverflow] := by
  refine (heapExtract_raisesOnly s _).bind fun a t => ?_
  refine (heapExtract_raisesOnly t _).bind fun b u => ?_
  refine (mergeNode_raisesOnly a b u).bind fun n v => ?_
  exact (heapInsert_raisesOnly n v).bind fun _ w => Run.raisesOnly_done n w _

/-- A table of at most 256 symbols takes at most 511 nodes, so no queue overflows here (43_tree_codes.md R180). -/
theorem buildTree_raisesOnly (s : State) : (buildTree s).RaisesOnly [.emptyInput] := by
  by_cases h0 : ndist s = 0
  · simp [buildTree_of_empty h0]
  · obtain ⟨n, t, u, -, -, -, -, hdone⟩ := buildTree_built h0
    simp [hdone]

theorem walk_raisesOnly (k : Nat) (n : NodeIdx) (v d : Nat) (s : State) (es : List ErrKind) :
    (walk k n v d s).RaisesOnly es := by
  induction k generalizing n v d s with
  | zero => exact Run.raisesOnly_stopped _ _
  | succ k ih =>
    rw [walk]
    split
    · exact Run.raisesOnly_done _ _ _
    · split
      · exact (ih _ _ _ s).bind fun _ t => ih _ _ _ t
      · exact Run.raisesOnly_stopped _ _

theorem genCodes_raisesOnly (s : State) (es : List ErrKind) : (genCodes s).RaisesOnly es := by
  unfold genCodes
  dsimp only
  split
  · exact Run.raisesOnly_done _ _ _
  · exact (walk_raisesOnly _ _ _ _ _ es).bind fun _ t => Run.raisesOnly_done _ _ _

/-! ### The sequencers (47_orchestrators.md R260, R261) -/

theorem checkAlphabet_raisesOnly (s : State) : (checkAlphabet s).RaisesOnly [.emptyInput, .alphabetOverflow] := by
  rcases checkAlphabet_cases s with ⟨_, h⟩ | ⟨_, h⟩ | ⟨_, _, h⟩ <;> simp [h]

theorem encodeLoop_raisesOnly (n : Nat) (s : State) :
    (encodeLoop n s).RaisesOnly [.sourceRead, .sinkWrite, .noCode] := by
  induction n generalizing s with
  | zero => exact Run.raisesOnly_done () s _
  | succ n ih =>
    rw [encodeLoop]
    split
    · simp
    · simp
    · split
      · simp
      · exact ((putCode_raisesOnly _ _).mono (by decide)).bind fun _ t => ih _

theorem compressBody_raisesOnly (s : State) : (compressBody s).RaisesOnly (mayRaise .compress) := by
  refine ((sourceRewind_raisesOnly _).mono (by decide)).bind fun _ a => ?_
  refine ((scanFreq_raisesOnly a).mono (by decide)).bind fun _ b => ?_
  refine ((checkAlphabet_raisesOnly b).mono (by decide)).bind fun _ c => ?_
  refine ((buildTree_raisesOnly c).mono (by decide)).bind fun _ d => ?_
  refine (genCodes_raisesOnly d _).bind fun _ t => ?_
  refine ((writeHeader_raisesOnly t).mono (by decide)).bind fun _ u => ?_
  refine ((sourceRewind_raisesOnly u).mono (by decide)).bind fun _ v => ?_
  refine ((encodeLoop_raisesOnly _ v).mono (by decide)).bind fun _ w => ?_
  exact (flushBits_raisesOnly w).mono (by decide)

theorem decodeAll_raisesOnly (n : Nat) (s : State) :
    (decodeAll n s).RaisesOnly [.sourceRead, .sinkWrite, .payloadTruncated, .payloadCorrupt] := by
  induction n generalizing s with
  | zero => exact Run.raisesOnly_done () s _
  | succ n ih =>
    refine ((decodeSym_raisesOnly s).mono (by decide)).bind fun r t => ?_
    split
    · simp
    · exact ((sinkWrite_raisesOnly _ t).mono (by decide)).bind fun _ u => ih _

theorem decompressBody_raisesOnly (s : State) : (decompressBody s).RaisesOnly (mayRaise .decompress) := by
  refine ((readHeader_raisesOnly _).mono (by decide)).bind fun _ a => ?_
  refine ((buildTree_raisesOnly a).mono (by decide)).bind fun _ b => ?_
  exact (decodeAll_raisesOnly _ b).mono (by decide)

/-! ### Every command (60_exceptions.md R281) -/

/-- An index that is not 511 names a slot (30_encoding.md R93, R95). -/
theorem exists_slotOf_of_indexOk {idx : BitVec 9} (h : indexOk idx = true) : ∃ n, slotOf idx = some n := by
  have hne : idx ≠ 0x1FF#9 := by simpa [indexOk] using h
  have hlt : idx.toNat < 511 := by bv_omega
  exact ⟨⟨idx.toNat, hlt⟩, slotOf_of_val rfl⟩

/-- The body of a well-formed command raises only errors of its row of the table. -/
theorem commandBody_raisesOnly {i : Instr} (hwf : i.wellFormed = true) (s : State) :
    (commandBody i s).RaisesOnly (mayRaise i) := by
  cases i with
  | nop | reset | freqClear | freqSet | freqGet | heapClear | codeGet | bwClear | brClear =>
    exact Run.raisesOnly_done _ _ _
  | freqScan => exact scanFreq_raisesOnly _
  | srcRewind => exact sourceRewind_raisesOnly _
  | heapInsert sym =>
    refine (newNode_raisesOnly _ _).bind fun n t => ?_
    exact (heapInsert_raisesOnly n t).bind fun _ u => Run.raisesOnly_done _ _ _
  | heapExtract => exact fun e t h => absurd h (heapExtract_body_ne_raised s t e)
  | heapMerge =>
    rw [commandBody]
    split
    · exact Run.raisesOnly_done _ _ _
    · split
      · simp [mayRaise]
      · exact (mergeTwo_raisesOnly _).bind fun n t => Run.raisesOnly_done _ _ _
  | heapGet idx | nodeGet idx =>
    obtain ⟨n, hn⟩ := exists_slotOf_of_indexOk hwf
    simp [commandBody, hn]
  | buildTree => exact buildTree_raisesOnly s
  | genCodes =>
    rw [commandBody]
    split
    · simp [mayRaise]
    · exact genCodes_raisesOnly s _
  | hdrWrite => exact writeHeader_raisesOnly s
  | hdrRead => exact readHeader_raisesOnly _
  | bwBit b => exact putBit_raisesOnly b s
  | bwFlush => exact flushBits_raisesOnly s
  | bwSym sym =>
    rw [commandBody]
    split
    · simp [mayRaise]
    · split
      · simp [mayRaise]
      · exact ((putCode_raisesOnly sym s).mono (by simp [mayRaise])).bind fun _ t => Run.raisesOnly_done _ _ _
  | brBit =>
    refine (getBit_raisesOnly s).bind fun b t => ?_
    cases b <;> exact Run.raisesOnly_done _ _ _
  | brSym =>
    rw [commandBody]
    split
    · simp [mayRaise]
    · refine ((decodeSym_raisesOnly s).mono (by decide)).bind fun r t => ?_
      cases r <;> exact Run.raisesOnly_done _ _ _
  | compress => exact compressBody_raisesOnly s
  | decompress => exact decompressBody_raisesOnly s

/-- No body writes ERRCODE: only the error entry and RESET do (10_state.md R24). -/
theorem CommandFrame.errcode {i : Instr} {s t : State} (h : CommandFrame i s t) (hi : i ≠ .reset) :
    t.errcode = s.errcode := by
  cases i with
  | reset => exact absurd rfl hi
  | _ => rw [CommandFrame] at h; rw [h]

/-- Settles O12: a command that ends with an error has raised it (`CommandFrame.errcode`), so the error is in its row
(`commandBody_raisesOnly`). -/
theorem commandsRaiseOnlyTheirErrors : Obligations.CommandsRaiseOnlyTheirErrors := by
  intro i s t e hwf hs h he
  rcases exec_cases h with ⟨-, rfl⟩ | ⟨-, hne, -⟩ | ⟨hi, -, hd⟩ | ⟨e', u, -, -, hr, rfl⟩
  · cases he
  · exact absurd hs hne
  · have hkept := ((commandBody_frame i (clearFlags s)).of_done hd).errcode hi
    rw [he, clearFlags_errcode, hs] at hkept
    cases hkept
  · cases he
    exact ⟨commandBody_raisesOnly hwf _ e u hr, rfl⟩

end Sys2Proof.Machine
end
